-- ==== Sys2Proof/Word.lean ====
section
/-! DEFINITION. The words of the part: octets, sequence numbers, counters, and the numbers of its lanes, trunks and ports
(spec/00_scope.md, Conventions; spec/11_frame_and_record_formats.md, R174 and R175). -/

namespace Sys2Proof

/-- One octet (R174). -/
abbrev Octet := BitVec 8

/-- A two-octet field (R174). -/
abbrev Pair := BitVec 16

/-- A block sequence number, 0..16383, wrapping (spec/00_scope.md, Sequence arithmetic; R1). -/
abbrev SeqNo := BitVec 14

/-- A 32-bit wrapping counter or a timestamp (spec/00_scope.md, Wrapping counters; R175). -/
abbrev Count := BitVec 32

/-- Lanes L0 to L15. -/
abbrev Lane := Fin 16

/-- Trunks T0 to T7. -/
abbrev Trunk := Fin 8

/-- Controller ports P0 to P3. -/
abbrev Port := Fin 4

/-- The 58 payload octets of a block (R1). -/
abbrev Payload := Vector Octet 58

/-- A set of ports: entry k says whether Pk is in the set (R175). -/
abbrev PortSet := Vector Bool 4

end Sys2Proof
end

