-- ==== Sys2Proof/Syntax.lean ====
section
/-! DEFINITION. The commands of the part: one constructor of `Instr` for each row of spec/opcode_table.json, with the
operands the spec gives the step. Operand octets of SPI commands are unsigned octets as received, so that a value out of
range can be given and is judged by its owner (R174). -/

namespace Sys2Proof

/-- Which part of a command step is taken (log entry 10). A command owned by another block is handed to it (R132), and
another event may fall between the port controller's check and the owner's taking (R56, R113, R148); and a query reads each
record by itself (R142), with HALT declared meanwhile perhaps (R143). -/
inductive Part where
  /-- The frame is taken, checked, handed over and taken by its owner, with nothing between. -/
  | whole
  /-- The frame is taken and checked by the port controller, and handed over; the execution of a query begins. -/
  | handOver
  /-- A query under way reads one of its records (log entry 12). -/
  | read (record : Nat)
  /-- The owner takes the command handed over earlier; a query reads the records it has not read, and is complete. -/
  | atOwner
deriving DecidableEq, Repr

/-- Which part of a transaction is taken (log entries 11 and 14): other events may fall inside a transaction (R129, R157,
R158). -/
inductive FetchPart where
  /-- PCSn falls, this many whole octets of a FETCH are clocked, and PCSn rises, with nothing between. -/
  | whole (octets : Nat)
  /-- PCSn falls: every transaction begins so, and the kind octet comes later (R128). -/
  | start
  /-- This many whole octets are clocked in a FETCH. -/
  | clock (octets : Nat)
  /-- This many whole octets are clocked in a transaction of another kind; the row that carries its octets ends it. -/
  | pass (octets : Nat)
  /-- PCSn rises at the end of a FETCH, or before one whole octet. -/
  | stop
deriving DecidableEq, Repr

/-- The commands of the part, in the order of spec/opcode_table.json. -/
inductive Instr where
  | attach (p : Port) (tag lease : Octet)
  | renew (p : Port) (tag : Octet)
  | detach (p : Port) (tag : Octet)
  | queryDevice (p : Port) (tag : Octet) (part : Part)
  | queryPorts (p : Port) (tag : Octet) (part : Part)
  | queryLane (p : Port) (tag : Octet) (part : Part) (lane : Octet)
  | queryTrunk (p : Port) (tag : Octet) (part : Part) (trunk : Octet)
  | queryHistory (p : Port) (tag : Octet) (part : Part) (trunk : Octet)
  | subscribe (p : Port) (tag cls mode : Octet)
  | setDegrade (p : Port) (tag : Octet) (part : Part) (lane : Octet) (set clear : Pair)
  | clearLaneCounters (p : Port) (tag : Octet) (part : Part) (lane : Octet)
  | ballot (p : Port) (tag : Octet) (part : Part) (trunk lane : Octet)
  | hold (p : Port) (tag : Octet) (part : Part) (trunk lane : Octet)
  | release (p : Port) (tag : Octet) (part : Part) (trunk : Octet)
  | bar (p : Port) (tag : Octet) (part : Part) (lane : Octet)
  | lift (p : Port) (tag : Octet) (part : Part) (lane : Octet)
  | liftStale (p : Port) (tag : Octet) (part : Part) (lane port : Octet)
  | propose (p : Port) (tag : Octet) (part : Part)
      (trunk count m1 m2 m3 m4 revertive mend holdOff : Octet) (restoreWait : Pair)
  | concur (p : Port) (tag : Octet) (part : Part) (trunk : Octet) (number : Pair)
  | dissent (p : Port) (tag : Octet) (part : Part) (trunk : Octet) (number : Pair)
  | withdraw (p : Port) (tag : Octet) (part : Part) (trunk : Octet) (number : Pair)
  /-- A COMMAND transaction given by the octets received, kind octet first (R130). -/
  | unknownCommand (p : Port) (octets : List Octet)
  /-- A COMMAND transaction that ends, given by the octets received (R131). -/
  | busyDrop (p : Port) (octets : List Octet)
  /-- A COMMAND transaction that ends, given by the octets received (R131). -/
  | commandDiscarded (p : Port) (octets : List Octet)
  /-- A transaction given by the whole octets received; none when PCSn rises before one is complete (R128). -/
  | ignoredTransaction (p : Port) (octets : List Octet)
  | responsePlaced (p : Port)
  | fetch (p : Port) (part : FetchPart)
  | portReset (p : Port)
  | portResetRelease (p : Port)
  | leaseExpiry (p : Port)
  | deadlineExpiry (t : Trunk)
  | holdOffExpiry (t : Trunk)
  | restoreWaitExpiry (t : Trunk)
  | alignWaitExpiry (t : Trunk)
  | alignmentLoss (t : Trunk)
  | blockPeriod
  | emissionInstant (t : Trunk)
  | scanCapture
  /-- `choice` counts into the triggers the selector may take next (R73; log entry 9). -/
  | triggerEvaluation (t : Trunk) (choice : Nat)
  | clockLoss (l : Lane)
  | stuckData (l : Lane)
  /-- `clockRunning`: a rising edge of the lane clock was seen within the last 48 nominal bit periods (R6). -/
  | dataTransition (l : Lane) (clockRunning : Bool)
  /-- `bits`: the group of 16 received bits compared in the search (R7). -/
  | syncMatch (l : Lane) (bits : Pair)
  /-- `bits`: the 16 bits examined at the expected position (R8, R9). -/
  | expectedPosition (l : Lane) (bits : Pair)
  /-- The block at a block position as received: header octets, payload, check field (R11; layout in 11.2). -/
  | blockPosition (l : Lane) (header : Pair) (payload : Payload) (check : Pair)
  | fillAlarm (l : Lane)
  | degradeDeclared (l : Lane)
  | degradeWindowEnd (l : Lane)
  | halt
  /-- `elapsed`: oscillator nanoseconds since the monitor's event before this one (R167; log entry 16). -/
  | qualifying (elapsed : Nat)
  /-- `elapsed`: oscillator nanoseconds since qualification began (R167; log entry 16). -/
  | qualificationAbandoned (elapsed : Nat)
  | haltResume
  | deviceResetAsserted
  | deviceReset
  /-- `choice` counts into the offers port p may take next (R149; log entry 8). -/
  | notificationOffer (p : Port) (choice : Nat)
deriving DecidableEq, Repr

end Sys2Proof
end

