-- ==== Sys2Proof/Decode.lean ====
section
/-! DEFINITION. The command a table word spells, and the constants by which a transaction or a qualification is told. No row of spec/opcode_table.json gives bits (its "fields" are empty for all
55), so no word spells a command (log entry 24). The frames that do reach the part on a pin are read in
Sys2Proof/Machine/Frames.lean. -/

namespace Sys2Proof

/-- The kind octet of a COMMAND transaction (R128). -/
def kindCommand : Octet := 0xA5

/-- The kind octet of a FETCH transaction (R128). -/
def kindFetch : Octet := 0x5A

/-- The oscillator time that ends a qualification, in nanoseconds: 1 ms (R167). -/
def qualificationNs : Nat := 1000000

/-- The table gives no row any bits: every word is refused. -/
def decodeTableWord (_nbits _w : Nat) : Option Instr := none

end Sys2Proof
end

