-- ==== Sys2Proof/Config.lean ====
section
/-! DEFINITION. What an implementation fixes and the free values: the part and revision codes of QUERY-DEVICE (R143), and
the octets the spec leaves open on PSDO (log entry 15), and the cause it leaves open (log entry 29). -/

namespace Sys2Proof.Config

/-- The part code QUERY-DEVICE reports (R143). -/
def partCode : Pair := 0x0816

/-- The revision code of the part described by the spec (R143). -/
def revisionCode : Octet := 0x01

/-- The octet PSDO carries inside a transaction that a port reset has abandoned, once PRSTn is high again and before PCSn rises: the
spec gives no value (R128, R141; log entry 15). A free value: applied to the counter `State.freeCount`. -/
opaque freeOctet : Nat → Octet

/-- Which of the six causes that R80 gives to switches the history record of a switch carries, when a restore-wait expiry
makes it towards another lane than its candidate: the table of R80 names none. A free value: applied to the counter
`State.freeCount`. -/
opaque freeCauseIndex : Nat → Fin 6

end Sys2Proof.Config
end

