-- ==== Sys2Proof/Machine/State.lean ====
section
/-! DEFINITION. The state of the part as plain data, field by field from the record tables of the spec (R4, R24, R29, R44,
R55, R72, R92, R111, R127, R155, R167), and its value right after device reset. -/

namespace Sys2Proof.Machine

/-! ## Names (codes in 11.6) -/

/-- Lock state of a lane (R4). -/
inductive LockState where
  | dark | hunt | confirm | locked | coast
deriving DecidableEq, Repr

/-- Grade of a lane (R4, R18). -/
inductive Grade where
  | good | degraded | failed
deriving DecidableEq, Repr

/-- Alignment status of a lane (R24, R31). -/
inductive AlignStatus where
  | aligned | behind | ahead | missing | empty
deriving DecidableEq, Repr

/-- Trunk state (R72, R89). -/
inductive TrunkMode where
  | disabled | starved | carrying | switching
deriving DecidableEq, Repr

/-- Port state (R127). -/
inductive PortMode where
  | offline | attached | lapsed
deriving DecidableEq, Repr

/-- Subscription mode (R150). -/
inductive SubMode where
  | off | onset | both
deriving DecidableEq, Repr

/-- Notification class (9.1). -/
inductive EventClass where
  | lane | trunk | claim | charter | port | device
deriving DecidableEq, Repr

/-- History cause (R92). -/
inductive Cause where
  | start | starve | health | bar | membership | hold | ballot | revert | alignLoss | slip | resume | disable
deriving DecidableEq, Repr

/-- History kind (R92); `nil` is the spec's NONE. -/
inductive SwitchKind where
  | hitless | hit | nil
deriving DecidableEq, Repr

/-- Outcome of a proposal that closes without an install (R118). -/
inductive Closing where
  | rejected | withdrawn | voided | expired
deriving DecidableEq, Repr

/-- Reason of a closing; LAPSE, DETACH and PORT-RESET are also the causes of a departure (R118, R140). -/
inductive Reason where
  | dissent | withdraw | lapse | detach | portReset | deadline
deriving DecidableEq, Repr

/-- Command outcomes (11.6). -/
inductive Code where
  | accepted | installed
  | unknownCommand | frameError | short | notAttached | alreadyAttached | badLease | noSuchLane | noSuchTrunk
  | noSuchPort | badValue | notOwner | notMember | heldByOther | noHold | barred | notBarred | notStale
  | barsHeld | badCharter | notParty | proposalOpen | laneTaken | laneContested | noProposal | wrongProposal
deriving DecidableEq, Repr

/-- The blocks of the part that offer events or send triggers (spec/00_scope.md, Functional overview; R73, R149). -/
inductive Block where
  | receiver (l : Lane)
  | selector (t : Trunk)
  | emitter (t : Trunk)
  | registry
  | charterStore
  | concurrence
  | portController (p : Port)
  | timebase
deriving DecidableEq, Repr

/-! ## Lanes -/

/-- A block as a lane buffer holds it: sequence, flags and payload as the receiver offered them (R24). -/
structure LaneBlock where
  seq : SeqNo
  fill : Bool
  brk : Bool
  payload : Payload
deriving DecidableEq, Repr

/-- A step of a receiver that a processed block position has made due and that has not been taken yet: the rows
FILL_ALARM (R15), DEGRADE_DECLARED (R16) and DEGRADE_WINDOW_END (R17) (log entry 4). -/
inductive LaneStep where
  | fillAlarm | degradeDeclared | windowEnd
deriving DecidableEq, Repr

/-- The receiver record (R4), with the block being received (R11) and the steps due (log entry 4). -/
structure Receiver where
  lock : LockState
  syncCount : Nat
  missCount : Nat
  expected : Option SeqNo
  fillAlarm : Bool
  alarmRun : Nat
  windowPos : Nat
  windowCount : Nat
  degrade : Bool
  degradeSet : Nat
  degradeClear : Nat
  grade : Grade
  goodBlocks : Count
  checkFailures : Count
  sequenceBreaks : Count
  fillBlocks : Count
  overflowDrops : Count
  /-- A block position has begun whose block has not been processed or abandoned (R11, R10). -/
  blockOpen : Bool
  due : List LaneStep
deriving DecidableEq, Repr

/-- A lane: its receiver, its buffer and last alignment status in the alignment store (R24), its bar set (R55). -/
structure LaneState where
  rx : Receiver
  buffer : List LaneBlock
  status : AlignStatus
  bars : PortSet
deriving DecidableEq, Repr

/-! ## Trunks -/

/-- The fields of a charter that a proposal gives (R44, R111). Hold-off counts 10 ms steps and restore-wait seconds. -/
structure CharterTerms where
  members : List Lane
  revertive : Bool
  mend : Bool
  holdOff : Nat
  restoreWait : Nat
deriving DecidableEq, Repr

/-- An installed charter (R44). -/
structure Charter where
  terms : CharterTerms
  version : Pair
deriving DecidableEq, Repr

/-- A hold (R55). -/
structure Hold where
  owner : Port
  session : Octet
  lane : Lane
  dormant : Bool
deriving DecidableEq, Repr

/-- The hold-off timer (R72). RUNNING 0 stands for a timer that has run out and whose expiry has not been taken (log
entry 6). -/
inductive HoldOffTimer where
  | idle
  | running (remaining : Nat)
deriving DecidableEq, Repr

/-- The restore timer (R72). RUNNING with remaining 0 as for the hold-off timer (log entry 6). -/
inductive RestoreTimer where
  | idle
  | running (candidate : Lane) (remaining : Nat)
  | due (candidate : Lane)
deriving DecidableEq, Repr

/-- The pending record: an immediate switch whose kind is yet to be judged (R72, R83), with the stamps of the offers made
before the work that made it was handed on (R149, R117; log entry 8). -/
structure PendingSwitch where
  src : Option Lane
  cause : Cause
  after : List Nat
deriving DecidableEq, Repr

/-- The selection record (R72), and beside the switch cause the stamps of the offers made before the work that began the
switch was handed on (R149, R117; log entry 8). -/
structure Selection where
  mode : TrunkMode
  active : Option Lane
  target : Option Lane
  alignWait : Nat
  cause : Option Cause
  causeAfter : List Nat
  holdOff : HoldOffTimer
  restore : RestoreTimer
  pendingSwitch : Option PendingSwitch
deriving DecidableEq, Repr

/-- The seven trunk counters (R41). -/
structure TrunkCounters where
  emitted : Count
  fromActive : Count
  mended : Count
  fill : Count
  hitless : Count
  hit : Count
  slips : Count
deriving DecidableEq, Repr

/-- A block on a trunk output: the fields of 11.2 less the sync word. -/
structure OutBlock where
  seq : SeqNo
  fill : Bool
  brk : Bool
  payload : Payload
  check : Pair
deriving DecidableEq, Repr

/-- The emitter record (R29), and what TD carries: `none` while TD and TC are held low (R42, R43; log entry 19). -/
structure Emitter where
  cursor : SeqNo
  centring : Bool
  misalign : Nat
  gapRun : Bool
  lastEmitted : Option SeqNo
  breakPending : Bool
  immediatePending : Bool
  counters : TrunkCounters
  td : Option OutBlock
deriving DecidableEq, Repr

/-- A switch history record (R92). -/
structure HistoryRecord where
  time : Count
  cause : Cause
  src : Option Lane
  dst : Option Lane
  kind : SwitchKind
  version : Pair
deriving DecidableEq, Repr

/-- An open proposal (R111). Its trunk is the trunk that holds it. -/
structure Proposal where
  number : Pair
  proposer : Port
  session : Octet
  terms : CharterTerms
  required : PortSet
  concurred : PortSet
  deadline : Count
deriving DecidableEq, Repr

/-- What the emitter reports to its selector at an instant (R35, R33 step 1, R37, R38). -/
inductive ReportKind where
  /-- The judgement of an immediate switch, with the lane active at the instant (R35). -/
  | judgement (lane : Option Lane) (kind : SwitchKind)
  /-- Hitless completion, with the lane whose block was emitted (R33 step 1). -/
  | completion (lane : Lane)
  /-- Alignment loss, with the active lane and the statuses judged (R37). -/
  | alignmentLoss (active : Option Lane) (statuses : List (Lane × AlignStatus))
  /-- Align-wait expiry (R38). -/
  | alignWaitExpiry
deriving DecidableEq, Repr

/-- A report, with the stamps of the offers made before it was handed on (R149; log entry 8). -/
structure Report where
  kind : ReportKind
  after : List Nat
deriving DecidableEq, Repr

/-- A trunk: charter (R44), claims (R55), selection record (R72), emitter record (R29), history (R92), proposal (R111), and
the reports of the latest instant not yet taken (R88; log entry 5). -/
structure TrunkState where
  charter : Charter
  ballots : Vector (Option Lane) 4
  favoured : Option Lane
  hold : Option Hold
  sel : Selection
  em : Emitter
  /-- Oldest first (R92). -/
  history : List HistoryRecord
  proposal : Option Proposal
  reports : List Report
deriving DecidableEq, Repr

/-! ## Triggers and events -/

/-- Trigger kinds (R73). -/
inductive TriggerKind where
  | grade (l : Lane)
  | bar
  | hold
  | ballot
  | install
  | holdOffExpiry
  | restoreExpiry
  | report
deriving DecidableEq, Repr

/-- An outstanding trigger (R73). `stamp` orders triggers of one sender; `after` holds the stamps of the offers made
before the work that sent it was handed on (R149). -/
structure Trigger where
  trunk : Trunk
  kind : TriggerKind
  sender : Block
  stamp : Nat
  after : List Nat
deriving DecidableEq, Repr

/-- Events, one constructor for each kind of 9.1, with the details of 11.5. -/
inductive Event where
  | gradeWorse (l : Lane) (prev new : Grade) (lock : LockState) (fill degrade : Bool)
  | gradeBetter (l : Lane) (prev new : Grade) (lock : LockState) (fill degrade : Bool)
  | switched (t : Trunk) (cause : Cause) (src dst : Option Lane) (kind : SwitchKind) (version : Pair)
  | starved (t : Trunk) (cause : Cause) (src : Option Lane)
  | gapRunBegin (t : Trunk) (seq : Option SeqNo) (active : Option Lane)
  | fed (t : Trunk) (active : Lane)
  | gapRunEnd (t : Trunk) (seq : Option SeqNo) (active : Option Lane)
  | holdDormant (t : Trunk) (lane : Lane) (owner : Port) (session : Octet) (grade : Grade) (barred : Bool)
  | barPlaced (l : Lane) (port : Port) (bars : PortSet) (trunk : Option Trunk)
  | claimDropped (t : Trunk) (port : Port) (session : Octet) (ballot hold : Option Lane) (cause : Reason)
  | claimDiscarded (t : Trunk) (isHold : Bool) (port : Port) (lane : Lane) (version : Pair)
  | favouredChanged (t : Trunk) (prev new : Option Lane) (ballots : Nat) (version : Pair)
  | holdActive (t : Trunk) (lane : Lane) (owner : Port) (session : Octet) (grade : Grade) (barred : Bool)
  | barLifted (l : Lane) (port issuer : Port) (bars : PortSet) (trunk : Option Trunk)
  | proposed (t : Trunk) (number : Pair) (proposer : Port) (session : Octet) (required : PortSet) (members : Nat)
  | installed (t : Trunk) (version number : Pair) (port : Port) (members : Nat)
  | closed (t : Trunk) (number : Pair) (outcome : Closing) (port : Option Port) (reason : Reason)
      (concurred : PortSet)
  | peerLapsed (p : Port) (session lease : Octet)
  | peerDetached (p : Port) (session : Octet)
  | peerReset (p : Port) (left : PortMode) (session : Octet)
  | selfLapsed (p : Port) (session lease : Octet)
  | peerAttached (p : Port) (session : Octet) (left : PortMode)
  | haltEnded (ms : Nat) (haltCount : Count)
deriving DecidableEq, Repr

/-- An event offered to port controllers, some of which have not taken it yet (R149). -/
structure Offer where
  event : Event
  time : Count
  block : Block
  stamp : Nat
  after : List Nat
  /-- The port controllers that have yet to take the offer. -/
  dest : List Port
deriving DecidableEq, Repr

/-- A queue entry (R155). -/
inductive Entry where
  | note (number : Pair) (event : Event) (time : Count)
  | lost (number : Pair) (count : Nat) (time latest : Count)
deriving DecidableEq, Repr

/-! ## Ports -/

/-- A command frame's code and operands once it has passed the frame check (R130; codes and operand order in 11.3). -/
inductive Command where
  | attach (lease : Octet)
  | renew
  | detach
  | queryDevice
  | queryPorts
  | queryLane (lane : Octet)
  | queryTrunk (trunk : Octet)
  | queryHistory (trunk : Octet)
  | subscribe (cls mode : Octet)
  | setDegrade (lane : Octet) (set clear : Pair)
  | clearLaneCounters (lane : Octet)
  | ballot (trunk lane : Octet)
  | hold (trunk lane : Octet)
  | release (trunk : Octet)
  | bar (lane : Octet)
  | lift (lane : Octet)
  | liftStale (lane port : Octet)
  | propose (trunk count m1 m2 m3 m4 revertive mend holdOff : Octet) (restoreWait : Pair)
  | concur (trunk : Octet) (number : Pair)
  | dissent (trunk : Octet) (number : Pair)
  | withdraw (trunk : Octet) (number : Pair)
deriving DecidableEq, Repr

/-- A response (R132). -/
structure Response where
  tag : Octet
  code : Octet
  outcome : Code
  result : List Octet
deriving DecidableEq, Repr

/-- The command slot (R127). -/
inductive CommandSlot where
  | empty
  /-- A command on its way to its owner (R132), with the stamps of the offers its port controller had made (R149). -/
  | handed (tag : Octet) (c : Command) (after : List Nat)
  /-- A query under way: the octets of the records it has read so far, by the record's number (R142; log entry 12). -/
  | reading (tag : Octet) (c : Command) (got : List (Nat × List Octet))
  /-- A command executed whose response is not yet placed (R132). -/
  | done (r : Response)
deriving DecidableEq, Repr

/-- One subscription per class (R150). -/
structure Subscriptions where
  lane : SubMode
  trunk : SubMode
  claim : SubMode
  charter : SubMode
  port : SubMode
  device : SubMode
deriving DecidableEq, Repr

/-- What a transaction sends next (R128, R134, R157). -/
inductive Phase where
  /-- Status octets still to be sent. -/
  | status (left : List Octet)
  /-- Response octets still to be sent. -/
  | response (left : List Octet)
  /-- The entry being sent and its octets still to be sent. -/
  | entry (e : Entry) (left : List Octet)
  /-- 0x00 until PCSn rises. -/
  | zeros
  /-- A port reset has abandoned the transaction (R141). -/
  | abandoned
deriving DecidableEq, Repr

/-- A transaction in progress: PCSn has fallen (R128). -/
structure Transaction where
  phase : Phase
  /-- Whether the kind octet is that of a FETCH; `none` while no whole octet has been clocked. -/
  isFetch : Option Bool
  /-- The octets of the response that was in the slot when PCSn fell. -/
  response : Option (List Octet)
  /-- The part was in HALT when PCSn fell, or HALT has been declared since. -/
  halted : Bool
  /-- The response's last octet has been clocked out. -/
  responseSent : Bool
  /-- PRSTn was low when PCSn fell: the transaction is ignored to its end (R141; log entry 15). -/
  ignored : Bool
deriving DecidableEq, Repr

/-- The port record (R127), PRSTn, and the transaction in progress. -/
structure PortState where
  mode : PortMode
  session : Octet
  leaseLength : Octet
  leaseRemaining : Nat
  slot : CommandSlot
  response : Option Response
  busyDrop : Bool
  subs : Subscriptions
  /-- Oldest first (R154). -/
  queue : List Entry
  entryNumber : Pair
  prstnLow : Bool
  transaction : Option Transaction
  /-- The octets PSDO has carried in the current transaction, or in the latest one. -/
  psdo : List Octet
deriving DecidableEq, Repr

/-- A command at its owner whose port has been reset: its effects complete, its response is discarded (R141, R148). -/
structure Orphan where
  port : Port
  tag : Octet
  command : Command
  after : List Nat
deriving DecidableEq, Repr

/-! ## The part -/

/-- State of the reference monitor (R167). -/
inductive MonitorState where
  | absent | qualifying | present
deriving DecidableEq, Repr

/-- The reference monitor (R167), its times in oscillator nanoseconds (log entry 16). -/
structure Monitor where
  state : MonitorState
  qualNs : Nat
  haltNs : Nat
deriving DecidableEq, Repr

/-- The whole state. -/
structure State where
  /-- RSTn is low (R172). -/
  rstnLow : Bool
  /-- The start-up resume has been taken since device reset (R173). -/
  started : Bool
  monitor : Monitor
  blockCounter : Count
  haltCount : Count
  /-- Which trunks' instants have fallen in the current block period (R30, R165; log entry 2). -/
  instantTaken : Vector Bool 8
  /-- The scan frame of the current block period has been captured (R163; log entry 2). -/
  scanCaptured : Bool
  /-- The octets SCANO carries in the current block period, the scan frame and then ones; `none` while SCANO and SCANCK are
  held low (R162, R164). -/
  scano : Option (List Octet)
  lanes : Vector LaneState 16
  trunks : Vector TrunkState 8
  ports : Vector PortState 4
  /-- The proposal number counter (R112). -/
  proposalCounter : Pair
  orphans : List Orphan
  triggers : List Trigger
  offers : List Offer
  /-- The model's own: orders offers and triggers (log entries 8 and 9). -/
  stamp : Nat
  /-- The model's own: the counter `Config.freeOctet` is applied to (log entry 15). -/
  freeCount : Nat
  /-- The commands waiting, first in, first out. -/
  pending : List Instr
deriving DecidableEq, Repr

/-! ## Reset -/

/-- R22. -/
def Receiver.reset : Receiver where
  lock := .hunt
  syncCount := 0
  missCount := 0
  expected := none
  fillAlarm := false
  alarmRun := 0
  windowPos := 0
  windowCount := 0
  degrade := false
  degradeSet := 16
  degradeClear := 2
  grade := .failed
  goodBlocks := 0
  checkFailures := 0
  sequenceBreaks := 0
  fillBlocks := 0
  overflowDrops := 0
  blockOpen := false
  due := []

/-- R22, R43, R71. -/
def LaneState.reset : LaneState where
  rx := Receiver.reset
  buffer := []
  status := .empty
  bars := Vector.replicate 4 false

/-- R54. -/
def CharterTerms.reset : CharterTerms where
  members := []
  revertive := false
  mend := false
  holdOff := 0
  restoreWait := 0

/-- R91. -/
def Selection.reset : Selection where
  mode := .disabled
  active := none
  target := none
  alignWait := 0
  cause := none
  causeAfter := []
  holdOff := .idle
  restore := .idle
  pendingSwitch := none

/-- R43. -/
def TrunkCounters.reset : TrunkCounters where
  emitted := 0
  fromActive := 0
  mended := 0
  fill := 0
  hitless := 0
  hit := 0
  slips := 0

/-- R43. -/
def Emitter.reset : Emitter where
  cursor := 0
  centring := false
  misalign := 0
  gapRun := false
  lastEmitted := none
  breakPending := false
  immediatePending := false
  counters := TrunkCounters.reset
  td := none

/-- R43, R54, R71, R91, R109, R126. -/
def TrunkState.reset : TrunkState where
  charter := { terms := CharterTerms.reset, version := 0 }
  ballots := Vector.replicate 4 none
  favoured := none
  hold := none
  sel := Selection.reset
  em := Emitter.reset
  history := []
  proposal := none
  reports := []

/-- R147: OFF for every class. -/
def Subscriptions.allOff : Subscriptions where
  lane := .off
  trunk := .off
  claim := .off
  charter := .off
  port := .off
  device := .off

/-- R147. -/
def PortState.reset : PortState where
  mode := .offline
  session := 0
  leaseLength := 1
  leaseRemaining := 0
  slot := .empty
  response := none
  busyDrop := false
  subs := Subscriptions.allOff
  queue := []
  entryNumber := 0
  prstnLow := false
  transaction := none
  psdo := []

/-- The part right after device reset: every record at its device-reset value, and HALT holding because the reference
monitor is ABSENT (R172). Fields the spec gives no value at reset: log entry 21. -/
def State.reset : State where
  rstnLow := false
  started := false
  monitor := { state := .absent, qualNs := 0, haltNs := 0 }
  blockCounter := 0
  haltCount := 0
  instantTaken := Vector.replicate 8 false
  scanCaptured := false
  scano := none
  lanes := Vector.replicate 16 LaneState.reset
  trunks := Vector.replicate 8 TrunkState.reset
  ports := Vector.replicate 4 PortState.reset
  proposalCounter := 0
  orphans := []
  triggers := []
  offers := []
  stamp := 0
  freeCount := 0
  pending := []

/-! ## How a step can stop -/

/-- Reasons the machine stops with a fault. The spec names no behaviour that stops the part: HALT (R168) and RSTn low
(R172) are states it leaves again, and every refused command is answered with an outcome code. So there is none. -/
inductive Fault where
deriving DecidableEq, Repr

/-- Reasons a step is refused. -/
inductive Refusal where
  /-- A command that has no meaning in the model yet. Nothing raises it: every row has its meaning. Safe. -/
  | notModelled (mnemonic : String)
deriving DecidableEq, Repr

end Sys2Proof.Machine
end

