-- ==== Sys2Proof/Machine/Ops.lean ====
section
/-! DEFINITION. The named operations over the records: reading and replacing one, the part's standing (RSTn, HALT), sequence
arithmetic, sets of ports, wrapping numbers, membership, offers and triggers. -/

namespace Sys2Proof.Machine

/-! ## Constants of the spec -/

/-- Block periods of one 10 ms step of hold-off (R44). -/
def holdOffStep : Nat := 160
/-- Block periods of one 1 s step of restore-wait (R44). -/
def restoreStep : Nat := 16000
/-- Block periods of one 100 ms step of a lease (R127). -/
def leaseStep : Nat := 1600
/-- Block periods from a proposal's opening to its deadline (R112). -/
def deadlinePeriods : Nat := 32000
/-- Blocks a lane buffer holds (R24). -/
def bufferLimit : Nat := 8
/-- Records a switch history holds (R92). -/
def historyLimit : Nat := 8
/-- Entries a notification queue holds (R154). -/
def queueLimit : Nat := 32
/-- Block positions of a degrade window (R17). -/
def windowLength : Nat := 1600
/-- Passing blocks in a row that change the fill alarm (R15). -/
def fillAlarmRun : Nat := 8
/-- Emissions in a row without the active lane's block that raise alignment loss (R37). -/
def misalignLimit : Nat := 4
/-- Emission instants after which a switch completes with a hit (R38). -/
def alignWaitLimit : Nat := 16
/-- The sync word (R1). -/
def syncWord : Pair := 0x3AC5
/-- Greatest count of a LOST marker (R154). -/
def lostLimit : Nat := 65535
/-- Greatest halt duration in milliseconds (R167). -/
def haltLimit : Nat := 65535

/-! ## The numbers of lanes, trunks and ports -/

def allPorts : List Port := [0, 1, 2, 3]
def allTrunks : List Trunk := [0, 1, 2, 3, 4, 5, 6, 7]
def allLanes : List Lane := [0, 1, 2, 3, 4, 5, 6, 7, 8, 9, 10, 11, 12, 13, 14, 15]

/-- The other three port controllers. -/
def otherPorts (p : Port) : List Port := allPorts.filter (· != p)

/-- The port that owns lane n: the port n / 4 (spec/00_scope.md, How the part is reached). -/
def owner (l : Lane) : Port := ⟨l.val / 4, by omega⟩

/-! ## Reading and replacing a record -/

def State.lane (s : State) (l : Lane) : LaneState := s.lanes[l.val]
def State.trunk (s : State) (t : Trunk) : TrunkState := s.trunks[t.val]
def State.port (s : State) (p : Port) : PortState := s.ports[p.val]

def State.setLane (s : State) (l : Lane) (x : LaneState) : State := { s with lanes := s.lanes.set l.val x }
def State.setTrunk (s : State) (t : Trunk) (x : TrunkState) : State := { s with trunks := s.trunks.set t.val x }
def State.setPort (s : State) (p : Port) (x : PortState) : State := { s with ports := s.ports.set p.val x }

def State.modLane (s : State) (l : Lane) (f : LaneState → LaneState) : State := s.setLane l (f (s.lane l))
def State.modTrunk (s : State) (t : Trunk) (f : TrunkState → TrunkState) : State := s.setTrunk t (f (s.trunk t))
def State.modPort (s : State) (p : Port) (f : PortState → PortState) : State := s.setPort p (f (s.port p))

def State.modRx (s : State) (l : Lane) (f : Receiver → Receiver) : State :=
  s.modLane l fun x => { x with rx := f x.rx }
def State.modSel (s : State) (t : Trunk) (f : Selection → Selection) : State :=
  s.modTrunk t fun x => { x with sel := f x.sel }
def State.modEm (s : State) (t : Trunk) (f : Emitter → Emitter) : State :=
  s.modTrunk t fun x => { x with em := f x.em }

/-! ## The part's standing -/

/-- HALT holds unless the reference is qualified (R167). -/
def State.halted (s : State) : Bool := s.monitor.state != .present

/-- The timebase runs and the receivers run: RSTn is high and the part is not in HALT (R168, R172). -/
def State.running (s : State) : Bool := !s.rstnLow && !s.halted

/-! ## Sequence arithmetic and numbers with their own wrap -/

/-- a is later than b when (a - b) mod 16384 lies in 1..8191 (spec/00_scope.md, Sequence arithmetic). -/
def later (a b : SeqNo) : Bool := 1 ≤ (a - b).toNat && (a - b).toNat ≤ 8191

/-- a is earlier than b when (b - a) mod 16384 lies in 1..8191. -/
def earlier (a b : SeqNo) : Bool := later b a

/-- The next session number: 255 is followed by 1 (R136). -/
def nextSession (n : Octet) : Octet := if n = 255 then 1 else n + 1

/-- The next charter version or proposal number: 65535 is followed by 1 (R45, R112). -/
def nextNumber (n : Pair) : Pair := if n = 65535 then 1 else n + 1

/-! ## Sets of ports -/

def PortSet.has (ps : PortSet) (p : Port) : Bool := ps[p.val]
def PortSet.add (ps : PortSet) (p : Port) : PortSet := ps.set p.val true
def PortSet.remove (ps : PortSet) (p : Port) : PortSet := ps.set p.val false
def PortSet.isEmpty (ps : PortSet) : Bool := ps == Vector.replicate 4 false
def PortSet.only (p : Port) : PortSet := (Vector.replicate 4 false : PortSet).set p.val true
/-- The set of the ports a test holds of. -/
def PortSet.of (f : Port → Bool) : PortSet := #v[f 0, f 1, f 2, f 3]

/-! ## Membership and bars -/

/-- The members of a trunk's installed charter, in rank order (R44). -/
def State.members (s : State) (t : Trunk) : List Lane := (s.trunk t).charter.terms.members

/-- The membership lookup (R47): the trunk whose installed charter contains the lane, or none. -/
def State.trunkOf (s : State) (l : Lane) : Option Trunk := allTrunks.find? fun t => (s.members t).contains l

/-- A lane is barred while its bar set is non-empty (R55). -/
def State.barred (s : State) (l : Lane) : Bool := !PortSet.isEmpty (s.lane l).bars

/-- The number of lanes whose bar set contains the port (R55; log entry 26). -/
def State.barCount (s : State) (p : Port) : Nat := (allLanes.filter fun l => PortSet.has (s.lane l).bars p).length

/-! ## Offers (R149) -/

/-- Offer an event, made by a block, to some port controllers, after the offers of the stamps given. The stamp is the
state's; it is not advanced, so offers made with one stamp are not ordered among themselves (log entry 8). -/
def State.offerHere (s : State) (dest : List Port) (b : Block) (after : List Nat) (e : Event) : State :=
  { s with offers := s.offers ++ [{ event := e, time := s.blockCounter, block := b, stamp := s.stamp,
                                    after := after, dest := dest }] }

/-- Later offers and triggers are later than those made so far. -/
def State.tick (s : State) : State := { s with stamp := s.stamp + 1 }

/-- Offer an event after every earlier offer of the same block. -/
def State.offer (s : State) (dest : List Port) (b : Block) (after : List Nat) (e : Event) : State :=
  (s.offerHere dest b after e).tick

/-- The stamps of a block's offers that some port controller has yet to take. -/
def State.madeBy (s : State) (b : Block) : List Nat := (s.offers.filter fun o => o.block == b).map Offer.stamp

/-- What the offers that result from work handed on by a block come after: the offers the block has made, and what the work
it is doing itself comes after (R149). -/
def State.handOn (s : State) (b : Block) (after : List Nat) : List Nat := s.madeBy b ++ after

/-- Whether offer a must be taken before offer b at a port that has both to take: the same block made it earlier, or b is
the result of work handed on after it (R149). -/
def Offer.precedes (a b : Offer) : Bool := (a.block == b.block && a.stamp < b.stamp) || b.after.contains a.stamp

/-- The offers a port controller has yet to take. -/
def State.offersAt (s : State) (p : Port) : List Offer := s.offers.filter fun o => o.dest.contains p

/-- The offers a port controller may take next. -/
def State.readyOffers (s : State) (p : Port) : List Offer :=
  (s.offersAt p).filter fun o => (s.offersAt p).all fun o' => !Offer.precedes o' o

/-- What is left of an offer once a port controller has taken it: the offer to the others (R149: they are separate records), or
nothing when there are none. -/
def Offer.takenAt (o : Offer) (p : Port) : List Offer :=
  let others := o.dest.filter (· != p)
  if others.isEmpty then [] else [{ o with dest := others }]

/-- The offer has been taken at the port. -/
def State.dropOffer (s : State) (p : Port) (o : Offer) : State :=
  { s with offers := s.offers.flatMap fun x => if x = o then x.takenAt p else [x] }

/-! ## Triggers (R73) -/

/-- Send a trigger to a trunk's selector. -/
def State.send (s : State) (t : Trunk) (k : TriggerKind) (sender : Block) (after : List Nat) : State :=
  { s with
    triggers := s.triggers ++ [{ trunk := t, kind := k, sender := sender, stamp := s.stamp, after := after }]
    stamp := s.stamp + 1 }

/-- The triggers outstanding at a selector. -/
def State.triggersAt (s : State) (t : Trunk) : List Trigger := s.triggers.filter fun g => g.trunk = t

/-- The triggers a selector may take next: the earliest outstanding one of each sender (R73). -/
def State.readyTriggers (s : State) (t : Trunk) : List Trigger :=
  (s.triggersAt t).filter fun g =>
    (s.triggersAt t).all fun g' => g'.sender != g.sender || g.stamp ≤ g'.stamp

end Sys2Proof.Machine
end

