-- ==== Sys2Proof/Machine/Blocks.lean ====
section
/-! DEFINITION. The block: header octets, block check, and the 64 octets on the wire (R1, R2, R3; layout in 11.2). -/

namespace Sys2Proof.Machine

/-- One bit of the block check's register: shift, and add the generator when the bit shifted out is set (R2). -/
def crc16Bit (r : Pair) : Pair := if r.msb then (r <<< 1) ^^^ 0x1021 else r <<< 1

/-- One octet of the block check, most significant bit first (R2). -/
def crc16Octet (r : Pair) (o : Octet) : Pair :=
  let x := r ^^^ (o.zeroExtend 16 <<< 8)
  crc16Bit (crc16Bit (crc16Bit (crc16Bit (crc16Bit (crc16Bit (crc16Bit (crc16Bit x)))))))

/-- The block check over octets in the order sent: register starting at 0xFFFF, no inversion (R2). -/
def crc16 (octets : List Octet) : Pair := octets.foldl crc16Octet 0xFFFF

/-- The two header octets of a block: sequence in bits 15 to 2, FILL in bit 1, BREAK in bit 0 (11.2). -/
def packHeader (seq : SeqNo) (fill brk : Bool) : Pair := seq ++ BitVec.ofBool fill ++ BitVec.ofBool brk

def headerSeq (h : Pair) : SeqNo := h.extractLsb' 2 14
def headerFill (h : Pair) : Bool := h.getLsbD 1
def headerBreak (h : Pair) : Bool := h.getLsbD 0

/-- The more significant octet of a two-octet field, which is sent first (R174). -/
def highOctet (w : Pair) : Octet := w.extractLsb' 8 8
def lowOctet (w : Pair) : Octet := w.extractLsb' 0 8

/-- The block check of a header and a payload: 60 octets (R2). -/
def blockCheck (header : Pair) (payload : Payload) : Pair :=
  crc16 (highOctet header :: lowOctet header :: payload.toList)

/-- The payload of a fill block made by the part (R3). -/
def fillPayload : Payload := Vector.replicate 58 0xFF

/-- The block as sent on a trunk output, its check computed afresh (R39). -/
def outBlock (b : LaneBlock) (brk : Bool) : OutBlock :=
  { seq := b.seq, fill := b.fill, brk := brk, payload := b.payload
    check := blockCheck (packHeader b.seq b.fill brk) b.payload }

/-- The 64 octets of a block on a trunk output (11.2). -/
def OutBlock.octets (b : OutBlock) : List Octet :=
  let h := packHeader b.seq b.fill b.brk
  [highOctet syncWord, lowOctet syncWord, highOctet h, lowOctet h] ++ b.payload.toList ++
    [highOctet b.check, lowOctet b.check]

end Sys2Proof.Machine
end

