-- ==== Sys2Proof/Machine/Flags.lean ====
section
/-! DEFINITION. The conditions the part derives from its records: grade (R18), alignment status (R31), eligibility and
ranking (R75), favoured lane (R58), PATTN (R133), deadlines (R122), halt duration (R167). -/

namespace Sys2Proof.Machine

/-- The grade of a lane from its lock state, fill alarm and degrade (R18). -/
def gradeOf (lock : LockState) (fillAlarm degrade : Bool) : Grade :=
  match lock with
  | .dark => .failed
  | .hunt => .failed
  | .confirm => .failed
  | .coast => if fillAlarm then .failed else .degraded
  | .locked => if fillAlarm then .failed else if degrade then .degraded else .good

/-- FAILED is worse than DEGRADED, and DEGRADED is worse than GOOD (R18). -/
def Grade.rank : Grade → Nat
  | .good => 0
  | .degraded => 1
  | .failed => 2

/-- A member's alignment status against the cursor: the first condition of the table of R31 that holds. -/
def alignStatus (cursor : SeqNo) (buffer : List LaneBlock) : AlignStatus :=
  if buffer.any fun b => b.seq = cursor then .aligned
  else match buffer.head?, buffer.getLast? with
    | some oldest, some newest =>
      if earlier newest.seq cursor then .behind
      else if later oldest.seq cursor then .ahead
      else .missing
    | _, _ => .empty

/-- A lane's buffer as a trunk's emitter sees it: a lane that is no member of the trunk's charter reads as empty (R31;
log entry 13). -/
def State.bufferFor (s : State) (t : Trunk) (l : Lane) : List LaneBlock :=
  if (s.members t).contains l then (s.lane l).buffer else []

/-- Eligible: a member of the trunk's installed charter, bar set empty, grade not FAILED (R55, R75). -/
def State.eligible (s : State) (t : Trunk) (l : Lane) : Bool :=
  (s.members t).contains l && !s.barred l && (s.lane l).rx.grade != .failed

/-- Best grade G* (R75). -/
def State.bestGrade (s : State) (t : Trunk) : Option Grade :=
  if (s.members t).any fun l => s.eligible t l && (s.lane l).rx.grade = .good then some .good
  else if (s.members t).any fun l => s.eligible t l then some .degraded
  else none

/-- Selection order (R75): the favoured lane, then the remaining members in rank order. -/
def State.selectionOrder (s : State) (t : Trunk) : List Lane :=
  match (s.trunk t).favoured with
  | some f => f :: (s.members t).filter (· != f)
  | none => s.members t

/-- Top (R75). -/
def State.top (s : State) (t : Trunk) : Option Lane :=
  (s.selectionOrder t).find? fun l => s.eligible t l && some (s.lane l).rx.grade = s.bestGrade t

/-- The number of ballot slots of a trunk that name a lane (R58). -/
def State.ballotsFor (s : State) (t : Trunk) (l : Lane) : Nat :=
  (allPorts.filter fun p => (s.trunk t).ballots[p.val] = some l).length

/-- Of two members, the one with more ballots; on equal counts the one nearer the head of the list (R58). -/
def State.pickFavoured (s : State) (t : Trunk) : List Lane → Option Lane
  | [] => none
  | l :: ls =>
    match s.pickFavoured t ls with
    | some r => if s.ballotsFor t l < s.ballotsFor t r then some r else some l
    | none => if s.ballotsFor t l = 0 then none else some l

/-- The favoured lane computed from the ballot slots and the rank order (R58). -/
def State.favouredNow (s : State) (t : Trunk) : Option Lane := s.pickFavoured t (s.members t)

/-- PATTN of a port (R133): asserted while the response slot holds a response or the queue is non-empty, and not while
PRSTn or RSTn is low. -/
def State.pattn (s : State) (p : Port) : Bool :=
  !s.rstnLow && !(s.port p).prstnLow && ((s.port p).response.isSome || !(s.port p).queue.isEmpty)

/-- Block periods from the block counter to a deadline, modulo 2^32. -/
def State.periodsTo (s : State) (deadline : Count) : Nat := (deadline - s.blockCounter).toNat

/-- The block counter has reached a deadline (R122). A deadline lies at most 32,000 ahead when it is set, so a greater
distance means that it has been passed (log entry 7). -/
def State.deadlineReached (s : State) (deadline : Count) : Bool :=
  s.periodsTo deadline = 0 || deadlinePeriods < s.periodsTo deadline

/-- Block periods remaining to a deadline, as QUERY-TRUNK reports them (R145). -/
def State.remainingTo (s : State) (deadline : Count) : Nat :=
  if s.deadlineReached deadline then 0 else s.periodsTo deadline

/-- The halt duration: whole milliseconds, saturating (R167). -/
def Monitor.haltMs (m : Monitor) : Nat := min haltLimit (m.haltNs / 1000000)

end Sys2Proof.Machine
end

