-- ==== Sys2Proof/Machine/Lanes.lean ====
section
/-! DEFINITION. The alignment store's buffers (R24 to R26) and the lane receivers (R5 to R21). -/

namespace Sys2Proof.Machine

/-! ## The alignment store -/

/-- A flush: every block removed, last alignment status EMPTY (R26; log entry 28). -/
def State.flush (s : State) (l : Lane) : State := s.modLane l fun x => { x with buffer := [], status := .empty }

/-- The result of offering a block to a member lane's buffer, and whether the oldest block was dropped (R25). -/
def appendBlock (buffer : List LaneBlock) (b : LaneBlock) : List LaneBlock × Bool :=
  match buffer.getLast? with
  | none => ([b], false)
  | some newest =>
    if later b.seq newest.seq then
      if buffer.length < bufferLimit then (buffer ++ [b], false) else (buffer.drop 1 ++ [b], true)
    else ([b], false)

/-- A block offered by the receiver is judged for admission; an overflow is reported to the receiver (R25, R14). -/
def State.offerBlock (s : State) (l : Lane) (b : LaneBlock) : State :=
  match s.trunkOf l with
  | none => s
  | some _ =>
    let r := appendBlock (s.lane l).buffer b
    s.modLane l fun x =>
      { x with
        buffer := r.1
        rx := if r.2 then { x.rx with overflowDrops := x.rx.overflowDrops + 1 } else x.rx }

/-! ## Grade -/

/-- The LANE event of a grade change (R18). -/
def gradeEvent (l : Lane) (prev new : Grade) (x : Receiver) : Event :=
  if prev.rank < new.rank then .gradeWorse l prev new x.lock x.fillAlarm x.degrade
  else .gradeBetter l prev new x.lock x.fillAlarm x.degrade

/-- Send a trigger to the trunk whose installed charter contains the lane, if there is one. -/
def State.sendForLane (s : State) (l : Lane) (k : TriggerKind) (sender : Block) (after : List Nat) : State :=
  match s.trunkOf l with
  | some t => s.send t k sender after
  | none => s

/-- Recompute the grade of a lane; a change is an event with a trigger and a notification (R18). -/
def State.regrade (s : State) (l : Lane) (after : List Nat) : State :=
  let x := (s.lane l).rx
  let g := gradeOf x.lock x.fillAlarm x.degrade
  if g = x.grade then s
  else
    let s := s.modRx l fun y => { y with grade := g }
    let s := s.sendForLane l (.grade l) (.receiver l) (s.handOn (.receiver l) after)
    s.offer allPorts (.receiver l) after (gradeEvent l x.grade g x)

/-! ## Lock -/

/-- The receiver fields after its loss-of-lock effects on entering HUNT or DARK (R10). -/
def Receiver.loseLock (x : Receiver) (entered : LockState) : Receiver :=
  { x with
    lock := entered, syncCount := 0, missCount := 0, expected := none, fillAlarm := false, alarmRun := 0
    windowPos := 0, windowCount := 0, degrade := false, blockOpen := false, due := [] }

/-- Entering HUNT or DARK: the loss-of-lock effects, the flush request, and the grade recomputed once (R10). -/
def State.loseLock (s : State) (l : Lane) (entered : LockState) (after : List Nat) : State :=
  let s := s.modRx l fun x => x.loseLock entered
  (s.flush l).regrade l after

/-! ## The steps of a processed block position -/

/-- What a due step does to the receiver: the fill alarm changes (R15), degrade is declared (R16), the window completes
(R17). -/
def Receiver.apply (x : Receiver) : LaneStep → Receiver
  | .fillAlarm => { x with fillAlarm := !x.fillAlarm }
  | .degradeDeclared => { x with degrade := true }
  | .windowEnd =>
    { x with
      degrade := x.degrade && !(x.windowCount ≤ x.degradeClear), windowPos := 0, windowCount := 0 }

/-- Take one due step of a lane. The grade is recomputed once the whole event of the block position has been applied,
which is when no step of it is left (R18; log entry 4). -/
def State.takeStep (s : State) (l : Lane) (d : LaneStep) : State :=
  if (s.lane l).rx.due.contains d then
    let s := s.modRx l fun x => { x.apply d with due := x.due.erase d }
    if (s.lane l).rx.due = [] then s.regrade l [] else s
  else s

/-- Take every due step of a lane, in the order of R15, R16 and R17. -/
def State.settleLane (s : State) (l : Lane) : State :=
  ((s.takeStep l .fillAlarm).takeStep l .degradeDeclared).takeStep l .windowEnd

/-! ## A block position -/

/-- The sequence-tracking part of a passing block (R12): counters, and whether it is a sequence break. -/
def Receiver.isBreak (x : Receiver) (seq : SeqNo) : Bool :=
  match x.expected with
  | none => false
  | some e => seq != e

def Receiver.passed (x : Receiver) (seq : SeqNo) (fill : Bool) : Receiver :=
  { x with
    goodBlocks := x.goodBlocks + 1
    fillBlocks := if fill then x.fillBlocks + 1 else x.fillBlocks
    sequenceBreaks := if x.isBreak seq then x.sequenceBreaks + 1 else x.sequenceBreaks
    expected := some (seq + 1) }

/-- A failed check (R13). -/
def Receiver.failed (x : Receiver) : Receiver :=
  { x with
    checkFailures := x.checkFailures + 1
    windowCount := x.windowCount + 1
    expected := x.expected.map (· + 1) }

/-- The alarm run after a passing block, and whether the fill alarm changes (R15). -/
def alarmRunAfter (fillAlarm fill : Bool) (run : Nat) : Nat × Bool :=
  if fill = fillAlarm then (0, false)
  else if run + 1 = fillAlarmRun then (0, true) else (run + 1, false)

/-- The steps a processed block position makes due: a change of the fill alarm (R15), a declaration of degrade (R16), the
end of the window (R17). -/
def dueSteps (alarmChanges : Bool) (x : Receiver) : List LaneStep :=
  (if alarmChanges then [.fillAlarm] else []) ++
  (if !x.degrade && x.degradeSet ≤ x.windowCount then [.degradeDeclared] else []) ++
  (if windowLength ≤ x.windowPos then [.windowEnd] else [])

/-- The window advances (R16 step 1), the steps due are noted, and the block is no longer being received. -/
def Receiver.closePosition (x : Receiver) (alarmChanges : Bool) : Receiver :=
  let y := { x with windowPos := x.windowPos + 1, blockOpen := false }
  { y with due := dueSteps alarmChanges y }

/-- A block position whose check passes (R12, R14, R15, R16): the flush request of a break is handed before the offer. -/
def State.passBlock (s : State) (l : Lane) (b : LaneBlock) : State :=
  let x := (s.lane l).rx
  let run := alarmRunAfter x.fillAlarm b.fill x.alarmRun
  let s := s.modRx l fun x => x.passed b.seq b.fill
  let s := if x.isBreak b.seq then s.flush l else s
  let s := s.offerBlock l b
  s.modRx l fun x => ({ x with alarmRun := run.1 }).closePosition run.2

/-- A block position whose check fails (R13, R16). -/
def State.failBlock (s : State) (l : Lane) : State :=
  s.modRx l fun x => x.failed.closePosition false

/-- A received block passes its check when the check over the received header and payload equals the check field (R2). -/
def checkPasses (header : Pair) (payload : Payload) (check : Pair) : Bool := blockCheck header payload == check

/-! ## The rows -/

/-- A receiver event is taken while the receivers run (R22, R23), with no step of the lane's latest position left. -/
def State.receiverEvent (s : State) (l : Lane) (f : State → State) : State :=
  if s.running then f (s.settleLane l) else s

/-- Either condition of R5: a receiver not already in DARK enters DARK. -/
def State.goDark (s : State) (l : Lane) : State :=
  if (s.lane l).rx.lock = .dark then s else s.loseLock l .dark []

/-- CLOCK_LOSS (R5, R10). -/
def execClockLoss (l : Lane) (s : State) : Host.Outcome State Fault Refusal :=
  .next (s.receiverEvent l fun s => s.goDark l)

/-- STUCK_DATA (R5, R10). -/
def execStuckData (l : Lane) (s : State) : Host.Outcome State Fault Refusal :=
  .next (s.receiverEvent l fun s => s.goDark l)

/-- DATA_TRANSITION (R6, R10): only a receiver in DARK on a running clock enters HUNT. -/
def execDataTransition (l : Lane) (clockRunning : Bool) (s : State) : Host.Outcome State Fault Refusal :=
  .next (s.receiverEvent l fun s =>
    if (s.lane l).rx.lock = .dark ∧ clockRunning then s.loseLock l .hunt [] else s)

/-- SYNC_MATCH (R7): all 16 bits must agree, and the receiver must be in HUNT. -/
def execSyncMatch (l : Lane) (bits : Pair) (s : State) : Host.Outcome State Fault Refusal :=
  .next (s.receiverEvent l fun s =>
    if (s.lane l).rx.lock = .hunt ∧ bits = syncWord then
      s.modRx l fun x => { x with lock := .confirm, syncCount := 1 }
    else s)

/-- The receiver enters LOCKED or COAST, or stays there, with a miss count, and a block position begins (R8, R9, R11). -/
def State.holdLock (s : State) (l : Lane) (lock : LockState) (misses : Nat) : State :=
  (s.modRx l fun x =>
    { x with lock := lock, syncCount := 0, missCount := misses, blockOpen := true }).regrade l []

/-- The sync judgement at an expected position (R8, R9). -/
def State.judgeSync (s : State) (l : Lane) (present : Bool) : State :=
  let x := (s.lane l).rx
  match x.lock with
  | .confirm =>
    if present then
      if x.syncCount = 1 then s.modRx l fun y => { y with syncCount := 2 } else s.holdLock l .locked 0
    else s.loseLock l .hunt []
  | .locked => if present then s.holdLock l .locked 0 else s.holdLock l .coast 1
  | .coast =>
    if present then s.holdLock l .locked 0
    else if x.missCount = 3 then s.loseLock l .hunt [] else s.holdLock l .coast (x.missCount + 1)
  | .dark => s
  | .hunt => s

/-- EXPECTED_POSITION (R8, R9). The next expected position is reached only when the block before it has been received
(log entry 18). -/
def execExpectedPosition (l : Lane) (bits : Pair) (s : State) : Host.Outcome State Fault Refusal :=
  .next (s.receiverEvent l fun s =>
    if (s.lane l).rx.blockOpen then s else s.judgeSync l (bits == syncWord))

/-- BLOCK_POSITION (R11 to R16): the block that began at the latest block position has arrived. -/
def execBlockPosition (l : Lane) (header : Pair) (payload : Payload) (check : Pair) (s : State) :
    Host.Outcome State Fault Refusal :=
  .next (s.receiverEvent l fun s =>
    if (s.lane l).rx.blockOpen then
      if checkPasses header payload check then
        s.passBlock l { seq := headerSeq header, fill := headerFill header, brk := headerBreak header
                        payload := payload }
      else s.failBlock l
    else s)

/-- FILL_ALARM (R15). -/
def execFillAlarm (l : Lane) (s : State) : Host.Outcome State Fault Refusal :=
  .next (if s.running then s.takeStep l .fillAlarm else s)

/-- DEGRADE_DECLARED (R16). -/
def execDegradeDeclared (l : Lane) (s : State) : Host.Outcome State Fault Refusal :=
  .next (if s.running then s.takeStep l .degradeDeclared else s)

/-- DEGRADE_WINDOW_END (R17): a declaration due at the same position comes before it (R16 steps 2 and 3). -/
def execDegradeWindowEnd (l : Lane) (s : State) : Host.Outcome State Fault Refusal :=
  .next (if s.running && (s.lane l).rx.due.contains .windowEnd then
    (s.takeStep l .degradeDeclared).takeStep l .windowEnd
  else s)

end Sys2Proof.Machine
end

