-- ==== Sys2Proof/Machine/History.lean ====
section
/-! DEFINITION. The switch history: writing a record, its counters and its notification (R41, R92, R93, R94). -/

namespace Sys2Proof.Machine

/-- A record joins the history as its newest; the oldest of eight is removed first (R92). -/
def pushRecord (h : List HistoryRecord) (r : HistoryRecord) : List HistoryRecord :=
  (if h.length < historyLimit then h else h.drop 1) ++ [r]

/-- The switch counters follow the records (R41, R93). -/
def TrunkCounters.count (c : TrunkCounters) (r : HistoryRecord) : TrunkCounters :=
  { c with
    hitless := if r.kind = .hitless then c.hitless + 1 else c.hitless
    hit := if r.kind = .hit ∧ r.src ≠ none ∧ r.src ≠ r.dst then c.hit + 1 else c.hit
    slips := if r.cause = .slip then c.slips + 1 else c.slips }

/-- Write a record: timestamp and charter version are those of the moment (R93), the counters follow it (R41), and
SWITCHED is offered (R94). -/
def State.writeRecord (s : State) (t : Trunk) (cause : Cause) (src dst : Option Lane) (kind : SwitchKind)
    (after : List Nat) : State :=
  let v := (s.trunk t).charter.version
  let r : HistoryRecord :=
    { time := s.blockCounter, cause := cause, src := src, dst := dst, kind := kind, version := v }
  let s := s.modTrunk t fun x =>
    { x with
      history := pushRecord x.history r
      em := { x.em with counters := x.em.counters.count r } }
  s.offer allPorts (.selector t) after (.switched t cause src dst kind v)

/-- The from lane of a STARVE, DISABLE or RESUME record: the pending record's from lane when an immediate switch was
pending, and the active lane otherwise (R82, R87, R107). -/
def Selection.fromLane (x : Selection) : Option Lane :=
  match x.pendingSwitch with
  | some p => p.src
  | none => x.active

/-- What a record comes after that stands for the pending record too: the offers before the work of either (R82, R83, R87,
R99, R107; log entry 8). -/
def Selection.pendingStamps (x : Selection) (after : List Nat) : List Nat :=
  match x.pendingSwitch with
  | some p => p.after ++ after
  | none => after

end Sys2Proof.Machine
end

