-- ==== Sys2Proof/Machine/Selection.lean ====
section
/-! DEFINITION. The selection decision: one evaluation of a trunk's selector (R62, R74 to R87, R95, R104 to R106). -/

namespace Sys2Proof.Machine

/-! ## The decision -/

/-- The case of R76 found at an evaluation. -/
inductive DecisionCase where
  /-- Case 1: the trunk has an active hold on this lane. -/
  | held (lane : Lane)
  /-- Case 2: no member is eligible. -/
  | noneEligible
  /-- Case 3: the active lane is adequate; the restore candidate, if any. -/
  | stay (active : Lane) (candidate : Option Lane)
  /-- Case 4. -/
  | best (top : Option Lane)
deriving DecidableEq, Repr

/-- The lane of the trunk's hold when the hold is active: its dormant mark is clear (R62, R76 case 1). -/
def TrunkState.activeHold (x : TrunkState) : Option Lane :=
  match x.hold with
  | some h => if h.dormant then none else some h.lane
  | none => none

/-- The restore candidate of case 3: Top, when the charter is revertive and Top differs from the active lane (R76). -/
def State.restoreCandidate (s : State) (t : Trunk) (a : Lane) : Option Lane :=
  if (s.trunk t).charter.terms.revertive then
    match s.top t with
    | some c => if c = a then none else some c
    | none => none
  else none

/-- The first case of R76 whose condition holds. -/
def State.decisionCase (s : State) (t : Trunk) : DecisionCase :=
  match (s.trunk t).activeHold with
  | some h => .held h
  | none =>
    match s.bestGrade t with
    | none => .noneEligible
    | some g =>
      match (s.trunk t).sel.active with
      | some a =>
        if s.eligible t a ∧ (s.lane a).rx.grade = g then .stay a (s.restoreCandidate t a) else .best (s.top t)
      | none => .best (s.top t)

/-- The restore timer as it starts for a candidate (R77). -/
def startRestore (restoreWait : Nat) (c : Lane) : RestoreTimer :=
  if restoreWait = 0 then .due c else .running c (restoreWait * restoreStep)

/-- The restore timer brought up to date (R77). -/
def restoreAfter (restoreWait : Nat) (before : RestoreTimer) : DecisionCase → RestoreTimer
  | .stay _ (some c) =>
    match before with
    | .idle => startRestore restoreWait c
    | .running c' n => if c' = c then .running c' n else startRestore restoreWait c
    | .due c' => if c' = c then .due c' else startRestore restoreWait c
  | .stay _ none => .idle
  | .held _ => .idle
  | .noneEligible => .idle
  | .best _ => .idle

/-- The desired lane (R76), once the restore timer is up to date. -/
def desiredLane (restore : RestoreTimer) : DecisionCase → Option Lane
  | .held h => some h
  | .noneEligible => none
  | .stay a _ =>
    match restore with
    | .due c => some c
    | .running _ _ => some a
    | .idle => some a
  | .best top => top

/-- Hold-off applies (R78): CARRYING, no active hold, the active lane a member and unbarred, its grade FAILED or DEGRADED
with G* GOOD. -/
def State.holdOffApplies (s : State) (t : Trunk) : Bool :=
  match (s.trunk t).sel.mode, (s.trunk t).activeHold, (s.trunk t).sel.active with
  | .carrying, none, some a =>
    (s.members t).contains a && !s.barred a &&
      ((s.lane a).rx.grade = .failed || ((s.lane a).rx.grade = .degraded && s.bestGrade t = some .good))
  | _, _, _ => false

/-- The hold-off gate: whether it is open, and the timer afterwards (R78). -/
def holdOffGate (applies isExpiry : Bool) (holdOff : Nat) (before : HoldOffTimer) : Bool × HoldOffTimer :=
  if applies then
    match before with
    | .running n => (false, .running n)
    | .idle =>
      if isExpiry then (true, .idle)
      else if holdOff = 0 then (true, .idle)
      else (false, .running (holdOff * holdOffStep))
  else (true, .idle)

/-- What one evaluation decides (R80 steps 4 to 6). -/
structure Decision where
  desired : Option Lane
  restore : RestoreTimer
  gateOpen : Bool
  holdOff : HoldOffTimer
deriving DecidableEq, Repr

/-- Steps 4 to 6 of R80. -/
def State.decide (s : State) (t : Trunk) (k : TriggerKind) : Decision :=
  let x := s.trunk t
  let c := s.decisionCase t
  let r := restoreAfter x.charter.terms.restoreWait x.sel.restore c
  let gate := holdOffGate (s.holdOffApplies t) (k = .holdOffExpiry) x.charter.terms.holdOff x.sel.holdOff
  { desired := desiredLane r c, restore := r, gateOpen := gate.1, holdOff := gate.2 }

/-- The cause of a switch that step 7 begins, retargets or makes towards a lane (R80). The table names none for a
restore-wait expiry that acts on another lane than the candidate of a DUE timer: that cause is free (log entry 29). -/
def switchCause (restore : RestoreTimer) (k : TriggerKind) (free : Cause) (dst : Lane) : Cause :=
  if restore = .due dst then .revert
  else match k with
    | .grade _ => .health
    | .holdOffExpiry => .health
    | .bar => .bar
    | .hold => .hold
    | .ballot => .ballot
    | .install => .membership
    | .report => .health
    | .restoreExpiry => free

/-- The cause the spec leaves open, one of those step 7 can produce for a switch (R80; log entry 29). -/
def State.freeCause (s : State) : Cause :=
  match Config.freeCauseIndex s.freeCount with
  | 0 => .revert
  | 1 => .health
  | 2 => .bar
  | 3 => .hold
  | 4 => .ballot
  | 5 => .membership

/-! ## The actions -/

/-- A start (R81, R104): START record, then FED. -/
def State.start (s : State) (t : Trunk) (d : Lane) (after : List Nat) : State :=
  let s := s.modTrunk t fun x =>
    { x with
      sel := { x.sel with
        mode := .carrying, active := some d, target := none, alignWait := 0, cause := none, causeAfter := [] }
      em := { x.em with centring := true } }
  let s := s.writeRecord t .start none (some d) .hit after
  s.offer allPorts (.selector t) after (.fed t d)

/-- A drop (R82, R105): STARVE record, then STARVED. -/
def State.drop (s : State) (t : Trunk) (after : List Nat) : State :=
  let src := (s.trunk t).sel.fromLane
  let stamps := (s.trunk t).sel.pendingStamps after
  let s := s.modTrunk t fun x =>
    { x with
      sel := { x.sel with
        mode := .starved, active := none, target := none, alignWait := 0, cause := none, causeAfter := []
        holdOff := .idle, restore := .idle, pendingSwitch := none }
      em := { x.em with immediatePending := false } }
  let s := s.writeRecord t .starve src none .nil stamps
  s.offer allPorts (.selector t) after (.starved t .starve src)

/-- The pending record after an immediate switch from a lane: the from lane of a switch already pending is kept (R83), and the
record comes after the offers that either comes after (R149; log entry 35). -/
def pendingAfter (before : Option PendingSwitch) (a : Lane) (cause : Cause) (after : List Nat) : PendingSwitch :=
  match before with
  | some p => { src := p.src, cause := cause, after := p.after ++ after }
  | none => { src := some a, cause := cause, after := after }

/-- An immediate switch from the active lane a to a lane d (R83). The stamps kept for a switch in progress go with its cause (log
entry 35). -/
def State.immediateSwitch (s : State) (t : Trunk) (a d : Lane) (cause : Cause) (after : List Nat) : State :=
  s.modTrunk t fun x =>
    { x with
      sel := { x.sel with
        mode := .carrying, active := some d, target := none, alignWait := 0, cause := none, causeAfter := []
        holdOff := .idle, restore := .idle
        pendingSwitch := some (pendingAfter x.sel.pendingSwitch a cause after) }
      em := { x.em with immediatePending := true } }

/-- Beginning a switch, or retargeting one (R84, R86). A retarget replaces the stamps of the work that began the switch, as it replaces
the cause (R149; log entry 35). -/
def State.aim (s : State) (t : Trunk) (d : Lane) (cause : Cause) (after : List Nat) : State :=
  s.modSel t fun x =>
    { x with mode := .switching, target := some d, alignWait := 0, cause := some cause, causeAfter := after }

/-- Cancelling a switch in progress (R86). -/
def State.cancel (s : State) (t : Trunk) : State :=
  s.modSel t fun x => { x with mode := .carrying, target := none, alignWait := 0, cause := none, causeAfter := [] }

/-- Step 7 of R80: act on the decision by the trunk's state (R85, R86). -/
def State.act (s : State) (t : Trunk) (k : TriggerKind) (d : Decision) (after : List Nat) : State :=
  let x := (s.trunk t).sel
  match x.mode, x.active with
  | .disabled, _ => s
  | .starved, _ =>
    match d.desired with
    | some l => s.start t l after
    | none => s
  | .carrying, some a =>
    if d.desired = some a then s
    else if d.gateOpen then
      match d.desired with
      | none => s.drop t after
      | some l =>
        if s.eligible t a then s.aim t l (switchCause d.restore k s.freeCause l) after
        else s.immediateSwitch t a l (switchCause d.restore k s.freeCause l) after
    else s
  | .switching, some a =>
    match d.desired with
    | none => s.drop t after
    | some l =>
      if l = a then s.cancel t
      else if s.eligible t a then
        if x.target = some l then s else s.aim t l (switchCause d.restore k s.freeCause l) after
      else s.immediateSwitch t a l (switchCause d.restore k s.freeCause l) after
  | .carrying, none => s
  | .switching, none => s

/-! ## One evaluation -/

/-- The dormant mark of the trunk's hold is written at the evaluation; a change is notified (R62). -/
def State.markHold (s : State) (t : Trunk) (after : List Nat) : State :=
  match (s.trunk t).hold with
  | none => s
  | some h =>
    let g := (s.lane h.lane).rx.grade
    let b := s.barred h.lane
    let dormant := b || g = .failed
    if dormant = h.dormant then s
    else
      let s := s.modTrunk t fun x => { x with hold := some { h with dormant := dormant } }
      s.offer allPorts (.selector t) after
        (if dormant then .holdDormant t h.lane h.owner h.session g b
         else .holdActive t h.lane h.owner h.session g b)

/-- The emitter on entry into DISABLED (R42). GAP-RUN-END is offered when the gap-run flag was set; what TD carries is
completed (log entry 19). -/
def State.disableEmitter (s : State) (t : Trunk) (after : List Nat) : State :=
  let e := (s.trunk t).em
  let s := s.modEm t fun e =>
    { e with centring := false, immediatePending := false, misalign := 0, gapRun := false }
  if e.gapRun then s.offer allPorts (.emitter t) after (.gapRunEnd t e.lastEmitted none) else s

/-- Entry into DISABLED at an install that empties the charter (R87 step 2, R106). The emitter's work is handed on after
SWITCHED is offered (R149). -/
def State.disable (s : State) (t : Trunk) (after : List Nat) : State :=
  let x := (s.trunk t).sel
  let s := s.modSel t fun x =>
    { x with
      mode := .disabled, active := none, target := none, alignWait := 0, cause := none, causeAfter := []
      holdOff := .idle, restore := .idle, pendingSwitch := none }
  let s :=
    match x.active with
    | some _ => s.writeRecord t .disable x.fromLane none .nil (x.pendingStamps after)
    | none => s
  s.disableEmitter t (s.handOn (.selector t) after)

/-- Leaving DISABLED at an install of a non-empty charter (R87 step 4, R42, R95). -/
def State.enable (s : State) (t : Trunk) (after : List Nat) : State :=
  let s := s.modTrunk t fun x =>
    { x with
      sel := { x.sel with mode := .starved, active := none, target := none }
      em := { x.em with breakPending := true } }
  s.offer allPorts (.selector t) after (.starved t .membership none)

/-- The install steps (R87). -/
def State.installSteps (s : State) (t : Trunk) (after : List Nat) : State :=
  let s := s.modSel t fun x => { x with holdOff := .idle, restore := .idle }
  let empty := (s.members t).isEmpty
  if (s.trunk t).sel.mode = .disabled then
    if empty then s else s.enable t after
  else if empty then s.disable t after else s

/-- Steps 2 to 7 of R80. -/
def State.judge (s : State) (t : Trunk) (k : TriggerKind) (after : List Nat) : State :=
  if (s.trunk t).sel.mode = .disabled then s
  else
    let s := s.markHold t after
    let d := s.decide t k
    let s := s.modSel t fun x => { x with restore := d.restore, holdOff := d.holdOff }
    s.act t k d after

/-- One evaluation (R74, R80). -/
def State.evaluate (s : State) (t : Trunk) (k : TriggerKind) (after : List Nat) : State :=
  (if k = .install then s.installSteps t after else s).judge t k after

end Sys2Proof.Machine
end

