-- ==== Sys2Proof/Machine/Emission.lean ====
section
/-! DEFINITION. The trunk emitter at an emission instant (R30 to R41) and the selector's handling of its reports (R88, R96
to R103). -/

namespace Sys2Proof.Machine

/-! ## Handling of reports -/

/-- A judged immediate switch is recorded; with no pending record nothing is written (R96, R99). -/
def State.handleJudgement (s : State) (t : Trunk) (lane : Option Lane) (kind : SwitchKind) (after : List Nat) : State :=
  match (s.trunk t).sel.pendingSwitch with
  | none => s
  | some p =>
    let s := s.writeRecord t p.cause p.src lane kind (p.after ++ after)
    s.modSel t fun x => { x with pendingSwitch := none }

/-- A switch completes onto its target (R97, R98). -/
def State.complete (s : State) (t : Trunk) (b : Lane) (kind : SwitchKind) (after : List Nat) : State :=
  let x := (s.trunk t).sel
  let s := s.writeRecord t (x.cause.getD .health) x.active (some b) kind (x.causeAfter ++ after)
  s.modSel t fun x =>
    { x with mode := .carrying, active := some b, target := none, alignWait := 0, cause := none, causeAfter := [] }

/-- Hitless completion, when the trunk is still SWITCHING towards the lane emitted (R96, R97). -/
def State.handleCompletion (s : State) (t : Trunk) (b : Lane) (after : List Nat) : State :=
  let x := (s.trunk t).sel
  if x.mode = .switching ∧ x.target = some b then s.complete t b .hitless after else s

/-- Align-wait expiry, when the trunk is still SWITCHING with the count at 16 (R96, R98). -/
def State.handleAlignWait (s : State) (t : Trunk) (after : List Nat) : State :=
  let x := (s.trunk t).sel
  match x.mode, x.target with
  | .switching, some b =>
    if x.alignWait = alignWaitLimit then
      (s.complete t b .hit after).modEm t fun e => { e with centring := true }
    else s
  | _, _ => s

/-- The lane a switch at alignment loss goes to, or none for a slip (R100). The hold is active when its lane is eligible
at the report; the dormant mark is not written. -/
def State.lossChoice (s : State) (t : Trunk) (a : Lane) (statuses : List (Lane × AlignStatus)) : Option Lane :=
  let wasAligned := fun l => statuses.contains (l, AlignStatus.aligned)
  let free := (s.selectionOrder t).find? fun l =>
    s.eligible t l && l != a && some (s.lane l).rx.grade = s.bestGrade t && wasAligned l
  match (s.trunk t).hold with
  | none => free
  | some h =>
    if s.eligible t h.lane then
      if h.lane = a then none else if wasAligned h.lane then some h.lane else none
    else free

/-- A slip re-centres the trunk on its active lane (R102). -/
def State.slip (s : State) (t : Trunk) (a : Lane) (after : List Nat) : State :=
  let s := s.modEm t fun e => { e with centring := true }
  s.writeRecord t .slip (some a) (some a) .hit after

/-- Alignment loss, when the trunk still carries the lane named and no immediate switch is pending (R96, R100 to R102). -/
def State.handleLoss (s : State) (t : Trunk) (active : Option Lane) (statuses : List (Lane × AlignStatus))
    (after : List Nat) : State :=
  let x := (s.trunk t).sel
  match x.active with
  | none => s
  | some a =>
    if (x.mode = .carrying ∨ x.mode = .switching) ∧ active = some a ∧ x.pendingSwitch = none then
      match s.lossChoice t a statuses with
      | some d => s.immediateSwitch t a d .alignLoss after
      | none => s.slip t a after
    else s

/-- The handling that precedes a report's evaluation (R88, R96). -/
def State.handleReport (s : State) (t : Trunk) (k : ReportKind) (after : List Nat) : State :=
  match k with
  | .judgement lane kind => s.handleJudgement t lane kind after
  | .completion b => s.handleCompletion t b after
  | .alignmentLoss active statuses => s.handleLoss t active statuses after
  | .alignWaitExpiry => s.handleAlignWait t after

/-- A judgement of a pending switch, reported while the trigger of an install that has emptied the charter is outstanding: R110's
last row has that trigger's evaluation write the DISABLE record from the lane judged onto. -/
def State.leftToInstall (s : State) (t : Trunk) : ReportKind → Bool
  | .judgement _ _ =>
    (s.trunk t).sel.pendingSwitch.isSome && (s.members t).isEmpty && (s.triggersAt t).any fun g => g.kind = .install
  | .completion _ => false
  | .alignmentLoss _ _ => false
  | .alignWaitExpiry => false

/-- A report is handled, and one evaluation follows (R88), which reads the charter installed then (R74). After the judgement of
R110's last row it makes the timers IDLE (R77, R78; no claim is left to read, R69), and takes the trunk nowhere: R74 and R85 would
have it drop the trunk with a STARVE record, and R110 is followed (log entry 37). -/
def State.takeReport (s : State) (t : Trunk) (r : Report) : State :=
  let handled := s.handleReport t r.kind r.after
  if s.leftToInstall t r.kind then handled.modSel t fun x => { x with holdOff := .idle, restore := .idle }
  else handled.evaluate t .report r.after

/-- Take reports in the order in which they were handed. -/
def State.takeReports (s : State) (t : Trunk) (rs : List Report) : State := rs.foldl (fun s r => s.takeReport t r) s

/-- Take every report of the trunk's latest instant still outstanding: they are taken within the instant and before any
other event of the trunk (R88; log entry 5). -/
def State.settleTrunk (s : State) (t : Trunk) : State :=
  let rs := (s.trunk t).reports
  (s.modTrunk t fun x => { x with reports := [] }).takeReports t rs

/-! ## Emission -/

/-- Which counter an emission counts in (R41). -/
inductive Source where
  | fromActive | mended | fill
deriving DecidableEq, Repr

/-- The trunk counters after an emission (R41). -/
def TrunkCounters.emit (c : TrunkCounters) : Source → TrunkCounters
  | .fromActive => { c with emitted := c.emitted + 1, fromActive := c.fromActive + 1 }
  | .mended => { c with emitted := c.emitted + 1, mended := c.mended + 1 }
  | .fill => { c with emitted := c.emitted + 1, fill := c.fill + 1 }

/-- BREAK on an emitted block (R39): carried by the lane block, or set by the emitter. -/
def Emitter.breakFor (e : Emitter) (b : LaneBlock) (centringEmission : Bool) : Bool :=
  b.brk || centringEmission || e.breakPending ||
    match e.lastEmitted with
    | none => true
    | some q => b.seq != q + 1

/-- A purge removes every block whose sequence is the emitted one or earlier (R28). -/
def purge (emitted : SeqNo) (buffer : List LaneBlock) : List LaneBlock :=
  buffer.filter fun b => !(b.seq == emitted || earlier b.seq emitted)

/-- Purge the buffers of some lanes (R28). -/
def State.purgeLanes (s : State) (emitted : SeqNo) (ls : List Lane) : State :=
  ls.foldl (fun s l => s.modLane l fun x => { x with buffer := purge emitted x.buffer }) s

/-- The gap-run flag follows the emissions, with its notifications (R40). They are the emitter's own, and come after no offer of the
selector, whose earlier steps set what the emission reads (R149; log entry 33). -/
def State.gapRun (s : State) (t : Trunk) (gap : Bool) (seq : SeqNo) (active : Option Lane) : State :=
  let before := (s.trunk t).em.gapRun
  let s := s.modEm t fun e => { e with gapRun := gap }
  if gap && !before then s.offer allPorts (.emitter t) [] (.gapRunBegin t (some seq) active)
  else if !gap && before then s.offer allPorts (.emitter t) [] (.gapRunEnd t (some seq) active)
  else s

/-- Emit one block: TD, last emitted, break pending and cursor (R33 step 4, R39), counters (R41), purge of the lanes given
(R28), gap run (R40). -/
def State.emit (s : State) (t : Trunk) (b : LaneBlock) (centringEmission : Bool) (source : Source)
    (purged : List Lane) : State :=
  let x := s.trunk t
  let gap := source = .fill && (x.sel.mode = .carrying || x.sel.mode = .switching)
  let s := s.modEm t fun e =>
    { e with
      td := some (outBlock b (e.breakFor b centringEmission))
      lastEmitted := some b.seq, breakPending := false, cursor := b.seq + 1
      counters := e.counters.emit source }
  let s := s.purgeLanes b.seq purged
  s.gapRun t gap b.seq x.sel.active

/-- A fill block made by the part at the cursor (R32, R33, R36). -/
def Emitter.fillBlock (e : Emitter) : LaneBlock := { seq := e.cursor, fill := true, brk := false, payload := fillPayload }

/-- The block at the cursor in a lane's buffer, as the trunk's emitter sees it. -/
def State.cursorBlock (s : State) (t : Trunk) (l : Lane) : Option LaneBlock :=
  (s.bufferFor t l).find? fun b => b.seq = (s.trunk t).em.cursor

/-- The block used to mend: from the first member in selection order that is eligible, is neither the active lane nor the
target, and is ALIGNED (R34). -/
def State.mendBlock (s : State) (t : Trunk) : Option LaneBlock :=
  let x := (s.trunk t).sel
  let source := (s.selectionOrder t).find? fun l =>
    s.eligible t l && some l != x.active && some l != x.target && (s.cursorBlock t l).isSome
  source.bind (s.cursorBlock t)

/-- The centring block of a non-empty buffer: of 4 or more blocks, the oldest whose sequence is newest - 3 or later; of
fewer, the oldest (R36). -/
def centringBlock (buffer : List LaneBlock) : Option LaneBlock :=
  match buffer.getLast? with
  | none => none
  | some newest =>
    if 4 ≤ buffer.length then buffer.find? fun b => b.seq = newest.seq - 3 || later b.seq (newest.seq - 3)
    else buffer.head?

/-- The align-wait count of a SWITCHING trunk advances at an instant that does not complete the switch; at 16 the expiry
is reported (R38). -/
def State.advanceAlignWait (s : State) (t : Trunk) : State × List ReportKind :=
  let x := (s.trunk t).sel
  if x.mode = .switching then
    (s.modSel t fun y => { y with alignWait := y.alignWait + 1 },
      if x.alignWait + 1 = alignWaitLimit then [.alignWaitExpiry] else [])
  else (s, [])

/-- An instant of a trunk in CARRYING or SWITCHING with centring set (R36, R38). -/
def State.emitCentring (s : State) (t : Trunk) : State × List ReportKind :=
  let x := s.trunk t
  let members := s.members t
  let s := s.modEm t fun e => { e with misalign := 0 }
  let s :=
    match x.sel.active.bind fun a => centringBlock (s.bufferFor t a) with
    | some b => (s.modEm t fun e => { e with centring := false }).emit t b true .fromActive members
    | none => s.emit t x.em.fillBlock false .fill (members.filter fun l => some l != x.sel.active)
  s.advanceAlignWait t

/-- Step 3 of R33: mend or fill, the misalignment run advancing; and step 5: at 4 alignment loss is reported and the run
becomes 0 (R37). -/
def State.emitMisaligned (s : State) (t : Trunk) (statuses : List (Lane × AlignStatus)) : State × List ReportKind :=
  let x := s.trunk t
  let members := s.members t
  let block := if x.charter.terms.mend then s.mendBlock t else none
  let lossDue := x.em.misalign + 1 = misalignLimit
  let s := s.modEm t fun e => { e with misalign := if lossDue then 0 else e.misalign + 1 }
  let s :=
    match block with
    | some b => s.emit t b false .mended members
    | none => s.emit t x.em.fillBlock false .fill members
  let r := s.advanceAlignWait t
  (r.1, (if lossDue then [.alignmentLoss x.sel.active statuses] else []) ++ r.2)

/-- An instant of a trunk in CARRYING or SWITCHING with centring clear (R33). -/
def State.emitCarrying (s : State) (t : Trunk) (statuses : List (Lane × AlignStatus)) : State × List ReportKind :=
  let x := s.trunk t
  let members := s.members t
  let ofTarget := if x.sel.mode = .switching then x.sel.target.bind (s.cursorBlock t) else none
  let aligned := s.modEm t fun e => { e with misalign := 0 }
  match ofTarget, x.sel.target with
  | some b, some target => (aligned.emit t b false .fromActive members, [.completion target])
  | _, _ =>
    match x.sel.active.bind (s.cursorBlock t) with
    | some b => (aligned.emit t b false .fromActive members).advanceAlignWait t
    | none => s.emitMisaligned t statuses

/-- The judgement of a pending immediate switch (R35). -/
def State.judgeImmediate (s : State) (t : Trunk) : State × List ReportKind :=
  let x := s.trunk t
  if x.em.immediatePending then
    let hitless := !x.em.centring && (x.sel.active.bind (s.cursorBlock t)).isSome
    (s.modEm t fun e => { e with immediatePending := false, centring := !hitless },
      [.judgement x.sel.active (if hitless then .hitless else .hit)])
  else (s, [])

/-- The statuses of the trunk's members against the cursor (R31). -/
def State.judged (s : State) (t : Trunk) : List (Lane × AlignStatus) :=
  (s.members t).map fun l => (l, alignStatus (s.trunk t).em.cursor (s.bufferFor t l))

/-- The judged status is recorded as each member's last alignment status (R31). -/
def State.recordStatuses (s : State) (statuses : List (Lane × AlignStatus)) : State :=
  statuses.foldl (fun s e => s.modLane e.1 fun x => { x with status := e.2 }) s

/-- The emission steps of a trunk that is not DISABLED, and the reports handed to its selector, in order (R30 to R38). -/
def State.emissionSteps (s : State) (t : Trunk) : State × List ReportKind :=
  let statuses := s.judged t
  let s := s.recordStatuses statuses
  if (s.trunk t).sel.mode = .starved then
    let x := s.trunk t
    let s := s.modEm t fun e => { e with misalign := 0 }
    (s.emit t x.em.fillBlock false .fill (s.members t), [])
  else
    let j := s.judgeImmediate t
    let r := if (j.1.trunk t).em.centring then j.1.emitCentring t else j.1.emitCarrying t statuses
    (r.1, j.2 ++ r.2)

/-- Whether a report is handled within EMISSION_INSTANT itself; alignment loss and align-wait expiry are rows of their
own, taken within the same instant (log entry 5). -/
def ReportKind.within : ReportKind → Bool
  | .judgement _ _ => true
  | .completion _ => true
  | .alignmentLoss _ _ => false
  | .alignWaitExpiry => false

/-- Whether a report is handed on before the emission of its instant: the judgement alone is (R35, R99). -/
def ReportKind.beforeEmission : ReportKind → Bool
  | .judgement _ _ => true
  | .completion _ => false
  | .alignmentLoss _ _ => false
  | .alignWaitExpiry => false

/-- One emission instant of a trunk (R30, R88). What the selector offers because of a report comes after what the emitter had
offered when it handed the report on (R149): at the instant itself the gap run of the emission (R40), but for the judgement. -/
def State.instant (s : State) (t : Trunk) : State :=
  let r := s.emissionSteps t
  let reports := r.2.map fun k =>
    ({ kind := k, after := (if k.beforeEmission then s else r.1).handOn (.emitter t) [] } : Report)
  let s := r.1.modTrunk t fun x => { x with reports := reports.filter fun k => !k.kind.within }
  s.takeReports t (reports.filter fun k => k.kind.within)

/-! ## The rows -/

/-- The instant of a trunk in the timebase: reports of the instant before are taken first. At the instant of a DISABLED
trunk nothing is emitted, and a block it was sending when it entered DISABLED has been completed (R42; log entry 19). -/
def State.emissionInstant (s : State) (t : Trunk) : State :=
  let s := s.settleTrunk t
  let s : State := { s with instantTaken := s.instantTaken.set t.val true }
  if (s.trunk t).sel.mode = .disabled then s.modEm t fun e => { e with td := none } else s.instant t

/-- EMISSION_INSTANT (R30). -/
def execEmissionInstant (t : Trunk) (s : State) : Host.Outcome State Fault Refusal :=
  .next (if s.running then s.emissionInstant t else s)

/-- ALIGNMENT_LOSS (R100): the report of the latest instant is taken. -/
def execAlignmentLoss (t : Trunk) (s : State) : Host.Outcome State Fault Refusal :=
  .next (if s.rstnLow then s else
    match (s.trunk t).reports with
    | ⟨.alignmentLoss a st, after⟩ :: rest =>
      (s.modTrunk t fun x => { x with reports := rest }).takeReport t ⟨.alignmentLoss a st, after⟩
    | _ => s)

/-- ALIGN_WAIT_EXPIRY (R98): the report of the latest instant is taken, after an alignment loss of the same instant
(R38, R103). -/
def execAlignWaitExpiry (t : Trunk) (s : State) : Host.Outcome State Fault Refusal :=
  .next (if s.rstnLow then s else
    if (s.trunk t).reports.any fun r => r.kind = .alignWaitExpiry then s.settleTrunk t else s)

/-- One outstanding trigger is taken and one evaluation made (R74). -/
def State.takeTrigger (s : State) (g : Trigger) : State :=
  let s := s.settleTrunk g.trunk
  let s : State := { s with triggers := s.triggers.erase g }
  s.evaluate g.trunk g.kind g.after

/-- TRIGGER_EVALUATION (R74, R80). Triggers are taken during HALT too (R91), and none while RSTn is low. -/
def execTriggerEvaluation (t : Trunk) (choice : Nat) (s : State) : Host.Outcome State Fault Refusal :=
  .next (if s.rstnLow then s else
    match (s.readyTriggers t)[choice]? with
    | none => s
    | some g => s.takeTrigger g)

/-- The expiry of a hold-off timer that has run out: it becomes IDLE, and the expiry is evaluated with the gate open
(R79). Without such a timer nothing happens. What is offered then comes after no offer made before the timer started (R149; log
entry 34). A timer that runs out after the store has installed a charter and before the install's trigger is evaluated, which makes
it IDLE (R87), expires too, and is evaluated under the new charter (R74), where R52 has it not finish under its old time and R90's
last row has an expiry act under the old charter: the model's choice (log entry 40). -/
def State.holdOffExpires (s : State) (t : Trunk) : State :=
  let settled := s.settleTrunk t
  if (settled.trunk t).sel.holdOff = .running 0 then
    (settled.modSel t fun x => { x with holdOff := .idle }).evaluate t .holdOffExpiry []
  else s

/-- HOLD_OFF_EXPIRY (R79); none is taken during HALT. -/
def execHoldOffExpiry (t : Trunk) (s : State) : Host.Outcome State Fault Refusal :=
  .next (if s.running then s.holdOffExpires t else s)

/-- The expiry of a restore timer that has run out: it becomes DUE with its candidate, and the expiry is evaluated (R79).
Without such a timer nothing happens. The order of what is offered then is as at a hold-off expiry (log entry 34), and so is an
expiry between an install and the evaluation of its trigger (R52, R90; the model's choice, log entry 40). -/
def State.restoreExpires (s : State) (t : Trunk) : State :=
  let settled := s.settleTrunk t
  match (settled.trunk t).sel.restore with
  | .running c 0 =>
    let s := (settled.modSel t fun x => { x with restore := .due c }).evaluate t .restoreExpiry []
    { s with freeCount := s.freeCount + 1 }
  | _ => s

/-- RESTORE_WAIT_EXPIRY (R79); none is taken during HALT. -/
def execRestoreWaitExpiry (t : Trunk) (s : State) : Host.Outcome State Fault Refusal :=
  .next (if s.running then s.restoreExpires t else s)

end Sys2Proof.Machine
end

