-- ==== Sys2Proof/Machine/Formats.lean ====
section
/-! DEFINITION. The codes of 11.6 and the layouts of responses, entries, status octets and the scan frame (R162, R174 to
R176; 11.3 to 11.5). -/

namespace Sys2Proof.Machine

/-! ## Octet fields -/

/-- A number as n octets, most significant first (R174). -/
def be : Nat → Nat → List Octet
  | 0, _ => []
  | n + 1, v => BitVec.ofNat 8 (v / 256 ^ n) :: be n v

/-- One octet. -/
def oct (v : Nat) : Octet := BitVec.ofNat 8 v

/-- A yes/no or clear/set octet (R175). -/
def flagOctet (b : Bool) : Octet := if b then 1 else 0

/-- Lane, trunk and port octets: none as 0xFF (R175). -/
def laneOctet : Option Lane → Octet
  | some l => oct l.val
  | none => 0xFF
def trunkOctet : Option Trunk → Octet
  | some t => oct t.val
  | none => 0xFF
def portOctet : Option Port → Octet
  | some p => oct p.val
  | none => 0xFF

/-- A set of ports: bit k for Pk (R175). -/
def PortSet.octet (ps : PortSet) : Octet :=
  (allPorts.foldl (fun n p => if PortSet.has ps p then n + 2 ^ p.val else n) 0 |> oct)

/-- A sequence field: none as 0xFFFF (R175). -/
def seqOctets : Option SeqNo → List Octet
  | some q => be 2 q.toNat
  | none => [0xFF, 0xFF]

def countOctets (c : Count) : List Octet := be 4 c.toNat

/-! ## Codes (11.6) -/

def PortMode.code : PortMode → Nat
  | .offline => 0
  | .attached => 1
  | .lapsed => 2

def LockState.code : LockState → Nat
  | .dark => 0
  | .hunt => 1
  | .confirm => 2
  | .locked => 3
  | .coast => 4

def Grade.code : Grade → Nat
  | .good => 0
  | .degraded => 1
  | .failed => 2

def AlignStatus.code : AlignStatus → Nat
  | .aligned => 0
  | .behind => 1
  | .ahead => 2
  | .missing => 3
  | .empty => 4

def TrunkMode.code : TrunkMode → Nat
  | .disabled => 0
  | .starved => 1
  | .carrying => 2
  | .switching => 3

def Cause.code : Cause → Nat
  | .start => 0
  | .starve => 1
  | .health => 2
  | .bar => 3
  | .membership => 4
  | .hold => 5
  | .ballot => 6
  | .revert => 7
  | .alignLoss => 8
  | .slip => 9
  | .resume => 10
  | .disable => 11

def SwitchKind.code : SwitchKind → Nat
  | .hitless => 0
  | .hit => 1
  | .nil => 2

def Closing.code : Closing → Nat
  | .rejected => 1
  | .withdrawn => 2
  | .voided => 3
  | .expired => 4

def Reason.code : Reason → Nat
  | .dissent => 1
  | .withdraw => 2
  | .lapse => 3
  | .detach => 4
  | .portReset => 5
  | .deadline => 6

def EventClass.code : EventClass → Nat
  | .lane => 1
  | .trunk => 2
  | .claim => 3
  | .charter => 4
  | .port => 5
  | .device => 6

def Code.code : Code → Octet
  | .accepted => 0x00
  | .installed => 0x01
  | .unknownCommand => 0x80
  | .frameError => 0x81
  | .short => 0x82
  | .notAttached => 0x83
  | .alreadyAttached => 0x84
  | .badLease => 0x85
  | .noSuchLane => 0x86
  | .noSuchTrunk => 0x87
  | .noSuchPort => 0x88
  | .badValue => 0x89
  | .notOwner => 0x8A
  | .notMember => 0x8B
  | .heldByOther => 0x8C
  | .noHold => 0x8D
  | .barred => 0x8E
  | .notBarred => 0x8F
  | .notStale => 0x90
  | .barsHeld => 0x91
  | .badCharter => 0x92
  | .notParty => 0x93
  | .proposalOpen => 0x94
  | .laneTaken => 0x95
  | .laneContested => 0x96
  | .noProposal => 0x97
  | .wrongProposal => 0x98

/-! ## Events (9.1, 11.5) -/

/-- Class, kind code, and whether the kind is a clear (9.1, 11.6). -/
def Event.kind : Event → EventClass × Nat × Bool
  | .gradeWorse _ _ _ _ _ _ => (.lane, 1, false)
  | .gradeBetter _ _ _ _ _ _ => (.lane, 2, true)
  | .switched _ _ _ _ _ _ => (.trunk, 1, false)
  | .starved _ _ _ => (.trunk, 2, false)
  | .gapRunBegin _ _ _ => (.trunk, 3, false)
  | .fed _ _ => (.trunk, 4, true)
  | .gapRunEnd _ _ _ => (.trunk, 5, true)
  | .holdDormant _ _ _ _ _ _ => (.claim, 1, false)
  | .barPlaced _ _ _ _ => (.claim, 2, false)
  | .claimDropped _ _ _ _ _ _ => (.claim, 3, false)
  | .claimDiscarded _ _ _ _ _ => (.claim, 4, false)
  | .favouredChanged _ _ _ _ _ => (.claim, 5, false)
  | .holdActive _ _ _ _ _ _ => (.claim, 6, true)
  | .barLifted _ _ _ _ _ => (.claim, 7, true)
  | .proposed _ _ _ _ _ _ => (.charter, 1, false)
  | .installed _ _ _ _ _ => (.charter, 2, false)
  | .closed _ _ _ _ _ _ => (.charter, 3, false)
  | .peerLapsed _ _ _ => (.port, 1, false)
  | .peerDetached _ _ => (.port, 2, false)
  | .peerReset _ _ _ => (.port, 3, false)
  | .selfLapsed _ _ _ => (.port, 4, false)
  | .peerAttached _ _ _ => (.port, 5, true)
  | .haltEnded _ _ => (.device, 1, false)

def Event.cls (e : Event) : EventClass := e.kind.1
def Event.kindCode (e : Event) : Nat := e.kind.2.1
def Event.isClear (e : Event) : Bool := e.kind.2.2

/-- The subject octet (11.5). -/
def Event.subject : Event → Octet
  | .gradeWorse l _ _ _ _ _ => oct l.val
  | .gradeBetter l _ _ _ _ _ => oct l.val
  | .switched t _ _ _ _ _ => oct t.val
  | .starved t _ _ => oct t.val
  | .gapRunBegin t _ _ => oct t.val
  | .fed t _ => oct t.val
  | .gapRunEnd t _ _ => oct t.val
  | .holdDormant t _ _ _ _ _ => oct t.val
  | .barPlaced l _ _ _ => oct l.val
  | .claimDropped t _ _ _ _ _ => oct t.val
  | .claimDiscarded t _ _ _ _ => oct t.val
  | .favouredChanged t _ _ _ _ => oct t.val
  | .holdActive t _ _ _ _ _ => oct t.val
  | .barLifted l _ _ _ _ => oct l.val
  | .proposed t _ _ _ _ _ => oct t.val
  | .installed t _ _ _ _ => oct t.val
  | .closed t _ _ _ _ _ => oct t.val
  | .peerLapsed p _ _ => oct p.val
  | .peerDetached p _ => oct p.val
  | .peerReset p _ _ => oct p.val
  | .selfLapsed p _ _ => oct p.val
  | .peerAttached p _ _ => oct p.val
  | .haltEnded _ _ => 0xFF

/-- The detail fields in order (11.5). -/
def Event.detail : Event → List Octet
  | .gradeWorse _ prev new lock fill degrade =>
    [oct prev.code, oct new.code, oct lock.code, flagOctet fill, flagOctet degrade]
  | .gradeBetter _ prev new lock fill degrade =>
    [oct prev.code, oct new.code, oct lock.code, flagOctet fill, flagOctet degrade]
  | .switched _ cause src dst kind v =>
    [oct cause.code, laneOctet src, laneOctet dst, oct kind.code] ++ be 2 v.toNat
  | .starved _ cause src => [oct cause.code, laneOctet src]
  | .gapRunBegin _ q a => seqOctets q ++ [laneOctet a]
  | .fed _ a => [laneOctet (some a), oct Cause.start.code]
  | .gapRunEnd _ q a => seqOctets q ++ [laneOctet a]
  | .holdDormant _ l p session g barred =>
    [laneOctet (some l), portOctet (some p), session, oct g.code, flagOctet barred]
  | .barPlaced _ p bars t => [portOctet (some p), PortSet.octet bars, trunkOctet t]
  | .claimDropped _ p session b h cause =>
    [portOctet (some p), session, laneOctet b, laneOctet h, oct cause.code]
  | .claimDiscarded _ isHold p l v => [flagOctet isHold, portOctet (some p), laneOctet (some l)] ++ be 2 v.toNat
  | .favouredChanged _ prev new n v => [laneOctet prev, laneOctet new, oct n] ++ be 2 v.toNat
  | .holdActive _ l p session g barred =>
    [laneOctet (some l), portOctet (some p), session, oct g.code, flagOctet barred]
  | .barLifted _ p issuer bars t => [portOctet (some p), portOctet (some issuer), PortSet.octet bars, trunkOctet t]
  | .proposed _ n p session required m =>
    be 2 n.toNat ++ [portOctet (some p), session, PortSet.octet required, oct m]
  | .installed _ v n p m => be 2 v.toNat ++ be 2 n.toNat ++ [portOctet (some p), oct m]
  | .closed _ n outcome p reason concurred =>
    be 2 n.toNat ++ [oct outcome.code, portOctet p, oct reason.code, PortSet.octet concurred]
  | .peerLapsed _ session lease => [session, lease]
  | .peerDetached _ session => [session]
  | .peerReset _ left session => [oct left.code, session]
  | .selfLapsed _ session lease => [session, lease]
  | .peerAttached _ session left => [session, oct left.code]
  | .haltEnded ms n => be 2 ms ++ countOctets n

/-- A list of octets filled up to n with 0x00 (R175: octets after the last field of a detail). -/
def padZeros (n : Nat) (os : List Octet) : List Octet := os ++ List.replicate (n - os.length) 0

/-- The 16 octets of a queue entry (11.5). -/
def Entry.octets : Entry → List Octet
  | .note n e time =>
    be 2 n.toNat ++ [oct e.cls.code, oct e.kindCode, e.subject] ++ padZeros 7 e.detail ++ countOctets time
  | .lost n count time latest =>
    be 2 n.toNat ++ [0x0F, 0x00, 0xFF] ++ be 2 count ++ countOctets latest ++ [0x00] ++ countOctets time

/-! ## Responses and status octets (11.3) -/

/-- A response frame (11.3). -/
def Response.octets (r : Response) : List Octet := [oct r.result.length, r.tag, r.code, r.outcome.code] ++ r.result

/-- The two status octets of a port, as captured when PCSn falls (R129, 11.3). -/
def State.statusOctets (s : State) (p : Port) : List Octet :=
  let x := s.port p
  [oct (x.mode.code * 64 + (if x.response.isSome then 32 else 0) + (if x.busyDrop then 16 else 0) +
      (if s.halted then 8 else 0)),
    oct x.queue.length]

/-! ## The scan frame (R162, 11.5) -/

/-- A trunk's scan octet: state in bits 7 to 6, gap flag in bit 5, active lane in bits 4 to 0, none as 31. -/
def scanOctet (x : TrunkState) : Octet :=
  oct (x.sel.mode.code * 64 + (if x.em.gapRun then 32 else 0) +
    match x.sel.active with
    | some l => l.val
    | none => 31)

/-- The scan frame: the start octet, then one octet per trunk, T0 first (R162). -/
def State.scanFrame (s : State) : List Octet := 0xE7 :: allTrunks.map fun t => scanOctet (s.trunk t)

end Sys2Proof.Machine
end

