-- ==== Sys2Proof/Machine/Fetch.lean ====
section
/-! DEFINITION. Transactions on a port (R128, R129): PCSn falling, octets clocked, PCSn rising; and FETCH (R133, R134, R157,
R158). -/

namespace Sys2Proof.Machine

/-! ## PCSn falls -/

/-- An entry position begins: the oldest entry then in the queue is taken, or the queue is found empty (R157). -/
def entryPhase (queue : List Entry) : Phase :=
  match queue with
  | e :: _ => .entry e e.octets
  | [] => .zeros

/-- What follows the status octets: zeros in a transaction that is ignored or no FETCH (R128, R130) and in HALT (R134), else the
response that was waiting, or the entries. -/
def Transaction.afterStatus (f : Transaction) (queue : List Entry) : Phase :=
  if f.halted || f.ignored || f.isFetch != some true then .zeros
  else match f.response with
    | some os => .response os
    | none => entryPhase queue

/-- A transaction as it stands when PCSn falls (R129, R134). One that begins while PRSTn is low is ignored (R141), and stays so
to its end (log entry 15); its octets are those of any ignored transaction (R128). -/
def State.openTransaction (s : State) (p : Port) : Transaction :=
  let x := s.port p
  { phase := .status (s.statusOctets p), isFetch := none
    response := if s.halted then none else x.response.map Response.octets
    halted := s.halted, responseSent := false, ignored := x.prstnLow }

/-- A transaction that forms no frame and delivers nothing because of PRSTn: a port reset has abandoned it, or it began while PRSTn
was low (R141). -/
def Transaction.unheard (f : Transaction) : Bool := f.ignored || f.phase = .abandoned

/-- PCSn falls. While RSTn is low no transaction begins (R147), nor does one begin when RSTn rises with PCSn low (log entry 31). -/
def State.startTransaction (s : State) (p : Port) : State :=
  if s.rstnLow || (s.port p).transaction.isSome then s
  else
    let f := s.openTransaction p
    s.modPort p fun x => { x with transaction := some f, psdo := [] }

/-! ## Octets -/

/-- One whole octet of a transaction is clocked: the octet it sends while PRSTn is high, and the port record afterwards. An entry
leaves the queue at its 16th octet (R158). -/
def PortState.clockOctet (x : PortState) (f : Transaction) : Octet × PortState :=
  match f.phase with
  | .status (o :: rest) =>
    let next := if rest.isEmpty then f.afterStatus x.queue else .status rest
    (o, { x with transaction := some { f with phase := next } })
  | .response (o :: rest) =>
    if rest.isEmpty then
      (o, { x with transaction := some { f with phase := entryPhase x.queue, responseSent := true } })
    else (o, { x with transaction := some { f with phase := .response rest } })
  | .entry e (o :: rest) =>
    if rest.isEmpty then
      (o, { x with queue := x.queue.drop 1, transaction := some { f with phase := entryPhase (x.queue.drop 1) } })
    else (o, { x with transaction := some { f with phase := .entry e rest } })
  | .status [] => (0, { x with transaction := some f })
  | .response [] => (0, { x with transaction := some f })
  | .entry _ [] => (0, { x with transaction := some f })
  | .zeros => (0, { x with transaction := some f })
  | .abandoned => (0xFF, { x with transaction := some f })

/-- What PSDO carries in place of the octets of a transaction: while PRSTn is low it is held high (R128, R141). -/
def PortState.onPin (x : PortState) (octets : List Octet) : List Octet :=
  if x.prstnLow then List.replicate octets.length 0xFF else octets

/-- One whole octet is clocked in a transaction. In one that a port reset abandoned the octets are free once PRSTn is high again (log
entry 15). -/
def State.clockTransaction (s : State) (p : Port) (f : Transaction) : State :=
  if f.phase = .abandoned ∧ (s.port p).prstnLow = false then
    let o := Config.freeOctet s.freeCount
    let s : State := { s with freeCount := s.freeCount + 1 }
    s.modPort p fun x => { x with transaction := some f, psdo := x.psdo ++ [o] }
  else
    let r := (s.port p).clockOctet f
    s.setPort p { r.2 with psdo := r.2.psdo ++ (s.port p).onPin [r.1] }

/-- One whole octet is clocked in a transaction of the kind given. The first tells the kind, and a later octet of another kind
does not come (R128; log entry 3). -/
def State.clockOne (s : State) (p : Port) (isFetch : Bool) : State :=
  match (s.port p).transaction with
  | none => s
  | some f => if f.isFetch = some !isFetch then s else s.clockTransaction p { f with isFetch := some isFetch }

/-- Octets are clocked one after another. -/
def State.clockOctets (s : State) (p : Port) (isFetch : Bool) : Nat → State
  | 0 => s
  | n + 1 => (s.clockOne p isFetch).clockOctets p isFetch n

/-! ## PCSn rises -/

/-- PCSn rises at the end of a FETCH, or before the first octet is complete: a response whose last octet has been clocked out is
removed (R134). -/
def State.stopFetch (s : State) (p : Port) : State :=
  match (s.port p).transaction with
  | none => s
  | some f =>
    if f.isFetch = some false then s
    else s.modPort p fun x => { x with transaction := none, response := if f.responseSent then none else x.response }

/-- A whole FETCH transaction of n octets. With another transaction in progress on the port, or RSTn low, there is none. -/
def State.wholeFetch (s : State) (p : Port) (n : Nat) : State :=
  if s.rstnLow || (s.port p).transaction.isSome then s
  else ((s.startTransaction p).clockOctets p true n).stopFetch p

/-- A transaction that is no FETCH and has n octets in all can end on the port: none is in progress and it is given whole, or the
one in progress is of that kind, or of none yet, and has not carried more octets (log entries 3 and 11). -/
def PortState.canEnd (x : PortState) (n : Nat) : Bool :=
  match x.transaction with
  | none => true
  | some f => f.isFetch != some true && x.psdo.length ≤ n

/-- The octets PSDO has carried in the transaction that ends. -/
def PortState.carried (x : PortState) : List Octet := if x.transaction.isSome then x.psdo else []

/-- What PSDO still carries in the n octets left of a transaction that is no FETCH: the status octets left, then 0x00 (R128,
R130). -/
def Transaction.plainOctets (f : Transaction) (n : Nat) : List Octet :=
  match f.phase with
  | .status left => (left ++ List.replicate (n - left.length) 0).take n
  | .response _ => List.replicate n 0
  | .entry _ _ => List.replicate n 0
  | .zeros => List.replicate n 0
  | .abandoned => List.replicate n 0xFF

/-- The transaction that ends on the port: the one in progress, or one given whole (log entry 11). -/
def State.ending (s : State) (p : Port) : Transaction := (s.port p).transaction.getD (s.openTransaction p)

/-- PCSn rises at the end of a transaction of n octets in all that is no FETCH: the octets left have been clocked, and the
transaction is over. -/
def State.endTransaction (s : State) (p : Port) (n : Nat) : State :=
  let f := s.ending p
  let left := n - (s.port p).carried.length
  if f.phase = .abandoned ∧ (s.port p).prstnLow = false then
    let os := (List.range left).map fun i => Config.freeOctet (s.freeCount + i)
    let s : State := { s with freeCount := s.freeCount + left }
    s.modPort p fun x => { x with transaction := none, psdo := x.carried ++ os }
  else s.modPort p fun x => { x with transaction := none, psdo := x.carried ++ x.onPin (f.plainOctets left) }

/-! ## HALT, and the row -/

/-- A transaction when HALT is declared. The rest of a FETCH delivers 0x00 (R134, R158); one whose kind octet has not come sends
its status octets, and any other goes on, one that PRSTn has made the part ignore among them (R128, R129; log entry 14). -/
def Transaction.cut (f : Transaction) : Transaction :=
  if f.isFetch = some true ∧ f.unheard = false then { f with phase := .zeros } else { f with halted := true }

/-- FETCH (R134), whole or in its parts (log entries 11 and 14). It is taken in every port state, and in HALT it removes
nothing. -/
def execFetch (p : Port) (part : FetchPart) (s : State) : Host.Outcome State Fault Refusal :=
  .next (match part with
    | .whole n => s.wholeFetch p n
    | .start => s.startTransaction p
    | .clock n => if s.rstnLow then s else s.clockOctets p true n
    | .pass n => if s.rstnLow then s else s.clockOctets p false n
    | .stop => if s.rstnLow then s else s.stopFetch p)

end Sys2Proof.Machine
end

