-- ==== Sys2Proof/Machine/Frames.lean ====
section
/-! DEFINITION. COMMAND frames (R130): the frame check, the codes and operand layouts of 11.3, how the port judges a frame,
and the frame a controller sends for a command. -/

namespace Sys2Proof.Machine

/-- One bit of the frame check's register (R130). -/
def crc8Bit (r : Octet) : Octet := if r.msb then (r <<< 1) ^^^ 0x07 else r <<< 1

/-- One octet of the frame check (R130). -/
def crc8Octet (r o : Octet) : Octet :=
  crc8Bit (crc8Bit (crc8Bit (crc8Bit (crc8Bit (crc8Bit (crc8Bit (crc8Bit (r ^^^ o))))))))

/-- The frame check over octets in the order received: register starting at 0x00, no inversion (R130). -/
def crc8 (octets : List Octet) : Octet := octets.foldl crc8Octet 0x00

/-- The command code (11.3). -/
def Command.code : Command → Octet
  | .attach _ => 0x10
  | .renew => 0x11
  | .detach => 0x12
  | .queryDevice => 0x20
  | .queryPorts => 0x21
  | .queryLane _ => 0x22
  | .queryTrunk _ => 0x23
  | .queryHistory _ => 0x24
  | .subscribe _ _ => 0x30
  | .setDegrade _ _ _ => 0x38
  | .clearLaneCounters _ => 0x39
  | .ballot _ _ => 0x40
  | .hold _ _ => 0x41
  | .release _ => 0x42
  | .bar _ => 0x48
  | .lift _ => 0x49
  | .liftStale _ _ => 0x4A
  | .propose _ _ _ _ _ _ _ _ _ _ => 0x50
  | .concur _ _ => 0x51
  | .dissent _ _ => 0x52
  | .withdraw _ _ => 0x53

/-- The operand octets in order (11.3). -/
def Command.operands : Command → List Octet
  | .attach lease => [lease]
  | .renew => []
  | .detach => []
  | .queryDevice => []
  | .queryPorts => []
  | .queryLane lane => [lane]
  | .queryTrunk trunk => [trunk]
  | .queryHistory trunk => [trunk]
  | .subscribe cls mode => [cls, mode]
  | .setDegrade lane set clear => [lane, highOctet set, lowOctet set, highOctet clear, lowOctet clear]
  | .clearLaneCounters lane => [lane]
  | .ballot trunk lane => [trunk, lane]
  | .hold trunk lane => [trunk, lane]
  | .release trunk => [trunk]
  | .bar lane => [lane]
  | .lift lane => [lane]
  | .liftStale lane port => [lane, port]
  | .propose trunk count m1 m2 m3 m4 revertive mend holdOff restoreWait =>
    [trunk, count, m1, m2, m3, m4, revertive, mend, holdOff, highOctet restoreWait, lowOctet restoreWait]
  | .concur trunk n => [trunk, highOctet n, lowOctet n]
  | .dissent trunk n => [trunk, highOctet n, lowOctet n]
  | .withdraw trunk n => [trunk, highOctet n, lowOctet n]

/-- The number of operand octets of a known code (11.3). -/
def operandCount (code : Octet) : Option Nat :=
  match code.toNat with
  | 0x10 => some 1
  | 0x11 => some 0
  | 0x12 => some 0
  | 0x20 => some 0
  | 0x21 => some 0
  | 0x22 => some 1
  | 0x23 => some 1
  | 0x24 => some 1
  | 0x30 => some 2
  | 0x38 => some 5
  | 0x39 => some 1
  | 0x40 => some 2
  | 0x41 => some 2
  | 0x42 => some 1
  | 0x48 => some 1
  | 0x49 => some 1
  | 0x4A => some 2
  | 0x50 => some 11
  | 0x51 => some 3
  | 0x52 => some 3
  | 0x53 => some 3
  | _ => none

/-- A two-octet operand, most significant octet first (R174). -/
def joinOctets (hi lo : Octet) : Pair := hi ++ lo

/-- The command of a known code and its operand octets (11.3). -/
def parseCommand (code : Octet) (ops : List Octet) : Option Command :=
  match code.toNat, ops with
  | 0x10, [lease] => some (.attach lease)
  | 0x11, [] => some .renew
  | 0x12, [] => some .detach
  | 0x20, [] => some .queryDevice
  | 0x21, [] => some .queryPorts
  | 0x22, [lane] => some (.queryLane lane)
  | 0x23, [trunk] => some (.queryTrunk trunk)
  | 0x24, [trunk] => some (.queryHistory trunk)
  | 0x30, [cls, mode] => some (.subscribe cls mode)
  | 0x38, [lane, s1, s0, c1, c0] => some (.setDegrade lane (joinOctets s1 s0) (joinOctets c1 c0))
  | 0x39, [lane] => some (.clearLaneCounters lane)
  | 0x40, [trunk, lane] => some (.ballot trunk lane)
  | 0x41, [trunk, lane] => some (.hold trunk lane)
  | 0x42, [trunk] => some (.release trunk)
  | 0x48, [lane] => some (.bar lane)
  | 0x49, [lane] => some (.lift lane)
  | 0x4A, [lane, port] => some (.liftStale lane port)
  | 0x50, [trunk, count, m1, m2, m3, m4, revertive, mend, holdOff, r1, r0] =>
    some (.propose trunk count m1 m2 m3 m4 revertive mend holdOff (joinOctets r1 r0))
  | 0x51, [trunk, n1, n0] => some (.concur trunk (joinOctets n1 n0))
  | 0x52, [trunk, n1, n0] => some (.dissent trunk (joinOctets n1 n0))
  | 0x53, [trunk, n1, n0] => some (.withdraw trunk (joinOctets n1 n0))
  | _, _ => none

/-- How a port judges a frame taken into its command slot (R130). -/
inductive Judgement where
  /-- SHORT, FRAME-ERROR or UNKNOWN-COMMAND, with the tag and code to return. -/
  | bad (outcome : Code) (tag code : Octet)
  /-- A valid frame. -/
  | valid (tag : Octet) (c : Command)
deriving DecidableEq, Repr

/-- The frame length of the received code: four octets and the operands; an unknown code has none, and a frame without a
code is judged against length 4 (R130). -/
def frameLength (octets : List Octet) : Nat :=
  4 + (octets[2]?.bind operandCount).getD 0

/-- The judgement of R130, from the whole octets received, kind octet first. Octets beyond the frame length are ignored. -/
def judgeFrame (octets : List Octet) : Judgement :=
  let tag := octets[1]?.getD 0
  let code := octets[2]?.getD 0
  let n := frameLength octets
  if octets.length < n then .bad .short tag code
  else if octets[n - 1]? ≠ some (crc8 (octets.take (n - 1))) then .bad .frameError tag code
  else
    match parseCommand code ((octets.take (n - 1)).drop 3) with
    | some c => .valid tag c
    | none => .bad .unknownCommand tag code

/-- The frame of a command with a tag, as a controller sends it (11.3). -/
def commandFrame (tag : Octet) (c : Command) : List Octet :=
  let body := [kindCommand, tag, c.code] ++ c.operands
  body ++ [crc8 body]

end Sys2Proof.Machine
end

