-- ==== Sys2Proof/Machine/Operands.lean ====
section
/-! DEFINITION. The operands of a command frame, judged as unsigned numbers against their ranges (R174, R175), and the
validity of a proposed charter (R46). -/

namespace Sys2Proof.Machine

/-- A lane operand that must name a lane (R175). -/
def laneOperand (o : Octet) : Option Lane :=
  if h : o.toNat < 16 then some ⟨o.toNat, h⟩ else none

/-- A lane operand that may be none, 0xFF (R175): `some none` is none, `none` is out of range. -/
def laneOrNone (o : Octet) : Option (Option Lane) :=
  if o = 0xFF then some none else (laneOperand o).map some

/-- A trunk operand (R175). -/
def trunkOperand (o : Octet) : Option Trunk :=
  if h : o.toNat < 8 then some ⟨o.toNat, h⟩ else none

/-- A port operand (R175). -/
def portOperand (o : Octet) : Option Port :=
  if h : o.toNat < 4 then some ⟨o.toNat, h⟩ else none

/-- A subscription class code: 1 to 6 (11.6). -/
def classOperand (o : Octet) : Option EventClass :=
  match o.toNat with
  | 1 => some .lane
  | 2 => some .trunk
  | 3 => some .claim
  | 4 => some .charter
  | 5 => some .port
  | 6 => some .device
  | _ => none

/-- A subscription mode code: 0 to 2 (11.6). -/
def modeOperand (o : Octet) : Option SubMode :=
  match o.toNat with
  | 0 => some .off
  | 1 => some .onset
  | 2 => some .both
  | _ => none

/-- A yes/no operand octet: 1 or 0 (R46, R175). -/
def flagOperand (o : Octet) : Option Bool :=
  if o = 0 then some false else if o = 1 then some true else none

/-- The lanes of member octets, each of which must name a lane (R46). -/
def memberLanes : List Octet → Option (List Lane)
  | [] => some []
  | o :: os =>
    match laneOperand o, memberLanes os with
    | some l, some ls => some (l :: ls)
    | _, _ => none

/-- No lane appears twice (R46). -/
def distinctLanes : List Lane → Bool
  | [] => true
  | l :: ls => !ls.contains l && distinctLanes ls

/-- The charter of PROPOSE operands when it is valid (R46). Member octets beyond the count are not read. -/
def charterOperand (count : Octet) (memberOctets : List Octet) (revertive mend holdOff : Octet) (restoreWait : Pair) :
    Option CharterTerms :=
  if count.toNat ≤ 4 then
    match memberLanes (memberOctets.take count.toNat), flagOperand revertive, flagOperand mend with
    | some ls, some r, some m =>
      if distinctLanes ls && holdOff.toNat ≤ 200 && restoreWait.toNat ≤ 600 then
        some { members := ls, revertive := r, mend := m, holdOff := holdOff.toNat, restoreWait := restoreWait.toNat }
      else none
    | _, _, _ => none
  else none

end Sys2Proof.Machine
end

