-- ==== Sys2Proof/Machine/Claims.lean ====
section
/-! DEFINITION. The claim registry: ballots, holds and bars, the discards of an install and the drops of a departure (R55 to
R69). -/

namespace Sys2Proof.Machine

/-- The outcome of a command and its result octets (R132). -/
abbrev Reply := Code × List Octet

/-- ACCEPTED with an empty result. -/
def accepted : Reply := (.accepted, [])

/-- A refusal carries an empty result (R132). -/
def refuse (c : Code) : Reply := (c, [])

/-! ## The favoured lane -/

/-- The trunk's favoured lane is recomputed; a change offers FAVOURED-CHANGED (R58). The offer is made with the state's
stamp, which is not advanced. -/
def State.refavourHere (s : State) (t : Trunk) (after : List Nat) : State :=
  let x := s.trunk t
  let new := s.favouredNow t
  if new = x.favoured then s
  else
    let n := match new with
      | some l => s.ballotsFor t l
      | none => 0
    let s := s.modTrunk t fun y => { y with favoured := new }
    s.offerHere allPorts .registry after (.favouredChanged t x.favoured new n x.charter.version)

/-- The same, ordered after every earlier offer of the registry. -/
def State.refavour (s : State) (t : Trunk) (after : List Nat) : State := (s.refavourHere t after).tick

/-! ## Commands of the registry

`after` holds the stamps of the offers the issuing port's controller had made when it handed the command over (R149). -/

/-- The registry first judges the issuing port's state as its port controller holds it (R56, R113). -/
def State.ifAttached (s : State) (p : Port) (f : State × Reply) : State × Reply :=
  if (s.port p).mode = .attached then f else (s, refuse .notAttached)

/-- BALLOT at the registry (R57): the slot, then the trigger, then FAVOURED-CHANGED (R56; log entry 22). -/
def State.ballot (s : State) (p : Port) (after : List Nat) (trunk lane : Octet) : State × Reply :=
  s.ifAttached p <|
    match trunkOperand trunk, laneOrNone lane with
    | none, _ => (s, refuse .noSuchTrunk)
    | some _, none => (s, refuse .noSuchLane)
    | some t, some choice =>
      if choice.all (fun l => (s.members t).contains l) then
        if (s.trunk t).ballots[p.val] = choice then (s, accepted)
        else
          let s := s.modTrunk t fun x => { x with ballots := x.ballots.set p.val choice }
          let s := s.send t .ballot .registry (s.handOn .registry after)
          (s.refavour t after, accepted)
      else (s, refuse .notMember)

/-- A hold is placed, or the owner's own is replaced with its dormant mark kept (R60). -/
def holdPlaced (before : Option Hold) (p : Port) (session : Octet) (l : Lane) : Hold :=
  match before with
  | none => { owner := p, session := session, lane := l, dormant := false }
  | some h => { h with lane := l, session := session }

/-- HOLD at the registry (R60). -/
def State.placeHold (s : State) (p : Port) (after : List Nat) (trunk lane : Octet) : State × Reply :=
  s.ifAttached p <|
    match trunkOperand trunk, laneOperand lane with
    | none, _ => (s, refuse .noSuchTrunk)
    | some _, none => (s, refuse .noSuchLane)
    | some t, some l =>
      if !(s.members t).contains l then (s, refuse .notMember)
      else if s.barred l then (s, refuse .barred)
      else if (s.trunk t).hold.any (fun h => h.owner != p) then (s, refuse .heldByOther)
      else if (s.trunk t).hold.any (fun h => h.lane = l) then (s, accepted)
      else
        let session := (s.port p).session
        let s := s.modTrunk t fun x => { x with hold := some (holdPlaced x.hold p session l) }
        (s.send t .hold .registry (s.handOn .registry after), accepted)

/-- RELEASE at the registry (R61). -/
def State.releaseHold (s : State) (p : Port) (after : List Nat) (trunk : Octet) : State × Reply :=
  s.ifAttached p <|
    match trunkOperand trunk with
    | none => (s, refuse .noSuchTrunk)
    | some t =>
      if (s.trunk t).hold.any (fun h => h.owner = p) then
        let s := s.modTrunk t fun x => { x with hold := none }
        (s.send t .hold .registry (s.handOn .registry after), accepted)
      else (s, refuse .noHold)

/-- BAR at the registry (R64): the set, the trigger, then BAR-PLACED. -/
def State.placeBar (s : State) (p : Port) (after : List Nat) (lane : Octet) : State × Reply :=
  s.ifAttached p <|
    match laneOperand lane with
    | none => (s, refuse .noSuchLane)
    | some l =>
      if PortSet.has (s.lane l).bars p then (s, accepted)
      else
        let s := s.modLane l fun x => { x with bars := PortSet.add x.bars p }
        let s := s.sendForLane l .bar .registry (s.handOn .registry after)
        (s.offer allPorts .registry after (.barPlaced l p (s.lane l).bars (s.trunkOf l)), accepted)

/-- Removing port j's bar from a lane on a command of an issuer (R65, R66): the set, the trigger, then BAR-LIFTED. -/
def State.removeBar (s : State) (issuer j : Port) (after : List Nat) (l : Lane) : State :=
  let s := s.modLane l fun x => { x with bars := PortSet.remove x.bars j }
  let s := s.sendForLane l .bar .registry (s.handOn .registry after)
  s.offer allPorts .registry after (.barLifted l j issuer (s.lane l).bars (s.trunkOf l))

/-- LIFT at the registry (R65). -/
def State.liftBar (s : State) (p : Port) (after : List Nat) (lane : Octet) : State × Reply :=
  s.ifAttached p <|
    match laneOperand lane with
    | none => (s, refuse .noSuchLane)
    | some l =>
      if PortSet.has (s.lane l).bars p then (s.removeBar p p after l, accepted) else (s, refuse .notBarred)

/-- LIFT-STALE at the registry (R66). -/
def State.liftStaleBar (s : State) (p : Port) (after : List Nat) (lane port : Octet) : State × Reply :=
  s.ifAttached p <|
    match laneOperand lane, portOperand port with
    | none, _ => (s, refuse .noSuchLane)
    | some _, none => (s, refuse .noSuchPort)
    | some l, some j =>
      if (s.port j).mode = .attached then (s, refuse .notStale)
      else if PortSet.has (s.lane l).bars j then (s.removeBar p j after l, accepted)
      else (s, refuse .notBarred)

/-! ## Discards of an install -/

/-- The ballots an install discards: those that name a lane no longer a member (R69). With an empty list it is every one. -/
def State.discardBallots (s : State) (t : Trunk) (after : List Nat) : State :=
  let ms := s.members t
  let v := (s.trunk t).charter.version
  allPorts.foldl (fun s p =>
    match (s.trunk t).ballots[p.val] with
    | none => s
    | some l =>
      if ms.contains l then s
      else
        let s := s.modTrunk t fun x => { x with ballots := x.ballots.set p.val none }
        s.offerHere allPorts .registry after (.claimDiscarded t false p l v)) s

/-- The hold an install discards (R69). -/
def State.discardHold (s : State) (t : Trunk) (after : List Nat) : State :=
  match (s.trunk t).hold with
  | none => s
  | some h =>
    if (s.members t).contains h.lane then s
    else
      let s := s.modTrunk t fun x => { x with hold := none }
      s.offerHere allPorts .registry after (.claimDiscarded t true h.owner h.lane (s.trunk t).charter.version)

/-- The registry takes an install (R69): the discards, in no order among themselves, then the favoured lane with the new
ranks. -/
def State.registryInstall (s : State) (t : Trunk) (after : List Nat) : State :=
  (((s.discardBallots t after).discardHold t after).tick).refavour t after

/-! ## Drops of a departure -/

/-- The claims of a port on a trunk (R68): its ballot, and its hold's lane. -/
def State.claimsOf (s : State) (p : Port) (t : Trunk) : Option Lane × Option Lane :=
  ((s.trunk t).ballots[p.val],
    match (s.trunk t).hold with
    | some h => if h.owner = p then some h.lane else none
    | none => none)

/-- Steps 1 and 2 of R68 on a trunk. -/
def State.dropClaims (s : State) (p : Port) (t : Trunk) : State :=
  let c := s.claimsOf p t
  s.modTrunk t fun x =>
    { x with
      hold := if c.2.isSome then none else x.hold
      ballots := x.ballots.set p.val none }

/-- The registry takes a departure (R68). The trunks stand in no order, so their FAVOURED-CHANGED offers share a stamp, and
so do their CLAIM-DROPPED offers (log entry 8). -/
def State.registryDeparture (s : State) (p : Port) (cause : Reason) (after : List Nat) : State :=
  let claims := allTrunks.map fun t => (t, s.claimsOf p t)
  let session := (s.port p).session
  let s := allTrunks.foldl (fun s t => s.dropClaims p t) s
  let s := (claims.foldl (fun s c => if c.2.1.isSome then s.refavourHere c.1 after else s) s).tick
  let handed := s.handOn .registry after
  let s := claims.foldl (fun s c =>
    if c.2.2.isSome then s.send c.1 .hold .registry handed
    else if c.2.1.isSome then s.send c.1 .ballot .registry handed
    else s) s
  (claims.foldl (fun s c =>
    if c.2.1.isSome || c.2.2.isSome then
      s.offerHere [p] .registry after (.claimDropped c.1 p session c.2.1 c.2.2 cause)
    else s) s).tick

end Sys2Proof.Machine
end

