-- ==== Sys2Proof/Machine/Concurrence.lean ====
section
/-! DEFINITION. The charter store's install (R45, R49, R50) and the concurrence unit (R112 to R123). -/

namespace Sys2Proof.Machine

/-! ## The charter store -/

/-- The buffers of the lanes that leave a trunk's member list are flushed (R50). -/
def State.flushLeaving (s : State) (old new : List Lane) : State :=
  (old.filter fun l => !new.contains l).foldl (fun s l => s.flush l) s

/-- The charter store takes an install (R49): the charter is replaced and its version advances (R45); the alignment store
flushes leaving lanes, the registry takes its discards, and the selector is sent its install trigger. Reports of the trunk's latest
instant may be outstanding: the store takes none of them first, and they are then handled under the new charter (the model's
choice, log entry 36). -/
def State.storeInstall (s : State) (t : Trunk) (terms : CharterTerms) (after : List Nat) : State :=
  let old := s.members t
  let s := s.modTrunk t fun x => { x with charter := { terms := terms, version := nextNumber x.charter.version } }
  let s := s.flushLeaving old terms.members
  let s := s.registryInstall t after
  s.send t .install .charterStore after

/-- An install by the concurrence unit (R117): an open proposal of the trunk is removed, INSTALLED is offered, and the
charter store takes the install. -/
def State.install (s : State) (t : Trunk) (terms : CharterTerms) (number : Pair) (p : Port) (after : List Nat) : State :=
  let v := nextNumber (s.trunk t).charter.version
  let s := s.modTrunk t fun x => { x with proposal := none }
  let s := s.offer allPorts .concurrence after (.installed t v number p terms.members.length)
  s.storeInstall t terms (s.handOn .concurrence after)

/-- A closing without an install (R118). The CLOSED offer is made with the state's stamp, which is not advanced. -/
def State.closeHere (s : State) (t : Trunk) (outcome : Closing) (port : Option Port) (reason : Reason)
    (after : List Nat) : State :=
  match (s.trunk t).proposal with
  | none => s
  | some q =>
    let s := s.modTrunk t fun x => { x with proposal := none }
    s.offerHere allPorts .concurrence after (.closed t q.number outcome port reason q.concurred)

/-- A closing, ordered after every earlier offer of the unit. -/
def State.close (s : State) (t : Trunk) (outcome : Closing) (port : Option Port) (reason : Reason) (after : List Nat) :
    State :=
  (s.closeHere t outcome port reason after).tick

/-! ## PROPOSE -/

/-- The ports that own a lane of the union of the installed and the proposed member list (R113, R114). -/
def State.parties (s : State) (t : Trunk) (proposed : List Lane) : PortSet :=
  PortSet.of fun p => (s.members t ++ proposed).any fun l => owner l = p

/-- The required set: the parties that are ATTACHED (R114). -/
def State.requiredSet (s : State) (t : Trunk) (proposed : List Lane) : PortSet :=
  PortSet.of fun p => PortSet.has (s.parties t proposed) p && (s.port p).mode = .attached

/-- A proposed member is a member of another trunk's installed charter (R113 check 5). -/
def State.laneTaken (s : State) (t : Trunk) (proposed : List Lane) : Bool :=
  allTrunks.any fun u => u != t && proposed.any fun l => (s.members u).contains l

/-- The proposed member list of a trunk's open proposal, or no lanes. -/
def State.proposedMembers (s : State) (u : Trunk) : List Lane :=
  match (s.trunk u).proposal with
  | some q => q.terms.members
  | none => []

/-- A proposed member is named in another trunk's open proposal (R113 check 6). -/
def State.laneContested (s : State) (t : Trunk) (proposed : List Lane) : Bool :=
  allTrunks.any fun u => u != t && proposed.any fun l => (s.proposedMembers u).contains l

/-- A two-octet result, most significant octet first (R174). -/
def pairOctets (w : Pair) : List Octet := [highOctet w, lowOctet w]

/-- A proposal opens (R112, R116). -/
def State.openProposal (s : State) (p : Port) (after : List Nat) (t : Trunk) (terms : CharterTerms) : State × Reply :=
  let n := nextNumber s.proposalCounter
  let session := (s.port p).session
  let required := s.requiredSet t terms.members
  let q : Proposal :=
    { number := n, proposer := p, session := session, terms := terms, required := required
      concurred := PortSet.only p, deadline := s.blockCounter + BitVec.ofNat 32 deadlinePeriods }
  let s : State := { s with proposalCounter := n }
  let s := s.modTrunk t fun x => { x with proposal := some q }
  (s.offer allPorts .concurrence after (.proposed t n p session required terms.members.length),
    (.accepted, pairOctets n))

/-- An install at once, when the proposer alone is required (R115). -/
def State.installAtOnce (s : State) (p : Port) (after : List Nat) (t : Trunk) (terms : CharterTerms) : State × Reply :=
  (s.install t terms 0 p after, (.installed, pairOctets (nextNumber (s.trunk t).charter.version)))

/-- PROPOSE at the concurrence unit (R113 to R116). -/
def State.propose (s : State) (p : Port) (after : List Nat) (trunk : Octet) (charter : Option CharterTerms) : State × Reply :=
  s.ifAttached p <|
    match trunkOperand trunk, charter with
    | none, _ => (s, refuse .noSuchTrunk)
    | some _, none => (s, refuse .badCharter)
    | some t, some terms =>
      if !PortSet.has (s.parties t terms.members) p then (s, refuse .notParty)
      else if (s.trunk t).proposal.isSome then (s, refuse .proposalOpen)
      else if s.laneTaken t terms.members then (s, refuse .laneTaken)
      else if s.laneContested t terms.members then (s, refuse .laneContested)
      else if s.requiredSet t terms.members = PortSet.only p then s.installAtOnce p after t terms
      else s.openProposal p after t terms

/-! ## CONCUR, DISSENT, WITHDRAW -/

/-- Checks 1 to 3 of CONCUR, DISSENT and WITHDRAW (R119 to R121): the trunk and its open proposal, of the number quoted. -/
def State.quoted (s : State) (trunk : Octet) (n : Pair) : Except Code (Trunk × Proposal) :=
  match trunkOperand trunk with
  | none => .error .noSuchTrunk
  | some t =>
    match (s.trunk t).proposal with
    | none => .error .noProposal
    | some q => if n = q.number then .ok (t, q) else .error .wrongProposal

/-- CONCUR at the concurrence unit (R119). -/
def State.concur (s : State) (p : Port) (after : List Nat) (trunk : Octet) (n : Pair) : State × Reply :=
  s.ifAttached p <|
    match s.quoted trunk n with
    | .error c => (s, refuse c)
    | .ok (t, q) =>
      if !PortSet.has q.required p then (s, refuse .notParty)
      else if PortSet.has q.concurred p then (s, accepted)
      else if PortSet.add q.concurred p = q.required then
        (s.install t q.terms q.number p after, (.installed, pairOctets (nextNumber (s.trunk t).charter.version)))
      else
        (s.modTrunk t fun x => { x with proposal := some { q with concurred := PortSet.add q.concurred p } }, accepted)

/-- DISSENT at the concurrence unit (R120). -/
def State.dissent (s : State) (p : Port) (after : List Nat) (trunk : Octet) (n : Pair) : State × Reply :=
  s.ifAttached p <|
    match s.quoted trunk n with
    | .error c => (s, refuse c)
    | .ok (t, q) =>
      if !PortSet.has q.required p then (s, refuse .notParty)
      else if q.proposer = p then (s.close t .withdrawn (some p) .dissent after, accepted)
      else (s.close t .rejected (some p) .dissent after, accepted)

/-- WITHDRAW at the concurrence unit (R121). -/
def State.withdrawProposal (s : State) (p : Port) (after : List Nat) (trunk : Octet) (n : Pair) : State × Reply :=
  s.ifAttached p <|
    match s.quoted trunk n with
    | .error c => (s, refuse c)
    | .ok (t, q) =>
      if q.proposer = p then (s.close t .withdrawn (some p) .withdraw after, accepted) else (s, refuse .notParty)

/-! ## Departures and deadlines -/

/-- A departure on one trunk: a proposal that requires the port closes (R123). -/
def State.departTrunk (s : State) (p : Port) (cause : Reason) (after : List Nat) (t : Trunk) : State :=
  match (s.trunk t).proposal with
  | none => s
  | some q =>
    if PortSet.has q.required p then
      s.closeHere t (if q.proposer = p then .withdrawn else .voided) (some p) cause after
    else s

/-- The concurrence unit takes a departure: the closings stand in no order among themselves (R123; log entry 8). -/
def State.concurrenceDeparture (s : State) (p : Port) (cause : Reason) (after : List Nat) : State :=
  (allTrunks.foldl (fun s t => s.departTrunk p cause after t) s).tick

/-- A departure is handed to the claim registry and to the concurrence unit (R140). -/
def State.depart (s : State) (p : Port) (cause : Reason) (after : List Nat) : State :=
  (s.registryDeparture p cause after).concurrenceDeparture p cause after

/-- The deadline of a trunk's open proposal, once reached, closes it EXPIRED (R122). -/
def State.expireProposal (s : State) (t : Trunk) : State :=
  match (s.trunk t).proposal with
  | none => s
  | some q => if s.deadlineReached q.deadline then s.close t .expired none .deadline [] else s

/-- DEADLINE_EXPIRY (R122); no proposal expires during HALT. -/
def execDeadlineExpiry (t : Trunk) (s : State) : Host.Outcome State Fault Refusal :=
  .next (if s.running then s.expireProposal t else s)

end Sys2Proof.Machine
end

