-- ==== Sys2Proof/Machine/Notify.lean ====
section
/-! DEFINITION. Subscriptions, admission and the queue (R150 to R156), and the row NOTIFICATION_OFFER. -/

namespace Sys2Proof.Machine

/-- The subscription of a class (R150). -/
def Subscriptions.mode (x : Subscriptions) : EventClass → SubMode
  | .lane => x.lane
  | .trunk => x.trunk
  | .claim => x.claim
  | .charter => x.charter
  | .port => x.port
  | .device => x.device

/-- Set the subscription of a class (R151). -/
def Subscriptions.set (x : Subscriptions) (c : EventClass) (m : SubMode) : Subscriptions :=
  match c with
  | .lane => { x with lane := m }
  | .trunk => { x with trunk := m }
  | .claim => { x with claim := m }
  | .charter => { x with charter := m }
  | .port => { x with port := m }
  | .device => { x with device := m }

/-- One mode for every class (R136, R139, R141). -/
def Subscriptions.all (m : SubMode) : Subscriptions where
  lane := m
  trunk := m
  claim := m
  charter := m
  port := m
  device := m

/-- Whether a mode lets in an onset or a clear (R150). -/
def SubMode.takes : SubMode → Bool → Bool
  | .off, _ => false
  | .onset, isClear => !isClear
  | .both, _ => true

/-- Whether a port takes an event into its queue: it is ATTACHED or LAPSED, and the mode of the class lets the kind in
(R152, R153). -/
def PortState.takesEvent (x : PortState) (e : Event) : Bool :=
  x.mode != .offline && (x.subs.mode e.cls).takes e.isClear

/-- One more event lost at a marker: the count saturates, the latest loss is that event's timestamp (R154, R155). -/
def Entry.loseAnother (time : Count) : Entry → Entry
  | .lost n count first _ => .lost n (min lostLimit (count + 1)) first time
  | .note n e t => .note n e t

/-- Whether an entry is a LOST marker. -/
def Entry.isLost : Entry → Bool
  | .lost _ _ _ _ => true
  | .note _ _ _ => false

/-- An event reaches the queue (R154), numbering what is appended (R156). A queue of 32 entries whose newest is no marker,
which no run reaches, only loses the event (log entry 25). -/
def PortState.enqueue (x : PortState) (e : Event) (time : Count) : PortState :=
  let n := x.entryNumber + 1
  if x.queue.length + 1 < queueLimit then
    { x with queue := x.queue ++ [.note n e time], entryNumber := n }
  else if x.queue.getLast?.any Entry.isLost then
    { x with queue := x.queue.dropLast ++ (x.queue.getLast?.map (Entry.loseAnother time)).toList }
  else if x.queue.length < queueLimit then
    { x with queue := x.queue ++ [.lost n 1 time time], entryNumber := n }
  else x

/-- An offer taken at a port controller, judged by the port as it stands then (R153, R159). So an offer made while the port was
OFFLINE and taken after its ATTACH is admitted, a BAR-LIFTED or CLAIM-DROPPED among them, where R70's fourth row and R68 have the port
find nothing: the model's choice (log entry 39). -/
def State.takeOffer (s : State) (p : Port) (o : Offer) : State :=
  let s := s.dropOffer p o
  if (s.port p).takesEvent o.event then s.modPort p fun x => x.enqueue o.event o.time else s

/-- NOTIFICATION_OFFER (R149, R153): one of the offers the port may take next is taken; during HALT too (R161), and none
while RSTn is low (R172). -/
def execNotificationOffer (p : Port) (choice : Nat) (s : State) : Host.Outcome State Fault Refusal :=
  .next (if s.rstnLow then s else
    match (s.readyOffers p)[choice]? with
    | none => s
    | some o => s.takeOffer p o)

end Sys2Proof.Machine
end

