-- ==== Sys2Proof/Machine/Ports.lean ====
section
/-! DEFINITION. Sessions (R136 to R141), SUBSCRIBE (R151), the lane owner's commands (R20, R21), and the rows LEASE_EXPIRY,
PORT_RESET and PORT_RESET_RELEASE. -/

namespace Sys2Proof.Machine

/-! ## Commands of the port controller -/

/-- The lease restarts (R137). -/
def PortState.restartLease (x : PortState) : PortState :=
  { x with leaseRemaining := x.leaseLength.toNat * leaseStep }

/-- The lease of an ATTACHED port restarts at a frame that passes the frame check (R132 step 1, R137). -/
def State.heard (s : State) (p : Port) : State :=
  if (s.port p).mode = .attached then s.modPort p PortState.restartLease else s

/-- The port record after an accepted ATTACH (R136). -/
def PortState.attached (x : PortState) (lease : Octet) : PortState :=
  { x with
    session := nextSession x.session
    leaseLength := lease
    leaseRemaining := lease.toNat * leaseStep
    subs := if x.mode = .offline then Subscriptions.all .both else x.subs
    mode := .attached }

/-- ATTACH (R136). -/
def State.attach (s : State) (p : Port) (lease : Octet) : State × Reply :=
  let x := s.port p
  if x.mode = .attached then (s, refuse .alreadyAttached)
  else if lease = 0 then (s, refuse .badLease)
  else
    let s := s.modPort p fun y => y.attached lease
    let session := nextSession x.session
    (s.offer (otherPorts p) (.portController p) [] (.peerAttached p session x.mode), (.accepted, [session]))

/-- The port record after an accepted DETACH (R139). -/
def PortState.detached (x : PortState) : PortState :=
  { x with mode := .offline, leaseRemaining := 0, queue := [], subs := Subscriptions.all .off }

/-- DETACH (R139). -/
def State.detach (s : State) (p : Port) : State × Reply :=
  if s.barCount p ≠ 0 then (s, refuse .barsHeld)
  else
    let s := s.modPort p PortState.detached
    let s := s.offer (otherPorts p) (.portController p) [] (.peerDetached p (s.port p).session)
    (s.depart p .detach (s.handOn (.portController p) []), accepted)

/-- SUBSCRIBE (R151). -/
def State.subscribe (s : State) (p : Port) (cls mode : Octet) : State × Reply :=
  match classOperand cls, modeOperand mode with
  | some c, some m => (s.modPort p fun x => { x with subs := x.subs.set c m }, accepted)
  | _, _ => (s, refuse .badValue)

/-! ## Commands of the lane's receiver -/

/-- SET-DEGRADE at the lane's receiver (R20). A block position processed before it is complete first. -/
def State.setDegrade (s : State) (p : Port) (lane : Octet) (set clear : Pair) : State × Reply :=
  match laneOperand lane with
  | none => (s, refuse .noSuchLane)
  | some l =>
    if owner l ≠ p then (s, refuse .notOwner)
    else if 1 ≤ set.toNat ∧ set.toNat ≤ 400 ∧ clear.toNat < set.toNat then
      ((s.settleLane l).modRx l fun x => { x with degradeSet := set.toNat, degradeClear := clear.toNat }, accepted)
    else (s, refuse .badValue)

/-- CLEAR-LANE-COUNTERS at the lane's receiver (R21). -/
def State.clearLaneCounters (s : State) (p : Port) (lane : Octet) : State × Reply :=
  match laneOperand lane with
  | none => (s, refuse .noSuchLane)
  | some l =>
    if owner l ≠ p then (s, refuse .notOwner)
    else
      (s.modRx l fun x =>
        { x with goodBlocks := 0, checkFailures := 0, sequenceBreaks := 0, fillBlocks := 0, overflowDrops := 0 },
        accepted)

/-! ## The rows -/

/-- The port record after a lease expiry (R138). -/
def PortState.lapsed (x : PortState) : PortState := { x with mode := .lapsed, leaseRemaining := 0 }

/-- A lease that has run out expires (R138). -/
def State.expireLease (s : State) (p : Port) : State :=
  let x := s.port p
  if x.mode = .attached ∧ x.leaseRemaining = 0 then
    let s := s.modPort p PortState.lapsed
    let s := s.offer [p] (.portController p) [] (.selfLapsed p x.session x.leaseLength)
    let s := s.offer (otherPorts p) (.portController p) [] (.peerLapsed p x.session x.leaseLength)
    s.depart p .lapse (s.handOn (.portController p) [])
  else s

/-- LEASE_EXPIRY (R138); no lease expires during HALT. -/
def execLeaseExpiry (p : Port) (s : State) : Host.Outcome State Fault Refusal :=
  .next (if s.running then s.expireLease p else s)

/-- The port record at the falling edge of PRSTn (R141 steps 1 to 4). A transaction in progress is abandoned, and what PSDO
carries until PCSn rises is told by its phase. -/
def PortState.resetByPin (x : PortState) : PortState :=
  { x with
    prstnLow := true
    transaction := x.transaction.map fun f => { f with phase := .abandoned }
    slot := .empty, response := none, busyDrop := false
    queue := [], entryNumber := 0, subs := Subscriptions.all .off
    mode := .offline, leaseRemaining := 0 }

/-- A command on its way to its owner when the slot is emptied still reaches it (R141 step 2, R148). A query has no effect left
to complete. -/
def orphansAfter (p : Port) : CommandSlot → List Orphan
  | .handed tag c after => [{ port := p, tag := tag, command := c, after := after }]
  | .reading _ _ _ => []
  | .empty => []
  | .done _ => []

/-- The falling edge of PRSTn (R141). -/
def State.resetPort (s : State) (p : Port) : State :=
  let x := s.port p
  let s : State := { s with orphans := s.orphans ++ orphansAfter p x.slot }
  let s := s.modPort p PortState.resetByPin
  let s := s.offer (otherPorts p) (.portController p) [] (.peerReset p x.mode x.session)
  if x.mode = .attached then s.depart p .portReset (s.handOn (.portController p) []) else s

/-- PORT_RESET (R141): during HALT too; while RSTn is low only the pin is followed (log entry 17). -/
def execPortReset (p : Port) (s : State) : Host.Outcome State Fault Refusal :=
  .next (if (s.port p).prstnLow then s
    else if s.rstnLow then s.modPort p fun x => { x with prstnLow := true }
    else s.resetPort p)

/-- PORT_RESET_RELEASE (R141). -/
def execPortResetRelease (p : Port) (s : State) : Host.Outcome State Fault Refusal :=
  .next (s.modPort p fun x => { x with prstnLow := false })

end Sys2Proof.Machine
end

