-- ==== Sys2Proof/Machine/Queries.lean ====
section
/-! DEFINITION. The results of the five queries (R142 to R146), laid out as 11.4 gives: the records each query reads, and how
the result is made of them. Each record is read as one whole, and each by itself (log entry 12). -/

namespace Sys2Proof.Machine

/-! ## The records -/

/-- What QUERY-DEVICE reads: the timebase's counters after the two codes, and the HALT state of the reference monitor (R143). -/
def State.deviceRecords (s : State) : List (List Octet) :=
  [[highOctet Config.partCode, lowOctet Config.partCode, Config.revisionCode] ++ countOctets s.blockCounter ++
    countOctets s.haltCount, [flagOctet s.halted]]

/-- A port's record as QUERY-PORTS reads it: the fields that come before the bar count, then the queue depth (R143). -/
def PortState.queryOctets (x : PortState) : List Octet :=
  [oct x.mode.code, x.session] ++ be 3 x.leaseRemaining ++ [oct x.queue.length]

/-- What QUERY-PORTS reads: the four port records, then the four bar counts of the claim registry (R143). -/
def State.portsRecords (s : State) : List (List Octet) :=
  (allPorts.map fun p => (s.port p).queryOctets) ++ allPorts.map fun p => [oct (s.barCount p)]

/-- A receiver record as QUERY-LANE reads it (R144). -/
def Receiver.octets (x : Receiver) : List Octet :=
  [oct x.lock.code, oct x.grade.code, oct ((if x.fillAlarm then 2 else 0) + (if x.degrade then 1 else 0))] ++
    be 2 x.windowCount ++ be 2 x.degradeSet ++ be 2 x.degradeClear ++
    countOctets x.goodBlocks ++ countOctets x.checkFailures ++ countOctets x.sequenceBreaks ++
    countOctets x.fillBlocks ++ countOctets x.overflowDrops

/-- A buffer's summary as QUERY-LANE reads it (R144). -/
def LaneState.bufferOctets (y : LaneState) : List Octet :=
  [oct y.buffer.length] ++ seqOctets (y.buffer.head?.map LaneBlock.seq) ++
    seqOctets (y.buffer.getLast?.map LaneBlock.seq) ++ [oct y.status.code]

/-- What QUERY-LANE reads: the receiver record, whose latest block position is one event (log entry 4), the membership, the bar
set and the buffer (R144). -/
def State.laneRecords (s : State) (l : Lane) : List (List Octet) :=
  [((s.settleLane l).lane l).rx.octets, [trunkOctet (s.trunkOf l)], [PortSet.octet (s.lane l).bars],
    (s.lane l).bufferOctets]

/-- Hold-off remaining: 0 when IDLE (R145). -/
def HoldOffTimer.remaining : HoldOffTimer → Nat
  | .idle => 0
  | .running n => n

/-- Restore remaining: 0 when IDLE or DUE (R145). -/
def RestoreTimer.remaining : RestoreTimer → Nat
  | .idle => 0
  | .running _ n => n
  | .due _ => 0

/-- Restore candidate: none when IDLE (R145). -/
def RestoreTimer.candidate : RestoreTimer → Option Lane
  | .idle => none
  | .running c _ => some c
  | .due c => some c

/-- The lane octets of a member list, unused ones 0xFF, as four fields (R175). -/
def memberOctets (ls : List Lane) : List Octet :=
  (ls.map fun l => oct l.val) ++ List.replicate (4 - ls.length) 0xFF

/-- The selection group of QUERY-TRUNK, 10 octets (11.4). -/
def Selection.octets (x : Selection) : List Octet :=
  [oct x.mode.code, laneOctet x.active, laneOctet x.target, oct x.alignWait] ++ be 2 x.holdOff.remaining ++
    be 3 x.restore.remaining ++ [laneOctet x.restore.candidate]

/-- The emitter group of QUERY-TRUNK, 31 octets (11.4). -/
def Emitter.octets (e : Emitter) : List Octet :=
  be 2 e.cursor.toNat ++ [oct ((if e.centring then 128 else 0) + e.misalign)] ++
    countOctets e.counters.emitted ++ countOctets e.counters.fromActive ++ countOctets e.counters.mended ++
    countOctets e.counters.fill ++ countOctets e.counters.hitless ++ countOctets e.counters.hit ++
    countOctets e.counters.slips

/-- The claims group of QUERY-TRUNK, 9 octets (11.4). With no hold the dormant mark is sent clear: 11.4 gives no value for it there
(log entry 32). -/
def TrunkState.claimOctets (x : TrunkState) : List Octet :=
  (match x.hold with
    | some h => [portOctet (some h.owner), h.session, laneOctet (some h.lane), flagOctet h.dormant]
    | none => [0xFF, 0, 0xFF, 0]) ++ x.ballots.toList.map laneOctet ++ [laneOctet x.favoured]

/-- The charter group of QUERY-TRUNK, 11 octets (11.4). -/
def Charter.octets (c : Charter) : List Octet :=
  [oct c.terms.members.length] ++ memberOctets c.terms.members ++
    [oct ((if c.terms.revertive then 2 else 0) + (if c.terms.mend then 1 else 0)), oct c.terms.holdOff] ++
    be 2 c.terms.restoreWait ++ be 2 c.version.toNat

/-- Octet 64 of QUERY-TRUNK: proposer port in bits 7 to 4, fourth proposed member in bits 3 to 0, none as 0xF (11.4). -/
def packProposer (p : Port) (fourth : Option Lane) : Octet :=
  oct (p.val * 16 + match fourth with
    | some l => l.val
    | none => 15)

/-- The proposal group of QUERY-TRUNK, 11 octets (11.4; with no open proposal R145's empty sets, none and 0). -/
def State.proposalOctets (s : State) (t : Trunk) : List Octet :=
  match (s.trunk t).proposal with
  | some q =>
    be 2 q.number.toNat ++ [packProposer q.proposer q.terms.members[3]?, PortSet.octet q.required,
      PortSet.octet q.concurred] ++ be 2 (s.remainingTo q.deadline) ++ [oct q.terms.members.length] ++
      (memberOctets q.terms.members).take 3
  | none => [0, 0, 0xFF, 0, 0, 0, 0, 0, 0xFF, 0xFF, 0xFF]

/-- What QUERY-TRUNK reads: the selection record, the emitter record, the claims, the charter and the proposal (R145). A read may
fall within an instant, before its reports have been taken: then the state is SWITCHING beside an align-wait count already
advanced. -/
def State.trunkRecords (s : State) (t : Trunk) : List (List Octet) :=
  let x := s.trunk t
  [x.sel.octets, x.em.octets, x.claimOctets, x.charter.octets, s.proposalOctets t]

/-- A record in QUERY-HISTORY (11.4). -/
def HistoryRecord.octets (r : HistoryRecord) : List Octet :=
  countOctets r.time ++ [oct r.cause.code, laneOctet r.src, laneOctet r.dst, oct r.kind.code] ++ be 2 r.version.toNat

/-- What QUERY-HISTORY reads: the count, then the records newest first (R146). -/
def State.historyRecords (s : State) (t : Trunk) : List (List Octet) :=
  let h := (s.trunk t).history
  [oct h.length :: h.reverse.flatMap HistoryRecord.octets]

/-! ## The results -/

/-- The records a query reads as they stand, or the refusal of its operand (R142). A command that is no query reads none. -/
def State.queryRecords (s : State) : Command → Except Code (List (List Octet))
  | .queryDevice => .ok s.deviceRecords
  | .queryPorts => .ok s.portsRecords
  | .queryLane lane =>
    match laneOperand lane with
    | some l => .ok (s.laneRecords l)
    | none => .error .noSuchLane
  | .queryTrunk trunk =>
    match trunkOperand trunk with
    | some t => .ok (s.trunkRecords t)
    | none => .error .noSuchTrunk
  | .queryHistory trunk =>
    match trunkOperand trunk with
    | some t => .ok (s.historyRecords t)
    | none => .error .noSuchTrunk
  | .attach _ => .ok []
  | .renew => .ok []
  | .detach => .ok []
  | .subscribe _ _ => .ok []
  | .setDegrade _ _ _ => .ok []
  | .clearLaneCounters _ => .ok []
  | .ballot _ _ => .ok []
  | .hold _ _ => .ok []
  | .release _ => .ok []
  | .bar _ => .ok []
  | .lift _ => .ok []
  | .liftStale _ _ => .ok []
  | .propose _ _ _ _ _ _ _ _ _ _ => .ok []
  | .concur _ _ => .ok []
  | .dissent _ _ => .ok []
  | .withdraw _ _ => .ok []

/-- One port's group in the result of QUERY-PORTS: its bar count stands before the queue depth (11.4). -/
def portGroup (record bars : List Octet) : List Octet := record.take 5 ++ bars ++ record.drop 5

/-- The result of a query from its records: one after another (11.4), but in QUERY-PORTS the bar counts stand within the ports'
groups. -/
def Command.layOut : Command → List (List Octet) → List Octet
  | .queryPorts, [r0, r1, r2, r3, b0, b1, b2, b3] =>
    portGroup r0 b0 ++ portGroup r1 b1 ++ portGroup r2 b2 ++ portGroup r3 b3
  | _, rs => rs.flatten

/-- The records of a query when it completes: those read before as they were read, the others as they stand. -/
def completeRecords (got : List (Nat × List Octet)) (now : List (List Octet)) : List (List Octet) :=
  now.mapIdx fun i r => (got.lookup i).getD r

/-- A query is complete, some of its records having been read before (R142): its outcome and result. -/
def State.answerQuery (s : State) (c : Command) (got : List (Nat × List Octet)) : Reply :=
  match s.queryRecords c with
  | .ok now => (.accepted, c.layOut (completeRecords got now))
  | .error code => refuse code

/-- A query under way reads one more of its records (R142). -/
def State.readRecord (s : State) (p : Port) (tag : Octet) (c : Command) (i : Nat) : State :=
  match (s.port p).slot, s.queryRecords c with
  | .reading tag' c' got, .ok now =>
    match now[i]?, got.lookup i with
    | some r, none =>
      if tag' = tag ∧ c' = c then s.modPort p fun x => { x with slot := .reading tag c (got ++ [(i, r)]) } else s
    | _, _ => s
  | _, _ => s

end Sys2Proof.Machine
end

