-- ==== Sys2Proof/Machine/Transactions.lean ====
section
/-! DEFINITION. COMMAND transactions: taking, dropping and discarding a frame (R131), dispatch (R132, R135), the rows of the
21 commands, the rows given by octets, and RESPONSE_PLACED. -/

namespace Sys2Proof.Machine

/-- A command carried out by its owner (R132): the state after its effects, its outcome and its result. `after` holds the stamps
of the offers its port controller had made when it handed the command over (R149). -/
def State.perform (s : State) (p : Port) (after : List Nat) : Command → State × Reply
  | .attach lease => s.attach p lease
  | .renew => (s, accepted)
  | .detach => s.detach p
  | .queryDevice => (s, s.answerQuery .queryDevice [])
  | .queryPorts => (s, s.answerQuery .queryPorts [])
  | .queryLane lane => (s, s.answerQuery (.queryLane lane) [])
  | .queryTrunk trunk => (s, s.answerQuery (.queryTrunk trunk) [])
  | .queryHistory trunk => (s, s.answerQuery (.queryHistory trunk) [])
  | .subscribe cls mode => s.subscribe p cls mode
  | .setDegrade lane set clear => s.setDegrade p lane set clear
  | .clearLaneCounters lane => s.clearLaneCounters p lane
  | .ballot trunk lane => s.ballot p after trunk lane
  | .hold trunk lane => s.placeHold p after trunk lane
  | .release trunk => s.releaseHold p after trunk
  | .bar lane => s.placeBar p after lane
  | .lift lane => s.liftBar p after lane
  | .liftStale lane port => s.liftStaleBar p after lane port
  | .propose trunk count m1 m2 m3 m4 revertive mend holdOff restoreWait =>
    s.propose p after trunk (charterOperand count [m1, m2, m3, m4] revertive mend holdOff restoreWait)
  | .concur trunk n => s.concur p after trunk n
  | .dissent trunk n => s.dissent p after trunk n
  | .withdraw trunk n => s.withdrawProposal p after trunk n

/-- Commands taken in every port state (R135): ATTACH, refused by its own check when ATTACHED, and the queries. -/
def Command.allowedAlways : Command → Bool
  | .attach _ => true
  | .queryDevice => true
  | .queryPorts => true
  | .queryLane _ => true
  | .queryTrunk _ => true
  | .queryHistory _ => true
  | .renew => false
  | .detach => false
  | .subscribe _ _ => false
  | .setDegrade _ _ _ => false
  | .clearLaneCounters _ => false
  | .ballot _ _ => false
  | .hold _ _ => false
  | .release _ => false
  | .bar _ => false
  | .lift _ => false
  | .liftStale _ _ => false
  | .propose _ _ _ _ _ _ _ _ _ _ => false
  | .concur _ _ => false
  | .dissent _ _ => false
  | .withdraw _ _ => false

/-- The five queries (R142). -/
def Command.isQuery : Command → Bool
  | .queryDevice => true
  | .queryPorts => true
  | .queryLane _ => true
  | .queryTrunk _ => true
  | .queryHistory _ => true
  | .attach _ => false
  | .renew => false
  | .detach => false
  | .subscribe _ _ => false
  | .setDegrade _ _ _ => false
  | .clearLaneCounters _ => false
  | .ballot _ _ => false
  | .hold _ _ => false
  | .release _ => false
  | .bar _ => false
  | .lift _ => false
  | .liftStale _ _ => false
  | .propose _ _ _ _ _ _ _ _ _ _ => false
  | .concur _ _ => false
  | .dissent _ _ => false
  | .withdraw _ _ => false

/-- The command slot after an execution: the response that RESPONSE_PLACED will place (R132). -/
def State.finish (s : State) (p : Port) (tag code : Octet) (r : Reply) : State :=
  s.modPort p fun x => { x with slot := .done { tag := tag, code := code, outcome := r.1, result := r.2 } }

/-- A command carried out, its response waiting to be placed. -/
def State.carryOut (s : State) (p : Port) (tag : Octet) (c : Command) (after : List Nat) : State :=
  let r := s.perform p after c
  r.1.finish p tag c.code r.2

/-- The command slot while a command is under way: on its way to its owner, or a query that has read no record yet. -/
def State.underWay (s : State) (p : Port) (tag : Octet) (c : Command) : CommandSlot :=
  if c.isQuery then .reading tag c [] else .handed tag c (s.handOn (.portController p) [])

/-- Dispatch of a valid frame (R132): the lease, the port state, then the owner. With `handOver` the command is left on its
way to its owner, or the query is begun (log entry 10). -/
def State.dispatch (s : State) (p : Port) (tag : Octet) (c : Command) (part : Part) : State :=
  let s := s.heard p
  if !c.allowedAlways && (s.port p).mode != .attached then s.finish p tag c.code (refuse .notAttached)
  else if part = .handOver then s.modPort p fun x => { x with slot := s.underWay p tag c }
  else s.carryOut p tag c (s.handOn (.portController p) [])

/-- What happens to a frame taken into the command slot (R130, R132). A frame judged UNKNOWN-COMMAND has passed the frame
check, so it restarts the lease of an ATTACHED port. -/
def State.takeFrame (s : State) (p : Port) (j : Judgement) (part : Part) : State :=
  match j with
  | .bad outcome tag code =>
    (if outcome = .unknownCommand then s.heard p else s).finish p tag code (refuse outcome)
  | .valid tag c => s.dispatch p tag c part

/-- A COMMAND transaction of n octets in all, judged as given, ends on a port (R131). While RSTn is low there is none, and one
that was abandoned or ignored because of PRSTn has no effect (R141). -/
def State.endFrame (s : State) (p : Port) (n : Nat) (j : Judgement) (part : Part) : State :=
  let x := s.port p
  if s.rstnLow || !x.canEnd n then s
  else
    let ended := s.endTransaction p n
    if (s.ending p).unheard || s.halted then ended
    else if x.slot ≠ .empty then ended.modPort p fun x => { x with busyDrop := true }
    else (ended.modPort p fun x => { x with response := none, busyDrop := false }).takeFrame p j part

/-- A transaction given by the whole octets received that is neither COMMAND nor FETCH (R128). -/
def State.ignore (s : State) (p : Port) (n : Nat) : State :=
  if s.rstnLow || !(s.port p).canEnd n then s else s.endTransaction p n

/-- A transaction given by the whole octets received: its kind octet says what it is (R128). -/
def State.endOctets (s : State) (p : Port) (octets : List Octet) : State :=
  if octets.head? = some kindCommand then s.endFrame p octets.length (judgeFrame octets) .whole
  else if octets.head? = some kindFetch then s.wholeFetch p octets.length
  else s.ignore p octets.length

/-- A command of a port that was reset while the command was on its way to its owner (R141, R148). -/
def State.orphan (s : State) (p : Port) (tag : Octet) (c : Command) : Option Orphan :=
  s.orphans.find? fun o => o.port = p ∧ o.tag = tag ∧ o.command = c

/-- The owner carries out a command whose port was reset meanwhile: its effects complete, and its response is discarded (R141,
R148). -/
def State.takeOrphan (s : State) (o : Orphan) : State :=
  (({ s with orphans := s.orphans.erase o } : State).perform o.port o.after o.command).1

/-- The owner takes a command handed over earlier, or a query is completed (R142, R148; log entry 10). -/
def State.ownerTakes (s : State) (p : Port) (tag : Octet) (c : Command) : State :=
  match s.orphan p tag c with
  | some o => s.takeOrphan o
  | none =>
    match (s.port p).slot with
    | .handed tag' c' after => if tag' = tag ∧ c' = c then s.carryOut p tag c after else s
    | .reading tag' c' got => if tag' = tag ∧ c' = c then s.finish p tag c.code (s.answerQuery c got) else s
    | .empty => s
    | .done _ => s

/-- At completion the response is placed and the command slot becomes empty (R132). -/
def State.placeResponse (s : State) (p : Port) : State :=
  match (s.port p).slot with
  | .done r => s.modPort p fun x => { x with slot := .empty, response := some r }
  | .handed _ _ _ => s
  | .reading _ _ _ => s
  | .empty => s

/-- The execution under way on a port completes: its owner takes the command, or the query is answered (R148). -/
def State.completeExecution (s : State) (p : Port) : State :=
  match (s.port p).slot with
  | .handed tag c after => s.carryOut p tag c after
  | .reading tag c got => s.finish p tag c.code (s.answerQuery c got)
  | .done _ => s
  | .empty => s

/-- Every execution under way completes and its response is placed (R148); commands of ports reset meanwhile first, then port by
port (the order is the model's choice, log entry 38). -/
def State.completeCommands (s : State) : State :=
  allPorts.foldl (fun s p => (s.completeExecution p).placeResponse p) (s.orphans.foldl State.takeOrphan s)

/-- A command step in the part given (log entry 10). -/
def State.command (s : State) (p : Port) (tag : Octet) (part : Part) (c : Command) : State :=
  match part with
  | .whole => s.endFrame p (4 + c.operands.length) (.valid tag c) .whole
  | .handOver => s.endFrame p (4 + c.operands.length) (.valid tag c) .handOver
  | .read i => if s.rstnLow then s else s.readRecord p tag c i
  | .atOwner => if s.rstnLow then s else s.ownerTakes p tag c

/-! ## The rows -/

/-- ATTACH (R136). -/
def execAttach (p : Port) (tag lease : Octet) (s : State) : Host.Outcome State Fault Refusal :=
  .next (s.command p tag .whole (.attach lease))

/-- RENEW (R137). -/
def execRenew (p : Port) (tag : Octet) (s : State) : Host.Outcome State Fault Refusal :=
  .next (s.command p tag .whole .renew)

/-- DETACH (R139). -/
def execDetach (p : Port) (tag : Octet) (s : State) : Host.Outcome State Fault Refusal :=
  .next (s.command p tag .whole .detach)

/-- QUERY-DEVICE (R143). -/
def execQueryDevice (p : Port) (tag : Octet) (part : Part) (s : State) : Host.Outcome State Fault Refusal :=
  .next (s.command p tag part .queryDevice)

/-- QUERY-PORTS (R143). -/
def execQueryPorts (p : Port) (tag : Octet) (part : Part) (s : State) : Host.Outcome State Fault Refusal :=
  .next (s.command p tag part .queryPorts)

/-- QUERY-LANE (R144). -/
def execQueryLane (p : Port) (tag : Octet) (part : Part) (lane : Octet) (s : State) : Host.Outcome State Fault Refusal :=
  .next (s.command p tag part (.queryLane lane))

/-- QUERY-TRUNK (R145). -/
def execQueryTrunk (p : Port) (tag : Octet) (part : Part) (trunk : Octet) (s : State) : Host.Outcome State Fault Refusal :=
  .next (s.command p tag part (.queryTrunk trunk))

/-- QUERY-HISTORY (R146). -/
def execQueryHistory (p : Port) (tag : Octet) (part : Part) (trunk : Octet) (s : State) : Host.Outcome State Fault Refusal :=
  .next (s.command p tag part (.queryHistory trunk))

/-- SUBSCRIBE (R151). -/
def execSubscribe (p : Port) (tag cls mode : Octet) (s : State) : Host.Outcome State Fault Refusal :=
  .next (s.command p tag .whole (.subscribe cls mode))

/-- SET-DEGRADE (R20). -/
def execSetDegrade (p : Port) (tag : Octet) (part : Part) (lane : Octet) (set clear : Pair) (s : State) :
    Host.Outcome State Fault Refusal :=
  .next (s.command p tag part (.setDegrade lane set clear))

/-- CLEAR-LANE-COUNTERS (R21). -/
def execClearLaneCounters (p : Port) (tag : Octet) (part : Part) (lane : Octet) (s : State) :
    Host.Outcome State Fault Refusal :=
  .next (s.command p tag part (.clearLaneCounters lane))

/-- BALLOT (R57). -/
def execBallot (p : Port) (tag : Octet) (part : Part) (trunk lane : Octet) (s : State) :
    Host.Outcome State Fault Refusal :=
  .next (s.command p tag part (.ballot trunk lane))

/-- HOLD (R60). -/
def execHold (p : Port) (tag : Octet) (part : Part) (trunk lane : Octet) (s : State) :
    Host.Outcome State Fault Refusal :=
  .next (s.command p tag part (.hold trunk lane))

/-- RELEASE (R61). -/
def execRelease (p : Port) (tag : Octet) (part : Part) (trunk : Octet) (s : State) :
    Host.Outcome State Fault Refusal :=
  .next (s.command p tag part (.release trunk))

/-- BAR (R64). -/
def execBar (p : Port) (tag : Octet) (part : Part) (lane : Octet) (s : State) : Host.Outcome State Fault Refusal :=
  .next (s.command p tag part (.bar lane))

/-- LIFT (R65). -/
def execLift (p : Port) (tag : Octet) (part : Part) (lane : Octet) (s : State) : Host.Outcome State Fault Refusal :=
  .next (s.command p tag part (.lift lane))

/-- LIFT-STALE (R66). -/
def execLiftStale (p : Port) (tag : Octet) (part : Part) (lane port : Octet) (s : State) :
    Host.Outcome State Fault Refusal :=
  .next (s.command p tag part (.liftStale lane port))

/-- PROPOSE (R113). -/
def execPropose (p : Port) (tag : Octet) (part : Part)
    (trunk count m1 m2 m3 m4 revertive mend holdOff : Octet) (restoreWait : Pair) (s : State) :
    Host.Outcome State Fault Refusal :=
  .next (s.command p tag part (.propose trunk count m1 m2 m3 m4 revertive mend holdOff restoreWait))

/-- CONCUR (R119). -/
def execConcur (p : Port) (tag : Octet) (part : Part) (trunk : Octet) (number : Pair) (s : State) :
    Host.Outcome State Fault Refusal :=
  .next (s.command p tag part (.concur trunk number))

/-- DISSENT (R120). -/
def execDissent (p : Port) (tag : Octet) (part : Part) (trunk : Octet) (number : Pair) (s : State) :
    Host.Outcome State Fault Refusal :=
  .next (s.command p tag part (.dissent trunk number))

/-- WITHDRAW (R121). -/
def execWithdraw (p : Port) (tag : Octet) (part : Part) (trunk : Octet) (number : Pair) (s : State) :
    Host.Outcome State Fault Refusal :=
  .next (s.command p tag part (.withdraw trunk number))

/-- UNKNOWN_COMMAND, with SHORT and FRAME-ERROR (R130): a COMMAND transaction given by its octets. -/
def execUnknownCommand (p : Port) (octets : List Octet) (s : State) : Host.Outcome State Fault Refusal :=
  .next (s.endOctets p octets)

/-- BUSY_DROP (R131): a COMMAND transaction given by its octets. -/
def execBusyDrop (p : Port) (octets : List Octet) (s : State) : Host.Outcome State Fault Refusal :=
  .next (s.endOctets p octets)

/-- COMMAND_DISCARDED (R131): a COMMAND transaction given by its octets. -/
def execCommandDiscarded (p : Port) (octets : List Octet) (s : State) : Host.Outcome State Fault Refusal :=
  .next (s.endOctets p octets)

/-- IGNORED_TRANSACTION (R128). Octets that open with the kind octet of a COMMAND or a FETCH make that transaction (log
entry 20). -/
def execIgnoredTransaction (p : Port) (octets : List Octet) (s : State) : Host.Outcome State Fault Refusal :=
  .next (s.endOctets p octets)

/-- RESPONSE_PLACED (R132); during HALT too (R148). -/
def execResponsePlaced (p : Port) (s : State) : Host.Outcome State Fault Refusal :=
  .next (if s.rstnLow then s else s.placeResponse p)

end Sys2Proof.Machine
end

