-- ==== Sys2Proof/Machine/Timebase.lean ====
section
/-! DEFINITION. The timebase, the scan capture, the reference monitor, HALT, resume and device reset (R163 to R173, with
R43, R54, R79, R91, R107, R137, R148). -/

namespace Sys2Proof.Machine

/-! ## Block periods -/

/-- A RUNNING timer's remaining count falls by one at each block period (R79). -/
def HoldOffTimer.count : HoldOffTimer → HoldOffTimer
  | .idle => .idle
  | .running n => .running (n - 1)

def RestoreTimer.count : RestoreTimer → RestoreTimer
  | .idle => .idle
  | .running c n => .running c (n - 1)
  | .due c => .due c

/-- A trunk's timers at the end of a block period (R79, R166). -/
def TrunkState.count (x : TrunkState) : TrunkState :=
  { x with sel := { x.sel with holdOff := x.sel.holdOff.count, restore := x.sel.restore.count } }

/-- The lease of an ATTACHED port at the end of a block period (R137, R166). -/
def PortState.count (x : PortState) : PortState :=
  if x.mode = .attached then { x with leaseRemaining := x.leaseRemaining - 1 } else x

/-- Every trunk's instants are complete: the reports of each are taken (R88; log entry 5). -/
def State.settleTrunks (s : State) : State := allTrunks.foldl State.settleTrunk s

/-- Every receiver's processed block positions are complete (log entry 4). -/
def State.settleLanes (s : State) : State := allLanes.foldl State.settleLane s

/-- The end of a block period: the block counter advances, timers and leases count down, and the next period begins (R165,
R166). -/
def State.advance (s : State) : State :=
  { s with
    blockCounter := s.blockCounter + 1
    instantTaken := Vector.replicate 8 false
    scanCaptured := false
    trunks := s.trunks.map TrunkState.count
    ports := s.ports.map PortState.count }

/-- BLOCK_PERIOD (R165); none ends during HALT (R168). -/
def execBlockPeriod (s : State) : Host.Outcome State Fault Refusal :=
  .next (if s.running then s.settleTrunks.advance else s)

/-- The capture of the scan frame (R163): records stand as the reports of past instants leave them. SCANO is held high for the 56
SCANCK periods after the frame, seven octets of ones (R162). -/
def State.capture (s : State) : State :=
  let s := s.settleTrunks
  { s with scano := some (s.scanFrame ++ List.replicate 7 0xFF), scanCaptured := true }

/-- SCAN_CAPTURE (R163); SCANO is held low during HALT (R164). -/
def execScanCapture (s : State) : Host.Outcome State Fault Refusal :=
  .next (if s.running then s.capture else s)

/-! ## HALT -/

/-- A lane at the declaration of HALT: a block being received is abandoned, every other field stays (R23, R168). -/
def LaneState.stop (x : LaneState) : LaneState := { x with rx := { x.rx with blockOpen := false } }

/-- A trunk at the declaration of HALT: TD and TC are held low (R43, R168). -/
def TrunkState.quiet (x : TrunkState) : TrunkState := { x with em := { x.em with td := none } }

/-- A port at the declaration of HALT: the rest of a FETCH in progress delivers 0x00 (R134). -/
def PortState.cutFetch (x : PortState) : PortState := { x with transaction := x.transaction.map Transaction.cut }

/-- HALT declared (R167, R168). -/
def State.declareHalt (s : State) : State :=
  let s := s.settleLanes.settleTrunks
  { s with
    monitor := { s.monitor with state := .absent, haltNs := 0 }
    lanes := s.lanes.map LaneState.stop
    trunks := s.trunks.map TrunkState.quiet
    ports := s.ports.map PortState.cutFetch
    scano := none }

/-- HALT (R167, R168): the reference monitor in PRESENT declares loss. -/
def execHalt (s : State) : Host.Outcome State Fault Refusal :=
  .next (if s.running then s.declareHalt else s)

/-- QUALIFYING (R167): a REFCLK edge while ABSENT; the time spent in ABSENT has been part of the halt (log entry 16). -/
def execQualifying (elapsed : Nat) (s : State) : Host.Outcome State Fault Refusal :=
  .next (if s.rstnLow || s.monitor.state != .absent then s
    else { s with monitor := { state := .qualifying, qualNs := 0, haltNs := s.monitor.haltNs + elapsed } })

/-- QUALIFICATION_ABANDONED (R167): the halt continues and its duration keeps counting. -/
def execQualificationAbandoned (elapsed : Nat) (s : State) : Host.Outcome State Fault Refusal :=
  .next (if s.rstnLow || s.monitor.state != .qualifying then s
    else { s with monitor := { state := .absent, qualNs := min elapsed qualificationNs,
                               haltNs := s.monitor.haltNs + elapsed } })

/-! ## Resume -/

/-- The trunk's records after its resume (R43, R91): DISABLED trunks are unchanged. Both timers become IDLE, as R91 and the table
of R170 have it, so none is left that could run out at the end of the first period (log entry 30). -/
def TrunkState.resumed (x : TrunkState) : TrunkState :=
  { x with
    sel := { x.sel with
      mode := .starved, active := none, target := none, alignWait := 0, cause := none, causeAfter := []
      holdOff := .idle, restore := .idle, pendingSwitch := none }
    em := { x.em with centring := false, immediatePending := false, misalign := 0, breakPending := true } }

/-- A trunk's selector and emitter take the resume (R107, R170): the RESUME record, then the records' new values, and
STARVED unless the trunk was already STARVED. -/
def State.resumeTrunk (s : State) (after : List Nat) (t : Trunk) : State :=
  let x := (s.trunk t).sel
  if x.mode = .disabled then s
  else
    let src := x.fromLane
    let s := s.writeRecord t .resume src none .nil (x.pendingStamps after)
    let s := s.modTrunk t TrunkState.resumed
    if x.mode = .starved then s else s.offer allPorts (.selector t) after (.starved t .resume src)

/-- The halt is counted and HALT-ENDED is offered, except at the start-up (R171, R173). -/
def State.endHalt (s : State) : State :=
  if s.started then
    let s : State := { s with haltCount := s.haltCount + 1 }
    s.offer allPorts .timebase [] (.haltEnded s.monitor.haltMs s.haltCount)
  else s

/-- Every trigger outstanding is evaluated, in the order in which they were sent (R74; log entry 38). -/
def State.takeTriggers (s : State) : State := s.triggers.foldl State.takeTrigger s

/-- The work of the halt is complete before the return is declared: each command under way when HALT was declared has taken
its effects and placed its response (R148, R169), and the triggers outstanding, an install's among them, are evaluated (R54,
R91). Work that the rows of the halt have not taken is taken here (log entry 38). -/
def State.completeHalt (s : State) : State := s.completeCommands.takeTriggers

/-- Return declared (R167, R170): HALT-ENDED, then selectors and emitters, the alignment store, and the lane receivers; then
a new block period begins. -/
def State.resume (s : State) : State :=
  let s : State := { s with monitor := { state := .present, qualNs := qualificationNs,
                                         haltNs := s.monitor.haltNs + qualificationNs } }
  let s := s.endHalt
  let after := s.handOn .timebase []
  let s := allTrunks.foldl (fun s t => s.resumeTrunk after t) s
  let s := allLanes.foldl State.flush s
  let s := allLanes.foldl (fun s l => s.loseLock l .hunt after) s
  { s with started := true, instantTaken := Vector.replicate 8 false, scanCaptured := false }

/-- HALT_RESUME (R170, R173): the qualification time reaches 1 ms. The resume follows the work of the halt (R54, R169). -/
def execHaltResume (s : State) : Host.Outcome State Fault Refusal :=
  .next (if s.rstnLow || s.monitor.state != .qualifying then s else s.completeHalt.resume)

/-! ## Device reset -/

/-- A port while RSTn is low (R133, R172): the transaction is abandoned, PSDO is not driven, slots and queue are empty. The
transaction is over for the part: when RSTn rises before PCSn, PSDO sends nothing more in it (log entry 31). -/
def PortState.hold (x : PortState) : PortState :=
  { x with transaction := none, psdo := [], slot := .empty, response := none, queue := [] }

/-- DEVICE_RESET_ASSERTED (R172): the part is stopped, its outputs are quiet, and work in progress is abandoned. -/
def execDeviceResetAsserted (s : State) : Host.Outcome State Fault Refusal :=
  .next (if s.rstnLow then s else
    { s with
      rstnLow := true
      trunks := s.trunks.map TrunkState.quiet
      ports := s.ports.map PortState.hold
      scano := none
      orphans := [] })

/-- A port after device reset (R147); the level of its PRSTn pin is not the part's to change. -/
def PortState.resetByDevice (x : PortState) : PortState := { PortState.reset with prstnLow := x.prstnLow }

/-- DEVICE_RESET (R172): the release of RSTn. Every record takes its device-reset value; the queue of commands, the levels
of the PRSTn pins and the count of free values are not the part's (log entry 17). -/
def execDeviceReset (s : State) : Host.Outcome State Fault Refusal :=
  .next { State.reset with
    ports := s.ports.map PortState.resetByDevice
    freeCount := s.freeCount
    pending := s.pending }

end Sys2Proof.Machine
end

