-- ==== Sys2Proof/Machine/Dispatch.lean ====
section
/-! DEFINITION. One arm per command: each calls the command's meaning. -/

namespace Sys2Proof.Machine

/-- The effect of a command on everything but the queue. -/
def exec (i : Instr) (s : State) : Host.Outcome State Fault Refusal :=
  match i with
  | .attach p tag lease => Sys2Proof.Machine.execAttach p tag lease s
  | .renew p tag => Sys2Proof.Machine.execRenew p tag s
  | .detach p tag => Sys2Proof.Machine.execDetach p tag s
  | .queryDevice p tag part => Sys2Proof.Machine.execQueryDevice p tag part s
  | .queryPorts p tag part => Sys2Proof.Machine.execQueryPorts p tag part s
  | .queryLane p tag part lane => Sys2Proof.Machine.execQueryLane p tag part lane s
  | .queryTrunk p tag part trunk => Sys2Proof.Machine.execQueryTrunk p tag part trunk s
  | .queryHistory p tag part trunk => Sys2Proof.Machine.execQueryHistory p tag part trunk s
  | .subscribe p tag cls mode => Sys2Proof.Machine.execSubscribe p tag cls mode s
  | .setDegrade p tag part lane set clear => Sys2Proof.Machine.execSetDegrade p tag part lane set clear s
  | .clearLaneCounters p tag part lane => Sys2Proof.Machine.execClearLaneCounters p tag part lane s
  | .ballot p tag part trunk lane => Sys2Proof.Machine.execBallot p tag part trunk lane s
  | .hold p tag part trunk lane => Sys2Proof.Machine.execHold p tag part trunk lane s
  | .release p tag part trunk => Sys2Proof.Machine.execRelease p tag part trunk s
  | .bar p tag part lane => Sys2Proof.Machine.execBar p tag part lane s
  | .lift p tag part lane => Sys2Proof.Machine.execLift p tag part lane s
  | .liftStale p tag part lane port => Sys2Proof.Machine.execLiftStale p tag part lane port s
  | .propose p tag part trunk count m1 m2 m3 m4 revertive mend holdOff restoreWait => Sys2Proof.Machine.execPropose p tag part trunk count m1 m2 m3 m4 revertive mend holdOff restoreWait s
  | .concur p tag part trunk number => Sys2Proof.Machine.execConcur p tag part trunk number s
  | .dissent p tag part trunk number => Sys2Proof.Machine.execDissent p tag part trunk number s
  | .withdraw p tag part trunk number => Sys2Proof.Machine.execWithdraw p tag part trunk number s
  | .unknownCommand p octets => Sys2Proof.Machine.execUnknownCommand p octets s
  | .busyDrop p octets => Sys2Proof.Machine.execBusyDrop p octets s
  | .commandDiscarded p octets => Sys2Proof.Machine.execCommandDiscarded p octets s
  | .ignoredTransaction p octets => Sys2Proof.Machine.execIgnoredTransaction p octets s
  | .responsePlaced p => Sys2Proof.Machine.execResponsePlaced p s
  | .fetch p part => Sys2Proof.Machine.execFetch p part s
  | .portReset p => Sys2Proof.Machine.execPortReset p s
  | .portResetRelease p => Sys2Proof.Machine.execPortResetRelease p s
  | .leaseExpiry p => Sys2Proof.Machine.execLeaseExpiry p s
  | .deadlineExpiry t => Sys2Proof.Machine.execDeadlineExpiry t s
  | .holdOffExpiry t => Sys2Proof.Machine.execHoldOffExpiry t s
  | .restoreWaitExpiry t => Sys2Proof.Machine.execRestoreWaitExpiry t s
  | .alignWaitExpiry t => Sys2Proof.Machine.execAlignWaitExpiry t s
  | .alignmentLoss t => Sys2Proof.Machine.execAlignmentLoss t s
  | .blockPeriod => Sys2Proof.Machine.execBlockPeriod s
  | .emissionInstant t => Sys2Proof.Machine.execEmissionInstant t s
  | .scanCapture => Sys2Proof.Machine.execScanCapture s
  | .triggerEvaluation t choice => Sys2Proof.Machine.execTriggerEvaluation t choice s
  | .clockLoss l => Sys2Proof.Machine.execClockLoss l s
  | .stuckData l => Sys2Proof.Machine.execStuckData l s
  | .dataTransition l clockRunning => Sys2Proof.Machine.execDataTransition l clockRunning s
  | .syncMatch l bits => Sys2Proof.Machine.execSyncMatch l bits s
  | .expectedPosition l bits => Sys2Proof.Machine.execExpectedPosition l bits s
  | .blockPosition l header payload check => Sys2Proof.Machine.execBlockPosition l header payload check s
  | .fillAlarm l => Sys2Proof.Machine.execFillAlarm l s
  | .degradeDeclared l => Sys2Proof.Machine.execDegradeDeclared l s
  | .degradeWindowEnd l => Sys2Proof.Machine.execDegradeWindowEnd l s
  | .halt => Sys2Proof.Machine.execHalt s
  | .qualifying elapsed => Sys2Proof.Machine.execQualifying elapsed s
  | .qualificationAbandoned elapsed => Sys2Proof.Machine.execQualificationAbandoned elapsed s
  | .haltResume => Sys2Proof.Machine.execHaltResume s
  | .deviceResetAsserted => Sys2Proof.Machine.execDeviceResetAsserted s
  | .deviceReset => Sys2Proof.Machine.execDeviceReset s
  | .notificationOffer p choice => Sys2Proof.Machine.execNotificationOffer p choice s

end Sys2Proof.Machine
end

