-- ==== Sys2Proof/Safety.lean ====
section
/-! DEFINITION. What the spec promises of every state of a run: the laws of its records (R4, R18, R24, R41, R46, R48, R59,
R63, R72, R89, R92, R124, R160); the terms the statements use, what each kind of command can reach among them, and the CRC of R2
and R130 bit by bit; and which commands come on the timebase's schedule. No command stops the part with a fault,
so a safe run is one whose states keep the laws. -/

namespace Sys2Proof.Machine

/-! ## Lanes -/

/-- The ranges and dependences of the receiver record (R4), whatever the thresholds were when counts ran. -/
abbrev Receiver.Law (x : Receiver) : Prop :=
  x.syncCount ≤ 2 ∧ (x.lock ≠ .confirm → x.syncCount = 0) ∧
  x.missCount ≤ 3 ∧ (x.missCount ≠ 0 ↔ x.lock = .coast) ∧
  x.alarmRun ≤ 7 ∧
  x.windowPos ≤ windowLength ∧ x.windowCount ≤ x.windowPos ∧
  (x.windowPos = windowLength → LaneStep.windowEnd ∈ x.due) ∧
  1 ≤ x.degradeSet ∧ x.degradeSet ≤ 400 ∧ x.degradeClear < x.degradeSet ∧
  x.due.Nodup ∧
  (x.blockOpen = true → x.lock = .locked ∨ x.lock = .coast)

/-- The grade is the one R18 derives, once no step of a block position is left. -/
abbrev Receiver.GradeLaw (x : Receiver) : Prop :=
  x.due = [] → x.grade = gradeOf x.lock x.fillAlarm x.degrade

/-- A lane buffer holds at most 8 blocks, and none when the lane is no member of an installed charter (R24). -/
abbrev State.BufferLaw (s : State) : Prop :=
  ∀ l : Lane, (s.lane l).buffer.length ≤ bufferLimit ∧ (s.trunkOf l = none → (s.lane l).buffer = [])

abbrev State.ReceiverLaw (s : State) : Prop := ∀ l : Lane, (s.lane l).rx.Law

abbrev State.GradeLaw (s : State) : Prop := ∀ l : Lane, (s.lane l).rx.GradeLaw

/-! ## Charters, claims, proposals -/

/-- A valid charter's fields (R46). -/
abbrev CharterTerms.Law (c : CharterTerms) : Prop :=
  c.members.length ≤ 4 ∧ c.members.Nodup ∧ c.holdOff ≤ 200 ∧ c.restoreWait ≤ 600

/-- The lanes named by a trunk's installed charter or by its open proposal. -/
def State.named (s : State) (t : Trunk) : List Lane := s.members t ++ s.proposedMembers t

/-- Installed and proposed charters are valid (R46, R111), and no lane is named by two trunks (R48). -/
abbrev State.MembershipLaw (s : State) : Prop :=
  (∀ t : Trunk, (s.trunk t).charter.terms.Law ∧
    ∀ q ∈ (s.trunk t).proposal, q.terms.Law) ∧
  ∀ t u : Trunk, t ≠ u → ∀ l ∈ s.named t, l ∉ s.named u

/-- Every ballot names a member and belongs to an ATTACHED port (R59). -/
abbrev State.BallotLaw (s : State) : Prop :=
  ∀ (t : Trunk) (p : Port), ∀ l ∈ (s.trunk t).ballots[p.val],
    l ∈ s.members t ∧ (s.port p).mode = .attached

/-- Every hold names a member, and its owner is ATTACHED in the session the hold records (R63). -/
abbrev State.HoldLaw (s : State) : Prop :=
  ∀ t : Trunk, ∀ h ∈ (s.trunk t).hold,
    h.lane ∈ s.members t ∧ (s.port h.owner).mode = .attached ∧ h.session = (s.port h.owner).session

/-- The favoured lane is the one R58 computes from the slots and the ranks. -/
abbrev State.FavouredLaw (s : State) : Prop := ∀ t : Trunk, (s.trunk t).favoured = s.favouredNow t

/-- The concurred set of an open proposal contains the proposer and is a proper subset of the required set, whose ports are
all ATTACHED (R124). -/
abbrev State.ProposalLaw (s : State) : Prop :=
  ∀ t : Trunk, ∀ q ∈ (s.trunk t).proposal,
    PortSet.has q.concurred q.proposer = true ∧ q.concurred ≠ q.required ∧
    ∀ p : Port, (PortSet.has q.concurred p = true → PortSet.has q.required p = true) ∧
      (PortSet.has q.required p = true → (s.port p).mode = .attached)

/-! ## Selection, emission, history -/

/-- Which lanes the selection record holds in each trunk state (R72, R89). -/
abbrev Selection.Shape (x : Selection) : Prop :=
  (x.active = none ↔ x.mode = .disabled ∨ x.mode = .starved) ∧
  (x.target = none ↔ x.mode ≠ .switching) ∧
  (x.cause = none ↔ x.mode ≠ .switching) ∧
  (x.mode ≠ .switching → x.alignWait = 0) ∧
  (x.mode = .disabled → x.holdOff = .idle ∧ x.restore = .idle) ∧
  (x.pendingSwitch ≠ none → x.mode = .carrying ∨ x.mode = .switching)

/-- A trunk's selection record has its shape, its align-wait count is at most 16 and stands at 16 only while the expiry is
outstanding (R72, R38), the emitter's immediate pending flag is set exactly while a pending record is held (R35, R83), and
judgements and completions are never left outstanding (log entry 5). -/
abbrev TrunkState.SelectionLaw (x : TrunkState) : Prop :=
  x.sel.Shape ∧ x.sel.alignWait ≤ alignWaitLimit ∧
  (x.sel.alignWait = alignWaitLimit → ∃ r ∈ x.reports, r.kind = .alignWaitExpiry) ∧
  (x.em.immediatePending = true ↔ x.sel.pendingSwitch ≠ none) ∧
  ∀ r ∈ x.reports, r.kind.within = false

abbrev State.SelectionLaw (s : State) : Prop := ∀ t : Trunk, (s.trunk t).SelectionLaw

/-- The law of R89 for one trunk: DISABLED exactly when the charter is empty; the active lane and the target members of the
charter, unbarred and different. -/
abbrev State.CarriesWell (s : State) (t : Trunk) : Prop :=
  ((s.trunk t).sel.mode = .disabled ↔ s.members t = []) ∧
  (∀ a ∈ (s.trunk t).sel.active, a ∈ s.members t ∧ s.barred a = false) ∧
  (∀ b ∈ (s.trunk t).sel.target,
    b ∈ s.members t ∧ s.barred b = false ∧ (s.trunk t).sel.active ≠ some b)

/-- R89: the law holds of every trunk at whose selector no trigger is outstanding; and while triggers are outstanding, a
trunk whose state does not fit its charter has its install trigger among them, and a target still differs from the active
lane. -/
abbrev State.TrunkLaw (s : State) : Prop :=
  ∀ t : Trunk, (s.triggersAt t = [] → s.CarriesWell t) ∧
    ((∀ g ∈ s.triggersAt t, g.kind ≠ .install) → ((s.trunk t).sel.mode = .disabled ↔ s.members t = [])) ∧
    (∀ b ∈ (s.trunk t).sel.target, (s.trunk t).sel.active ≠ some b)

/-- The emitted count is the sum of its three sources, modulo 2^32 (R41). -/
abbrev TrunkCounters.Balanced (c : TrunkCounters) : Prop := c.emitted = c.fromActive + c.mended + c.fill

abbrev State.CounterLaw (s : State) : Prop := ∀ t : Trunk, (s.trunk t).em.counters.Balanced

/-- The misalignment run is below 4 between instants (R29, R37). -/
abbrev State.MisalignLaw (s : State) : Prop := ∀ t : Trunk, (s.trunk t).em.misalign < misalignLimit

/-- A switch history holds at most 8 records (R92). -/
abbrev State.HistoryLaw (s : State) : Prop := ∀ t : Trunk, (s.trunk t).history.length ≤ historyLimit

/-! ## Ports -/

/-- A queue holds at most 32 entries, the 32nd being a LOST marker, and is empty at an OFFLINE port (R154, R160). -/
abbrev PortState.QueueLaw (x : PortState) : Prop :=
  x.queue.length ≤ queueLimit ∧
  (x.queue.length = queueLimit → x.queue.getLast?.any Entry.isLost = true) ∧
  (x.mode = .offline → x.queue = [])

abbrev State.QueueLaw (s : State) : Prop := ∀ p : Port, (s.port p).QueueLaw

/-- The lease remaining is 0 when the port is not ATTACHED, and at most the lease (R127). -/
abbrev PortState.LeaseLaw (x : PortState) : Prop :=
  (x.mode ≠ .attached → x.leaseRemaining = 0) ∧ x.leaseRemaining ≤ x.leaseLength.toNat * leaseStep ∧
  (x.mode = .attached → x.leaseLength ≠ 0 ∧ x.session ≠ 0)

abbrev State.LeaseLaw (s : State) : Prop := ∀ p : Port, (s.port p).LeaseLaw

/-! ## Checks -/

/-- One bit read into a CRC register: it is shifted left, and the generator added when the bit shifted out differs from the bit
read (R2, R130). -/
def serialBit {w : Nat} (generator r : BitVec w) (bit : Bool) : BitVec w :=
  if r.msb = bit then r <<< 1 else (r <<< 1) ^^^ generator

/-- The bits of an octet, most significant first. -/
def bitsOf (o : Octet) : List Bool := (List.range 8).map fun k => o.getLsbD (7 - k)

/-- A CRC as R2 and R130 define it: each octet most significant bit first, and no final inversion. -/
def serialCrc {w : Nat} (generator start : BitVec w) (octets : List Octet) : BitVec w :=
  (octets.flatMap bitsOf).foldl (serialBit generator) start

/-! ## What a command can reach -/

/-- Nothing of the part outside its lanes, trunks, ports, offers and triggers differs. -/
structure SameDevice (s t : State) : Prop where
  rstnLow : t.rstnLow = s.rstnLow
  started : t.started = s.started
  monitor : t.monitor = s.monitor
  blockCounter : t.blockCounter = s.blockCounter
  haltCount : t.haltCount = s.haltCount
  instantTaken : t.instantTaken = s.instantTaken
  scanCaptured : t.scanCaptured = s.scanCaptured
  scano : t.scano = s.scano
  proposalCounter : t.proposalCounter = s.proposalCounter
  orphans : t.orphans = s.orphans
  freeCount : t.freeCount = s.freeCount
  pending : t.pending = s.pending

/-- Only lane l's receiver, buffer and alignment status differ, and offers and triggers. -/
structure LaneOnly (l : Lane) (s t : State) : Prop where
  device : SameDevice s t
  trunks : t.trunks = s.trunks
  ports : t.ports = s.ports
  lanes : ∀ l' : Lane, l' ≠ l → t.lane l' = s.lane l'
  bars : ∀ l' : Lane, (t.lane l').bars = (s.lane l').bars
  degradeSet : ∀ l' : Lane, (t.lane l').rx.degradeSet = (s.lane l').rx.degradeSet
  degradeClear : ∀ l' : Lane, (t.lane l').rx.degradeClear = (s.lane l').rx.degradeClear

/-- Only trunk k's selection record, emitter, history, dormant mark and reports differ, its members' buffers and alignment
statuses, and offers and triggers. -/
structure TrunkOnly (k : Trunk) (s t : State) : Prop where
  ports : t.ports = s.ports
  monitor : t.monitor = s.monitor
  blockCounter : t.blockCounter = s.blockCounter
  haltCount : t.haltCount = s.haltCount
  scano : t.scano = s.scano
  proposalCounter : t.proposalCounter = s.proposalCounter
  orphans : t.orphans = s.orphans
  trunks : ∀ u : Trunk, u ≠ k → t.trunk u = s.trunk u
  charter : (t.trunk k).charter = (s.trunk k).charter
  ballots : (t.trunk k).ballots = (s.trunk k).ballots
  favoured : (t.trunk k).favoured = (s.trunk k).favoured
  proposal : (t.trunk k).proposal = (s.trunk k).proposal
  hold : (t.trunk k).hold.map (fun h => (h.owner, h.session, h.lane)) =
    (s.trunk k).hold.map (fun h => (h.owner, h.session, h.lane))
  rx : ∀ l : Lane, (t.lane l).rx = (s.lane l).rx
  bars : ∀ l : Lane, (t.lane l).bars = (s.lane l).bars
  others : ∀ l : Lane, l ∉ s.members k → t.lane l = s.lane l

/-- Only claims differ, what they send and offer, and port p's record: no receiver, buffer, charter, proposal, selection
record, emitter or history, and no other port. -/
structure ClaimsOnly (p : Port) (s t : State) : Prop where
  ports : ∀ q : Port, q ≠ p → t.port q = s.port q
  monitor : t.monitor = s.monitor
  blockCounter : t.blockCounter = s.blockCounter
  haltCount : t.haltCount = s.haltCount
  scano : t.scano = s.scano
  proposalCounter : t.proposalCounter = s.proposalCounter
  rx : ∀ l : Lane, (t.lane l).rx = (s.lane l).rx
  buffer : ∀ l : Lane, (t.lane l).buffer = (s.lane l).buffer
  status : ∀ l : Lane, (t.lane l).status = (s.lane l).status
  charter : ∀ k : Trunk, (t.trunk k).charter = (s.trunk k).charter
  proposal : ∀ k : Trunk, (t.trunk k).proposal = (s.trunk k).proposal
  sel : ∀ k : Trunk, (t.trunk k).sel = (s.trunk k).sel
  em : ∀ k : Trunk, (t.trunk k).em = (s.trunk k).em
  history : ∀ k : Trunk, (t.trunk k).history = (s.trunk k).history

/-- Only charters, proposals, claims and port p's record differ, the buffers and alignment statuses that installs flush, and
what is sent and offered: no receiver, bar, selection record, emitter or history, and no other port. -/
structure ChartersOnly (p : Port) (s t : State) : Prop where
  ports : ∀ q : Port, q ≠ p → t.port q = s.port q
  monitor : t.monitor = s.monitor
  blockCounter : t.blockCounter = s.blockCounter
  haltCount : t.haltCount = s.haltCount
  scano : t.scano = s.scano
  rx : ∀ l : Lane, (t.lane l).rx = (s.lane l).rx
  bars : ∀ l : Lane, (t.lane l).bars = (s.lane l).bars
  sel : ∀ k : Trunk, (t.trunk k).sel = (s.trunk k).sel
  em : ∀ k : Trunk, (t.trunk k).em = (s.trunk k).em
  history : ∀ k : Trunk, (t.trunk k).history = (s.trunk k).history

/-- Only receiver records and port p's record differ, and what they send and offer: no buffer, bar, trunk or other port. -/
structure ReceiverOnly (p : Port) (s t : State) : Prop where
  ports : ∀ q : Port, q ≠ p → t.port q = s.port q
  monitor : t.monitor = s.monitor
  blockCounter : t.blockCounter = s.blockCounter
  haltCount : t.haltCount = s.haltCount
  scano : t.scano = s.scano
  proposalCounter : t.proposalCounter = s.proposalCounter
  trunks : t.trunks = s.trunks
  buffer : ∀ l : Lane, (t.lane l).buffer = (s.lane l).buffer
  status : ∀ l : Lane, (t.lane l).status = (s.lane l).status
  bars : ∀ l : Lane, (t.lane l).bars = (s.lane l).bars

/-- Only port p's record, claims and proposals differ, and what is sent and offered: no lane, charter, selection record, emitter or
history, and no other port. -/
structure DepartureOnly (p : Port) (s t : State) : Prop where
  ports : ∀ q : Port, q ≠ p → t.port q = s.port q
  monitor : t.monitor = s.monitor
  blockCounter : t.blockCounter = s.blockCounter
  haltCount : t.haltCount = s.haltCount
  scano : t.scano = s.scano
  proposalCounter : t.proposalCounter = s.proposalCounter
  lanes : t.lanes = s.lanes
  charter : ∀ k : Trunk, (t.trunk k).charter = (s.trunk k).charter
  sel : ∀ k : Trunk, (t.trunk k).sel = (s.trunk k).sel
  em : ∀ k : Trunk, (t.trunk k).em = (s.trunk k).em
  history : ∀ k : Trunk, (t.trunk k).history = (s.trunk k).history

/-- Only port p's record differs, and offers. -/
structure PortOnly (p : Port) (s t : State) : Prop where
  monitor : t.monitor = s.monitor
  blockCounter : t.blockCounter = s.blockCounter
  haltCount : t.haltCount = s.haltCount
  scano : t.scano = s.scano
  proposalCounter : t.proposalCounter = s.proposalCounter
  lanes : t.lanes = s.lanes
  trunks : t.trunks = s.trunks
  triggers : t.triggers = s.triggers
  orphans : t.orphans = s.orphans
  ports : ∀ q : Port, q ≠ p → t.port q = s.port q

/-- A departure of port p for a cause has been taken by the claim registry and the concurrence unit (R140), its port controller
having made the offers `own` of it. The port's ballots and holds are gone from every trunk, its bars stay (R67, R68); where it had
a ballot the favoured lane is that of the ballots left (R58), a change being offered to all four ports; each trunk that lost a
claim is sent one trigger, hold where a hold was removed and ballot otherwise, and one CLAIM-DROPPED for it is offered to port p
alone; every open proposal that required the port is closed, WITHDRAWN for its proposer and VOIDED otherwise, with CLOSED offered
to all four ports (R118, R123). Triggers and offers come after what the port controller had offered (R149). -/
structure Departs (p : Port) (cause : Reason) (own : List Offer) (s t : State) : Prop where
  lanes : t.lanes = s.lanes
  ports : ∀ q : Port, q ≠ p → t.port q = s.port q
  charter : ∀ k : Trunk, (t.trunk k).charter = (s.trunk k).charter
  sel : ∀ k : Trunk, (t.trunk k).sel = (s.trunk k).sel
  em : ∀ k : Trunk, (t.trunk k).em = (s.trunk k).em
  history : ∀ k : Trunk, (t.trunk k).history = (s.trunk k).history
  ballots : ∀ k : Trunk, (t.trunk k).ballots = (s.trunk k).ballots.set p.val none
  hold : ∀ k : Trunk, (t.trunk k).hold = (s.trunk k).hold.filter fun h => h.owner ≠ p
  proposal : ∀ k : Trunk, (t.trunk k).proposal = (s.trunk k).proposal.filter fun q => !PortSet.has q.required p
  favoured : ∀ k : Trunk, (t.trunk k).favoured =
    if (s.trunk k).ballots[p.val].isSome then t.favouredNow k else (s.trunk k).favoured
  sent : ∃ more : List Trigger, t.triggers = s.triggers ++ more ∧
    (more.map fun g => (g.trunk, g.kind, g.sender)) = (allTrunks.filterMap fun k =>
      if (s.trunk k).hold.any (fun h => h.owner = p) then some (k, .hold, .registry)
      else if (s.trunk k).ballots[p.val].isSome then some (k, .ballot, .registry) else none) ∧
    ∀ g ∈ more, ∀ o ∈ s.offers ++ own, o.block = .portController p → o.stamp ∈ g.after
  offered : ∃ more : List Offer, t.offers = s.offers ++ own ++ more ∧
    (more.map fun o => (o.event, o.block, o.dest)) =
      (allTrunks.filterMap fun k =>
        if (t.trunk k).favoured = (s.trunk k).favoured then none
        else some (.favouredChanged k (s.trunk k).favoured (t.trunk k).favoured (match (t.trunk k).favoured with
          | some l => t.ballotsFor k l
          | none => 0) (s.trunk k).charter.version, .registry, allPorts)) ++
      (allTrunks.filterMap fun k =>
        let ballot := (s.trunk k).ballots[p.val]
        let held := ((s.trunk k).hold.filter fun h => h.owner = p).map Hold.lane
        if ballot.isSome || held.isSome then
          some (.claimDropped k p (s.port p).session ballot held cause, .registry, [p])
        else none) ++
      (allTrunks.filterMap fun k =>
        ((s.trunk k).proposal.filter fun q => PortSet.has q.required p).map fun q =>
          (.closed k q.number (if q.proposer = p then .withdrawn else .voided) (some p) cause q.concurred,
            .concurrence, allPorts)) ∧
    ∀ o ∈ more, o.time = s.blockCounter ∧
      ∀ a ∈ s.offers ++ own, a.block = .portController p → a.stamp ∈ o.after

/-! ## How a command reaches its owner -/

/-- The row of a command on a port, with a tag, in a part (the part has no bearing on ATTACH, RENEW, DETACH and SUBSCRIBE,
which act on the port controller's own record). -/
def Command.row (p : Port) (tag : Octet) (part : Part) : Command → Instr
  | .attach lease => .attach p tag lease
  | .renew => .renew p tag
  | .detach => .detach p tag
  | .queryDevice => .queryDevice p tag part
  | .queryPorts => .queryPorts p tag part
  | .queryLane lane => .queryLane p tag part lane
  | .queryTrunk trunk => .queryTrunk p tag part trunk
  | .queryHistory trunk => .queryHistory p tag part trunk
  | .subscribe cls mode => .subscribe p tag cls mode
  | .setDegrade lane set clear => .setDegrade p tag part lane set clear
  | .clearLaneCounters lane => .clearLaneCounters p tag part lane
  | .ballot trunk lane => .ballot p tag part trunk lane
  | .hold trunk lane => .hold p tag part trunk lane
  | .release trunk => .release p tag part trunk
  | .bar lane => .bar p tag part lane
  | .lift lane => .lift p tag part lane
  | .liftStale lane port => .liftStale p tag part lane port
  | .propose trunk count m1 m2 m3 m4 revertive mend holdOff restoreWait =>
    .propose p tag part trunk count m1 m2 m3 m4 revertive mend holdOff restoreWait
  | .concur trunk n => .concur p tag part trunk n
  | .dissent trunk n => .dissent p tag part trunk n
  | .withdraw trunk n => .withdraw p tag part trunk n

/-- Another event may fall between the hand-over of a command and its execution: the block that owns the state it acts on is
another than the port controller (R132 step 3; SUBSCRIBE is the port controller's own queue's), or it is a query, which reads
the records of other blocks (R142, R143). -/
def Command.inParts : Command → Bool
  | .attach _ => false
  | .renew => false
  | .detach => false
  | .queryDevice => true
  | .queryPorts => true
  | .queryLane _ => true
  | .queryTrunk _ => true
  | .queryHistory _ => true
  | .subscribe _ _ => false
  | .setDegrade _ _ _ => true
  | .clearLaneCounters _ => true
  | .ballot _ _ => true
  | .hold _ _ => true
  | .release _ => true
  | .bar _ => true
  | .lift _ => true
  | .liftStale _ _ => true
  | .propose _ _ _ _ _ _ _ _ _ _ => true
  | .concur _ _ => true
  | .dissent _ _ => true
  | .withdraw _ _ => true

/-- A COMMAND transaction of n octets in all ends on the port and its frame is taken into the command slot (R131): the part runs,
the transaction was neither ignored nor abandoned because of PRSTn, no FETCH is in progress on the port, and the slot is empty.
The transaction is given whole, or it is the one in progress. -/
abbrev State.CanTake (s : State) (p : Port) (n : Nat) : Prop :=
  s.rstnLow = false ∧ s.monitor.state = .present ∧ (s.ending p).unheard = false ∧ (s.port p).canEnd n = true ∧
    (s.port p).slot = .empty

/-- The port record once a transaction of n octets in all that is no FETCH has ended: PSDO has carried what it had carried before in
the transaction, then the status octets left and 0x00, or ones while PRSTn is low. -/
def State.endedPort (s : State) (p : Port) (n : Nat) : PortState :=
  let x := s.port p
  let left := n - x.carried.length
  { x with
    transaction := none
    psdo := x.carried ++ (if x.prstnLow then List.replicate left 0xFF else (s.ending p).plainOctets left) }

/-- The port record once a frame of n octets has been taken (R131). -/
def State.takenPort (s : State) (p : Port) (n : Nat) : PortState :=
  { s.endedPort p n with response := none, busyDrop := false }

/-- The port record with the lease of an ATTACHED port restarted (R132 step 1, R137). -/
def PortState.leaseRestarted (x : PortState) : PortState :=
  { x with leaseRemaining := if x.mode = .attached then x.leaseLength.toNat * 1600 else x.leaseRemaining }

/-- The state once a frame of n octets that passes the frame check has been taken: only port p's record differs. -/
def State.received (s : State) (p : Port) (n : Nat) : State := s.setPort p (s.takenPort p n).leaseRestarted

/-- The state once a command has been executed and its response waits to be placed: only the command slot differs (R132). -/
def State.answered (s : State) (p : Port) (tag : Octet) (c : Command) (outcome : Code) (result : List Octet) : State :=
  s.setPort p { s.port p with slot := .done { tag := tag, code := c.code, outcome := outcome, result := result } }

/-- A command arrives at its owner: its frame has just been taken from an ATTACHED port (the part `whole`; R135), or it was
handed over earlier and is on its way (the part `atOwner`). The owner finds the state u, and what it offers comes after the
stamps given: those of the offers the port controller had made when it handed the command over (R149). -/
def State.Arrives (s : State) (p : Port) (tag : Octet) (c : Command) (part : Part) (u : State) (after : List Nat) : Prop :=
  (part = .whole ∧ s.CanTake p (4 + c.operands.length) ∧ (s.port p).mode = .attached ∧
    u = s.received p (4 + c.operands.length) ∧ after = u.handOn (.portController p) []) ∨
  (part = .atOwner ∧ s.rstnLow = false ∧ s.orphan p tag c = none ∧ (s.port p).slot = .handed tag c after ∧ u = s)

/-- A query is completed: its frame has just been taken, in every port state (the part `whole`; R135), or it is under way and has
read some of its records before (the part `atOwner`; R142). The rest is read from the state u. -/
def State.Completes (s : State) (p : Port) (tag : Octet) (c : Command) (part : Part) (u : State)
    (got : List (Nat × List Octet)) : Prop :=
  (part = .whole ∧ s.CanTake p (4 + c.operands.length) ∧ u = s.received p (4 + c.operands.length) ∧ got = []) ∨
  (part = .atOwner ∧ s.rstnLow = false ∧ s.orphan p tag c = none ∧ (s.port p).slot = .reading tag c got ∧ u = s)

/-- A trigger is taken: it is one the selector may take next, every report of the trunk has been taken, and RSTn is high. -/
def State.Takes (s : State) (t : Trunk) (choice : Nat) (g : Trigger) : Prop :=
  s.rstnLow = false ∧ (s.trunk t).reports = [] ∧ (s.readyTriggers t)[choice]? = some g

/-- The row i makes one evaluation at trunk t, of a trigger of kind k, every report of the trunk having been taken and RSTn being
high: an outstanding trigger is taken (R74), or, while the part runs, a hold-off timer that has run out becomes IDLE or a restore
timer DUE, and the expiry is the trigger (R79). The evaluation finds the state u, and what it offers comes after the stamps given. -/
def State.Evaluates (s : State) (t : Trunk) (i : Instr) (k : TriggerKind) (u : State) (after : List Nat) : Prop :=
  let x := s.trunk t
  (∃ choice g, i = .triggerEvaluation t choice ∧ s.Takes t choice g ∧ k = g.kind ∧ after = g.after ∧
    u = { s with triggers := s.triggers.erase g }) ∨
  (s.rstnLow = false ∧ s.monitor.state = .present ∧ x.reports = [] ∧ after = [] ∧
    ((i = .holdOffExpiry t ∧ k = .holdOffExpiry ∧ x.sel.holdOff = .running 0 ∧
        u = s.setTrunk t { x with sel := { x.sel with holdOff := .idle } }) ∨
      ∃ c, i = .restoreWaitExpiry t ∧ k = .restoreExpiry ∧ x.sel.restore = .running c 0 ∧
        u = { s.setTrunk t { x with sel := { x.sel with restore := .due c } } with freeCount := s.freeCount + 1 }))

/-- The causes that step 7 of R80 gives a switch of a trigger's kind, but for REVERT towards the candidate of a DUE restore timer. The
table names none for a restore-wait expiry: there it is one of the six (log entry 29). -/
def TriggerKind.causes : TriggerKind → List Cause
  | .grade _ => [.health]
  | .bar => [.bar]
  | .hold => [.hold]
  | .ballot => [.ballot]
  | .install => [.membership]
  | .holdOffExpiry => [.health]
  | .report => [.health]
  | .restoreExpiry => [.revert, .health, .bar, .hold, .ballot, .membership]

/-! ## The schedule of the timebase -/

/-- A command comes when the timebase gives it: each trunk's instant once in a block period, the scan capture once, and the
period's end after all of them (R30, R163, R165). The meanings do not rely on it (log entry 2). -/
def State.onSchedule (s : State) : Instr → Bool
  | .emissionInstant t => !s.instantTaken[t.val]
  | .scanCapture => !s.scanCaptured
  | .blockPeriod => s.scanCaptured && allTrunks.all fun t => s.instantTaken[t.val]
  | _ => true

end Sys2Proof.Machine
end

