-- ==== Sys2Proof/Certificates/Slice0/Obligations.lean ====
section
/-! DEFINITION. The statements for the provers, in the order of OBLIGATIONS.json: the queue and the step; frames and
transactions; the commands of the port controller, of the receivers, of the claim registry and of the concurrence unit; the
events of ports, lanes and trunks; the timebase, HALT and reset; what commands leave unchanged; the laws every step keeps. How
offers and triggers are ordered by stamps, how a command is split into hand-over and taking, and how a block position and an
instant are split into rows are the model's own form (log entries 8 with 33 to 35, 9, 10, 4 and 5); every statement that names an offer, a
trigger, an arriving command, a due step or a report is written in that form. -/

open Sys2Proof Sys2Proof.Machine

/-! ## The queue and the step -/

/-- A step takes the command at the front of the queue and is `exec` of it on the state with the queue's rest; on an empty queue
the part idles (log entry 1: idling is the model's choice). -/
def Obligations.StepRunsTheFrontCommand : Prop :=
  (∀ (s : State) (c : Instr) (rest : List Instr),
    step { s with pending := c :: rest } = exec c { s with pending := rest }) ∧
  ∀ s : State, s.pending = [] → step s = .next s

/-- Every command is answered with a next state, in whatever state it comes, and its effect does not touch the queue of commands
waiting. Both are the model's choice: the queue stands outside the part (log entry 1), and a row that comes outside its
condition is answered with no change (log entry 3). The spec only names what every row does. -/
def Obligations.EveryCommandIsAnsweredOffTheQueue : Prop :=
  ∀ (c : Instr) (s : State), ∃ t, exec c s = .next t ∧ t.pending = s.pending

/-! ## Frames and transactions -/

/-- R130, R174 and 11.3: the frame of every command is the kind octet, the tag, the code and the operands of the table of 11.3,
and the CRC-8 over them; with every tag and every operand value it is judged a valid frame of that command and that tag, octets
after it being ignored. The operand count is that of the table, and no other code has one. The frame check of any octets is the
CRC of R130: generator x^8 + x^2 + x + 1, register 0x00 at the start, each octet most significant bit first. -/
def Obligations.CommandFrameReadsBack : Prop :=
  (∀ octets : List Octet, crc8 octets = serialCrc 0x07 0x00 octets) ∧
  (∀ (tag : Octet) (c : Command) (more : List Octet),
    judgeFrame (commandFrame tag c ++ more) = .valid tag c ∧
    (commandFrame tag c).length = 4 + c.operands.length ∧
    let wide := fun w : Pair => [w.extractLsb' 8 8, w.extractLsb' 0 8]
    let frame := fun (code : Octet) (operands : List Octet) =>
      operandCount code = some operands.length ∧ c.operands = operands ∧
      commandFrame tag c = [0xA5, tag, code] ++ operands ++ [serialCrc 0x07 0x00 ([0xA5, tag, code] ++ operands)]
    match c with
    | .attach lease => frame 0x10 [lease]
    | .renew => frame 0x11 []
    | .detach => frame 0x12 []
    | .queryDevice => frame 0x20 []
    | .queryPorts => frame 0x21 []
    | .queryLane l => frame 0x22 [l]
    | .queryTrunk t => frame 0x23 [t]
    | .queryHistory t => frame 0x24 [t]
    | .subscribe cls mode => frame 0x30 [cls, mode]
    | .setDegrade l set clear => frame 0x38 ([l] ++ wide set ++ wide clear)
    | .clearLaneCounters l => frame 0x39 [l]
    | .ballot t l => frame 0x40 [t, l]
    | .hold t l => frame 0x41 [t, l]
    | .release t => frame 0x42 [t]
    | .bar l => frame 0x48 [l]
    | .lift l => frame 0x49 [l]
    | .liftStale l j => frame 0x4A [l, j]
    | .propose t count m1 m2 m3 m4 revertive mend holdOff wait =>
      frame 0x50 ([t, count, m1, m2, m3, m4, revertive, mend, holdOff] ++ wide wait)
    | .concur t n => frame 0x51 ([t] ++ wide n)
    | .dissent t n => frame 0x52 ([t] ++ wide n)
    | .withdraw t n => frame 0x53 ([t] ++ wide n)) ∧
  ∀ code : Octet, operandCount code ≠ none → code ∈ [0x10, 0x11, 0x12, 0x20, 0x21, 0x22, 0x23, 0x24, 0x30, 0x38, 0x39, 0x40,
    0x41, 0x42, 0x48, 0x49, 0x4A, 0x50, 0x51, 0x52, 0x53]

/-- The rows given by octets carry out the command whose frame the octets are: any of the four, from any state, answers what the
command's own row answers (log entry 20: that such a row does what its octets say is the model's choice). -/
def Obligations.FrameOctetsActAsTheCommand : Prop :=
  ∀ (s : State) (p : Port) (tag : Octet) (c : Command),
    exec (.unknownCommand p (commandFrame tag c)) s = exec (c.row p tag .whole) s ∧
    exec (.busyDrop p (commandFrame tag c)) s = exec (c.row p tag .whole) s ∧
    exec (.commandDiscarded p (commandFrame tag c)) s = exec (c.row p tag .whole) s ∧
    exec (.ignoredTransaction p (commandFrame tag c)) s = exec (c.row p tag .whole) s

/-- R130: a frame taken with fewer octets than the frame length of its code is answered SHORT; one whose check octet differs
from the CRC-8, FRAME-ERROR; one with an unknown code, UNKNOWN-COMMAND, and only the last restarts the lease. The tag and the
code received are returned, 0x00 where not received, with an empty result; nothing outside port p's record changes. -/
def Obligations.RefusedFramesAreAnswered : Prop :=
  ∀ (s : State) (p : Port) (octets : List Octet), s.CanTake p octets.length → octets.head? = some 0xA5 →
    let tag := octets[1]?.getD 0
    let code := octets[2]?.getD 0
    let n := 4 + (octets[2]?.bind operandCount).getD 0
    let x := s.takenPort p octets.length
    let answer := fun (y : PortState) (o : Code) =>
      (Host.Outcome.next
        (s.setPort p { y with slot := .done { tag := tag, code := code, outcome := o, result := [] } }) :
        Host.Outcome State Fault Refusal)
    (octets.length < n → exec (.unknownCommand p octets) s = answer x .short) ∧
    (n ≤ octets.length → octets[n - 1]? ≠ some (crc8 (octets.take (n - 1))) →
      exec (.unknownCommand p octets) s = answer x .frameError) ∧
    (n ≤ octets.length → octets[n - 1]? = some (crc8 (octets.take (n - 1))) → operandCount code = none →
      exec (.unknownCommand p octets) s = answer x.leaseRestarted .unknownCommand)

/-- R131: while the part runs, a frame that finds the command slot occupied is dropped unjudged and sets BUSY-DROP; in HALT a
frame is discarded unjudged and BUSY-DROP, both slots and the lease are unchanged. R128: a transaction with another kind octet,
or with no complete octet, changes no state. The status octets and then 0x00 have been sent on PSDO. R141: a transaction that
a port reset has abandoned, or that began while PRSTn was low, has no effect; PSDO carries 0xFF while PRSTn is low, and once it is
high again the octets of an ignored transaction where the transaction began in PRSTn low (log entry 15: it stays ignored, and the
octets of an abandoned one are free then). Nothing else changes. -/
def Obligations.UntakenTransactionsHaveNoEffect : Prop :=
  ∀ (s : State) (p : Port) (octets : List Octet), s.rstnLow = false → (s.port p).canEnd octets.length = true →
    let n := octets.length
    let x := s.port p
    let command := octets.head? = some 0xA5
    let ignored := octets.head? ≠ some 0xA5 ∧ octets.head? ≠ some 0x5A
    ((s.ending p).phase ≠ .abandoned →
      let ended := s.endedPort p n
      (command → (s.ending p).ignored = false → s.monitor.state = .present → x.slot ≠ .empty →
        exec (.busyDrop p octets) s = .next (s.setPort p { ended with busyDrop := true })) ∧
      (command → (s.ending p).ignored = true ∨ s.monitor.state ≠ .present →
        exec (.commandDiscarded p octets) s = .next (s.setPort p ended)) ∧
      (ignored → exec (.ignoredTransaction p octets) s = .next (s.setPort p ended))) ∧
    ((s.ending p).phase = .abandoned →
      ∃ (sent : List Octet) (count : Nat),
        (x.prstnLow = true → count = s.freeCount ∧ sent = x.carried ++ List.replicate (n - x.carried.length) 0xFF) ∧
        (command → exec (.commandDiscarded p octets) s =
          .next (({ s with freeCount := count } : State).setPort p { x with transaction := none, psdo := sent })) ∧
        (ignored → exec (.ignoredTransaction p octets) s =
          .next (({ s with freeCount := count } : State).setPort p { x with transaction := none, psdo := sent })))

/-- R135: from a port that is not ATTACHED every command but ATTACH and the queries is refused NOT-ATTACHED, whatever its
operands; the frame was taken, the lease was not restarted, and nothing outside port p's record changes. R56, R113, R148: a
claim or concurrence command whose port has left ATTACHED since it was handed over is refused NOT-ATTACHED when its owner takes
it; after a port reset there is no response either. (Log entry 10: the parts of a command are the model's.) -/
def Obligations.UnattachedPortIsRefused : Prop :=
  ∀ (s : State) (p : Port) (tag : Octet) (c : Command) (part : Part),
    (s.port p).mode ≠ .attached →
    (s.CanTake p (4 + c.operands.length) → part = .whole ∨ part = .handOver →
      (∀ lease, c ≠ .attach lease) → c ≠ .queryDevice → c ≠ .queryPorts → (∀ l, c ≠ .queryLane l) →
      (∀ t, c ≠ .queryTrunk t) → (∀ t, c ≠ .queryHistory t) →
      exec (c.row p tag part) s =
        .next (s.setPort p { s.takenPort p (4 + c.operands.length) with
          slot := .done { tag := tag, code := c.code, outcome := .notAttached, result := [] } })) ∧
    (s.rstnLow = false → c.inParts = true → c.allowedAlways = false → (∀ l set clear, c ≠ .setDegrade l set clear) →
      (∀ l, c ≠ .clearLaneCounters l) →
      (∀ o ∈ s.orphan p tag c,
        exec (c.row p tag .atOwner) s = .next { s with orphans := s.orphans.erase o }) ∧
      (∀ after, s.orphan p tag c = none → (s.port p).slot = .handed tag c after →
        exec (c.row p tag .atOwner) s = .next (s.answered p tag c .notAttached [])))

/-- R132, R148, R143: handing a command over to the block that owns its state, or beginning a query, takes its frame, restarts
the lease of an ATTACHED port, and leaves the command in the slot on its way, with what its port controller had offered before
(R149); nothing outside port p's record changes. A command carried out whole is its hand-over followed by its owner's taking
with nothing between. (Log entry 10: the parts of a command are the model's.) -/
def Obligations.HandOverThenTakingIsTheWhole : Prop :=
  ∀ (s : State) (p : Port) (tag : Octet) (c : Command),
    s.CanTake p (4 + c.operands.length) → c.allowedAlways = true ∨ (s.port p).mode = .attached → c.inParts = true →
    let onItsWay : CommandSlot :=
      if c.allowedAlways then .reading tag c [] else .handed tag c (s.handOn (.portController p) [])
    let handed := s.setPort p { (s.takenPort p (4 + c.operands.length)).leaseRestarted with slot := onItsWay }
    exec (c.row p tag .handOver) s = .next handed ∧
    (s.orphan p tag c = none → exec (c.row p tag .whole) s = exec (c.row p tag .atOwner) handed)

/-- R132, R148: at completion the response is placed in the response slot and the command slot becomes empty, in HALT too;
nothing else changes. R133: PATTN of a port is asserted exactly while its response slot holds a response or its queue is not
empty, PRSTn and RSTn being high, in HALT too; so a response placed asserts it. -/
def Obligations.ResponseIsPlaced : Prop :=
  (∀ (s : State) (p : Port), s.pattn p = true ↔
    s.rstnLow = false ∧ (s.port p).prstnLow = false ∧ ((s.port p).response ≠ none ∨ (s.port p).queue ≠ [])) ∧
  ∀ (s : State) (p : Port) (r : Response), s.rstnLow = false → (s.port p).slot = .done r →
    let t := s.setPort p { s.port p with slot := .empty, response := some r }
    exec (.responsePlaced p) s = .next t ∧ (t.pattn p = true ↔ (s.port p).prstnLow = false)

/-- R134, R157, R158: a FETCH of n octets while the part runs sends the status octets, the response that was waiting, and the
entries oldest first, then 0x00; the response is removed when its last octet was sent, and each entry whose 16th octet was sent.
In HALT it sends the status octets and then 0x00 and removes nothing. R141: while PRSTn is low it is ignored, and PSDO is held
high. Nothing else changes. R133: PATTN then stands exactly when a response or an entry is left, and is deasserted while PRSTn
is low. R129, R155, R174 to R176, 11.3, 11.5, 11.6: what the octets are: the two status octets, the four header octets of a
response before its result, and the 16 octets of an entry, with the class, the kind code, onset or clear, the subject and the
detail of every kind. -/
def Obligations.FetchDeliversAndRemoves : Prop :=
  (∀ (s : State) (p : Port), s.statusOctets p =
    [oct ((match (s.port p).mode with
        | .offline => 0
        | .attached => 64
        | .lapsed => 128) + (if (s.port p).response = none then 0 else 32) + (if (s.port p).busyDrop then 16 else 0) +
        (if s.monitor.state = .present then 0 else 8)),
      oct (s.port p).queue.length]) ∧
  (∀ r : Response, r.octets = [oct r.result.length, r.tag, r.code, r.outcome.code] ++ r.result) ∧
  [Code.accepted, .installed, .unknownCommand, .frameError, .short, .notAttached, .alreadyAttached, .badLease, .noSuchLane,
    .noSuchTrunk, .noSuchPort, .badValue, .notOwner, .notMember, .heldByOther, .noHold, .barred, .notBarred, .notStale,
    .barsHeld, .badCharter, .notParty, .proposalOpen, .laneTaken, .laneContested, .noProposal, .wrongProposal].map Code.code =
      [0x00, 0x01, 0x80, 0x81, 0x82, 0x83, 0x84, 0x85, 0x86, 0x87, 0x88, 0x89, 0x8A, 0x8B, 0x8C, 0x8D, 0x8E, 0x8F, 0x90, 0x91,
        0x92, 0x93, 0x94, 0x95, 0x96, 0x97, 0x98] ∧
  (∀ (number : Pair) (count : Nat) (time latest : Count), (Entry.lost number count time latest).octets =
    be 2 number.toNat ++ [0x0F, 0x00, 0xFF] ++ be 2 count ++ be 4 latest.toNat ++ [0x00] ++ be 4 time.toNat) ∧
  (∀ e : Event,
    let entry := fun (cls : EventClass) (clsCode kind : Octet) (clear : Bool) (subject : Nat) (detail : List Octet) =>
      e.cls = cls ∧ e.isClear = clear ∧ ∀ (number : Pair) (time : Count), (Entry.note number e time).octets =
        be 2 number.toNat ++ [clsCode, kind, oct subject] ++ detail ++ List.replicate (7 - detail.length) 0x00 ++
          be 4 time.toNat
    let lane := entry .lane 1
    let trunk := entry .trunk 2
    let claim := entry .claim 3
    let charter := entry .charter 4
    let port := entry .port 5
    let bit := fun b : Bool => if b then (1 : Octet) else 0
    let seq := fun q : Option SeqNo => be 2 (match q with
      | some n => n.toNat
      | none => 0xFFFF)
    let graded := fun (prev new : Grade) (lock : LockState) (fill degrade : Bool) =>
      [oct prev.code, oct new.code, oct lock.code, bit fill, bit degrade]
    match e with
    | .gradeWorse l prev new lock fill degrade => lane 1 false l.val (graded prev new lock fill degrade)
    | .gradeBetter l prev new lock fill degrade => lane 2 true l.val (graded prev new lock fill degrade)
    | .switched t cause src dst kind v =>
      trunk 1 false t.val ([oct cause.code, laneOctet src, laneOctet dst, oct kind.code] ++ be 2 v.toNat)
    | .starved t cause src => trunk 2 false t.val [oct cause.code, laneOctet src]
    | .gapRunBegin t q a => trunk 3 false t.val (seq q ++ [laneOctet a])
    | .fed t a => trunk 4 true t.val [oct a.val, 0]
    | .gapRunEnd t q a => trunk 5 true t.val (seq q ++ [laneOctet a])
    | .holdDormant t l p session g barred => claim 1 false t.val [oct l.val, oct p.val, session, oct g.code, bit barred]
    | .barPlaced l p bars t => claim 2 false l.val [oct p.val, PortSet.octet bars, trunkOctet t]
    | .claimDropped t p session b h cause =>
      claim 3 false t.val [oct p.val, session, laneOctet b, laneOctet h, oct cause.code]
    | .claimDiscarded t isHold p l v => claim 4 false t.val ([bit isHold, oct p.val, oct l.val] ++ be 2 v.toNat)
    | .favouredChanged t prev new n v =>
      claim 5 false t.val ([laneOctet prev, laneOctet new, oct n] ++ be 2 v.toNat)
    | .holdActive t l p session g barred => claim 6 true t.val [oct l.val, oct p.val, session, oct g.code, bit barred]
    | .barLifted l p issuer bars t => claim 7 true l.val [oct p.val, oct issuer.val, PortSet.octet bars, trunkOctet t]
    | .proposed t n p session required m =>
      charter 1 false t.val (be 2 n.toNat ++ [oct p.val, session, PortSet.octet required, oct m])
    | .installed t v n p m => charter 2 false t.val (be 2 v.toNat ++ be 2 n.toNat ++ [oct p.val, oct m])
    | .closed t n outcome p reason concurred =>
      charter 3 false t.val (be 2 n.toNat ++ [oct outcome.code, match p with
        | some k => oct k.val
        | none => 0xFF, oct reason.code, PortSet.octet concurred])
    | .peerLapsed p session lease => port 1 false p.val [session, lease]
    | .peerDetached p session => port 2 false p.val [session]
    | .peerReset p left session => port 3 false p.val [oct left.code, session]
    | .selfLapsed p session lease => port 4 false p.val [session, lease]
    | .peerAttached p session left => port 5 true p.val [session, oct left.code]
    | .haltEnded ms n => entry .device 6 1 false 0xFF (be 2 ms ++ be 4 n.toNat)) ∧
  ∀ (s : State) (p : Port) (n : Nat), s.rstnLow = false → (s.port p).transaction = none →
    let x := s.port p
    let response := (x.response.map Response.octets).getD []
    let before := 2 + response.length
    let becomes := fun (y : PortState) (attention : Prop) =>
      exec (.fetch p (.whole n)) s = .next (s.setPort p y) ∧ ((s.setPort p y).pattn p = true ↔ attention)
    (x.prstnLow = false → s.monitor.state = .present →
      becomes { x with
          psdo := (s.statusOctets p ++ response ++ x.queue.flatMap Entry.octets ++ List.replicate n 0).take n
          response := if before ≤ n then none else x.response
          queue := x.queue.drop ((n - before) / 16) }
        ((x.response ≠ none ∧ n < before) ∨ (n - before) / 16 < x.queue.length)) ∧
    (x.prstnLow = false → s.monitor.state ≠ .present →
      becomes { x with psdo := (s.statusOctets p ++ List.replicate n 0).take n } (x.response ≠ none ∨ x.queue ≠ [])) ∧
    (x.prstnLow = true → becomes { x with psdo := List.replicate n 0xFF } False)

/-- A FETCH given whole is PCSn falling, its octets clocked, and PCSn rising, one after another; and octets may be clocked in
any portions. R129: in a transaction that is no FETCH, once PCSn has fallen and m octets have been clocked, whatever changes
before it ends, PSDO has carried in all n octets of it the status octets as they were when PCSn fell, then 0x00. R128, R141: a
transaction, of any kind, that begins while PRSTn is low sends ones while it is low, and once PRSTn is high again what is left of
the status octets and 0x00; it is ignored to its end, and delivers and removes nothing (log entry 15: that it stays ignored). (Log
entries 11 and 14: how the model splits a transaction.) -/
def Obligations.FetchIsItsParts : Prop :=
  (∀ (s t u v : State) (p : Port) (m n : Nat), (s.port p).transaction = none →
    exec (.fetch p .start) s = .next t → exec (.fetch p (.clock m)) t = .next u →
    exec (.fetch p (.clock n)) u = .next v →
    exec (.fetch p (.whole (m + n))) s = exec (.fetch p .stop) v) ∧
  (∀ (s t u v w : State) (p : Port) (m k : Nat) (clock : Nat → FetchPart), clock = .clock ∨ clock = .pass →
    s.rstnLow = false → (s.port p).prstnLow = true → (s.port p).transaction = none →
    exec (.fetch p .start) s = .next t → exec (.fetch p (clock m)) t = .next u →
    exec (.portResetRelease p) u = .next v → exec (.fetch p (clock k)) v = .next w →
    let carries := fun n : Nat => List.replicate m 0xFF ++ ((s.statusOctets p ++ List.replicate n 0).take n).drop m
    w = s.setPort p { s.port p with
      prstnLow := false, transaction := (w.port p).transaction, psdo := carries (m + k) } ∧
    (w.ending p).ignored = true ∧ (w.ending p).phase ≠ .abandoned ∧
    (clock = .pass → ∀ n, m + k ≤ n → (w.port p).canEnd n = true ∧ (w.endedPort p n).psdo = carries n) ∧
    (clock = .clock →
      exec (.fetch p .stop) w = .next (w.setPort p { w.port p with transaction := none }))) ∧
  ∀ (s t u : State) (p : Port) (m : Nat), s.rstnLow = false → (s.port p).prstnLow = false → (s.port p).transaction = none →
    exec (.fetch p .start) s = .next t → exec (.fetch p (.pass m)) t = .next u →
    u = s.setPort p { s.port p with
      transaction := (u.port p).transaction, psdo := (s.statusOctets p ++ List.replicate m 0).take m } ∧
    ∀ (v : State) (n : Nat), m ≤ n →
      (∃ halted, (v.port p).transaction = (u.port p).transaction.map fun f => { f with halted := halted }) →
      (v.port p).psdo = (u.port p).psdo → (v.port p).prstnLow = false →
      (v.endedPort p n).psdo = (s.statusOctets p ++ List.replicate n 0).take n ∧ (v.port p).canEnd n = true ∧
        (v.ending p).unheard = false

/-! ## Commands of the port controller -/

/-- R136: ATTACH from a port that is not ATTACHED opens the next session (255 is followed by 1) with the lease given,
subscriptions BOTH from OFFLINE and kept from LAPSED, and offers PEER-ATTACHED to the other three ports; the result is the
session. -/
def Obligations.AttachOpensASession : Prop :=
  ∀ (s : State) (p : Port) (tag lease : Octet),
    s.CanTake p 5 → (s.port p).mode ≠ .attached → lease ≠ 0 →
    let x := s.takenPort p 5
    let session : Octet := if x.session = 255 then 1 else x.session + 1
    exec (.attach p tag lease) s =
      .next (((s.setPort p { x with
          mode := .attached, session := session, leaseLength := lease, leaseRemaining := lease.toNat * 1600
          subs := if x.mode = .offline then
              { lane := .both, trunk := .both, claim := .both, charter := .both, port := .both, device := .both }
            else x.subs
          slot := .done { tag := tag, code := 0x10, outcome := .accepted, result := [session] } }).offer
        (otherPorts p) (.portController p) [] (.peerAttached p session x.mode)))

/-- R136, R137, R139: ATTACH is refused ALREADY-ATTACHED from an ATTACHED port, whose lease restarts, and BAD-LEASE for a lease
of 0; RENEW from an ATTACHED port is accepted and only restarts the lease; DETACH is refused BARS-HELD while the port's bar is
on any lane. Nothing outside port p's record changes. -/
def Obligations.RenewAndRefusedSessionCommands : Prop :=
  ∀ (s : State) (p : Port) (tag lease : Octet),
    (s.CanTake p 5 → (s.port p).mode = .attached →
      exec (.attach p tag lease) s = .next ((s.received p 5).answered p tag (.attach lease) .alreadyAttached [])) ∧
    (s.CanTake p 4 → (s.port p).mode = .attached →
      exec (.renew p tag) s = .next ((s.received p 4).answered p tag .renew .accepted []) ∧
      ((∃ l : Lane, PortSet.has (s.lane l).bars p = true) →
        exec (.detach p tag) s = .next ((s.received p 4).answered p tag .detach .barsHeld []))) ∧
    (s.CanTake p 5 → (s.port p).mode ≠ .attached →
      exec (.attach p tag 0) s = .next ((s.received p 5).answered p tag (.attach 0) .badLease []))

/-- R139, R140, R68, R123: DETACH from a port that holds no bars makes it OFFLINE with an empty queue and every subscription
OFF, its session and entry number kept; PEER-DETACHED with the session is offered to the other three ports. The departure takes
its ballots and holds from every trunk and closes every proposal that required it, with the triggers and offers of `Departs`,
all after PEER-DETACHED. Bars, receivers, buffers, charters, selection records, emitters, histories and other ports are
unchanged. -/
def Obligations.DetachDepartsFromClaimsAndProposals : Prop :=
  ∀ (s : State) (p : Port) (tag : Octet),
    s.CanTake p 4 → (s.port p).mode = .attached → s.barCount p = 0 →
    ∃ t, exec (.detach p tag) s = .next t ∧
      t.port p = { s.takenPort p 4 with
        mode := .offline, leaseRemaining := 0, queue := []
        subs := { lane := .off, trunk := .off, claim := .off, charter := .off, port := .off, device := .off }
        slot := .done { tag := tag, code := 0x12, outcome := .accepted, result := [] } } ∧
      Departs p .detach
        [{ event := .peerDetached p (s.port p).session, time := s.blockCounter, block := .portController p
           stamp := s.stamp, after := [], dest := otherPorts p }] s t

/-- R151: SUBSCRIBE from an ATTACHED port sets the mode of one class, for class codes 1 to 6 and mode codes 0 to 2, and keeps
the other classes; any other code is refused BAD-VALUE. Nothing outside port p's record changes. -/
def Obligations.SubscribeSetsOneClass : Prop :=
  ∀ (s : State) (p : Port) (tag : Octet) (cls mode : Octet), s.CanTake p 6 → (s.port p).mode = .attached →
    (∀ (c : EventClass) (m : SubMode), cls.toNat = (match c with
        | .lane => 1
        | .trunk => 2
        | .claim => 3
        | .charter => 4
        | .port => 5
        | .device => 6) →
      mode.toNat = (match m with
        | .off => 0
        | .onset => 1
        | .both => 2) →
      ∃ subs : Subscriptions, subs.mode c = m ∧ (∀ c', c' ≠ c → subs.mode c' = (s.port p).subs.mode c') ∧
        exec (.subscribe p tag cls mode) s =
          .next (s.setPort p { (s.takenPort p 6).leaseRestarted with
            subs := subs
            slot := .done { tag := tag, code := 0x30, outcome := .accepted, result := [] } })) ∧
    (cls = 0 ∨ 6 < cls.toNat ∨ 2 < mode.toNat →
      exec (.subscribe p tag cls mode) s =
        .next ((s.received p 6).answered p tag (.subscribe cls mode) .badValue []))

/-- R142, R143, R176: the queries without an operand are completed in every port state; they change nothing but port p's record,
and answer what 11.4 lays out, 12 octets and 28 octets: the timebase's counters and the HALT state, and for each port its record
and its bar count. A record that the query under way has read before shows what it held then, every other what it holds at the
completion, in HALT too. A query under way reads any of its records, each by itself. (Log entries 10 and 12.) -/
def Obligations.DeviceAndPortsAreQueried : Prop :=
  ∀ (s u : State) (p : Port) (tag : Octet) (part : Part) (got : List (Nat × List Octet)),
    let shown := fun (i : Nat) (os : List Octet) => (got.lookup i).getD os
    let timebase := fun v : State => [0x08, 0x16, 0x01] ++ be 4 v.blockCounter.toNat ++ be 4 v.haltCount.toNat
    let halt := fun v : State => [if v.monitor.state = .present then (0x00 : Octet) else 0x01]
    let record := fun (v : State) (q : Port) =>
      let y := v.port q
      [oct y.mode.code, y.session] ++ be 3 y.leaseRemaining ++ [oct y.queue.length]
    let bars := fun (v : State) (q : Port) => [oct (v.barCount q)]
    let reads := fun (i : Instr) (c : Command) (n : Nat) (r : List Octet) =>
      s.rstnLow = false → (s.port p).slot = .reading tag c got → got.lookup n = none →
        exec i s = .next (s.setPort p { s.port p with slot := .reading tag c (got ++ [(n, r)]) })
    (s.Completes p tag .queryDevice part u got →
      exec (.queryDevice p tag part) s = .next (u.answered p tag .queryDevice .accepted
        (shown 0 (timebase u) ++ shown 1 (halt u)))) ∧
    (s.Completes p tag .queryPorts part u got →
      exec (.queryPorts p tag part) s = .next (u.answered p tag .queryPorts .accepted
        (allPorts.flatMap fun q =>
          let y := shown q.val (record u q)
          y.take 5 ++ shown (4 + q.val) (bars u q) ++ y.drop 5))) ∧
    reads (.queryDevice p tag (.read 0)) .queryDevice 0 (timebase s) ∧
    reads (.queryDevice p tag (.read 1)) .queryDevice 1 (halt s) ∧
    ∀ q : Port, reads (.queryPorts p tag (.read q.val)) .queryPorts q.val (record s q) ∧
      reads (.queryPorts p tag (.read (4 + q.val))) .queryPorts (4 + q.val) (bars s q)

/-- R142, R144 to R146, R175, R176, 11.4: the queries with an operand are completed in every port state and change nothing but
port p's record; an operand out of range is refused NO-SUCH-LANE or NO-SUCH-TRUNK. QUERY-LANE answers the receiver record, the
membership, the bar set and the buffer, 37 octets; QUERY-TRUNK the selection record, the emitter record, the claims, the charter
and the proposal, 72 octets; QUERY-HISTORY the count and the records newest first. A record that the query under way has read
before shows what it held then, every other what it holds at the completion; a query under way reads any of its records, each by
itself. The enumerated fields take the codes of 11.6, a field of several octets goes most significant octet first, none is 0xFF,
and bit k of a set of ports stands for Pk. No step of the lane's latest block position is due (log entry 4); with no hold the mark
is sent clear (log entry 32); of a deadline that has passed and whose expiry has not been taken 0 block periods remain, which R145
does not say (log entry 7: the distance, modulo 2^32, is above 32,000 then). (Log entries 10 and 12.) -/
def Obligations.LaneTrunkAndHistoryAreQueried : Prop :=
  (∀ v : Nat, be 2 v = [oct (v / 256), oct v] ∧ be 3 v = [oct (v / 65536), oct (v / 256), oct v] ∧
    be 4 v = [oct (v / 16777216), oct (v / 65536), oct (v / 256), oct v]) ∧
  (laneOctet none = 0xFF ∧ ∀ l : Lane, laneOctet (some l) = oct l.val) ∧
  (trunkOctet none = 0xFF ∧ ∀ t : Trunk, trunkOctet (some t) = oct t.val) ∧
  (∀ ps : PortSet, (PortSet.octet ps).toNat < 16 ∧ ∀ p : Port, (PortSet.octet ps).getLsbD p.val = ps[p.val]) ∧
  [PortMode.offline, .attached, .lapsed].map PortMode.code = [0, 1, 2] ∧
  [LockState.dark, .hunt, .confirm, .locked, .coast].map LockState.code = [0, 1, 2, 3, 4] ∧
  [Grade.good, .degraded, .failed].map Grade.code = [0, 1, 2] ∧
  [AlignStatus.aligned, .behind, .ahead, .missing, .empty].map AlignStatus.code = [0, 1, 2, 3, 4] ∧
  [TrunkMode.disabled, .starved, .carrying, .switching].map TrunkMode.code = [0, 1, 2, 3] ∧
  [Cause.start, .starve, .health, .bar, .membership, .hold, .ballot, .revert, .alignLoss, .slip, .resume, .disable].map
    Cause.code = [0, 1, 2, 3, 4, 5, 6, 7, 8, 9, 10, 11] ∧
  [SwitchKind.hitless, .hit, .nil].map SwitchKind.code = [0, 1, 2] ∧
  [Closing.rejected, .withdrawn, .voided, .expired].map Closing.code = [1, 2, 3, 4] ∧
  [Reason.dissent, .withdraw, .lapse, .detach, .portReset, .deadline].map Reason.code = [1, 2, 3, 4, 5, 6] ∧
  (∀ (s : State) (d : Count), s.remainingTo d =
    if (d - s.blockCounter).toNat ≤ 32000 then (d - s.blockCounter).toNat else 0) ∧
  ∀ (s u : State) (p : Port) (tag o : Octet) (part : Part) (got : List (Nat × List Octet)),
    let shown := fun (i : Nat) (os : List Octet) => (got.lookup i).getD os
    let answers := fun (i : Instr) (c : Command) (code : Code) (r : List Octet) =>
      s.Completes p tag c part u got → exec i s = .next (u.answered p tag c code r)
    let reads := fun (i : Instr) (c : Command) (n : Nat) (r : List Octet) =>
      s.rstnLow = false → (s.port p).slot = .reading tag c got → got.lookup n = none →
        exec i s = .next (s.setPort p { s.port p with slot := .reading tag c (got ++ [(n, r)]) })
    let flag := fun (b : Bool) (n : Nat) => if b then n else 0
    let members := fun ls : List Lane => ls.map (fun l => oct l.val) ++ List.replicate (4 - ls.length) 0xFF
    let receiver := fun (v : State) (l : Lane) =>
      let x := (v.lane l).rx
      [oct x.lock.code, oct x.grade.code, oct (flag x.fillAlarm 2 + flag x.degrade 1)] ++ be 2 x.windowCount ++
        be 2 x.degradeSet ++ be 2 x.degradeClear ++ be 4 x.goodBlocks.toNat ++ be 4 x.checkFailures.toNat ++
        be 4 x.sequenceBreaks.toNat ++ be 4 x.fillBlocks.toNat ++ be 4 x.overflowDrops.toNat
    let buffer := fun (v : State) (l : Lane) =>
      let y := v.lane l
      [oct y.buffer.length] ++ (match y.buffer.head?, y.buffer.getLast? with
        | some oldest, some newest => be 2 oldest.seq.toNat ++ be 2 newest.seq.toNat
        | _, _ => [0xFF, 0xFF, 0xFF, 0xFF]) ++ [oct y.status.code]
    let selection := fun (v : State) (t : Trunk) =>
      let x := (v.trunk t).sel
      [oct x.mode.code, laneOctet x.active, laneOctet x.target, oct x.alignWait] ++
        be 2 (match x.holdOff with
          | .running n => n
          | .idle => 0) ++
        (match x.restore with
          | .running c n => be 3 n ++ [oct c.val]
          | .due c => [0, 0, 0, oct c.val]
          | .idle => [0, 0, 0, 0xFF])
    let emitter := fun (v : State) (t : Trunk) =>
      let e := (v.trunk t).em
      be 2 e.cursor.toNat ++ [oct (flag e.centring 128 + e.misalign)] ++ be 4 e.counters.emitted.toNat ++
        be 4 e.counters.fromActive.toNat ++ be 4 e.counters.mended.toNat ++ be 4 e.counters.fill.toNat ++
        be 4 e.counters.hitless.toNat ++ be 4 e.counters.hit.toNat ++ be 4 e.counters.slips.toNat
    let claims := fun (v : State) (t : Trunk) =>
      let x := v.trunk t
      (match x.hold with
        | some h => [oct h.owner.val, h.session, oct h.lane.val, if h.dormant then 1 else 0]
        | none => [0xFF, 0, 0xFF, 0]) ++
        [laneOctet x.ballots[0], laneOctet x.ballots[1], laneOctet x.ballots[2], laneOctet x.ballots[3],
          laneOctet x.favoured]
    let charter := fun (v : State) (t : Trunk) =>
      let c := (v.trunk t).charter
      [oct c.terms.members.length] ++ members c.terms.members ++
        [oct (flag c.terms.revertive 2 + flag c.terms.mend 1), oct c.terms.holdOff] ++ be 2 c.terms.restoreWait ++
        be 2 c.version.toNat
    let proposal := fun (v : State) (t : Trunk) =>
      match (v.trunk t).proposal with
      | some q =>
        be 2 q.number.toNat ++
          [oct (q.proposer.val * 16 + match q.terms.members[3]? with
            | some l => l.val
            | none => 15), PortSet.octet q.required, PortSet.octet q.concurred] ++
          be 2 (v.remainingTo q.deadline) ++ [oct q.terms.members.length] ++ (members q.terms.members).take 3
      | none => [0, 0, 0xFF, 0, 0, 0, 0, 0, 0xFF, 0xFF, 0xFF]
    let history := fun (v : State) (t : Trunk) =>
      oct (v.trunk t).history.length :: (v.trunk t).history.reverse.flatMap fun e =>
        be 4 e.time.toNat ++ [oct e.cause.code, laneOctet e.src, laneOctet e.dst, oct e.kind.code] ++ be 2 e.version.toNat
    (16 ≤ o.toNat → answers (.queryLane p tag part o) (.queryLane o) .noSuchLane []) ∧
    (8 ≤ o.toNat → answers (.queryTrunk p tag part o) (.queryTrunk o) .noSuchTrunk [] ∧
      answers (.queryHistory p tag part o) (.queryHistory o) .noSuchTrunk []) ∧
    (∀ l : Lane, o.toNat = l.val →
      ((u.lane l).rx.due = [] → answers (.queryLane p tag part o) (.queryLane o) .accepted
        (shown 0 (receiver u l) ++ shown 1 [trunkOctet (u.trunkOf l)] ++ shown 2 [PortSet.octet (u.lane l).bars] ++
          shown 3 (buffer u l))) ∧
      ((s.lane l).rx.due = [] → reads (.queryLane p tag (.read 0) o) (.queryLane o) 0 (receiver s l)) ∧
      reads (.queryLane p tag (.read 1) o) (.queryLane o) 1 [trunkOctet (s.trunkOf l)] ∧
      reads (.queryLane p tag (.read 2) o) (.queryLane o) 2 [PortSet.octet (s.lane l).bars] ∧
      reads (.queryLane p tag (.read 3) o) (.queryLane o) 3 (buffer s l)) ∧
    (∀ t : Trunk, o.toNat = t.val →
      answers (.queryTrunk p tag part o) (.queryTrunk o) .accepted
        (shown 0 (selection u t) ++ shown 1 (emitter u t) ++ shown 2 (claims u t) ++ shown 3 (charter u t) ++
          shown 4 (proposal u t)) ∧
      reads (.queryTrunk p tag (.read 0) o) (.queryTrunk o) 0 (selection s t) ∧
      reads (.queryTrunk p tag (.read 1) o) (.queryTrunk o) 1 (emitter s t) ∧
      reads (.queryTrunk p tag (.read 2) o) (.queryTrunk o) 2 (claims s t) ∧
      reads (.queryTrunk p tag (.read 3) o) (.queryTrunk o) 3 (charter s t) ∧
      reads (.queryTrunk p tag (.read 4) o) (.queryTrunk o) 4 (proposal s t) ∧
      answers (.queryHistory p tag part o) (.queryHistory o) .accepted (shown 0 (history u t)) ∧
      reads (.queryHistory p tag (.read 0) o) (.queryHistory o) 0 (history s t) ∧
      ((s.trunk t).charter.terms.members.length ≤ 4 → (selection s t ++ emitter s t ++ claims s t ++ charter s t ++
        proposal s t).length = 72)) ∧
    ∀ l : Lane, (receiver s l ++ [trunkOctet (s.trunkOf l)] ++ [PortSet.octet (s.lane l).bars] ++ buffer s l).length = 37

/-! ## Commands of the lane receivers -/

/-- R20: SET-DEGRADE from the lane's owner, with set in 1..400 and clear below it, replaces the thresholds of the lane and
nothing else of it (no step of an earlier block position being due); a lane out of range, another port's lane and values out of
range are refused in that order. -/
def Obligations.SetDegradeReplacesThresholds : Prop :=
  ∀ (s u : State) (after : List Nat) (p : Port) (tag : Octet) (part : Part) (o : Octet) (set clear : Pair),
    s.Arrives p tag (.setDegrade o set clear) part u after →
    (16 ≤ o.toNat → exec (.setDegrade p tag part o set clear) s =
      .next (u.answered p tag (.setDegrade o set clear) .noSuchLane [])) ∧
    (∀ l : Lane, o.toNat = l.val →
      (l.val / 4 ≠ p.val → exec (.setDegrade p tag part o set clear) s =
        .next (u.answered p tag (.setDegrade o set clear) .notOwner [])) ∧
      (l.val / 4 = p.val →
        (set.toNat = 0 ∨ 400 < set.toNat ∨ set.toNat ≤ clear.toNat →
          exec (.setDegrade p tag part o set clear) s =
            .next (u.answered p tag (.setDegrade o set clear) .badValue [])) ∧
        (1 ≤ set.toNat → set.toNat ≤ 400 → clear.toNat < set.toNat → (u.lane l).rx.due = [] →
          exec (.setDegrade p tag part o set clear) s =
            .next ((u.setLane l { u.lane l with
                rx := { (u.lane l).rx with degradeSet := set.toNat, degradeClear := clear.toNat } }).answered
              p tag (.setDegrade o set clear) .accepted []))))

/-- R21: CLEAR-LANE-COUNTERS sets the five counters of a lane of the issuing port's own to 0 together and changes nothing else
of the lane; a lane out of range is refused NO-SUCH-LANE, another port's lane NOT-OWNER. -/
def Obligations.ClearLaneCountersClearsFive : Prop :=
  ∀ (s u : State) (after : List Nat) (p : Port) (tag : Octet) (part : Part) (o : Octet),
    s.Arrives p tag (.clearLaneCounters o) part u after →
    (16 ≤ o.toNat → exec (.clearLaneCounters p tag part o) s =
      .next (u.answered p tag (.clearLaneCounters o) .noSuchLane [])) ∧
    (∀ l : Lane, o.toNat = l.val →
      (l.val / 4 ≠ p.val → exec (.clearLaneCounters p tag part o) s =
        .next (u.answered p tag (.clearLaneCounters o) .notOwner [])) ∧
      (l.val / 4 = p.val → exec (.clearLaneCounters p tag part o) s =
        .next ((u.setLane l { u.lane l with rx := { (u.lane l).rx with
            goodBlocks := 0, checkFailures := 0, sequenceBreaks := 0, fillBlocks := 0, overflowDrops := 0 } }).answered
          p tag (.clearLaneCounters o) .accepted [])))

/-! ## Commands of the claim registry -/

/-- R57: BALLOT from an ATTACHED port. A trunk out of range, a lane that is neither a lane nor none, and a lane that is no
member are refused in that order; an operand equal to the slot's value changes nothing; otherwise the slot takes the operand,
one ballot trigger is sent to the trunk, and the favoured lane is recomputed after it (log entry 22: the order of the two is
read from R56). -/
def Obligations.BallotSetsTheSlot : Prop :=
  ∀ (s u : State) (after : List Nat) (p : Port) (tag : Octet) (part : Part) (o lane : Octet),
    s.Arrives p tag (.ballot o lane) part u after → (u.port p).mode = .attached →
    (8 ≤ o.toNat → exec (.ballot p tag part o lane) s = .next (u.answered p tag (.ballot o lane) .noSuchTrunk [])) ∧
    (∀ t : Trunk, o.toNat = t.val →
      (16 ≤ lane.toNat → lane ≠ 0xFF →
        exec (.ballot p tag part o lane) s = .next (u.answered p tag (.ballot o lane) .noSuchLane [])) ∧
      (∀ choice : Option Lane, lane = laneOctet choice →
        ((∃ l ∈ choice, l ∉ u.members t) →
          exec (.ballot p tag part o lane) s = .next (u.answered p tag (.ballot o lane) .notMember [])) ∧
        ((∀ l ∈ choice, l ∈ u.members t) →
          ((u.trunk t).ballots[p.val] = choice →
            exec (.ballot p tag part o lane) s = .next (u.answered p tag (.ballot o lane) .accepted [])) ∧
          ((u.trunk t).ballots[p.val] ≠ choice →
            exec (.ballot p tag part o lane) s =
              .next ((((u.setTrunk t { u.trunk t with ballots := (u.trunk t).ballots.set p.val choice }).send t .ballot
                .registry (u.handOn .registry after)).refavour t after).answered p tag (.ballot o lane) .accepted [])))))

/-- R58: recomputing the favoured lane makes it the member that the most slots name, the one of lower rank among equals, and
none when no slot names a member; a change is offered to all four ports with the previous lane, the new one, its count and the
version, and nothing else changes but the order of later offers. -/
def Obligations.FavouredLaneHasMostBallots : Prop :=
  ∀ (s : State) (t : Trunk) (after : List Nat),
    let count := fun l : Lane => (allPorts.filter fun p => (s.trunk t).ballots[p.val] = some l).length
    let f := ((s.refavour t after).trunk t).favoured
    (f = none ↔ ∀ l ∈ s.members t, count l = 0) ∧
    (∀ l ∈ f, 0 < count l ∧ ∃ higher lower, s.members t = higher ++ l :: lower ∧
      (∀ m ∈ higher, count m < count l) ∧ ∀ m ∈ lower, count m ≤ count l) ∧
    s.refavour t after =
      (if f = (s.trunk t).favoured then s
        else (s.setTrunk t { s.trunk t with favoured := f }).offerHere allPorts .registry after
          (.favouredChanged t (s.trunk t).favoured f (match f with
            | some l => count l
            | none => 0) (s.trunk t).charter.version)).tick

/-- R60: HOLD from an ATTACHED port. The refusals come in the order trunk, lane, membership, bar, another port's hold. When none
applies: with the lane the port's hold already names nothing changes; otherwise the hold names the port, its current session and
the lane, its dormant mark clear when the hold is new and kept when it is replaced, and one hold trigger is sent. -/
def Obligations.HoldIsPlacedOrReplaced : Prop :=
  ∀ (s u : State) (after : List Nat) (p : Port) (tag : Octet) (part : Part) (o lane : Octet),
    s.Arrives p tag (.hold o lane) part u after → (u.port p).mode = .attached →
    let answer := fun (v : State) code =>
      exec (.hold p tag part o lane) s = .next (v.answered p tag (.hold o lane) code [])
    (8 ≤ o.toNat → answer u .noSuchTrunk) ∧
    (∀ t : Trunk, o.toNat = t.val →
      (16 ≤ lane.toNat → answer u .noSuchLane) ∧
      (∀ l : Lane, lane.toNat = l.val →
        (l ∉ u.members t → answer u .notMember) ∧
        (l ∈ u.members t → u.barred l = true → answer u .barred) ∧
        (l ∈ u.members t → u.barred l = false →
          ((∃ h ∈ (u.trunk t).hold, h.owner ≠ p) → answer u .heldByOther) ∧
          (∀ h ∈ (u.trunk t).hold, h.owner = p → h.lane = l → answer u .accepted) ∧
          ((∀ h ∈ (u.trunk t).hold, h.owner = p ∧ h.lane ≠ l) →
            let h : Hold :=
              { owner := p, session := (u.port p).session, lane := l
                dormant := ((u.trunk t).hold.map Hold.dormant).getD false }
            answer ((u.setTrunk t { u.trunk t with hold := some h }).send t .hold .registry (u.handOn .registry after)) .accepted))))

/-- R61: RELEASE from an ATTACHED port. A trunk out of range is refused NO-SUCH-TRUNK, and NO-HOLD answers a port that does not
own the trunk's hold, whether or not there is one; otherwise the hold is removed with its dormant mark and one hold trigger is
sent to the trunk, and nothing is offered. -/
def Obligations.ReleaseRemovesTheOwnersHold : Prop :=
  ∀ (s u : State) (after : List Nat) (p : Port) (tag : Octet) (part : Part) (o : Octet),
    s.Arrives p tag (.release o) part u after → (u.port p).mode = .attached →
    (8 ≤ o.toNat → exec (.release p tag part o) s = .next (u.answered p tag (.release o) .noSuchTrunk [])) ∧
    (∀ t : Trunk, o.toNat = t.val →
      ((∀ h ∈ (u.trunk t).hold, h.owner ≠ p) →
        exec (.release p tag part o) s = .next (u.answered p tag (.release o) .noHold [])) ∧
      ((∃ h ∈ (u.trunk t).hold, h.owner = p) →
        exec (.release p tag part o) s =
          .next (((u.setTrunk t { u.trunk t with hold := none }).send t .hold .registry (u.handOn .registry after)).answered
            p tag (.release o) .accepted [])))

/-- R64: BAR from an ATTACHED port. A lane out of range is refused NO-SUCH-LANE; a bar the port already has on the lane changes
nothing; otherwise the port joins the lane's bar set and its bar count rises by one, one bar trigger goes to the lane's trunk if
it is a member, and BAR-PLACED with the port, the set and the trunk is offered to all four ports. -/
def Obligations.BarIsPlaced : Prop :=
  ∀ (s u : State) (after : List Nat) (p : Port) (tag : Octet) (part : Part) (o : Octet),
    s.Arrives p tag (.bar o) part u after → (u.port p).mode = .attached →
    (16 ≤ o.toNat → exec (.bar p tag part o) s = .next (u.answered p tag (.bar o) .noSuchLane [])) ∧
    (∀ l : Lane, o.toNat = l.val →
      (PortSet.has (u.lane l).bars p = true →
        exec (.bar p tag part o) s = .next (u.answered p tag (.bar o) .accepted [])) ∧
      (PortSet.has (u.lane l).bars p = false →
        let v := u.setLane l { u.lane l with bars := (u.lane l).bars.set p.val true }
        v.barCount p = u.barCount p + 1 ∧
        exec (.bar p tag part o) s =
          .next (((match u.trunkOf l with
              | some t => v.send t .bar .registry (u.handOn .registry after)
              | none => v).offer allPorts .registry after
                (.barPlaced l p ((u.lane l).bars.set p.val true) (u.trunkOf l))).answered p tag (.bar o) .accepted [])))

/-- R65, R66: LIFT removes the issuing port's own bar and LIFT-STALE that of a port j that is not ATTACHED: the port leaves the
lane's bar set and its bar count falls by one, one bar trigger goes to the lane's trunk if it is a member, and BAR-LIFTED with
the port whose bar it was, the issuing port, the set and the trunk is offered to all four ports. The refusals are NO-SUCH-LANE,
then NOT-BARRED; for LIFT-STALE NO-SUCH-LANE, NO-SUCH-PORT, NOT-STALE, NOT-BARRED, in that order. -/
def Obligations.BarsAreLifted : Prop :=
  ∀ (s u : State) (after : List Nat) (p : Port) (tag : Octet) (part : Part) (o j : Octet) (c : Command),
    c = .lift o ∨ c = .liftStale o j → s.Arrives p tag c part u after → (u.port p).mode = .attached →
    let refused := fun code => exec (c.row p tag part) s = .next (u.answered p tag c code [])
    (16 ≤ o.toNat → refused .noSuchLane) ∧
    (∀ (l : Lane) (k : Port), o.toNat = l.val → (c = .lift o ∧ k = p) ∨ (c = .liftStale o j ∧ j.toNat = k.val) →
      (c = .liftStale o j → (u.port k).mode = .attached → refused .notStale) ∧
      (c = .lift o ∨ (u.port k).mode ≠ .attached →
        (PortSet.has (u.lane l).bars k = false → refused .notBarred) ∧
        (PortSet.has (u.lane l).bars k = true →
          let v := u.setLane l { u.lane l with bars := (u.lane l).bars.set k.val false }
          v.barCount k + 1 = u.barCount k ∧
          exec (c.row p tag part) s =
            .next (((match u.trunkOf l with
                | some t => v.send t .bar .registry (u.handOn .registry after)
                | none => v).offer allPorts .registry after
                  (.barLifted l k p ((u.lane l).bars.set k.val false) (u.trunkOf l))).answered p tag c .accepted [])))) ∧
    (c = .liftStale o j → o.toNat < 16 → 4 ≤ j.toNat → refused .noSuchPort)

/-! ## Commands of the concurrence unit -/

/-- R113: the refusals of PROPOSE from an ATTACHED port, in their order: trunk, charter, party, open proposal, lane taken, lane
contested. Nothing but the command slot changes. -/
def Obligations.ProposeRefusalsComeInOrder : Prop :=
  ∀ (s u : State) (after : List Nat) (p : Port) (tag : Octet) (part : Part) (o count m1 m2 m3 m4 revertive mend holdOff : Octet)
    (wait : Pair),
    let c := Command.propose o count m1 m2 m3 m4 revertive mend holdOff wait
    s.Arrives p tag c part u after → (u.port p).mode = .attached →
    let refused := fun code => exec (c.row p tag part) s = .next (u.answered p tag c code [])
    let charter := charterOperand count [m1, m2, m3, m4] revertive mend holdOff wait
    (8 ≤ o.toNat → refused .noSuchTrunk) ∧
    (∀ t : Trunk, o.toNat = t.val →
      (charter = none → refused .badCharter) ∧
      (∀ terms ∈ charter,
        let party := ∃ l ∈ u.members t ++ terms.members, l.val / 4 = p.val
        (¬ party → refused .notParty) ∧
        (party →
          ((u.trunk t).proposal ≠ none → refused .proposalOpen) ∧
          ((u.trunk t).proposal = none →
            ((∃ k ≠ t, ∃ l ∈ terms.members, l ∈ u.members k) → refused .laneTaken) ∧
            ((∀ k ≠ t, ∀ l ∈ terms.members, l ∉ u.members k) →
              (∃ k ≠ t, ∃ q ∈ (u.trunk k).proposal, ∃ l ∈ terms.members, l ∈ q.terms.members) →
                refused .laneContested)))))

/-- R46: the charter operands are read as a charter exactly when the count is at most 4, the first count member octets name
different lanes, the flags are 0 or 1, hold-off is at most 200 and restore-wait at most 600; the charter read has those lanes in
order and those values, whatever the member octets beyond the count hold. -/
def Obligations.CharterOperandsAreJudged : Prop :=
  ∀ (count m1 m2 m3 m4 revertive mend holdOff : Octet) (wait : Pair) (terms : CharterTerms),
    charterOperand count [m1, m2, m3, m4] revertive mend holdOff wait = some terms ↔
      count.toNat ≤ 4 ∧ terms.members.Nodup ∧
      terms.members.map (fun l => oct l.val) = [m1, m2, m3, m4].take count.toNat ∧
      revertive = flagOctet terms.revertive ∧ mend = flagOctet terms.mend ∧
      terms.holdOff = holdOff.toNat ∧ holdOff.toNat ≤ 200 ∧ terms.restoreWait = wait.toNat ∧ wait.toNat ≤ 600

/-- R112, R114, R116: a PROPOSE whose checks pass and whose required set holds another port opens a proposal: the counter
advances (65535 is followed by 1), the proposal takes its value, the issuing port and session, the charter, the ATTACHED owners
of lanes of the union as required set, the proposer alone as concurred set and the counter plus 32,000 as deadline; PROPOSED is
offered to all four ports, and the result is the number. Nothing else changes. -/
def Obligations.ProposeOpensAProposal : Prop :=
  ∀ (s u : State) (after : List Nat) (p : Port) (tag : Octet) (part : Part) (o count m1 m2 m3 m4 revertive mend holdOff : Octet)
    (wait : Pair)
    (t : Trunk) (terms : CharterTerms) (required : PortSet),
    let c := Command.propose o count m1 m2 m3 m4 revertive mend holdOff wait
    s.Arrives p tag c part u after → (u.port p).mode = .attached → o.toNat = t.val →
    charterOperand count [m1, m2, m3, m4] revertive mend holdOff wait = some terms →
    (∃ l ∈ u.members t ++ terms.members, l.val / 4 = p.val) → (u.trunk t).proposal = none →
    (∀ k ≠ t, ∀ l ∈ terms.members, l ∉ u.members k ∧ ∀ q ∈ (u.trunk k).proposal, l ∉ q.terms.members) →
    (∀ k : Port, PortSet.has required k = true ↔
      (u.port k).mode = .attached ∧ ∃ l ∈ u.members t ++ terms.members, l.val / 4 = k.val) →
    (∃ k ≠ p, PortSet.has required k = true) →
    let n : Pair := if u.proposalCounter = 65535 then 1 else u.proposalCounter + 1
    let q : Proposal :=
      { number := n, proposer := p, session := (u.port p).session, terms := terms, required := required
        concurred := (Vector.replicate 4 false).set p.val true, deadline := u.blockCounter + 32000 }
    exec (c.row p tag part) s =
      .next (((({ u with proposalCounter := n } : State).setTrunk t { u.trunk t with proposal := some q }).offer allPorts
          .concurrence after (.proposed t n p (u.port p).session required terms.members.length)).answered p tag c .accepted
        [highOctet n, lowOctet n])

/-- R115: a PROPOSE whose checks pass and whose required set is the proposer alone installs the charter at once with proposal
number 0; the result is the new version. -/
def Obligations.ProposeAloneInstalls : Prop :=
  ∀ (s u : State) (after : List Nat) (p : Port) (tag : Octet) (part : Part) (o count m1 m2 m3 m4 revertive mend holdOff : Octet)
    (wait : Pair)
    (t : Trunk) (terms : CharterTerms),
    let c := Command.propose o count m1 m2 m3 m4 revertive mend holdOff wait
    s.Arrives p tag c part u after → (u.port p).mode = .attached → o.toNat = t.val →
    charterOperand count [m1, m2, m3, m4] revertive mend holdOff wait = some terms →
    (∃ l ∈ u.members t ++ terms.members, l.val / 4 = p.val) → (u.trunk t).proposal = none →
    (∀ k ≠ t, ∀ l ∈ terms.members, l ∉ u.members k ∧ ∀ q ∈ (u.trunk k).proposal, l ∉ q.terms.members) →
    (∀ k ≠ p, (u.port k).mode = .attached → ∀ l ∈ u.members t ++ terms.members, l.val / 4 ≠ k.val) →
    let v : Pair := if (u.trunk t).charter.version = 65535 then 1 else (u.trunk t).charter.version + 1
    exec (c.row p tag part) s =
      .next ((u.install t terms 0 p after).answered p tag c .installed [highOctet v, lowOctet v])

/-- R117, R49, R45, R50, R69, R58: an install offers INSTALLED to all four ports, and every offer it causes comes after it. It
replaces the trunk's charter, advances its version (65535 is followed by 1), removes the trunk's proposal, flushes the buffers
of leaving lanes (log entry 28) and no other, discards ballots and a hold that name no member any more and keeps the others,
with one CLAIM-DISCARDED for each, makes the favoured lane the one the ballots left give, a change being offered, and sends the
selector one install trigger after the discards. Receivers, bars, selection records, emitters, histories and ports are
unchanged, and so is every other trunk. -/
def Obligations.InstallReplacesTheCharter : Prop :=
  ∀ (s : State) (t : Trunk) (terms : CharterTerms) (number : Pair) (p : Port) (after : List Nat),
    let r := s.install t terms number p after
    let v : Pair := if (s.trunk t).charter.version = 65535 then 1 else (s.trunk t).charter.version + 1
    let f := (r.trunk t).favoured
    (r.trunk t).charter = { terms := terms, version := v } ∧
    (r.trunk t).proposal = none ∧
    (∀ k : Port, (r.trunk t).ballots[k.val] =
      (s.trunk t).ballots[k.val].filter fun l => terms.members.contains l) ∧
    (r.trunk t).hold = (s.trunk t).hold.filter (fun h => terms.members.contains h.lane) ∧
    f = r.favouredNow t ∧
    (r.trunk t).sel = (s.trunk t).sel ∧ (r.trunk t).em = (s.trunk t).em ∧ (r.trunk t).history = (s.trunk t).history ∧
    (∀ l : Lane, r.lane l =
      if l ∈ s.members t ∧ l ∉ terms.members then { s.lane l with buffer := [], status := .empty } else s.lane l) ∧
    (∃ stamp stamps, r.triggers = s.triggers ++
      [{ trunk := t, kind := .install, sender := .charterStore, stamp := stamp, after := stamps }] ∧ s.stamp ∈ stamps) ∧
    (∃ more, r.offers = s.offers ++
        { event := .installed t v number p terms.members.length, time := s.blockCounter, block := .concurrence
          stamp := s.stamp, after := after, dest := allPorts } :: more ∧
      more.map Offer.event =
        (allPorts.filterMap fun k => ((s.trunk t).ballots[k.val].filter fun l => l ∉ terms.members).map fun l =>
          .claimDiscarded t false k l v) ++
        (((s.trunk t).hold.filter fun h => h.lane ∉ terms.members).map fun h =>
          .claimDiscarded t true h.owner h.lane v).toList ++
        (if f = (s.trunk t).favoured then [] else
          [.favouredChanged t (s.trunk t).favoured f (match f with
            | some l => (allPorts.filter fun k => (r.trunk t).ballots[k.val] = some l).length
            | none => 0) v]) ∧
      ∀ o ∈ more, o.block = .registry ∧ o.dest = allPorts ∧ o.time = s.blockCounter ∧ s.stamp ∈ o.after) ∧
    (∀ k ≠ t, r.trunk k = s.trunk k) ∧ r.ports = s.ports ∧ r.monitor = s.monitor ∧ r.blockCounter = s.blockCounter ∧
    r.proposalCounter = s.proposalCounter

/-- R119: CONCUR from an ATTACHED port quoting the number of the trunk's open proposal, which requires the port: nothing changes
when the port has concurred already; the port joins the concurred set while it stays short of the required set; when it
completes it, the charter is installed under the proposal's number with the new version as result. -/
def Obligations.ConcurAddsOrInstalls : Prop :=
  ∀ (s u : State) (after : List Nat) (p : Port) (tag : Octet) (part : Part) (t : Trunk) (q : Proposal),
    let c := Command.concur (oct t.val) q.number
    s.Arrives p tag c part u after → (u.port p).mode = .attached → (u.trunk t).proposal = some q →
    PortSet.has q.required p = true →
    (PortSet.has q.concurred p = true → exec (c.row p tag part) s = .next (u.answered p tag c .accepted [])) ∧
    (PortSet.has q.concurred p = false →
      let with_p : PortSet := q.concurred.set p.val true
      let v : Pair := if (u.trunk t).charter.version = 65535 then 1 else (u.trunk t).charter.version + 1
      (with_p ≠ q.required →
        exec (c.row p tag part) s =
          .next ((u.setTrunk t { u.trunk t with proposal := some { q with concurred := with_p } }).answered
            p tag c .accepted [])) ∧
      (with_p = q.required →
        exec (c.row p tag part) s =
          .next ((u.install t q.terms q.number p after).answered p tag c .installed [highOctet v, lowOctet v])))

/-- R119 to R121: the refusals of CONCUR, DISSENT and WITHDRAW from an ATTACHED port, in their order: trunk, open proposal,
number, and NOT-PARTY for a port that is not required (for WITHDRAW, not the proposer). -/
def Obligations.AnswerRefusalsComeInOrder : Prop :=
  ∀ (s u : State) (after : List Nat) (p : Port) (tag : Octet) (part : Part) (o : Octet) (n : Pair) (c : Command),
    c = .concur o n ∨ c = .dissent o n ∨ c = .withdraw o n →
    s.Arrives p tag c part u after → (u.port p).mode = .attached →
    let refused := fun code => exec (c.row p tag part) s = .next (u.answered p tag c code [])
    (8 ≤ o.toNat → refused .noSuchTrunk) ∧
    (∀ t : Trunk, o.toNat = t.val →
      ((u.trunk t).proposal = none → refused .noProposal) ∧
      (∀ q ∈ (u.trunk t).proposal,
        (n ≠ q.number → refused .wrongProposal) ∧
        (n = q.number → c ≠ .withdraw o n → PortSet.has q.required p = false → refused .notParty) ∧
        (n = q.number → c = .withdraw o n → q.proposer ≠ p → refused .notParty)))

/-- R118, R120, R121: DISSENT from a required port closes the proposal, WITHDRAWN from its proposer and REJECTED from another;
WITHDRAW from the proposer closes it WITHDRAWN. The record is removed and CLOSED with the number, outcome, port, reason and
concurred set is offered to all four ports; nothing else changes. -/
def Obligations.DissentAndWithdrawClose : Prop :=
  ∀ (s u : State) (after : List Nat) (p : Port) (tag : Octet) (part : Part) (t : Trunk) (q : Proposal) (c : Command),
    s.Arrives p tag c part u after → (u.port p).mode = .attached → (u.trunk t).proposal = some q →
    let closes := fun (outcome : Closing) (reason : Reason) => exec (c.row p tag part) s =
      .next (((u.setTrunk t { u.trunk t with proposal := none }).offer allPorts .concurrence after
        (.closed t q.number outcome (some p) reason q.concurred)).answered p tag c .accepted [])
    (c = .dissent (oct t.val) q.number → PortSet.has q.required p = true →
      closes (if q.proposer = p then .withdrawn else .rejected) .dissent) ∧
    (c = .withdraw (oct t.val) q.number → q.proposer = p → closes .withdrawn .withdraw)

/-! ## Events of the ports and of the concurrence unit -/

/-- R138, R140, R68, R123: when the lease of an ATTACHED port has run out the port becomes LAPSED with its session,
subscriptions, queue, entry number and slots kept; SELF-LAPSED is offered to it and PEER-LAPSED to the others. The departure
takes its ballots and holds from every trunk and closes every proposal that required it, with the triggers and offers of
`Departs`, all after those two. Bars, receivers, buffers, charters, selection records, emitters, histories and other ports are
unchanged. -/
def Obligations.LeaseExpiryLapsesThePort : Prop :=
  ∀ (s : State) (p : Port),
    s.rstnLow = false → s.monitor.state = .present → (s.port p).mode = .attached → (s.port p).leaseRemaining = 0 →
    ∃ t, exec (.leaseExpiry p) s = .next t ∧
      t.port p = { s.port p with mode := .lapsed } ∧
      Departs p .lapse
        [{ event := .selfLapsed p (s.port p).session (s.port p).leaseLength, time := s.blockCounter
           block := .portController p, stamp := s.stamp, after := [], dest := [p] },
         { event := .peerLapsed p (s.port p).session (s.port p).leaseLength, time := s.blockCounter
           block := .portController p, stamp := s.stamp + 1, after := [], dest := otherPorts p }] s t

/-- R141, R147, R126: a port reset abandons a transaction in progress, empties both slots and the queue, clears BUSY-DROP, sets
the entry number to 0 and every subscription to OFF, and leaves the port OFFLINE with its session and lease length kept, in HALT
too; PEER-RESET with the state left is offered to the other three ports. From ATTACHED the departure takes the port's ballots
and holds and closes the proposals that required it, with the triggers and offers of `Departs`, after PEER-RESET; from another
state no trunk changes and nothing more is offered. Its bars and the other ports are unchanged. The release takes transactions
again and changes nothing else. -/
def Obligations.PortResetAndRelease : Prop :=
  ∀ (s : State) (p : Port),
    let own : List Offer :=
      [{ event := .peerReset p (s.port p).mode (s.port p).session, time := s.blockCounter
         block := .portController p, stamp := s.stamp, after := [], dest := otherPorts p }]
    (s.rstnLow = false → (s.port p).prstnLow = false →
      ∃ t, exec (.portReset p) s = .next t ∧
        t.port p = { s.port p with
          prstnLow := true
          transaction := (s.port p).transaction.map fun f => { f with phase := .abandoned }
          slot := .empty, response := none, busyDrop := false, queue := [], entryNumber := 0
          subs := { lane := .off, trunk := .off, claim := .off, charter := .off, port := .off, device := .off }
          mode := .offline, leaseRemaining := 0 } ∧
        ((s.port p).mode = .attached → Departs p .portReset own s t) ∧
        ((s.port p).mode ≠ .attached → t.trunks = s.trunks ∧ t.triggers = s.triggers ∧ t.offers = s.offers ++ own) ∧
        (∀ tag c after, (s.port p).slot = .handed tag c after →
          t.orphans = s.orphans ++ [{ port := p, tag := tag, command := c, after := after }]) ∧
        t.lanes = s.lanes ∧ (∀ q : Port, q ≠ p → t.port q = s.port q)) ∧
    exec (.portResetRelease p) s = .next (s.setPort p { s.port p with prstnLow := false })

/-- R122: when the block counter stands at the deadline of a trunk's open proposal, the proposal closes EXPIRED with reason
DEADLINE and no port; while the deadline lies ahead, in HALT, and without a proposal nothing changes (log entry 3: a row outside
its condition changes nothing). -/
def Obligations.DeadlineExpiresTheProposal : Prop :=
  ∀ (s : State) (t : Trunk),
    (∀ q ∈ (s.trunk t).proposal, s.rstnLow = false → s.monitor.state = .present →
      (q.deadline = s.blockCounter →
        exec (.deadlineExpiry t) s =
          .next ((s.setTrunk t { s.trunk t with proposal := none }).offer allPorts .concurrence []
            (.closed t q.number .expired none .deadline q.concurred))) ∧
      (∀ n : Nat, 1 ≤ n → n ≤ 32000 → q.deadline = s.blockCounter + BitVec.ofNat 32 n →
        exec (.deadlineExpiry t) s = .next s)) ∧
    ((s.trunk t).proposal = none ∨ s.monitor.state ≠ .present → exec (.deadlineExpiry t) s = .next s)

/-- R150 to R156: an offer taken at a port is declined without a trace by an OFFLINE port and where the mode of the event's
class does not let its kind in; admitted, it is appended below 31 entries under the next entry number, appends a LOST marker
with count 1 at 31 when the newest entry is a notification, and is counted at a newest marker at 31 or 32, saturating at 65,535,
with its timestamp as latest loss. Nothing else of the port, and no other port, changes. The port is judged as it stands when the
offer is taken, whatever the event, where R68 and R70 have a port that was OFFLINE find nothing (log entry 39). R149: the offer then
waits at the port no more; at every other port the same offers wait in the same order, it among them where the port is one of its
destinations; and every other offer is unchanged. An offer may be taken next when the port has no other to take that the same block
made earlier, or that it comes after (log entry 8: the stamps are the model's). -/
def Obligations.OfferIsAdmittedOrDeclined : Prop :=
  (∀ (s : State) (p : Port) (o : Offer), o ∈ s.readyOffers p ↔ o ∈ s.offers ∧ p ∈ o.dest ∧
    ∀ o' ∈ s.offers, p ∈ o'.dest → ¬ (o'.block = o.block ∧ o'.stamp < o.stamp) ∧ o'.stamp ∉ o.after) ∧
  ∀ (s : State) (p : Port) (choice : Nat) (o : Offer),
    s.rstnLow = false → (s.readyOffers p)[choice]? = some o →
    let x := s.port p
    let mode := x.subs.mode o.event.cls
    let admits := x.mode ≠ .offline ∧ (mode = .both ∨ (mode = .onset ∧ o.event.isClear = false))
    let waiting := fun (offers : List Offer) (q : Port) =>
      (offers.filter fun b => b.dest.contains q).map fun b => (b.event, b.time, b.block, b.stamp, b.after)
    let becomes := fun y : PortState => ∃ left : List Offer,
      exec (.notificationOffer p choice) s = .next (({ s with offers := left } : State).setPort p y) ∧
      waiting left p = waiting (s.offers.filter (· ≠ o)) p ∧
      (∀ q : Port, q ≠ p → waiting left q = waiting s.offers q) ∧
      (∀ b : Offer, b ∈ s.offers → b ≠ o → b ∈ left) ∧
      ∀ b ∈ left, (b ∈ s.offers ∧ b ≠ o) ∨ b = { o with dest := o.dest.filter (· ≠ p) }
    let n := x.entryNumber + 1
    (¬ admits → becomes x) ∧
    (admits →
      (x.queue.length ≤ 30 →
        becomes { x with queue := x.queue ++ [.note n o.event o.time], entryNumber := n }) ∧
      (∀ older m e time, x.queue = older ++ [.note m e time] → x.queue.length = 31 →
        becomes { x with queue := x.queue ++ [.lost n 1 o.time o.time], entryNumber := n }) ∧
      (∀ older m count first latest, x.queue = older ++ [.lost m count first latest] →
        x.queue.length = 31 ∨ x.queue.length = 32 →
        becomes { x with queue := older ++ [.lost m (min 65535 (count + 1)) first o.time] }))

/-! ## Events of the lanes -/

/-- R5 to R10: clock loss and stuck data take a receiver that is not DARK to DARK, and a data transition on a running clock
takes a DARK one to HUNT, each with the loss-of-lock effects, the flush and the grade recomputed; otherwise they change nothing.
In HUNT the sync word enters CONFIRM with sync count 1; other bits, and other lock states, change nothing. At an expected
position the sync judgement follows the tables of R8 and R9. (No step of an earlier block position is due: log entry 4. Log
entry 28: the flush sets the last alignment status EMPTY when the buffer is empty too.) -/
def Obligations.LockFollowsTheTables : Prop :=
  ∀ (s : State) (l : Lane), s.rstnLow = false → s.monitor.state = .present → (s.lane l).rx.due = [] →
    let x := (s.lane l).rx
    let loses := fun (i : Instr) (lock : LockState) => exec i s =
      .next ((s.setLane l { s.lane l with
        buffer := [], status := .empty
        rx := { x with
          lock := lock, syncCount := 0, missCount := 0, expected := none, fillAlarm := false, alarmRun := 0
          windowPos := 0, windowCount := 0, degrade := false, blockOpen := false } }).regrade l [])
    let becomes := fun (i : Instr) (y : Receiver) => exec i s = .next ((s.setLane l { s.lane l with rx := y }).regrade l [])
    (x.lock ≠ .dark → loses (.clockLoss l) .dark ∧ loses (.stuckData l) .dark) ∧
    (x.lock = .dark → exec (.clockLoss l) s = .next s ∧ exec (.stuckData l) s = .next s ∧
      loses (.dataTransition l true) .hunt ∧ exec (.dataTransition l false) s = .next s) ∧
    (∀ clock, x.lock ≠ .dark → exec (.dataTransition l clock) s = .next s) ∧
    (∀ bits, x.lock = .hunt → bits = 0x3AC5 → exec (.syncMatch l bits) s =
      .next (s.setLane l { s.lane l with rx := { x with lock := .confirm, syncCount := 1 } })) ∧
    (∀ bits, x.lock ≠ .hunt ∨ bits ≠ 0x3AC5 → exec (.syncMatch l bits) s = .next s) ∧
    (x.blockOpen = false →
      (x.lock = .confirm → x.syncCount = 1 → exec (.expectedPosition l 0x3AC5) s =
        .next (s.setLane l { s.lane l with rx := { x with syncCount := 2 } })) ∧
      ((x.lock = .confirm ∧ x.syncCount = 2) ∨ x.lock = .locked ∨ x.lock = .coast →
        becomes (.expectedPosition l 0x3AC5)
          { x with lock := .locked, syncCount := 0, missCount := 0, blockOpen := true }) ∧
      (∀ bits, bits ≠ 0x3AC5 →
        (x.lock = .confirm → loses (.expectedPosition l bits) .hunt) ∧
        (x.lock = .locked → becomes (.expectedPosition l bits)
          { x with lock := .coast, syncCount := 0, missCount := 1, blockOpen := true }) ∧
        (x.lock = .coast → x.missCount ≤ 2 → becomes (.expectedPosition l bits)
          { x with syncCount := 0, missCount := x.missCount + 1, blockOpen := true }) ∧
        (x.lock = .coast → x.missCount = 3 → loses (.expectedPosition l bits) .hunt)))

/-- R18: the grade recomputed is that of the table; when it is the grade held nothing happens; otherwise the lane takes it, a
grade trigger goes to the trunk whose charter contains the lane, if there is one, and GRADE-WORSE or GRADE-BETTER with both
grades, the lock state, the fill alarm and degrade is offered to all four ports. -/
def Obligations.GradeChangeIsSentAndOffered : Prop :=
  ∀ (s : State) (l : Lane) (after : List Nat),
    let x := (s.lane l).rx
    let g : Grade :=
      if x.lock = .locked ∧ x.fillAlarm = false then if x.degrade then .degraded else .good
      else if x.lock = .coast ∧ x.fillAlarm = false then .degraded else .failed
    let v := s.setLane l { s.lane l with rx := { x with grade := g } }
    let worse := (x.grade = .good ∧ g ≠ .good) ∨ (x.grade = .degraded ∧ g = .failed)
    (g = x.grade → s.regrade l after = s) ∧
    (g ≠ x.grade → s.regrade l after =
      ((match s.trunkOf l with
        | some t => v.send t (.grade l) (.receiver l) (s.handOn (.receiver l) after)
        | none => v).offer allPorts (.receiver l) after
          (if worse then .gradeWorse l x.grade g x.lock x.fillAlarm x.degrade
           else .gradeBetter l x.grade g x.lock x.fillAlarm x.degrade)))

/-- R11 to R16, R25: a block processed at a block position whose check fails counts a failure, a window count and a window
position, and advances a set expected sequence; one whose check passes counts a good block, a fill block when FILL is set, and a
break when its sequence is not the expected one, makes its sequence + 1 the expected one, follows the alarm run, and is offered
to the buffer, flushed first at a break, which sets the last alignment status EMPTY (log entry 28): a non-member's block is
discarded; a member's is stored alone when the buffer is empty or its newest is not earlier, and otherwise appended, the oldest
of eight being dropped and counted; without a break the status stays as it was. R15: a FILL flag that
agrees with the alarm makes the run 0, one that disagrees increments it, and at 8 the alarm is due to change and the run is 0.
R16, R17: with degrade clear and the window count at DegradeSet or more its declaration is due, and with the window position at
1,600 the end of the window. No trigger is sent and nothing is offered yet. (No step of an earlier position is due. Log entry 4:
the steps due are taken by rows of their own.) R1, R2, R47: the check is the CRC of x^16 + x^12 + x^5 + 1, register 0xFFFF at the
start, each octet most significant bit first; sequence a is later than b when (a - b) mod 16384 is in 1..8191; a lane's trunk is
the one whose charter contains it. -/
def Obligations.BlockPositionIsProcessed : Prop :=
  (∀ octets : List Octet, crc16 octets = serialCrc 0x1021 0xFFFF octets) ∧
  (∀ a b : SeqNo, (later a b = true ↔ 1 ≤ (a - b).toNat ∧ (a - b).toNat ≤ 8191) ∧ earlier b a = later a b) ∧
  (∀ (s : State) (l : Lane), (∀ t ∈ s.trunkOf l, l ∈ (s.trunk t).charter.terms.members) ∧
    (s.trunkOf l = none → ∀ t : Trunk, l ∉ (s.trunk t).charter.terms.members)) ∧
  ∀ (s : State) (l : Lane) (header check : Pair) (payload : Payload),
    s.rstnLow = false → s.monitor.state = .present → (s.lane l).rx.due = [] → (s.lane l).rx.blockOpen = true →
    let x := (s.lane l).rx
    let q : SeqNo := header.extractLsb' 2 14
    let fill := header.getLsbD 1
    let good := crc16 (highOctet header :: lowOctet header :: payload.toList) = check
    let breaks := ∃ e ∈ x.expected, e ≠ q
    let windowSteps := fun y : Receiver =>
      (if x.degrade = false ∧ x.degradeSet ≤ y.windowCount then [LaneStep.degradeDeclared] else []) ++
        (if 1600 ≤ y.windowPos then [LaneStep.windowEnd] else [])
    ∃ t, exec (.blockPosition l header payload check) s = .next t ∧ LaneOnly l s t ∧
      t.triggers = s.triggers ∧ t.offers = s.offers ∧
      let y := (t.lane l).rx
      y.lock = x.lock ∧ y.missCount = x.missCount ∧ y.grade = x.grade ∧ y.degrade = x.degrade ∧
      y.fillAlarm = x.fillAlarm ∧ y.windowPos = x.windowPos + 1 ∧ y.blockOpen = false ∧
      (¬ good →
        y.checkFailures = x.checkFailures + 1 ∧ y.windowCount = x.windowCount + 1 ∧
        y.expected = x.expected.map (· + 1) ∧ y.goodBlocks = x.goodBlocks ∧ y.fillBlocks = x.fillBlocks ∧
        y.sequenceBreaks = x.sequenceBreaks ∧ y.overflowDrops = x.overflowDrops ∧ y.alarmRun = x.alarmRun ∧
        y.due = windowSteps y ∧ (t.lane l).buffer = (s.lane l).buffer ∧ (t.lane l).status = (s.lane l).status) ∧
      (good →
        y.checkFailures = x.checkFailures ∧ y.windowCount = x.windowCount ∧ y.expected = some (q + 1) ∧
        y.goodBlocks = x.goodBlocks + 1 ∧ y.fillBlocks = x.fillBlocks + (if fill then 1 else 0) ∧
        (breaks → y.sequenceBreaks = x.sequenceBreaks + 1) ∧ (¬ breaks → y.sequenceBreaks = x.sequenceBreaks) ∧
        (fill = x.fillAlarm → y.alarmRun = 0 ∧ y.due = windowSteps y) ∧
        (fill ≠ x.fillAlarm → x.alarmRun ≠ 7 → y.alarmRun = x.alarmRun + 1 ∧ y.due = windowSteps y) ∧
        (fill ≠ x.fillAlarm → x.alarmRun = 7 → y.alarmRun = 0 ∧ y.due = .fillAlarm :: windowSteps y) ∧
        (breaks → (t.lane l).status = .empty) ∧ (¬ breaks → (t.lane l).status = (s.lane l).status) ∧
        ∃ held : List LaneBlock, (breaks → held = []) ∧ (¬ breaks → held = (s.lane l).buffer) ∧
          let b : LaneBlock := { seq := q, fill := fill, brk := header.getLsbD 0, payload := payload }
          (s.trunkOf l = none → (t.lane l).buffer = held ∧ y.overflowDrops = x.overflowDrops) ∧
          (s.trunkOf l ≠ none →
            (held = [] → (t.lane l).buffer = [b] ∧ y.overflowDrops = x.overflowDrops) ∧
            (∀ older newest, held = older ++ [newest] →
              (later q newest.seq = false → (t.lane l).buffer = [b] ∧ y.overflowDrops = x.overflowDrops) ∧
              (later q newest.seq = true → held.length < 8 →
                (t.lane l).buffer = held ++ [b] ∧ y.overflowDrops = x.overflowDrops) ∧
              (later q newest.seq = true → held.length = 8 →
                (t.lane l).buffer = held.drop 1 ++ [b] ∧ y.overflowDrops = x.overflowDrops + 1))))

/-- R15 to R17: the steps a block position has made due. FILL_ALARM changes the alarm, DEGRADE_DECLARED declares degrade, and
DEGRADE_WINDOW_END clears degrade when the window count is at most DegradeClear and begins the next window; the grade is
recomputed once, with the last of them. A step that is not due changes nothing. (Log entry 4: how the model splits the
position.) -/
def Obligations.AlarmStepsAreTaken : Prop :=
  ∀ (s : State) (l : Lane), s.rstnLow = false → s.monitor.state = .present →
    let x := (s.lane l).rx
    let becomes := fun (i : Instr) (y : Receiver) =>
      let v := s.setLane l { s.lane l with rx := y }
      exec i s = .next (if y.due = [] then v.regrade l [] else v)
    let ended := fun (y : Receiver) =>
      { y with windowPos := 0, windowCount := 0, due := []
               degrade := if y.windowCount ≤ y.degradeClear then false else y.degrade }
    (∀ rest, x.due = .fillAlarm :: rest →
      becomes (.fillAlarm l) { x with fillAlarm := !x.fillAlarm, due := rest }) ∧
    (∀ rest, x.due = .degradeDeclared :: rest →
      becomes (.degradeDeclared l) { x with degrade := true, due := rest }) ∧
    (x.due = [.windowEnd] → becomes (.degradeWindowEnd l) (ended x)) ∧
    (x.due = [.degradeDeclared, .windowEnd] → becomes (.degradeWindowEnd l) (ended { x with degrade := true })) ∧
    (.fillAlarm ∉ x.due → exec (.fillAlarm l) s = .next s) ∧
    (.degradeDeclared ∉ x.due → exec (.degradeDeclared l) s = .next s) ∧
    (.windowEnd ∉ x.due → exec (.degradeWindowEnd l) s = .next s)

/-! ## Events of the trunks -/

/-- R75: with no member eligible there is no best grade and no Top; otherwise Top is eligible, no eligible member is better
graded, and every member before it in the selection order (the favoured lane, then the rest by rank) is not eligible or worse
graded. A lane is eligible exactly when it is a member, unbarred and not FAILED; GOOD is better than
DEGRADED, and that better than FAILED. -/
def Obligations.TopIsTheBestMember : Prop :=
  (Grade.good.rank < Grade.degraded.rank ∧ Grade.degraded.rank < Grade.failed.rank) ∧
  (∀ (s : State) (l : Lane), s.barred l = false ↔ (s.lane l).bars = Vector.replicate 4 false) ∧
  ∀ (s : State) (t : Trunk), (∀ f ∈ (s.trunk t).favoured, f ∈ s.members t) →
    let fits := fun l : Lane => l ∈ s.members t ∧ (s.lane l).bars = Vector.replicate 4 false ∧ (s.lane l).rx.grade ≠ .failed
    let order := (s.trunk t).favoured.toList ++ (s.members t).filter fun l => some l != (s.trunk t).favoured
    s.selectionOrder t = order ∧ (∀ l : Lane, s.eligible t l = true ↔ fits l) ∧
    ((∀ l, ¬ fits l) → s.bestGrade t = none ∧ s.top t = none) ∧
    ((∃ l, fits l) → ∃ d before later, s.top t = some d ∧ s.bestGrade t = some (s.lane d).rx.grade ∧ fits d ∧
      order = before ++ d :: later ∧
      (∀ l, fits l → (s.lane d).rx.grade.rank ≤ (s.lane l).rx.grade.rank) ∧
      ∀ l ∈ before, ¬ fits l ∨ (s.lane d).rx.grade.rank < (s.lane l).rx.grade.rank)

/-- R74, R76, R79, R81 to R87, R104, R105: an evaluation at a trunk without a hold, of a trigger or of the expiry of a timer;
one of an install at a trunk with members that is not DISABLED, whose hold-off timer it has made IDLE. A DISABLED trunk is
unchanged. A STARVED trunk with no member eligible stays, and with a Top starts onto it: CARRYING, centring set, a START record
of kind HIT from none, then SWITCHED and FED offered. With no member eligible a CARRYING or SWITCHING trunk, unless hold-off
holds it, drops to STARVED: no active lane, no target, timers IDLE, immediate pending clear, a STARVE record of kind NONE from
the pending record's from lane or the active lane, then SWITCHED and STARVED offered. From an active lane that is not eligible,
unless hold-off holds it, the trunk switches to Top at once, from SWITCHING too. On an eligible active lane of grade G*, the
charter not revertive or the lane Top, a CARRYING trunk stays, its timers becoming IDLE, and a SWITCHING one cancels. On one
that is DEGRADED with G* GOOD, and hold-off 0 with an IDLE timer or at a hold-off expiry, a CARRYING trunk begins the switch to
Top: SWITCHING, align-wait 0; a SWITCHING one goes on towards its target while that is Top, and is retargeted to another Top.
Causes are by the trigger's kind, MEMBERSHIP for an install, HEALTH for a hold-off expiry (log entry 29: of a restore-wait
expiry, one of six). The charter read is the one installed at the evaluation (log entry 40: at an expiry before the trigger of
its install too). The trigger is taken; nothing else changes. (Log entries 34 and 35: which earlier offers an expiry's offers
and a changed switch come after.) R73: the triggers of one sender are taken in the order sent (log entry 9: the stamps are the
model's). -/
def Obligations.TriggersStartAndDrop : Prop :=
  (∀ (s : State) (t : Trunk) (g : Trigger), g ∈ s.readyTriggers t ↔ g ∈ s.triggers ∧ g.trunk = t ∧
    ∀ g' ∈ s.triggers, g'.trunk = t → g'.sender = g.sender → g.stamp ≤ g'.stamp) ∧
  ∀ (s u : State) (t : Trunk) (i : Instr) (k : TriggerKind) (after : List Nat), s.Evaluates t i k u after →
    (k = .install → s.members t ≠ [] ∧ (s.trunk t).sel.mode ≠ .disabled) →
    let x := s.trunk t
    let gateOpen : Prop := (k = .holdOffExpiry ∧ (u.trunk t).sel.holdOff = .idle) ∨
      (x.charter.terms.holdOff = 0 ∧ (x.sel.holdOff = .idle ∨ k = .install))
    let record := fun (cause : Cause) (src dst : Option Lane) (kind : SwitchKind) =>
      ({ time := s.blockCounter, cause := cause, src := src, dst := dst, kind := kind
         version := x.charter.version } : HistoryRecord)
    let joins := fun r : HistoryRecord => (if x.history.length < 8 then x.history else x.history.drop 1) ++ [r]
    let idle : Selection := { x.sel with holdOff := .idle, restore := .idle }
    let pendingAfter := (x.sel.pendingSwitch.map PendingSwitch.after).getD [] ++ after
    (x.sel.mode = .disabled → exec i s = .next u) ∧
    (x.sel.mode = .starved → x.sel.active = none → x.hold = none → (∀ l, s.eligible t l = false) →
      exec i s = .next (u.setTrunk t { x with sel := idle })) ∧
    (∀ d : Lane, x.sel.mode = .starved → x.sel.active = none → x.hold = none → s.top t = some d →
      exec i s =
        .next (((u.setTrunk t { x with
            sel := { idle with
              mode := .carrying, active := some d, target := none, alignWait := 0, cause := none, causeAfter := [] }
            em := { x.em with centring := true }
            history := joins (record .start none (some d) .hit) }).offer allPorts (.selector t) after
              (.switched t .start none (some d) .hit x.charter.version)).offer allPorts (.selector t) after
                (.fed t d))) ∧
    (∀ a : Lane, x.sel.mode = .carrying ∨ x.sel.mode = .switching → x.sel.active = some a → x.hold = none →
      (∀ l, s.eligible t l = false) →
      x.sel.mode = .switching ∨ s.barred a = true ∨ a ∉ s.members t ∨ gateOpen →
      let src := match x.sel.pendingSwitch with
        | some q => q.src
        | none => some a
      exec i s =
        .next (((u.setTrunk t { x with
            sel := { idle with
              mode := .starved, active := none, target := none, alignWait := 0, cause := none, causeAfter := []
              pendingSwitch := none }
            em := { x.em with immediatePending := false }
            history := joins (record .starve src none .nil) }).offer allPorts (.selector t) pendingAfter
              (.switched t .starve src none .nil x.charter.version)).offer allPorts (.selector t) after
                (.starved t .starve src))) ∧
    ∃ cause ∈ k.causes, ∀ a d : Lane, x.sel.active = some a → x.hold = none → s.top t = some d →
      let becomes := fun (sel : Selection) (immediate : Bool) => exec i s =
        .next (u.setTrunk t { x with sel := sel, em := { x.em with immediatePending := immediate } })
      (s.eligible t a = false →
        x.sel.mode = .switching ∨ (x.sel.mode = .carrying ∧ (s.barred a = true ∨ a ∉ s.members t ∨ gateOpen)) →
        becomes { idle with
          mode := .carrying, active := some d, target := none, alignWait := 0, cause := none, causeAfter := []
          pendingSwitch := some
            { src := (x.sel.pendingSwitch.map PendingSwitch.src).getD (some a), cause := cause, after := pendingAfter } }
          true) ∧
      (x.sel.mode = .carrying → s.eligible t a = true →
        (some (s.lane a).rx.grade = s.bestGrade t → x.charter.terms.revertive = false ∨ d = a →
          becomes idle x.em.immediatePending) ∧
        ((s.lane a).rx.grade = .degraded → s.bestGrade t = some .good → gateOpen →
          becomes { idle with
            mode := .switching, target := some d, alignWait := 0, cause := some cause, causeAfter := after }
            x.em.immediatePending)) ∧
      (x.sel.mode = .switching → s.eligible t a = true →
        (some (s.lane a).rx.grade = s.bestGrade t → x.charter.terms.revertive = false ∨ d = a →
          becomes { idle with mode := .carrying, target := none, alignWait := 0, cause := none, causeAfter := [] }
            x.em.immediatePending) ∧
        (some (s.lane a).rx.grade ≠ s.bestGrade t →
          (x.sel.target = some d → becomes idle x.em.immediatePending) ∧
          (x.sel.target ≠ some d →
            becomes { idle with target := some d, alignWait := 0, cause := some cause, causeAfter := after }
              x.em.immediatePending)))

/-- R87, R42, R85, R86, R95, R104 to R106: an install trigger makes both timers IDLE. With an empty charter a DISABLED trunk
stays so; any other becomes DISABLED with no active lane, target or pending record, the emitter's centring, immediate pending,
misalignment run and gap-run flag cleared (the gap-run flag's end offered after the rest); from CARRYING or SWITCHING a DISABLE
record of kind NONE joins the history and SWITCHED is offered. With members, held or not, a DISABLED trunk becomes STARVED with
break pending set, STARVED is offered, and the evaluation goes on as at that STARVED trunk; any other trunk's goes on with IDLE
timers, and what it does then stands in the statements of triggers, of holds and of timers, which hold of an install too.
Without a hold: with a Top a STARVED trunk starts on it, and without one stays; a CARRYING or SWITCHING trunk whose active lane
has left the charter switches to Top at once, cause MEMBERSHIP, and with no Top drops to STARVED; one whose active lane stays,
eligible and of grade G* under a charter that is not revertive, goes on with IDLE timers, cancelling a switch, whatever its
target; one whose active lane stays, DEGRADED with G* GOOD, retargets a switch to Top, and CARRYING restarts hold-off in full,
or with hold-off 0 begins the switch. The trigger is taken; nothing else changes. (Log entry 35: which earlier offers a changed
switch comes after.) -/
def Obligations.InstallTriggerFollowsTheCharter : Prop :=
  ∀ (s : State) (t : Trunk) (choice : Nat) (g : Trigger), s.Takes t choice g → g.kind = .install →
    let u : State := { s with triggers := s.triggers.erase g }
    let x := s.trunk t
    let record := fun (cause : Cause) (src dst : Option Lane) (kind : SwitchKind) =>
      ({ time := s.blockCounter, cause := cause, src := src, dst := dst, kind := kind
         version := x.charter.version } : HistoryRecord)
    let joins := fun r : HistoryRecord => (if x.history.length < 8 then x.history else x.history.drop 1) ++ [r]
    let idle : Selection := { x.sel with holdOff := .idle, restore := .idle }
    let disabled : Selection :=
      { mode := .disabled, active := none, target := none, alignWait := 0, cause := none, causeAfter := []
        holdOff := .idle, restore := .idle, pendingSwitch := none }
    let quiet : Emitter := { x.em with centring := false, immediatePending := false, misalign := 0, gapRun := false }
    let pendingAfter := (x.sel.pendingSwitch.map PendingSwitch.after).getD [] ++ g.after
    let ends := fun v : State =>
      if x.em.gapRun then
        v.offer allPorts (.emitter t) (v.handOn (.selector t) g.after) (.gapRunEnd t x.em.lastEmitted none)
      else v
    let becomes := fun v : State => exec (.triggerEvaluation t choice) s = .next v
    (s.members t = [] →
      (x.sel.mode = .disabled → becomes (u.setTrunk t { x with sel := idle })) ∧
      (x.sel.mode ≠ .disabled → x.sel.active = none →
        becomes (ends (u.setTrunk t { x with sel := disabled, em := quiet }))) ∧
      (∀ a, x.sel.mode ≠ .disabled → x.sel.active = some a →
        let src := match x.sel.pendingSwitch with
          | some q => q.src
          | none => some a
        becomes (ends ((u.setTrunk t { x with
            sel := disabled, em := quiet, history := joins (record .disable src none .nil) }).offer allPorts (.selector t)
              pendingAfter (.switched t .disable src none .nil x.charter.version))))) ∧
    (s.members t ≠ [] →
      let starved : Selection := { idle with mode := .starved, active := none, target := none }
      let fresh : Emitter := { x.em with breakPending := true }
      (x.sel.mode = .disabled → exec (.triggerEvaluation t choice) s = exec (.triggerEvaluation t choice)
        ((s.setTrunk t { x with sel := starved, em := fresh }).offer allPorts (.selector t) g.after
          (.starved t .membership none))) ∧
      (x.sel.mode ≠ .disabled → exec (.triggerEvaluation t choice) s =
        exec (.triggerEvaluation t choice) (s.setTrunk t { x with sel := idle }))) ∧
    (s.members t ≠ [] → x.hold = none →
      let starved : Selection := { idle with mode := .starved, active := none, target := none }
      let fresh : Emitter := { x.em with breakPending := true }
      let cancelled : Selection :=
        { idle with mode := .carrying, target := none, alignWait := 0, cause := none, causeAfter := [] }
      let towards := fun d : Lane => { idle with
        mode := .switching, target := some d, alignWait := 0, cause := some .membership, causeAfter := g.after }
      (x.sel.mode = .starved → x.sel.active = none → (∀ l, s.eligible t l = false) →
        becomes (u.setTrunk t { x with sel := idle })) ∧
      (∀ d, x.sel.mode = .starved → x.sel.active = none → s.top t = some d →
        becomes (((u.setTrunk t { x with
            sel := { idle with
              mode := .carrying, active := some d, target := none, alignWait := 0, cause := none, causeAfter := [] }
            em := { x.em with centring := true }
            history := joins (record .start none (some d) .hit) }).offer allPorts (.selector t) g.after
              (.switched t .start none (some d) .hit x.charter.version)).offer allPorts (.selector t) g.after
                (.fed t d))) ∧
      (∀ a, x.sel.mode = .carrying ∨ x.sel.mode = .switching → x.sel.active = some a → a ∉ s.members t →
        (∀ l, s.eligible t l = false) →
        let src := match x.sel.pendingSwitch with
          | some q => q.src
          | none => some a
        becomes (((u.setTrunk t { x with
            sel := { idle with
              mode := .starved, active := none, target := none, alignWait := 0, cause := none, causeAfter := []
              pendingSwitch := none }
            em := { x.em with immediatePending := false }
            history := joins (record .starve src none .nil) }).offer allPorts (.selector t) pendingAfter
              (.switched t .starve src none .nil x.charter.version)).offer allPorts (.selector t) g.after
                (.starved t .starve src))) ∧
      (∀ a, x.sel.active = some a → s.eligible t a = true → some (s.lane a).rx.grade = s.bestGrade t →
        x.charter.terms.revertive = false →
        (x.sel.mode = .carrying → becomes (u.setTrunk t { x with sel := idle })) ∧
        (x.sel.mode = .switching → becomes (u.setTrunk t { x with sel := cancelled }))) ∧
      (∀ a d, x.sel.active = some a → s.eligible t a = true → (s.lane a).rx.grade = .degraded →
        s.bestGrade t = some .good → s.top t = some d →
        let n := x.charter.terms.holdOff
        (x.sel.mode = .carrying → n = 0 → becomes (u.setTrunk t { x with sel := towards d })) ∧
        (x.sel.mode = .carrying → n ≠ 0 →
          becomes (u.setTrunk t { x with sel := { idle with holdOff := .running (n * 160) } })) ∧
        (x.sel.mode = .switching → x.sel.target = some d → becomes (u.setTrunk t { x with sel := idle })) ∧
        (x.sel.mode = .switching → x.sel.target ≠ some d → becomes (u.setTrunk t { x with sel := towards d }))) ∧
      (x.sel.mode = .disabled → (∀ l, s.eligible t l = false) →
        becomes ((u.setTrunk t { x with sel := starved, em := fresh }).offer allPorts (.selector t) g.after
          (.starved t .membership none))) ∧
      (∀ d, x.sel.mode = .disabled → s.top t = some d →
        becomes ((((u.setTrunk t { x with
            sel := { starved with mode := .carrying, active := some d, alignWait := 0, cause := none, causeAfter := [] }
            em := { fresh with centring := true }
            history := joins (record .start none (some d) .hit) }).offer allPorts (.selector t) g.after
              (.starved t .membership none)).offer allPorts (.selector t) g.after
                (.switched t .start none (some d) .hit x.charter.version)).offer allPorts (.selector t) g.after
                  (.fed t d))) ∧
      (∀ a d, x.sel.mode = .carrying ∨ x.sel.mode = .switching → x.sel.active = some a → a ∉ s.members t →
        s.top t = some d → d ≠ a →
        becomes (u.setTrunk t { x with
          sel := { idle with
            mode := .carrying, active := some d, target := none, alignWait := 0, cause := none, causeAfter := []
            pendingSwitch := some
              { src := (x.sel.pendingSwitch.map PendingSwitch.src).getD (some a), cause := .membership
                after := pendingAfter } }
          em := { x.em with immediatePending := true } })))

/-- R62: an evaluation at a trunk with a hold that is not DISABLED, of a trigger (one of an install with members) or of the
expiry of a hold-off or restore timer (R79), writes the hold's dormant mark: set while its lane is barred or FAILED; a change
offers HOLD-DORMANT or HOLD-ACTIVE first, and no other CLAIM event is offered. While the hold is dormant the rest is as at a
trunk without a hold (R76 cases 2 to 4). R76 case 1, R77, R81, R83 to R86, R104: while a hold on an eligible member h is active
(its dormant mark is clear, this evaluation having cleared it or not), it makes both timers IDLE and acts on h: a STARVED trunk
starts onto h, with the START record of kind HIT, SWITCHED and FED; on h itself a CARRYING trunk goes on and a switch is
cancelled; from another eligible active lane the trunk begins a switch to h, retargets one towards another lane, and leaves one
towards h standing; from an active lane that is not eligible it switches to h at once, the emitter's immediate pending flag set
and the pending record holding its cause, with the from lane of one already pending. Causes are by the trigger's kind,
MEMBERSHIP for an install, HEALTH for a hold-off expiry (log entry 29: of a restore-wait expiry, one of six). (Log entries 34
and 35: which earlier offers an expiry's offers and a changed switch come after.) -/
def Obligations.ActiveHoldSettlesTheLane : Prop :=
  ∀ (s u : State) (t : Trunk) (i : Instr) (k : TriggerKind) (after : List Nat) (h : Hold), s.Evaluates t i k u after →
    (s.trunk t).hold = some h → (s.trunk t).sel.mode ≠ .disabled → (k = .install → s.members t ≠ []) →
    let x := s.trunk t
    let grade := (s.lane h.lane).rx.grade
    let barred := s.barred h.lane
    let dormant := barred || grade = .failed
    let active := if h.dormant then
        u.offer allPorts (.selector t) after (.holdActive t h.lane h.owner h.session grade barred)
      else u
    let held : Option Hold := some { h with dormant := false }
    let idle : Selection := { x.sel with holdOff := .idle, restore := .idle }
    (∃ r more, exec i s = .next r ∧
      (r.trunk t).hold = some { h with dormant := dormant } ∧
      r.offers = s.offers ++ (if dormant = h.dormant then [] else
        [{ event := if dormant then .holdDormant t h.lane h.owner h.session grade barred
             else .holdActive t h.lane h.owner h.session grade barred
           time := s.blockCounter, block := .selector t, stamp := s.stamp, after := after, dest := allPorts }]) ++ more ∧
      ∀ o ∈ more, o.event.cls ≠ .claim) ∧
    (dormant = true →
      let free := s.setTrunk t { x with hold := none }
      let marked := if h.dormant then free
        else free.offer allPorts (.selector t) after (.holdDormant t h.lane h.owner h.session grade barred)
      ∃ r, exec i marked = .next r ∧
        exec i s =
          .next (r.setTrunk t { r.trunk t with hold := some { h with dormant := true } })) ∧
    (s.eligible t h.lane = true → x.sel.mode = .starved →
      exec i s =
        .next (((active.setTrunk t { x with
            hold := held
            sel := { idle with
              mode := .carrying, active := some h.lane, target := none, alignWait := 0, cause := none, causeAfter := [] }
            em := { x.em with centring := true }
            history := (if x.history.length < 8 then x.history else x.history.drop 1) ++
              [{ time := s.blockCounter, cause := .start, src := none, dst := some h.lane, kind := .hit
                 version := x.charter.version }] }).offer allPorts (.selector t) after
              (.switched t .start none (some h.lane) .hit x.charter.version)).offer allPorts (.selector t) after
                (.fed t h.lane))) ∧
    ∃ cause ∈ k.causes, ∀ a : Lane, s.eligible t h.lane = true →
    (x.sel.mode = .carrying ∨ x.sel.mode = .switching) → x.sel.active = some a →
    let becomes := fun (sel : Selection) (immediate : Bool) => exec i s =
      .next (active.setTrunk t
        { x with hold := held, sel := sel, em := { x.em with immediatePending := immediate } })
    (h.lane = a →
      (x.sel.mode = .carrying → becomes idle x.em.immediatePending) ∧
      (x.sel.mode = .switching →
        becomes { idle with mode := .carrying, target := none, alignWait := 0, cause := none, causeAfter := [] }
          x.em.immediatePending)) ∧
    (h.lane ≠ a → s.eligible t a = true →
      (x.sel.mode = .carrying ∨ x.sel.target ≠ some h.lane →
        becomes { idle with
          mode := .switching, target := some h.lane, alignWait := 0, cause := some cause, causeAfter := after }
          x.em.immediatePending) ∧
      (x.sel.mode = .switching → x.sel.target = some h.lane → becomes idle x.em.immediatePending)) ∧
    (h.lane ≠ a → s.eligible t a = false →
      becomes { idle with
        mode := .carrying, active := some h.lane, target := none, alignWait := 0, cause := none, causeAfter := []
        pendingSwitch := some
          { src := (x.sel.pendingSwitch.map PendingSwitch.src).getD (some a), cause := cause
            after := (x.sel.pendingSwitch.map PendingSwitch.after).getD [] ++ after } } true)

/-- R76 to R79, R85 to R87 on a trunk without a hold whose active lane a is an unbarred member. Hold-off (CARRYING): while a is
FAILED, or DEGRADED with G* GOOD, a trigger or a restore-wait expiry starts an IDLE hold-off timer for hold-off x 160 block
periods (an install any) and a RUNNING one goes on, the trunk staying on a; when the timer has run out, HOLD_OFF_EXPIRY moves
the trunk to Top, at once from a FAILED a (cause HEALTH) and by a switch from a DEGRADED one; with no member eligible it drops,
as a trigger does. With a of grade G* and no restore candidate (the charter not revertive, or a is Top) a trigger or an expiry
leaves the trunk on a, cancelling a switch in progress, and makes both timers IDLE. Restore: under a revertive charter with a of
grade G* and another Top c, every hold-off timer becomes IDLE, and the restore timer, which an install first makes IDLE, is
brought up to date: IDLE, or RUNNING or DUE for another lane, it starts for restore-wait x 16,000 block periods, or is DUE when
that is 0; RUNNING or DUE for c it stands. DUE, the trunk returns to c: from CARRYING a switch begins, cause REVERT; one in
progress towards c stands and any other is retargeted to c. RUNNING, the trunk stays on a, and a switch in progress is
cancelled. So too at HOLD_OFF_EXPIRY, and at RESTORE_WAIT_EXPIRY, which first makes a timer that has run out DUE with its
candidate. The charter read is the one installed at the evaluation (R74), at an expiry that comes before the trigger of its
install too (log entry 40). (Log entries 34 and 35: which earlier offers the switches come after.) -/
def Obligations.TimersGateTheDecision : Prop :=
  ∀ (s u : State) (t : Trunk) (i : Instr) (k : TriggerKind) (after : List Nat) (a : Lane),
    s.Evaluates t i k u after → (s.trunk t).hold = none →
    (s.trunk t).sel.mode = .carrying ∨ (s.trunk t).sel.mode = .switching →
    (s.trunk t).sel.active = some a → a ∈ s.members t → s.barred a = false →
    let x := s.trunk t
    let grade := (s.lane a).rx.grade
    let bad := grade = .failed ∨ (grade = .degraded ∧ s.bestGrade t = some .good)
    let becomes := fun (sel : Selection) => exec i s = .next (u.setTrunk t { x with sel := sel })
    let idle : Selection := { x.sel with holdOff := .idle, restore := .idle }
    let stays := fun sel : Selection => { sel with
      mode := .carrying
      target := if x.sel.mode = .switching then none else sel.target
      alignWait := if x.sel.mode = .switching then 0 else sel.alignWait
      cause := if x.sel.mode = .switching then none else sel.cause
      causeAfter := if x.sel.mode = .switching then [] else sel.causeAfter }
    (x.sel.mode = .carrying → k ≠ .holdOffExpiry → bad →
      (∀ n, k ≠ .install → x.sel.holdOff = .running n → becomes { x.sel with restore := .idle }) ∧
      (k = .install ∨ x.sel.holdOff = .idle → x.charter.terms.holdOff ≠ 0 →
        becomes { x.sel with restore := .idle, holdOff := .running (x.charter.terms.holdOff * 160) })) ∧
    (x.sel.mode = .carrying → k = .holdOffExpiry → (u.trunk t).sel.holdOff = .idle →
      (∀ d : Lane, s.top t = some d →
        (grade = .failed → exec i s =
          .next (u.setTrunk t { x with
            sel := { idle with
              active := some d, target := none, alignWait := 0, cause := none, causeAfter := []
              pendingSwitch := some
                { src := (x.sel.pendingSwitch.map PendingSwitch.src).getD (some a), cause := .health
                  after := (x.sel.pendingSwitch.map PendingSwitch.after).getD [] ++ after } }
            em := { x.em with immediatePending := true } })) ∧
        (grade = .degraded → s.bestGrade t = some .good → becomes { idle with
          mode := .switching, target := some d, alignWait := 0, cause := some .health, causeAfter := after })) ∧
      ((∀ l, s.eligible t l = false) →
        let src := match x.sel.pendingSwitch with
          | some q => q.src
          | none => some a
        exec i s =
          .next (((u.setTrunk t { x with
              sel := { idle with
                mode := .starved, active := none, target := none, alignWait := 0, cause := none, causeAfter := []
                pendingSwitch := none }
              em := { x.em with immediatePending := false }
              history := (if x.history.length < 8 then x.history else x.history.drop 1) ++
                [{ time := s.blockCounter, cause := .starve, src := src, dst := none, kind := .nil
                   version := x.charter.version }] }).offer allPorts (.selector t)
                ((x.sel.pendingSwitch.map PendingSwitch.after).getD [] ++ after)
                (.switched t .starve src none .nil x.charter.version)).offer allPorts (.selector t) after
                  (.starved t .starve src)))) ∧
    (s.bestGrade t = some grade → x.charter.terms.revertive = false ∨ s.top t = some a → becomes (stays idle)) ∧
    (∀ c : Lane, x.charter.terms.revertive = true → s.bestGrade t = some grade → s.top t = some c → c ≠ a →
      let started : RestoreTimer :=
        if x.charter.terms.restoreWait = 0 then .due c else .running c (x.charter.terms.restoreWait * 16000)
      let upToDate := fun before : RestoreTimer =>
        match before with
        | .idle => started
        | .running b n => if b = c then .running c n else started
        | .due b => if b = c then .due c else started
      let restore := upToDate (if k = .install then .idle else (u.trunk t).sel.restore)
      let timed : Selection := { x.sel with holdOff := .idle, restore := restore }
      becomes (if restore = .due c then
          if x.sel.mode = .switching ∧ x.sel.target = some c then timed
          else { timed with
            mode := .switching, target := some c, alignWait := 0, cause := some .revert, causeAfter := after }
        else stays timed))

/-- R30, R33, R39, R41: at an emission instant of a trunk that is not DISABLED exactly one block goes out on TD, its check
computed over its header and payload. It is a fill made by the part at the cursor, counted as fill, a block of the active lane's
or of a switch's target's buffer, counted as from-active, or one of another eligible member's, counted as mended, with sequence,
FILL and payload as they stood in the buffer. It carries BREAK exactly when break pending is set, no block was emitted before it,
its sequence is not last emitted + 1, the emission centres from a non-empty buffer, centring having been set or a judged
immediate switch having found the active lane not ALIGNED, or the lane block carried BREAK. The cursor is the sequence after it,
break pending is clear, the emitted counter advances by one, and the instant has fallen. R31, R28: the last alignment status of
every member is the first of the table that its buffer met before the emission, and its buffer is purged of the emitted sequence
and every earlier one. A DISABLED trunk emits nothing and TD is low (log entry 19). -/
def Obligations.EachInstantEmitsOneBlock : Prop :=
  ∀ (s : State) (t : Trunk), s.rstnLow = false → s.monitor.state = .present → (s.trunk t).reports = [] →
    let x := s.trunk t
    let aligned := fun l : Lane => l ∈ s.members t ∧ ∃ q ∈ (s.lane l).buffer, q.seq = x.em.cursor
    let centres := x.sel.mode ≠ .starved ∧ ∃ a ∈ x.sel.active, a ∈ s.members t ∧ (s.lane a).buffer ≠ [] ∧
      (x.em.centring = true ∨ (x.em.immediatePending = true ∧ ¬ aligned a))
    ∃ r, exec (.emissionInstant t) s = .next r ∧ r.instantTaken = s.instantTaken.set t.val true ∧
      ((s.trunk t).sel.mode = .disabled →
        (r.trunk t).em = { (s.trunk t).em with td := none } ∧ (r.trunk t).sel = (s.trunk t).sel ∧ r.offers = s.offers ∧
        r.lanes = s.lanes) ∧
      ((s.trunk t).sel.mode ≠ .disabled →
        ∃ (b : OutBlock) (q : LaneBlock), (r.trunk t).em.td = some b ∧
          let header : Pair := b.seq ++ BitVec.ofBool b.fill ++ BitVec.ofBool b.brk
          let headerOctets := [header.extractLsb' 8 8, header.extractLsb' 0 8]
          let c := (r.trunk t).em.counters
          let from_active := c.fromActive = x.em.counters.fromActive + 1 ∧ c.mended = x.em.counters.mended ∧
            c.fill = x.em.counters.fill
          let from_mend := c.fromActive = x.em.counters.fromActive ∧ c.mended = x.em.counters.mended + 1 ∧
            c.fill = x.em.counters.fill
          let from_part := c.fromActive = x.em.counters.fromActive ∧ c.mended = x.em.counters.mended ∧
            c.fill = x.em.counters.fill + 1
          b.check = crc16 (headerOctets ++ b.payload.toList) ∧
          b.octets = [0x3A, 0xC5] ++ headerOctets ++ b.payload.toList ++
            [b.check.extractLsb' 8 8, b.check.extractLsb' 0 8] ∧
          b.seq = q.seq ∧ b.fill = q.fill ∧ b.payload = q.payload ∧
          (b.brk = true ↔ x.em.breakPending = true ∨ x.em.lastEmitted = none ∨ (∃ n ∈ x.em.lastEmitted, q.seq ≠ n + 1) ∨
            centres ∨ q.brk = true) ∧
          ((q = { seq := x.em.cursor, fill := true, brk := false, payload := Vector.replicate 58 0xFF } ∧ from_part) ∨
            (∃ l ∈ s.members t, q ∈ (s.lane l).buffer ∧
              (x.sel.active = some l ∨ (x.sel.mode = .switching ∧ x.sel.target = some l)) ∧ from_active) ∨
            (∃ l ∈ s.members t, q ∈ (s.lane l).buffer ∧ s.eligible t l = true ∧ x.sel.active ≠ some l ∧
              x.sel.target ≠ some l ∧ from_mend)) ∧
          (r.trunk t).em.cursor = b.seq + 1 ∧ (r.trunk t).em.lastEmitted = some b.seq ∧
          (r.trunk t).em.breakPending = false ∧
          (r.trunk t).em.counters.emitted = (s.trunk t).em.counters.emitted + 1 ∧
          ∀ l ∈ s.members t,
            let held := (s.lane l).buffer
            let cursor := (s.trunk t).em.cursor
            let status := (r.lane l).status
            (r.lane l).buffer = held.filter (fun q => !(q.seq == b.seq || earlier q.seq b.seq)) ∧
            ((∃ q ∈ held, q.seq = cursor) → status = .aligned) ∧
            (held = [] → status = .empty) ∧
            ∀ oldest newest, held.head? = some oldest → held.getLast? = some newest → (∀ q ∈ held, q.seq ≠ cursor) →
              (earlier newest.seq cursor = true → status = .behind) ∧
              (earlier newest.seq cursor = false → later oldest.seq cursor = true → status = .ahead) ∧
              (earlier newest.seq cursor = false → later oldest.seq cursor = false → status = .missing))

/-- R32 to R34, R36 to R38, R40: where the block of an instant comes from (no immediate switch being pending). STARVED: a fill
made by the part at the cursor, every payload octet 0xFF, counted as fill. CARRYING with centring clear: the active lane's
block at the cursor when its buffer holds it, counted as from-active, the misalignment run becoming 0; otherwise the run
advances, a run of 3 becoming 0 (its report stands in the statement of reports), and with mend the block at the cursor of the
first other member in selection order that is eligible, no target, and holds it, counted as mended; without mend, or with no
such member, a fill at the cursor, and the gap-run flag is set. With centring set and blocks in the active lane's buffer: with
4 or more the oldest whose sequence is newest - 3 or later, with fewer the oldest, with BREAK, and centring is clear; with an
empty buffer a fill at the cursor, a gap, and centring stays set. Payload and FILL are as the lane sent them. SWITCHING takes
its block in the same way, with centring set or where the target does not hold the cursor's block, and its align-wait count
advances; the rest of the selection record is unchanged. An emission that sets the gap-run flag offers GAP-RUN-BEGIN, one that
clears it GAP-RUN-END, with the emitted sequence and the active lane, to every port; no other offer is made within it. R39: the
block carries BREAK exactly when the lane block did, the emission centres from a non-empty buffer, break pending is set, no
block was emitted before, or its sequence is not last emitted + 1. (A switch that completes stands in the statement of reports.
Log entry 33: the offer comes after no earlier one.) -/
def Obligations.InstantsTakeTheirBlock : Prop :=
  ∀ (s : State) (t : Trunk), s.rstnLow = false → s.monitor.state = .present → (s.trunk t).reports = [] →
    (s.trunk t).em.immediatePending = false →
    let x := s.trunk t
    let holds := fun (l : Lane) (b : LaneBlock) =>
      l ∈ s.members t ∧ (s.lane l).buffer.find? (fun b' => b'.seq = x.em.cursor) = some b
    let completes := x.sel.mode = .switching ∧ x.em.centring = false ∧ ∃ d ∈ x.sel.target, ∃ b, holds d b
    let waited : Selection :=
      if x.sel.mode = .switching then { x.sel with alignWait := x.sel.alignWait + 1 } else x.sel
    ∃ r, exec (.emissionInstant t) s = .next r ∧
      let e := (r.trunk t).em
      let breaks := fun n : SeqNo =>
        x.em.breakPending = true ∨ x.em.lastEmitted = none ∨ ∃ q ∈ x.em.lastEmitted, n ≠ q + 1
      let sends := fun b : LaneBlock => ∃ o, e.td = some o ∧ o.seq = b.seq ∧ o.fill = b.fill ∧ o.payload = b.payload ∧
        (o.brk = true ↔ b.brk = true ∨ x.em.centring = true ∨ breaks b.seq)
      let filled := ∃ o, e.td = some o ∧ o.seq = x.em.cursor ∧ o.fill = true ∧ (o.brk = true ↔ breaks x.em.cursor) ∧
        o.payload = Vector.replicate 58 0xFF ∧ e.counters.fill = x.em.counters.fill + 1
      (x.sel.mode = .starved → filled ∧ (r.trunk t).sel = x.sel ∧ e.misalign = 0 ∧ e.gapRun = false) ∧
      (∀ a : Lane, x.sel.mode = .carrying ∨ x.sel.mode = .switching → x.sel.active = some a → ¬ completes →
        (r.trunk t).sel = waited ∧
        (x.em.centring = false →
          (∀ b, holds a b →
            sends b ∧ e.misalign = 0 ∧ e.gapRun = false ∧ e.counters.fromActive = x.em.counters.fromActive + 1) ∧
          ((∀ b, ¬ holds a b) →
            let mends := fun l => s.eligible t l = true ∧ l ≠ a ∧ some l ≠ x.sel.target ∧
              ∃ b ∈ (s.lane l).buffer, b.seq = x.em.cursor
            e.misalign = (if x.em.misalign = 3 then 0 else x.em.misalign + 1) ∧
            (x.charter.terms.mend = false ∨ (∀ l ∈ s.selectionOrder t, ¬ mends l) → filled ∧ e.gapRun = true) ∧
            (∀ before d later b, x.charter.terms.mend = true → s.selectionOrder t = before ++ d :: later → mends d →
              (∀ l ∈ before, ¬ mends l) → holds d b →
              sends b ∧ e.gapRun = false ∧ e.counters.mended = x.em.counters.mended + 1))) ∧
        (x.em.centring = true →
          let buffer := if a ∈ s.members t then (s.lane a).buffer else []
          e.misalign = 0 ∧ (buffer = [] → filled ∧ e.centring = true ∧ e.gapRun = true) ∧
          ∀ older newest, buffer = older ++ [newest] →
            e.centring = false ∧ e.gapRun = false ∧ e.counters.fromActive = x.em.counters.fromActive + 1 ∧
            ∃ b, sends b ∧
              (buffer.length < 4 → buffer.head? = some b) ∧
              (4 ≤ buffer.length →
                buffer.find? (fun q => q.seq = newest.seq - 3 || later q.seq (newest.seq - 3)) = some b))) ∧
      (x.sel.mode ≠ .disabled → ¬ completes →
        r.offers = s.offers ++ (if e.gapRun = x.em.gapRun then [] else
          [{ event := if e.gapRun then .gapRunBegin t e.lastEmitted x.sel.active
               else .gapRunEnd t e.lastEmitted x.sel.active
             time := s.blockCounter, block := .emitter t, stamp := s.stamp, after := [], dest := allPorts }]))

/-- R35, R37, R38, R41, R88, R94, R96 to R103: the reports of an instant, raised and handled; one evaluation follows each, and
it is what TRIGGER_EVALUATION answers for an outstanding grade trigger with the report's stamps, the trigger taken (R74, R80:
cause HEALTH; the trunk's further reports and its other triggers left outstanding). Every record joins the history, counts by
its kind and cause (hitless; hit from a lane to another; slip) and offers SWITCHED. A pending immediate switch is judged,
HITLESS when centring is clear and the active lane holds the cursor's block and HIT otherwise, centring being set then; the
instant emits as after that judgement, and the record is from the pending from lane to the active lane with the pending cause.
R110: where an install has emptied the charter and its trigger is outstanding, the judgement's evaluation makes the timers IDLE
and leaves the trunk to that trigger, whose DISABLE record then names the lane judged onto (log entry 37). SWITCHING with
centring clear and the target's block at the cursor: that block is emitted, with BREAK as it carried it and by R39, a HITLESS
record joins, and the target becomes active. Where the same instant has judged an immediate switch, HITLESS then, the judgement
is handled and evaluated first, and the completion is dropped when the trunk is no longer SWITCHING towards that target (R96,
R97, R99). The fourth misaligned emission in a row raises alignment loss; each instant that does not complete a switch advances
the align-wait count, and the sixteenth raises its expiry. ALIGNMENT_LOSS on the lane a that a CARRYING or SWITCHING trunk
carries, no switch pending. A hold whose lane h is eligible: h other than a and ALIGNED, the trunk switches to h at once, cause
ALIGN-LOSS, abandoning a target; otherwise it slips on a: centring is set, and a SLIP record from a to a, HIT, joins, the
selection record kept. Without such a hold: it switches so to the first eligible member in selection order other than a, of
grade G*, that was ALIGNED; with none it slips. A loss that names another lane than the active one, or found STARVED, DISABLED
or with a switch pending, is dropped. An align-wait expiry of the same instant is taken after the loss. ALIGN_WAIT_EXPIRY at 16:
a HIT record from a to the target joins, the target becomes active and centring is set; not SWITCHING, or below 16, it is
dropped. Without such a report neither row changes anything (log entries 3 and 5; log entry 35: what the records come after). -/
def Obligations.ReportsAreHandled : Prop :=
  (∀ (u : State) (t : Trunk) (l : Lane) (stamps : List Nat), u.rstnLow = false →
    let g : Trigger := { trunk := t, kind := .grade l, sender := .receiver l, stamp := 0, after := stamps }
    ∃ r, exec (.triggerEvaluation t 0) { u.setTrunk t { u.trunk t with reports := [] } with triggers := [g] } = .next r ∧
      u.evaluate t .report stamps =
        { r.setTrunk t { r.trunk t with reports := (u.trunk t).reports } with triggers := u.triggers }) ∧
  ∀ (s : State) (t : Trunk) (after : List Nat), s.rstnLow = false →
    let x := s.trunk t
    let record := fun (cause : Cause) (src : Option Lane) (dst : Lane) (kind : SwitchKind) =>
      ({ time := s.blockCounter, cause := cause, src := src, dst := some dst, kind := kind
         version := x.charter.version } : HistoryRecord)
    let counted := fun (r : HistoryRecord) (c : TrunkCounters) => { c with
      hitless := if r.kind = .hitless then c.hitless + 1 else c.hitless
      hit := if r.kind = .hit ∧ r.src ≠ none ∧ r.src ≠ r.dst then c.hit + 1 else c.hit
      slips := if r.cause = .slip then c.slips + 1 else c.slips }
    let recorded := fun (u : State) (y : TrunkState) (r : HistoryRecord) (stamps : List Nat) =>
      (u.setTrunk t { y with
        history := (if y.history.length < 8 then y.history else y.history.drop 1) ++ [r]
        em := { y.em with counters := counted r y.em.counters } }).offer allPorts (.selector t) stamps
          (.switched t r.cause r.src r.dst r.kind r.version)
    let aligned := fun l : Lane => l ∈ s.members t ∧ ∃ b ∈ (s.lane l).buffer, b.seq = x.em.cursor
    let statuses := (s.members t).map fun l => (l, alignStatus x.em.cursor (s.lane l).buffer)
    let carried : Selection :=
      { x.sel with mode := .carrying, target := none, alignWait := 0, cause := none, causeAfter := [] }
    (s.monitor.state = .present → x.reports = [] →
      (∀ (a : Lane) (q : PendingSwitch) (kind : SwitchKind), x.sel.active = some a → x.em.immediatePending = true →
        x.sel.pendingSwitch = some q →
        x.sel.mode = .carrying ∨ (x.sel.mode = .switching ∧ ¬ (kind = .hitless ∧ ∃ b ∈ x.sel.target, aligned b)) →
        (kind = .hitless ∧ x.em.centring = false ∧ aligned a) ∨
          (kind = .hit ∧ ¬ (x.em.centring = false ∧ aligned a)) →
        let judged := s.setTrunk t { x with em := { x.em with
          immediatePending := false, centring := decide (kind = .hit) } }
        let stamps := (s.offers.filter fun o => o.block == .emitter t).map Offer.stamp
        let emptied : Prop := s.members t = [] ∧ ∃ g ∈ s.triggers, g.trunk = t ∧ g.kind = .install
        ∃ v, exec (.emissionInstant t) judged = .next v ∧
          let handled := fun sel : Selection => recorded v { v.trunk t with sel := { sel with pendingSwitch := none } }
            (record q.cause q.src a kind) (q.after ++ stamps)
          (¬ emptied → exec (.emissionInstant t) s = .next ((handled (v.trunk t).sel).evaluate t .report stamps)) ∧
          (emptied → exec (.emissionInstant t) s =
            .next (handled { (v.trunk t).sel with holdOff := .idle, restore := .idle }))) ∧
      (∀ (a b : Lane) (cause : Cause), x.sel.active = some a → x.sel.mode = .switching →
        x.em.centring = false → x.sel.target = some b → x.sel.cause = some cause → aligned b →
        let ends : List Offer := if x.em.gapRun then
            [{ event := .gapRunEnd t (some x.em.cursor) (some a), time := s.blockCounter, block := .emitter t
               stamp := s.stamp, after := [], dest := allPorts }]
          else []
        let before := (s.offers.filter fun o => o.block == .emitter t).map Offer.stamp
        let stamps := ((s.offers ++ ends).filter fun o => o.block == .emitter t).map Offer.stamp
        x.em.immediatePending = false ∨ aligned a →
        ∃ e : State, TrunkOnly t s e ∧ (e.trunk t).sel = x.sel ∧ (e.trunk t).history = x.history ∧
          (e.trunk t).hold = x.hold ∧ (e.trunk t).reports = [] ∧ e.triggers = s.triggers ∧ e.freeCount = s.freeCount ∧
          e.offers = s.offers ++ ends ∧ e.stamp = s.stamp + ends.length ∧
          (∃ q o, (s.lane b).buffer.find? (fun q => q.seq = x.em.cursor) = some q ∧ (e.trunk t).em.td = some o ∧
            o.seq = q.seq ∧ o.fill = q.fill ∧ o.payload = q.payload ∧
            (o.brk = true ↔ q.brk = true ∨ x.em.breakPending = true ∨ x.em.lastEmitted = none ∨
              ∃ n ∈ x.em.lastEmitted, q.seq ≠ n + 1)) ∧
          (e.trunk t).em.misalign = 0 ∧ (e.trunk t).em.gapRun = false ∧ (e.trunk t).em.centring = false ∧
          (e.trunk t).em.immediatePending = false ∧
          (e.trunk t).em.counters = { x.em.counters with
            emitted := x.em.counters.emitted + 1, fromActive := x.em.counters.fromActive + 1 } ∧
          let completed := fun v : State => recorded v
            { v.trunk t with sel := { (v.trunk t).sel with
                mode := .carrying, active := some b, target := none, alignWait := 0, cause := none, causeAfter := [] } }
            (record cause (some a) b .hitless) (x.sel.causeAfter ++ stamps)
          (x.em.immediatePending = false →
            exec (.emissionInstant t) s = .next ((completed e).evaluate t .report stamps)) ∧
          ∀ q : PendingSwitch, x.em.immediatePending = true → x.sel.pendingSwitch = some q →
            let judged := (recorded e { e.trunk t with sel := { x.sel with pendingSwitch := none } }
              (record q.cause q.src a .hitless) (q.after ++ before)).evaluate t .report before
            let stands : Prop := (judged.trunk t).sel.mode = .switching ∧ (judged.trunk t).sel.target = some b
            (stands → exec (.emissionInstant t) s = .next ((completed judged).evaluate t .report stamps)) ∧
            (¬ stands → exec (.emissionInstant t) s = .next (judged.evaluate t .report stamps))) ∧
      (∀ a : Lane, x.sel.active = some a → x.sel.mode = .carrying ∨ x.sel.mode = .switching →
        x.em.immediatePending = false →
        ¬ (x.sel.mode = .switching ∧ x.em.centring = false ∧ ∃ b ∈ x.sel.target, aligned b) →
        ∃ r, exec (.emissionInstant t) s = .next r ∧
          (r.trunk t).reports.map Report.kind =
            (if x.em.centring = true ∨ aligned a ∨ x.em.misalign ≠ 3 then [] else [.alignmentLoss (some a) statuses]) ++
              (if x.sel.mode = .switching ∧ x.sel.alignWait = 15 then [.alignWaitExpiry] else []))) ∧
    (∀ (a : Lane) (st : List (Lane × AlignStatus)) (rest : List Report), x.sel.active = some a →
      x.reports = ⟨.alignmentLoss (some a) st, after⟩ :: rest →
      x.sel.mode = .carrying ∨ x.sel.mode = .switching → x.sel.pendingSwitch = none →
      let fits := fun l : Lane => s.eligible t l = true ∧ l ≠ a ∧ some (s.lane l).rx.grade = s.bestGrade t ∧
        (l, AlignStatus.aligned) ∈ st
      let slips : Prop := exec (.alignmentLoss t) s =
        .next ((recorded s { x with reports := rest, em := { x.em with centring := true } }
          (record .slip (some a) a .hit) after).evaluate t .report after)
      let switchesTo := fun d : Lane => exec (.alignmentLoss t) s =
        .next ((s.setTrunk t { x with
          reports := rest
          sel := { carried with
            active := some d, holdOff := .idle, restore := .idle
            pendingSwitch := some { src := some a, cause := .alignLoss, after := after } }
          em := { x.em with immediatePending := true } }).evaluate t .report after)
      ((∀ h ∈ x.hold, s.eligible t h.lane = false) →
        ((∀ l ∈ s.selectionOrder t, ¬ fits l) → slips) ∧
        ∀ before d later, s.selectionOrder t = before ++ d :: later → fits d → (∀ l ∈ before, ¬ fits l) → switchesTo d) ∧
      ∀ h ∈ x.hold, s.eligible t h.lane = true →
        (h.lane = a → slips) ∧
        (h.lane ≠ a → (h.lane, AlignStatus.aligned) ∈ st → switchesTo h.lane) ∧
        (h.lane ≠ a → (h.lane, AlignStatus.aligned) ∉ st → slips)) ∧
    (∀ (l : Option Lane) (st : List (Lane × AlignStatus)) (rest : List Report),
      x.reports = ⟨.alignmentLoss l st, after⟩ :: rest →
      x.sel.active = none ∨ l ≠ x.sel.active ∨ x.sel.pendingSwitch ≠ none ∨ x.sel.mode = .starved ∨
        x.sel.mode = .disabled →
      exec (.alignmentLoss t) s = .next ((s.setTrunk t { x with reports := rest }).evaluate t .report after)) ∧
    (∀ (l : Option Lane) (st : List (Lane × AlignStatus)) (later : List Nat),
      x.reports = [⟨.alignmentLoss l st, after⟩, ⟨.alignWaitExpiry, later⟩] →
      ∃ u, exec (.alignmentLoss t) s = .next u ∧ (u.trunk t).reports = [⟨.alignWaitExpiry, later⟩] ∧
        exec (.alignWaitExpiry t) s = exec (.alignWaitExpiry t) u) ∧
    (x.reports = [⟨.alignWaitExpiry, after⟩] → x.sel.mode ≠ .switching ∨ x.sel.alignWait ≠ 16 →
      exec (.alignWaitExpiry t) s = .next ((s.setTrunk t { x with reports := [] }).evaluate t .report after)) ∧
    (∀ (b : Lane) (cause : Cause), x.reports = [⟨.alignWaitExpiry, after⟩] → x.sel.mode = .switching →
      x.sel.target = some b → x.sel.alignWait = 16 → x.sel.cause = some cause →
      exec (.alignWaitExpiry t) s =
        .next ((recorded s
          { x with reports := [], sel := { carried with active := some b }, em := { x.em with centring := true } }
          (record cause x.sel.active b .hit) (x.sel.causeAfter ++ after)).evaluate t .report after)) ∧
    (x.reports = [] → exec (.alignmentLoss t) s = .next s ∧ exec (.alignWaitExpiry t) s = .next s)

/-! ## The timebase, HALT and reset -/

/-- R79, R137, R163, R165, R166: the end of a block period while the part runs (the reports of past instants taken) advances the
block counter by one, counts every RUNNING hold-off and restore timer and every ATTACHED port's lease down by one, and begins
the next period; no lane changes. R162: the capture takes the scan frame: 0xE7, then for T0 to T7 the state, the gap-run flag
and the active lane, 31 for none, then 56 bits held high, which SCANO carries in the period; nothing else changes. In HALT
neither does anything. -/
def Obligations.BlockPeriodCountsAndScanIsCaptured : Prop :=
  ∀ s : State, s.rstnLow = false → (∀ t : Trunk, (s.trunk t).reports = []) →
    (s.monitor.state = .present →
      exec .blockPeriod s = .next { s with
        blockCounter := s.blockCounter + 1
        instantTaken := Vector.replicate 8 false
        scanCaptured := false
        trunks := s.trunks.map fun x => { x with sel := { x.sel with
          holdOff := match x.sel.holdOff with
            | .running n => .running (n - 1)
            | .idle => .idle
          restore := match x.sel.restore with
            | .running c n => .running c (n - 1)
            | .due c => .due c
            | .idle => .idle } }
        ports := s.ports.map fun x =>
          { x with leaseRemaining := if x.mode = .attached then x.leaseRemaining - 1 else x.leaseRemaining } } ∧
      exec .scanCapture s = .next { s with
        scanCaptured := true
        scano := some ((0xE7 :: s.trunks.toList.map fun x => oct ((match x.sel.mode with
            | .disabled => 0
            | .starved => 64
            | .carrying => 128
            | .switching => 192) + (if x.em.gapRun then 32 else 0) + match x.sel.active with
              | some l => l.val
              | none => 31)) ++ List.replicate 7 0xFF) }) ∧
    (s.monitor.state ≠ .present → exec .blockPeriod s = .next s ∧ exec .scanCapture s = .next s)

/-- R167, R168, R23, R43, R134, R164: HALT declared while the part runs (no step of a block position or report being left) makes
the monitor ABSENT with the halt duration at 0, holds TD and SCANO low, abandons blocks being received, and cuts a FETCH in
progress to 0x00 (one that is ignored keeps its own octets, R128), one whose kind octet is yet to come being in HALT from its status
octets on (log entry 14); every other record
keeps its value. A REFCLK edge makes an ABSENT monitor QUALIFYING; a gap takes it back to ABSENT, the halt's duration keeping
counting (log entry 16: times are operands). -/
def Obligations.HaltStopsThePart : Prop :=
  ∀ s : State, s.rstnLow = false →
    let cut := fun f : Transaction =>
      if f.isFetch = some true ∧ f.ignored = false ∧ f.phase ≠ .abandoned then { f with phase := .zeros } else { f with halted := true }
    (s.monitor.state = .present → (∀ l : Lane, (s.lane l).rx.due = []) → (∀ t : Trunk, (s.trunk t).reports = []) →
      exec .halt s = .next { s with
        monitor := { s.monitor with state := .absent, haltNs := 0 }
        lanes := s.lanes.map fun x => { x with rx := { x.rx with blockOpen := false } }
        trunks := s.trunks.map fun x => { x with em := { x.em with td := none } }
        ports := s.ports.map fun x => { x with transaction := x.transaction.map cut }
        scano := none }) ∧
    (∀ elapsed : Nat, s.monitor.state = .absent → exec (.qualifying elapsed) s = .next { s with
      monitor := { state := .qualifying, qualNs := 0, haltNs := s.monitor.haltNs + elapsed } }) ∧
    (∀ elapsed : Nat, s.monitor.state = .qualifying → elapsed < 1000000 →
      exec (.qualificationAbandoned elapsed) s = .next { s with
        monitor := { state := .absent, qualNs := elapsed, haltNs := s.monitor.haltNs + elapsed } })

/-- R170, R171, R173, R107, R91, R43, R23, R26, R54, R148, R169: return declared makes the monitor PRESENT. The work of the
halt is complete by then (log entry 38): a trigger outstanding is as if its TRIGGER_EVALUATION had come before; a command still
at its owner, of a port reset meanwhile or not, and a query under way are as if taken and RESPONSE_PLACED; and a trunk whose
charter an install has emptied is DISABLED and silent after the resume. With no such work: a trunk that is not DISABLED becomes
STARVED with no active lane, no target, timers IDLE and no pending record (log entry 30), its RESUME record from none, the
active lane or the pending from lane newest in its history, its emitter with centring and immediate pending clear, misalignment
run 0 and break pending set, its cursor, last emitted, gap-run flag and emission counters kept; SWITCHED is offered for the
record, and STARVED unless the trunk was STARVED; a DISABLED trunk is unchanged. Every buffer is flushed (log entry 28) and
every receiver is in HUNT with the loss-of-lock values and FAILED, its counters and thresholds kept; for each lane that was not
FAILED GRADE-WORSE is offered, and its grade trigger sent to the trunk whose charter contains it. Beside these, in the order of
the trunks and then of the lanes, nothing is offered or sent (log entry 8: the order). Claims, charters, proposals, ports and
the block counter are kept. After a halt the halt count advances and HALT-ENDED is offered before the rest. At start-up
neither; with every trunk DISABLED and every lane as a resume leaves it then (as device reset does), nothing is offered or sent
and no lane or trunk changes. -/
def Obligations.ResumeRestartsThePart : Prop :=
  ∀ s : State, s.rstnLow = false → s.monitor.state = .qualifying →
    let restarted := fun x : LaneState => { x with
      buffer := [], status := .empty
      rx := { x.rx with
        lock := .hunt, syncCount := 0, missCount := 0, expected := none, fillAlarm := false, alarmRun := 0
        windowPos := 0, windowCount := 0, degrade := false, blockOpen := false, due := [], grade := .failed } }
    let idle : Prop := s.orphans = [] ∧ ∀ p : Port, (s.port p).slot = .empty
    (∃ r, exec .haltResume s = .next r ∧ r.monitor.state = .present ∧ r.started = true) ∧
    (∀ o rest, s.orphans = o :: rest → o.command.inParts = true →
      ∃ u, exec (o.command.row o.port o.tag .atOwner) s = .next u ∧ exec .haltResume s = exec .haltResume u) ∧
    (∀ p tag c, s.orphans = [] → (∀ q < p, (s.port q).slot = .empty) → c.inParts = true →
      ((∃ after, (s.port p).slot = .handed tag c after) ∨ ∃ got, (s.port p).slot = .reading tag c got) →
      ∃ u v, exec (c.row p tag .atOwner) s = .next u ∧ exec (.responsePlaced p) u = .next v ∧
        exec .haltResume s = exec .haltResume v) ∧
    (∀ g rest choice, idle → s.triggers = g :: rest → (s.readyTriggers g.trunk)[choice]? = some g →
      ∃ u, exec (.triggerEvaluation g.trunk choice) s = .next u ∧ exec .haltResume s = exec .haltResume u) ∧
    (∀ t : Trunk, idle → s.members t = [] → (s.trunk t).sel.mode = .disabled ∨
        (∃ g ∈ s.triggers, g.trunk = t ∧ g.kind = .install) →
      ∃ r, exec .haltResume s = .next r ∧ (r.trunk t).sel.mode = .disabled ∧ (r.trunk t).em.td = (s.trunk t).em.td) ∧
    (idle → s.triggers = [] →
    ∃ r more, exec .haltResume s = .next r ∧ r.monitor.state = .present ∧ r.started = true ∧
      more.map Offer.event =
        (allTrunks.flatMap fun t =>
          let x := (s.trunk t).sel
          let src := match x.pendingSwitch with
            | some q => q.src
            | none => x.active
          if x.mode = .disabled then []
          else .switched t .resume src none .nil (s.trunk t).charter.version ::
            if x.mode = .starved then [] else [.starved t .resume src]) ++
        (allLanes.flatMap fun l =>
          let g := (s.lane l).rx.grade
          if g = .failed then [] else [.gradeWorse l g .failed .hunt false false]) ∧
      (r.triggers.map fun g => (g.trunk, g.kind, g.sender)) =
        (allLanes.flatMap fun l =>
          if (s.lane l).rx.grade = .failed then []
          else (s.trunkOf l).toList.map fun t => (t, TriggerKind.grade l, Block.receiver l)) ∧
      r.blockCounter = s.blockCounter ∧ r.ports = s.ports ∧ r.proposalCounter = s.proposalCounter ∧
      (∀ t : Trunk, let x := s.trunk t
        (x.sel.mode = .disabled → r.trunk t = x) ∧
        (x.sel.mode ≠ .disabled →
          let src := match x.sel.pendingSwitch with
            | some q => q.src
            | none => x.sel.active
          r.trunk t = { x with
            sel := { mode := .starved, active := none, target := none, alignWait := 0, cause := none, causeAfter := []
                     holdOff := .idle, restore := .idle, pendingSwitch := none }
            em := { x.em with centring := false, immediatePending := false, misalign := 0, breakPending := true }
            history := (if x.history.length < 8 then x.history else x.history.drop 1) ++
              [{ time := s.blockCounter, cause := .resume, src := src, dst := none, kind := .nil
                 version := x.charter.version }] } ∧
          (∃ o ∈ more, o.event = .switched t .resume src none .nil x.charter.version) ∧
          (x.sel.mode ≠ .starved → ∃ o ∈ more, o.event = .starved t .resume src))) ∧
      (∀ l : Lane, r.lane l = restarted (s.lane l) ∧
        ((s.lane l).rx.grade ≠ .failed →
          ∃ o ∈ more, o.event = .gradeWorse l (s.lane l).rx.grade .failed .hunt false false)) ∧
      (∀ o ∈ more, o.dest = allPorts ∧ o.time = s.blockCounter ∧ ∀ ms n, o.event ≠ .haltEnded ms n) ∧
      (s.started = true → r.haltCount = s.haltCount + 1 ∧ r.offers = s.offers ++
        { event := .haltEnded (min 65535 ((s.monitor.haltNs + 1000000) / 1000000)) (s.haltCount + 1)
          time := s.blockCounter, block := .timebase, stamp := s.stamp, after := [], dest := allPorts } :: more ∧
        ∀ o ∈ more, s.stamp ∈ o.after) ∧
      (s.started = false → r.haltCount = s.haltCount ∧ r.offers = s.offers ++ more ∧
        ((∀ t : Trunk, (s.trunk t).sel.mode = .disabled) →
          (∀ o ∈ more, o.event.cls = .lane) ∧ r.trunks = s.trunks ∧
          ((∀ l : Lane, s.lane l = restarted (s.lane l)) → more = [] ∧ r.lanes = s.lanes ∧ r.triggers = s.triggers))))

/-- R172, R147, R22, R43, R54, R71, R91, R109, R126: at the fall of RSTn the outputs become quiet and slots and queues empty,
and while it is low no command but the release changes anything, the levels of the PRSTn pins apart. The release leaves every
lane, trunk and port record at the values of the tables of R22, R43, R54, R71, R91, R109, R126 and R147, every bar count 0, the
block, halt and proposal counters 0, and the monitor ABSENT with its halt duration 0, but for the level of each PRSTn pin (log
entry 17). The spec gives no reset value to qualNs, started, triggers, offers, orphans, blockOpen, due, causeAfter, reports,
transaction and psdo: those are the model's (log entry 21; td none is R43's low TD). (Log entry 31: a transaction cut by
RSTn is over.) -/
def Obligations.DeviceResetSetsEveryRecord : Prop :=
  ∀ s : State,
    (s.rstnLow = false → ∃ r, exec .deviceResetAsserted s = .next r ∧ r.rstnLow = true ∧ r.scano = none ∧ r.orphans = [] ∧
      (∀ t : Trunk, (r.trunk t).em.td = none) ∧
      (∀ p : Port, (r.port p).slot = .empty ∧ (r.port p).response = none ∧ (r.port p).queue = [] ∧
        (r.port p).transaction = none ∧ r.pattn p = false) ∧
      r.lanes = s.lanes ∧ r.blockCounter = s.blockCounter ∧ r.haltCount = s.haltCount) ∧
    (s.rstnLow = true → ∀ c : Instr, c ≠ .deviceReset → ∃ r, exec c s = .next r ∧ r = { s with ports := r.ports } ∧
      ∀ p : Port, r.port p = { s.port p with prstnLow := (r.port p).prstnLow }) ∧
    ∃ r, exec .deviceReset s = .next r ∧ r.rstnLow = false ∧ r.started = false ∧
      r.monitor = { state := .absent, qualNs := 0, haltNs := 0 } ∧ r.blockCounter = 0 ∧ r.haltCount = 0 ∧
      r.proposalCounter = 0 ∧ r.scano = none ∧ r.triggers = [] ∧ r.offers = [] ∧ r.orphans = [] ∧
      (∀ l : Lane, r.lane l =
        { rx := { lock := .hunt, syncCount := 0, missCount := 0, expected := none, fillAlarm := false, alarmRun := 0
                  degrade := false, windowPos := 0, windowCount := 0, degradeSet := 16, degradeClear := 2, grade := .failed
                  goodBlocks := 0, checkFailures := 0, sequenceBreaks := 0, fillBlocks := 0, overflowDrops := 0
                  blockOpen := false, due := [] }
          buffer := [], status := .empty, bars := Vector.replicate 4 false }) ∧
      (∀ t : Trunk, r.trunk t =
        { charter := { terms := { members := [], revertive := false, mend := false, holdOff := 0, restoreWait := 0 }
                       version := 0 }
          ballots := Vector.replicate 4 none, favoured := none, hold := none
          sel := { mode := .disabled, active := none, target := none, alignWait := 0, cause := none, causeAfter := []
                   holdOff := .idle, restore := .idle, pendingSwitch := none }
          em := { cursor := 0, centring := false, misalign := 0, gapRun := false, lastEmitted := none, breakPending := false
                  immediatePending := false, td := none
                  counters := { emitted := 0, fromActive := 0, mended := 0, fill := 0, hitless := 0, hit := 0, slips := 0 } }
          history := [], proposal := none, reports := [] }) ∧
      ∀ p : Port, r.barCount p = 0 ∧ r.port p =
        { mode := .offline, session := 0, leaseLength := 1, leaseRemaining := 0, slot := .empty, response := none
          busyDrop := false, queue := [], entryNumber := 0, prstnLow := (s.port p).prstnLow, transaction := none, psdo := []
          subs := { lane := .off, trunk := .off, claim := .off, charter := .off, port := .off, device := .off } }

/-! ## What commands leave unchanged -/

/-- What an event or command can reach, from every state and in every outcome, refusals included. The nine lane events reach one
lane and what it sends and offers. The six trunk events reach one trunk's selection record, emitter, history, dormant mark and
reports, and its members' buffers. The claim commands reach claims and the issuing port; the concurrence commands charters,
proposals, claims, flushed buffers and the issuing port; the commands of the receivers the receiver of the operand's lane when
the issuing port owns it, no other lane, and the issuing port; FETCH, RESPONSE_PLACED, ignored transactions, the release of
PRSTn, ATTACH, RENEW, SUBSCRIBE, NOTIFICATION_OFFER and the queries one port. DETACH, LEASE_EXPIRY and PORT_RESET reach one
port, claims and proposals; DEADLINE_EXPIRY the proposal of one trunk. -/
def Obligations.CommandsReachOnlyTheirRecords : Prop :=
  ∀ (s r : State) (i : Instr), exec i s = .next r →
    (∀ l : Lane, i = .clockLoss l ∨ i = .stuckData l ∨ (∃ c, i = .dataTransition l c) ∨ (∃ w, i = .syncMatch l w) ∨
      (∃ w, i = .expectedPosition l w) ∨ (∃ h d c, i = .blockPosition l h d c) ∨ i = .fillAlarm l ∨
      i = .degradeDeclared l ∨ i = .degradeWindowEnd l → LaneOnly l s r) ∧
    (∀ t : Trunk, i = .emissionInstant t ∨ (∃ n, i = .triggerEvaluation t n) ∨ i = .holdOffExpiry t ∨
      i = .restoreWaitExpiry t ∨ i = .alignWaitExpiry t ∨ i = .alignmentLoss t → TrunkOnly t s r) ∧
    (∀ (p : Port) (tag : Octet) (part : Part) (c : Command), i = c.row p tag part →
      ((∃ t l, c = .ballot t l ∨ c = .hold t l) ∨ (∃ o, c = .release o ∨ c = .bar o ∨ c = .lift o) ∨
        (∃ l j, c = .liftStale l j) → ClaimsOnly p s r) ∧
      ((∃ t n m1 m2 m3 m4 v m h w, c = .propose t n m1 m2 m3 m4 v m h w) ∨
        (∃ t n, c = .concur t n ∨ c = .dissent t n ∨ c = .withdraw t n) → ChartersOnly p s r) ∧
      (∀ o, (∃ a b, c = .setDegrade o a b) ∨ c = .clearLaneCounters o →
        ReceiverOnly p s r ∧ ∀ l : Lane, o.toNat ≠ l.val ∨ l.val / 4 ≠ p.val → r.lane l = s.lane l) ∧
      ((∃ n, c = .attach n) ∨ c = .renew ∨ (∃ a b, c = .subscribe a b) → PortOnly p s r) ∧
      (c = .queryDevice ∨ c = .queryPorts ∨ (∃ o, c = .queryLane o ∨ c = .queryTrunk o ∨ c = .queryHistory o) →
        PortOnly p { s with orphans := r.orphans } r) ∧
      (c = .detach → DepartureOnly p s r)) ∧
    (∀ p : Port, (∃ f, i = .fetch p f) ∨ i = .responsePlaced p ∨ i = .portResetRelease p ∨
      (∃ n, i = .notificationOffer p n) ∨ (∃ os, i = .ignoredTransaction p os ∧ os.head? ≠ some 0xA5) → PortOnly p s r) ∧
    (∀ p : Port, i = .leaseExpiry p ∨ i = .portReset p → DepartureOnly p s r) ∧
    ∀ t : Trunk, i = .deadlineExpiry t → r = { s with trunks := r.trunks, offers := r.offers, stamp := r.stamp } ∧
      (∀ k ≠ t, r.trunk k = s.trunk k) ∧ r.trunk t = { s.trunk t with proposal := (r.trunk t).proposal }

/-! ## The laws every step keeps -/

/-- R160, R154, R127: every step keeps the law of the ports: a queue holds at most 32 entries, the 32nd being a LOST marker, the
queue of an OFFLINE port is empty, and the lease remaining is 0 at a port that is not ATTACHED and never more than the lease. -/
def Obligations.EveryStepKeepsPortLaws : Prop :=
  ∀ s r : State, s.QueueLaw ∧ s.LeaseLaw → step s = .next r → r.QueueLaw ∧ r.LeaseLaw

/-- R46, R48, R59, R63, R58, R124: every step keeps the laws of charters, claims and proposals together: charters installed and
proposed are valid and no lane is named by two trunks; a ballot names a member and belongs to an ATTACHED port; a hold names a
member and its owner is ATTACHED in the session it records; the favoured lane is the one the ballots give; a proposal's
concurred set contains the proposer and is a proper subset of its required set, whose ports are ATTACHED. -/
def Obligations.EveryStepKeepsClaimAndProposalLaws : Prop :=
  ∀ s r : State, s.MembershipLaw ∧ s.BallotLaw ∧ s.HoldLaw ∧ s.FavouredLaw ∧ s.ProposalLaw → step s = .next r →
    r.MembershipLaw ∧ r.BallotLaw ∧ r.HoldLaw ∧ r.FavouredLaw ∧ r.ProposalLaw

/-- R89, R72: every step keeps the law of the trunk states, with the laws of membership and of holds it rests on: at every trunk
with no trigger outstanding, DISABLED exactly when its charter is empty, the active lane a member without bars, the target
another member without bars. -/
def Obligations.EveryStepKeepsTrunkLaws : Prop :=
  ∀ s r : State, s.MembershipLaw ∧ s.HoldLaw ∧ s.SelectionLaw ∧ s.TrunkLaw → step s = .next r →
    r.MembershipLaw ∧ r.HoldLaw ∧ r.SelectionLaw ∧ r.TrunkLaw

/-- R41, R29, R92: every step keeps the law of the emitters: the emitted count is the sum of the from-active, mended and fill
counts modulo 2^32, the misalignment run is below 4, and the history holds at most 8 records. -/
def Obligations.EveryStepKeepsEmitterLaws : Prop :=
  ∀ s r : State, s.CounterLaw ∧ s.MisalignLaw ∧ s.HistoryLaw → step s = .next r →
    r.CounterLaw ∧ r.MisalignLaw ∧ r.HistoryLaw

/-- R4, R18, R24: every step keeps the law of the lanes: the ranges and dependences of the receiver record, the grade being
that of the table once the latest block position is complete, at most 8 blocks in a buffer, and none in that of a lane of no
charter. -/
def Obligations.EveryStepKeepsLaneLaws : Prop :=
  ∀ s r : State, s.ReceiverLaw ∧ s.GradeLaw ∧ s.BufferLaw → step s = .next r → r.ReceiverLaw ∧ r.GradeLaw ∧ r.BufferLaw

/-- The laws hold right after device reset. -/
def Obligations.LawsHoldAtReset : Prop :=
  let s := State.reset
  s.QueueLaw ∧ s.LeaseLaw ∧ s.MembershipLaw ∧ s.BallotLaw ∧ s.HoldLaw ∧ s.FavouredLaw ∧ s.ProposalLaw ∧ s.SelectionLaw ∧
    s.TrunkLaw ∧ s.CounterLaw ∧ s.MisalignLaw ∧ s.HistoryLaw ∧ s.ReceiverLaw ∧ s.GradeLaw ∧ s.BufferLaw
end

