-- ==== Sys2Proof/Laws/Checks.lean ====
section
/-! SUPPORT. The octet-wise checks of blocks and frames take, octet by octet, the steps of the bit-serial definition of a CRC
(R2, R130). -/

namespace Sys2Proof.Machine

/-- A register step with a word y added to the register first: y's top bit is the bit read, the rest moves up and stays added. -/
theorem serialBit_add {w : Nat} {generator r y rest top : BitVec w} {bit : Bool} (top_msb : top.msb = true)
    (top_out : top <<< 1 = 0#w) (split : y = (if bit then top else 0#w) ^^^ rest) (rest_msb : rest.msb = false) :
    (if (r ^^^ y).msb then ((r ^^^ y) <<< 1) ^^^ generator else (r ^^^ y) <<< 1) =
      serialBit generator r bit ^^^ (rest <<< 1) := by
  subst split
  unfold serialBit
  simp only [BitVec.shiftLeft_xor_distrib, BitVec.msb_xor, rest_msb]
  cases bit <;> cases h : r.msb <;> simp [top_msb, top_out, BitVec.xor_assoc, BitVec.xor_comm (rest <<< 1)]

/-- One octet of the block check reads the octet's eight bits (R2). -/
theorem crc16Octet_serial (r : Pair) (o : Octet) : crc16Octet r o = (bitsOf o).foldl (serialBit 0x1021) r := by
  let y : Nat → Pair := fun k => o.zeroExtend 16 <<< (8 + k)
  have parts : ∀ o : Octet, ∀ k < 8,
      let y := o.zeroExtend 16 <<< (8 + k)
      y = (if o.getLsbD (7 - k) then 0x8000#16 else 0#16) ^^^ (y &&& 0x7FFF#16) ∧ (y &&& 0x7FFF#16).msb = false ∧
        (y &&& 0x7FFF#16) <<< 1 = o.zeroExtend 16 <<< (8 + (k + 1)) := by decide +kernel
  have one : ∀ k < 8, ∀ r : Pair, crc16Bit (r ^^^ y k) = serialBit 0x1021 r (o.getLsbD (7 - k)) ^^^ y (k + 1) := by
    intro k hk r
    obtain ⟨split, rest_msb, moved⟩ := parts o k hk
    show _ = _ ^^^ o.zeroExtend 16 <<< (8 + (k + 1))
    rw [← moved]
    exact serialBit_add (top := 0x8000#16) (by decide) (by decide) split rest_msb
  have last : y 8 = 0#16 := (by decide +kernel : ∀ o : Octet, o.zeroExtend 16 <<< (8 + 8) = 0#16) o
  show crc16Bit (crc16Bit (crc16Bit (crc16Bit (crc16Bit (crc16Bit (crc16Bit (crc16Bit (r ^^^ y 0)))))))) = _
  rw [one 0, one 1, one 2, one 3, one 4, one 5, one 6, one 7, last, BitVec.xor_zero] <;>
    first | decide | simp [bitsOf, List.range, List.range.loop]

/-- One octet of the frame check reads the octet's eight bits (R130). -/
theorem crc8Octet_serial (r o : Octet) : crc8Octet r o = (bitsOf o).foldl (serialBit 0x07) r := by
  have parts : ∀ o : Octet, ∀ k < 8,
      o <<< k = (if o.getLsbD (7 - k) then 0x80#8 else 0#8) ^^^ ((o <<< k) &&& 0x7F#8) ∧
        ((o <<< k) &&& 0x7F#8).msb = false ∧ ((o <<< k) &&& 0x7F#8) <<< 1 = o <<< (k + 1) := by decide +kernel
  have one : ∀ k < 8, ∀ r : Octet, crc8Bit (r ^^^ o <<< k) = serialBit 0x07 r (o.getLsbD (7 - k)) ^^^ o <<< (k + 1) := by
    intro k hk r
    obtain ⟨split, rest_msb, moved⟩ := parts o k hk
    rw [← moved]
    exact serialBit_add (top := 0x80#8) (by decide) (by decide) split rest_msb
  have last : o <<< 8 = 0#8 := (by decide +kernel : ∀ o : Octet, o <<< 8 = 0#8) o
  unfold crc8Octet
  rw [← BitVec.shiftLeft_zero o, one 0, one 1, one 2, one 3, one 4, one 5, one 6, one 7, last, BitVec.xor_zero] <;>
    first | decide | simp [bitsOf, List.range, List.range.loop]

/-- A fold over octets whose every step is a fold over the octet's parts is one fold over all the parts. -/
theorem foldl_flatMap_of {α β γ : Type} {step : γ → β → γ} {parts : α → List β} {whole : γ → α → γ}
    (each : ∀ r a, whole r a = (parts a).foldl step r) (l : List α) (r : γ) :
    l.foldl whole r = (l.flatMap parts).foldl step r := by
  induction l generalizing r with
  | nil => rfl
  | cons a l ih => rw [List.foldl_cons, List.flatMap_cons, List.foldl_append, ih, each]

end Sys2Proof.Machine
end

