-- ==== Sys2Proof/Laws/State.lean ====
section
/-! SUPPORT. The small lemmas of the record operations: what reading a field gives after each update (for every field of the
state and every update of Machine/Ops.lean, true by rfl), and reading a lane, a trunk or a port back. -/

namespace Sys2Proof.Machine

/-! ## Updates of a record are replacements of it -/

@[simp] theorem modLane_eq (s : State) (l : Lane) (f : LaneState → LaneState) :
    s.modLane l f = s.setLane l (f (s.lane l)) := rfl
@[simp] theorem modTrunk_eq (s : State) (t : Trunk) (f : TrunkState → TrunkState) :
    s.modTrunk t f = s.setTrunk t (f (s.trunk t)) := rfl
@[simp] theorem modPort_eq (s : State) (p : Port) (f : PortState → PortState) :
    s.modPort p f = s.setPort p (f (s.port p)) := rfl
@[simp] theorem modRx_eq (s : State) (l : Lane) (f : Receiver → Receiver) :
    s.modRx l f = s.setLane l { s.lane l with rx := f (s.lane l).rx } := rfl
@[simp] theorem modSel_eq (s : State) (t : Trunk) (f : Selection → Selection) :
    s.modSel t f = s.setTrunk t { s.trunk t with sel := f (s.trunk t).sel } := rfl
@[simp] theorem modEm_eq (s : State) (t : Trunk) (f : Emitter → Emitter) :
    s.modEm t f = s.setTrunk t { s.trunk t with em := f (s.trunk t).em } := rfl
@[simp] theorem offer_eq (s : State) (dest : List Port) (b : Block) (after : List Nat) (e : Event) :
    s.offer dest b after e = (s.offerHere dest b after e).tick := rfl

/-! ## Reading a record back -/

theorem lane_setLane (s : State) (l l' : Lane) (x : LaneState) :
    (s.setLane l x).lane l' = if l' = l then x else s.lane l' := by
  simp only [State.setLane, State.lane, Vector.getElem_set, Fin.ext_iff]
  split <;> split <;> first | rfl | omega

theorem trunk_setTrunk (s : State) (t t' : Trunk) (x : TrunkState) :
    (s.setTrunk t x).trunk t' = if t' = t then x else s.trunk t' := by
  simp only [State.setTrunk, State.trunk, Vector.getElem_set, Fin.ext_iff]
  split <;> split <;> first | rfl | omega

theorem port_setPort (s : State) (p p' : Port) (x : PortState) :
    (s.setPort p x).port p' = if p' = p then x else s.port p' := by
  simp only [State.setPort, State.port, Vector.getElem_set, Fin.ext_iff]
  split <;> split <;> first | rfl | omega

@[simp] theorem lane_setLane_self (s : State) (l : Lane) (x : LaneState) : (s.setLane l x).lane l = x := by
  simp [lane_setLane]
@[simp] theorem trunk_setTrunk_self (s : State) (t : Trunk) (x : TrunkState) : (s.setTrunk t x).trunk t = x := by
  simp [trunk_setTrunk]
@[simp] theorem port_setPort_self (s : State) (p : Port) (x : PortState) : (s.setPort p x).port p = x := by
  simp [port_setPort]

@[simp] theorem lane_setLane_ne (s : State) {l l' : Lane} (x : LaneState) (h : l' ≠ l) :
    (s.setLane l x).lane l' = s.lane l' := by simp [lane_setLane, h]
@[simp] theorem trunk_setTrunk_ne (s : State) {t t' : Trunk} (x : TrunkState) (h : t' ≠ t) :
    (s.setTrunk t x).trunk t' = s.trunk t' := by simp [trunk_setTrunk, h]
@[simp] theorem port_setPort_ne (s : State) {p p' : Port} (x : PortState) (h : p' ≠ p) :
    (s.setPort p x).port p' = s.port p' := by simp [port_setPort, h]

@[simp] theorem setTrunk_setTrunk (s : State) (t : Trunk) (x y : TrunkState) :
    (s.setTrunk t x).setTrunk t y = s.setTrunk t y := by simp [State.setTrunk]
@[simp] theorem setPort_setPort (s : State) (p : Port) (x y : PortState) :
    (s.setPort p x).setPort p y = s.setPort p y := by simp [State.setPort]
@[simp] theorem setLane_setLane (s : State) (l : Lane) (x y : LaneState) :
    (s.setLane l x).setLane l y = s.setLane l y := by simp [State.setLane]

@[simp] theorem setTrunk_trunk_self (s : State) (t : Trunk) : s.setTrunk t (s.trunk t) = s := by
  simp [State.setTrunk, State.trunk]
@[simp] theorem setLane_lane_self (s : State) (l : Lane) : s.setLane l (s.lane l) = s := by
  simp [State.setLane, State.lane]
@[simp] theorem setPort_port_self (s : State) (p : Port) : s.setPort p (s.port p) = s := by
  simp [State.setPort, State.port]

/-! ## The other fields -/


@[simp] theorem setLane_rstnLow (s : State) (l : Lane) (x : LaneState) : (s.setLane l x).rstnLow = s.rstnLow := rfl
@[simp] theorem setLane_started (s : State) (l : Lane) (x : LaneState) : (s.setLane l x).started = s.started := rfl
@[simp] theorem setLane_monitor (s : State) (l : Lane) (x : LaneState) : (s.setLane l x).monitor = s.monitor := rfl
@[simp] theorem setLane_blockCounter (s : State) (l : Lane) (x : LaneState) : (s.setLane l x).blockCounter = s.blockCounter := rfl
@[simp] theorem setLane_haltCount (s : State) (l : Lane) (x : LaneState) : (s.setLane l x).haltCount = s.haltCount := rfl
@[simp] theorem setLane_instantTaken (s : State) (l : Lane) (x : LaneState) : (s.setLane l x).instantTaken = s.instantTaken := rfl
@[simp] theorem setLane_scanCaptured (s : State) (l : Lane) (x : LaneState) : (s.setLane l x).scanCaptured = s.scanCaptured := rfl
@[simp] theorem setLane_scano (s : State) (l : Lane) (x : LaneState) : (s.setLane l x).scano = s.scano := rfl
@[simp] theorem setLane_trunks (s : State) (l : Lane) (x : LaneState) : (s.setLane l x).trunks = s.trunks := rfl
@[simp] theorem setLane_ports (s : State) (l : Lane) (x : LaneState) : (s.setLane l x).ports = s.ports := rfl
@[simp] theorem setLane_proposalCounter (s : State) (l : Lane) (x : LaneState) : (s.setLane l x).proposalCounter = s.proposalCounter := rfl
@[simp] theorem setLane_orphans (s : State) (l : Lane) (x : LaneState) : (s.setLane l x).orphans = s.orphans := rfl
@[simp] theorem setLane_triggers (s : State) (l : Lane) (x : LaneState) : (s.setLane l x).triggers = s.triggers := rfl
@[simp] theorem setLane_offers (s : State) (l : Lane) (x : LaneState) : (s.setLane l x).offers = s.offers := rfl
@[simp] theorem setLane_stamp (s : State) (l : Lane) (x : LaneState) : (s.setLane l x).stamp = s.stamp := rfl
@[simp] theorem setLane_freeCount (s : State) (l : Lane) (x : LaneState) : (s.setLane l x).freeCount = s.freeCount := rfl
@[simp] theorem setLane_pending (s : State) (l : Lane) (x : LaneState) : (s.setLane l x).pending = s.pending := rfl
@[simp] theorem setLane_trunk (s : State) (l : Lane) (x : LaneState) (i : Trunk) : (s.setLane l x).trunk i = s.trunk i := rfl
@[simp] theorem setLane_port (s : State) (l : Lane) (x : LaneState) (i : Port) : (s.setLane l x).port i = s.port i := rfl

@[simp] theorem setTrunk_rstnLow (s : State) (t : Trunk) (x : TrunkState) : (s.setTrunk t x).rstnLow = s.rstnLow := rfl
@[simp] theorem setTrunk_started (s : State) (t : Trunk) (x : TrunkState) : (s.setTrunk t x).started = s.started := rfl
@[simp] theorem setTrunk_monitor (s : State) (t : Trunk) (x : TrunkState) : (s.setTrunk t x).monitor = s.monitor := rfl
@[simp] theorem setTrunk_blockCounter (s : State) (t : Trunk) (x : TrunkState) : (s.setTrunk t x).blockCounter = s.blockCounter := rfl
@[simp] theorem setTrunk_haltCount (s : State) (t : Trunk) (x : TrunkState) : (s.setTrunk t x).haltCount = s.haltCount := rfl
@[simp] theorem setTrunk_instantTaken (s : State) (t : Trunk) (x : TrunkState) : (s.setTrunk t x).instantTaken = s.instantTaken := rfl
@[simp] theorem setTrunk_scanCaptured (s : State) (t : Trunk) (x : TrunkState) : (s.setTrunk t x).scanCaptured = s.scanCaptured := rfl
@[simp] theorem setTrunk_scano (s : State) (t : Trunk) (x : TrunkState) : (s.setTrunk t x).scano = s.scano := rfl
@[simp] theorem setTrunk_lanes (s : State) (t : Trunk) (x : TrunkState) : (s.setTrunk t x).lanes = s.lanes := rfl
@[simp] theorem setTrunk_ports (s : State) (t : Trunk) (x : TrunkState) : (s.setTrunk t x).ports = s.ports := rfl
@[simp] theorem setTrunk_proposalCounter (s : State) (t : Trunk) (x : TrunkState) : (s.setTrunk t x).proposalCounter = s.proposalCounter := rfl
@[simp] theorem setTrunk_orphans (s : State) (t : Trunk) (x : TrunkState) : (s.setTrunk t x).orphans = s.orphans := rfl
@[simp] theorem setTrunk_triggers (s : State) (t : Trunk) (x : TrunkState) : (s.setTrunk t x).triggers = s.triggers := rfl
@[simp] theorem setTrunk_offers (s : State) (t : Trunk) (x : TrunkState) : (s.setTrunk t x).offers = s.offers := rfl
@[simp] theorem setTrunk_stamp (s : State) (t : Trunk) (x : TrunkState) : (s.setTrunk t x).stamp = s.stamp := rfl
@[simp] theorem setTrunk_freeCount (s : State) (t : Trunk) (x : TrunkState) : (s.setTrunk t x).freeCount = s.freeCount := rfl
@[simp] theorem setTrunk_pending (s : State) (t : Trunk) (x : TrunkState) : (s.setTrunk t x).pending = s.pending := rfl
@[simp] theorem setTrunk_lane (s : State) (t : Trunk) (x : TrunkState) (i : Lane) : (s.setTrunk t x).lane i = s.lane i := rfl
@[simp] theorem setTrunk_port (s : State) (t : Trunk) (x : TrunkState) (i : Port) : (s.setTrunk t x).port i = s.port i := rfl

@[simp] theorem setPort_rstnLow (s : State) (p : Port) (x : PortState) : (s.setPort p x).rstnLow = s.rstnLow := rfl
@[simp] theorem setPort_started (s : State) (p : Port) (x : PortState) : (s.setPort p x).started = s.started := rfl
@[simp] theorem setPort_monitor (s : State) (p : Port) (x : PortState) : (s.setPort p x).monitor = s.monitor := rfl
@[simp] theorem setPort_blockCounter (s : State) (p : Port) (x : PortState) : (s.setPort p x).blockCounter = s.blockCounter := rfl
@[simp] theorem setPort_haltCount (s : State) (p : Port) (x : PortState) : (s.setPort p x).haltCount = s.haltCount := rfl
@[simp] theorem setPort_instantTaken (s : State) (p : Port) (x : PortState) : (s.setPort p x).instantTaken = s.instantTaken := rfl
@[simp] theorem setPort_scanCaptured (s : State) (p : Port) (x : PortState) : (s.setPort p x).scanCaptured = s.scanCaptured := rfl
@[simp] theorem setPort_scano (s : State) (p : Port) (x : PortState) : (s.setPort p x).scano = s.scano := rfl
@[simp] theorem setPort_lanes (s : State) (p : Port) (x : PortState) : (s.setPort p x).lanes = s.lanes := rfl
@[simp] theorem setPort_trunks (s : State) (p : Port) (x : PortState) : (s.setPort p x).trunks = s.trunks := rfl
@[simp] theorem setPort_proposalCounter (s : State) (p : Port) (x : PortState) : (s.setPort p x).proposalCounter = s.proposalCounter := rfl
@[simp] theorem setPort_orphans (s : State) (p : Port) (x : PortState) : (s.setPort p x).orphans = s.orphans := rfl
@[simp] theorem setPort_triggers (s : State) (p : Port) (x : PortState) : (s.setPort p x).triggers = s.triggers := rfl
@[simp] theorem setPort_offers (s : State) (p : Port) (x : PortState) : (s.setPort p x).offers = s.offers := rfl
@[simp] theorem setPort_stamp (s : State) (p : Port) (x : PortState) : (s.setPort p x).stamp = s.stamp := rfl
@[simp] theorem setPort_freeCount (s : State) (p : Port) (x : PortState) : (s.setPort p x).freeCount = s.freeCount := rfl
@[simp] theorem setPort_pending (s : State) (p : Port) (x : PortState) : (s.setPort p x).pending = s.pending := rfl
@[simp] theorem setPort_lane (s : State) (p : Port) (x : PortState) (i : Lane) : (s.setPort p x).lane i = s.lane i := rfl
@[simp] theorem setPort_trunk (s : State) (p : Port) (x : PortState) (i : Trunk) : (s.setPort p x).trunk i = s.trunk i := rfl

@[simp] theorem offerHere_rstnLow (s : State) (dest : List Port) (b : Block) (after : List Nat) (e : Event) : (s.offerHere dest b after e).rstnLow = s.rstnLow := rfl
@[simp] theorem offerHere_started (s : State) (dest : List Port) (b : Block) (after : List Nat) (e : Event) : (s.offerHere dest b after e).started = s.started := rfl
@[simp] theorem offerHere_monitor (s : State) (dest : List Port) (b : Block) (after : List Nat) (e : Event) : (s.offerHere dest b after e).monitor = s.monitor := rfl
@[simp] theorem offerHere_blockCounter (s : State) (dest : List Port) (b : Block) (after : List Nat) (e : Event) : (s.offerHere dest b after e).blockCounter = s.blockCounter := rfl
@[simp] theorem offerHere_haltCount (s : State) (dest : List Port) (b : Block) (after : List Nat) (e : Event) : (s.offerHere dest b after e).haltCount = s.haltCount := rfl
@[simp] theorem offerHere_instantTaken (s : State) (dest : List Port) (b : Block) (after : List Nat) (e : Event) : (s.offerHere dest b after e).instantTaken = s.instantTaken := rfl
@[simp] theorem offerHere_scanCaptured (s : State) (dest : List Port) (b : Block) (after : List Nat) (e : Event) : (s.offerHere dest b after e).scanCaptured = s.scanCaptured := rfl
@[simp] theorem offerHere_scano (s : State) (dest : List Port) (b : Block) (after : List Nat) (e : Event) : (s.offerHere dest b after e).scano = s.scano := rfl
@[simp] theorem offerHere_lanes (s : State) (dest : List Port) (b : Block) (after : List Nat) (e : Event) : (s.offerHere dest b after e).lanes = s.lanes := rfl
@[simp] theorem offerHere_trunks (s : State) (dest : List Port) (b : Block) (after : List Nat) (e : Event) : (s.offerHere dest b after e).trunks = s.trunks := rfl
@[simp] theorem offerHere_ports (s : State) (dest : List Port) (b : Block) (after : List Nat) (e : Event) : (s.offerHere dest b after e).ports = s.ports := rfl
@[simp] theorem offerHere_proposalCounter (s : State) (dest : List Port) (b : Block) (after : List Nat) (e : Event) : (s.offerHere dest b after e).proposalCounter = s.proposalCounter := rfl
@[simp] theorem offerHere_orphans (s : State) (dest : List Port) (b : Block) (after : List Nat) (e : Event) : (s.offerHere dest b after e).orphans = s.orphans := rfl
@[simp] theorem offerHere_triggers (s : State) (dest : List Port) (b : Block) (after : List Nat) (e : Event) : (s.offerHere dest b after e).triggers = s.triggers := rfl
@[simp] theorem offerHere_stamp (s : State) (dest : List Port) (b : Block) (after : List Nat) (e : Event) : (s.offerHere dest b after e).stamp = s.stamp := rfl
@[simp] theorem offerHere_freeCount (s : State) (dest : List Port) (b : Block) (after : List Nat) (e : Event) : (s.offerHere dest b after e).freeCount = s.freeCount := rfl
@[simp] theorem offerHere_pending (s : State) (dest : List Port) (b : Block) (after : List Nat) (e : Event) : (s.offerHere dest b after e).pending = s.pending := rfl
@[simp] theorem offerHere_lane (s : State) (dest : List Port) (b : Block) (after : List Nat) (e : Event) (i : Lane) : (s.offerHere dest b after e).lane i = s.lane i := rfl
@[simp] theorem offerHere_trunk (s : State) (dest : List Port) (b : Block) (after : List Nat) (e : Event) (i : Trunk) : (s.offerHere dest b after e).trunk i = s.trunk i := rfl
@[simp] theorem offerHere_port (s : State) (dest : List Port) (b : Block) (after : List Nat) (e : Event) (i : Port) : (s.offerHere dest b after e).port i = s.port i := rfl

@[simp] theorem tick_rstnLow (s : State) : (s.tick).rstnLow = s.rstnLow := rfl
@[simp] theorem tick_started (s : State) : (s.tick).started = s.started := rfl
@[simp] theorem tick_monitor (s : State) : (s.tick).monitor = s.monitor := rfl
@[simp] theorem tick_blockCounter (s : State) : (s.tick).blockCounter = s.blockCounter := rfl
@[simp] theorem tick_haltCount (s : State) : (s.tick).haltCount = s.haltCount := rfl
@[simp] theorem tick_instantTaken (s : State) : (s.tick).instantTaken = s.instantTaken := rfl
@[simp] theorem tick_scanCaptured (s : State) : (s.tick).scanCaptured = s.scanCaptured := rfl
@[simp] theorem tick_scano (s : State) : (s.tick).scano = s.scano := rfl
@[simp] theorem tick_lanes (s : State) : (s.tick).lanes = s.lanes := rfl
@[simp] theorem tick_trunks (s : State) : (s.tick).trunks = s.trunks := rfl
@[simp] theorem tick_ports (s : State) : (s.tick).ports = s.ports := rfl
@[simp] theorem tick_proposalCounter (s : State) : (s.tick).proposalCounter = s.proposalCounter := rfl
@[simp] theorem tick_orphans (s : State) : (s.tick).orphans = s.orphans := rfl
@[simp] theorem tick_triggers (s : State) : (s.tick).triggers = s.triggers := rfl
@[simp] theorem tick_offers (s : State) : (s.tick).offers = s.offers := rfl
@[simp] theorem tick_freeCount (s : State) : (s.tick).freeCount = s.freeCount := rfl
@[simp] theorem tick_pending (s : State) : (s.tick).pending = s.pending := rfl
@[simp] theorem tick_lane (s : State) (i : Lane) : (s.tick).lane i = s.lane i := rfl
@[simp] theorem tick_trunk (s : State) (i : Trunk) : (s.tick).trunk i = s.trunk i := rfl
@[simp] theorem tick_port (s : State) (i : Port) : (s.tick).port i = s.port i := rfl

@[simp] theorem send_rstnLow (s : State) (t : Trunk) (k : TriggerKind) (b : Block) (after : List Nat) : (s.send t k b after).rstnLow = s.rstnLow := rfl
@[simp] theorem send_started (s : State) (t : Trunk) (k : TriggerKind) (b : Block) (after : List Nat) : (s.send t k b after).started = s.started := rfl
@[simp] theorem send_monitor (s : State) (t : Trunk) (k : TriggerKind) (b : Block) (after : List Nat) : (s.send t k b after).monitor = s.monitor := rfl
@[simp] theorem send_blockCounter (s : State) (t : Trunk) (k : TriggerKind) (b : Block) (after : List Nat) : (s.send t k b after).blockCounter = s.blockCounter := rfl
@[simp] theorem send_haltCount (s : State) (t : Trunk) (k : TriggerKind) (b : Block) (after : List Nat) : (s.send t k b after).haltCount = s.haltCount := rfl
@[simp] theorem send_instantTaken (s : State) (t : Trunk) (k : TriggerKind) (b : Block) (after : List Nat) : (s.send t k b after).instantTaken = s.instantTaken := rfl
@[simp] theorem send_scanCaptured (s : State) (t : Trunk) (k : TriggerKind) (b : Block) (after : List Nat) : (s.send t k b after).scanCaptured = s.scanCaptured := rfl
@[simp] theorem send_scano (s : State) (t : Trunk) (k : TriggerKind) (b : Block) (after : List Nat) : (s.send t k b after).scano = s.scano := rfl
@[simp] theorem send_lanes (s : State) (t : Trunk) (k : TriggerKind) (b : Block) (after : List Nat) : (s.send t k b after).lanes = s.lanes := rfl
@[simp] theorem send_trunks (s : State) (t : Trunk) (k : TriggerKind) (b : Block) (after : List Nat) : (s.send t k b after).trunks = s.trunks := rfl
@[simp] theorem send_ports (s : State) (t : Trunk) (k : TriggerKind) (b : Block) (after : List Nat) : (s.send t k b after).ports = s.ports := rfl
@[simp] theorem send_proposalCounter (s : State) (t : Trunk) (k : TriggerKind) (b : Block) (after : List Nat) : (s.send t k b after).proposalCounter = s.proposalCounter := rfl
@[simp] theorem send_orphans (s : State) (t : Trunk) (k : TriggerKind) (b : Block) (after : List Nat) : (s.send t k b after).orphans = s.orphans := rfl
@[simp] theorem send_offers (s : State) (t : Trunk) (k : TriggerKind) (b : Block) (after : List Nat) : (s.send t k b after).offers = s.offers := rfl
@[simp] theorem send_freeCount (s : State) (t : Trunk) (k : TriggerKind) (b : Block) (after : List Nat) : (s.send t k b after).freeCount = s.freeCount := rfl
@[simp] theorem send_pending (s : State) (t : Trunk) (k : TriggerKind) (b : Block) (after : List Nat) : (s.send t k b after).pending = s.pending := rfl
@[simp] theorem send_lane (s : State) (t : Trunk) (k : TriggerKind) (b : Block) (after : List Nat) (i : Lane) : (s.send t k b after).lane i = s.lane i := rfl
@[simp] theorem send_trunk (s : State) (t : Trunk) (k : TriggerKind) (b : Block) (after : List Nat) (i : Trunk) : (s.send t k b after).trunk i = s.trunk i := rfl
@[simp] theorem send_port (s : State) (t : Trunk) (k : TriggerKind) (b : Block) (after : List Nat) (i : Port) : (s.send t k b after).port i = s.port i := rfl

@[simp] theorem dropOffer_rstnLow (s : State) (p : Port) (o : Offer) : (s.dropOffer p o).rstnLow = s.rstnLow := rfl
@[simp] theorem dropOffer_started (s : State) (p : Port) (o : Offer) : (s.dropOffer p o).started = s.started := rfl
@[simp] theorem dropOffer_monitor (s : State) (p : Port) (o : Offer) : (s.dropOffer p o).monitor = s.monitor := rfl
@[simp] theorem dropOffer_blockCounter (s : State) (p : Port) (o : Offer) : (s.dropOffer p o).blockCounter = s.blockCounter := rfl
@[simp] theorem dropOffer_haltCount (s : State) (p : Port) (o : Offer) : (s.dropOffer p o).haltCount = s.haltCount := rfl
@[simp] theorem dropOffer_instantTaken (s : State) (p : Port) (o : Offer) : (s.dropOffer p o).instantTaken = s.instantTaken := rfl
@[simp] theorem dropOffer_scanCaptured (s : State) (p : Port) (o : Offer) : (s.dropOffer p o).scanCaptured = s.scanCaptured := rfl
@[simp] theorem dropOffer_scano (s : State) (p : Port) (o : Offer) : (s.dropOffer p o).scano = s.scano := rfl
@[simp] theorem dropOffer_lanes (s : State) (p : Port) (o : Offer) : (s.dropOffer p o).lanes = s.lanes := rfl
@[simp] theorem dropOffer_trunks (s : State) (p : Port) (o : Offer) : (s.dropOffer p o).trunks = s.trunks := rfl
@[simp] theorem dropOffer_ports (s : State) (p : Port) (o : Offer) : (s.dropOffer p o).ports = s.ports := rfl
@[simp] theorem dropOffer_proposalCounter (s : State) (p : Port) (o : Offer) : (s.dropOffer p o).proposalCounter = s.proposalCounter := rfl
@[simp] theorem dropOffer_orphans (s : State) (p : Port) (o : Offer) : (s.dropOffer p o).orphans = s.orphans := rfl
@[simp] theorem dropOffer_triggers (s : State) (p : Port) (o : Offer) : (s.dropOffer p o).triggers = s.triggers := rfl
@[simp] theorem dropOffer_stamp (s : State) (p : Port) (o : Offer) : (s.dropOffer p o).stamp = s.stamp := rfl
@[simp] theorem dropOffer_freeCount (s : State) (p : Port) (o : Offer) : (s.dropOffer p o).freeCount = s.freeCount := rfl
@[simp] theorem dropOffer_pending (s : State) (p : Port) (o : Offer) : (s.dropOffer p o).pending = s.pending := rfl
@[simp] theorem dropOffer_lane (s : State) (p : Port) (o : Offer) (i : Lane) : (s.dropOffer p o).lane i = s.lane i := rfl
@[simp] theorem dropOffer_trunk (s : State) (p : Port) (o : Offer) (i : Trunk) : (s.dropOffer p o).trunk i = s.trunk i := rfl
@[simp] theorem dropOffer_port (s : State) (p : Port) (o : Offer) (i : Port) : (s.dropOffer p o).port i = s.port i := rfl

@[simp] theorem tick_stamp (s : State) : s.tick.stamp = s.stamp + 1 := rfl
@[simp] theorem send_stamp (s : State) (t : Trunk) (k : TriggerKind) (b : Block) (after : List Nat) :
    (s.send t k b after).stamp = s.stamp + 1 := rfl
@[simp] theorem send_triggers (s : State) (t : Trunk) (k : TriggerKind) (b : Block) (after : List Nat) :
    (s.send t k b after).triggers = s.triggers ++ [⟨t, k, b, s.stamp, after⟩] := rfl
@[simp] theorem offerHere_offers (s : State) (dest : List Port) (b : Block) (after : List Nat) (e : Event) :
    (s.offerHere dest b after e).offers = s.offers ++ [⟨e, s.blockCounter, b, s.stamp, after, dest⟩] := rfl

/-! ## Replacing a record after an offer or a trigger is replacing it before -/

@[simp] theorem offerHere_setLane (s : State) (dest : List Port) (b : Block) (after : List Nat) (e : Event) (i : Lane) (x : LaneState) :
    (s.offerHere dest b after e).setLane i x = (s.setLane i x).offerHere dest b after e := rfl
@[simp] theorem offerHere_setTrunk (s : State) (dest : List Port) (b : Block) (after : List Nat) (e : Event) (i : Trunk) (x : TrunkState) :
    (s.offerHere dest b after e).setTrunk i x = (s.setTrunk i x).offerHere dest b after e := rfl
@[simp] theorem offerHere_setPort (s : State) (dest : List Port) (b : Block) (after : List Nat) (e : Event) (i : Port) (x : PortState) :
    (s.offerHere dest b after e).setPort i x = (s.setPort i x).offerHere dest b after e := rfl
@[simp] theorem tick_setLane (s : State) (i : Lane) (x : LaneState) :
    (s.tick).setLane i x = (s.setLane i x).tick := rfl
@[simp] theorem tick_setTrunk (s : State) (i : Trunk) (x : TrunkState) :
    (s.tick).setTrunk i x = (s.setTrunk i x).tick := rfl
@[simp] theorem tick_setPort (s : State) (i : Port) (x : PortState) :
    (s.tick).setPort i x = (s.setPort i x).tick := rfl
@[simp] theorem send_setLane (s : State) (t : Trunk) (k : TriggerKind) (b : Block) (after : List Nat) (i : Lane) (x : LaneState) :
    (s.send t k b after).setLane i x = (s.setLane i x).send t k b after := rfl
@[simp] theorem send_setTrunk (s : State) (t : Trunk) (k : TriggerKind) (b : Block) (after : List Nat) (i : Trunk) (x : TrunkState) :
    (s.send t k b after).setTrunk i x = (s.setTrunk i x).send t k b after := rfl
@[simp] theorem send_setPort (s : State) (t : Trunk) (k : TriggerKind) (b : Block) (after : List Nat) (i : Port) (x : PortState) :
    (s.send t k b after).setPort i x = (s.setPort i x).send t k b after := rfl

/-! ## The offers a block has made -/

@[simp] theorem setLane_madeBy (s : State) (l : Lane) (x : LaneState) (b : Block) : (s.setLane l x).madeBy b = s.madeBy b := rfl
@[simp] theorem setTrunk_madeBy (s : State) (t : Trunk) (x : TrunkState) (b : Block) : (s.setTrunk t x).madeBy b = s.madeBy b := rfl
@[simp] theorem setPort_madeBy (s : State) (p : Port) (x : PortState) (b : Block) : (s.setPort p x).madeBy b = s.madeBy b := rfl
@[simp] theorem tick_madeBy (s : State) (b : Block) : s.tick.madeBy b = s.madeBy b := rfl
@[simp] theorem send_madeBy (s : State) (t : Trunk) (k : TriggerKind) (sender : Block) (after : List Nat) (b : Block) :
    (s.send t k sender after).madeBy b = s.madeBy b := rfl
@[simp] theorem setLane_handOn (s : State) (l : Lane) (x : LaneState) (b : Block) (after : List Nat) :
    (s.setLane l x).handOn b after = s.handOn b after := rfl
@[simp] theorem setTrunk_handOn (s : State) (t : Trunk) (x : TrunkState) (b : Block) (after : List Nat) :
    (s.setTrunk t x).handOn b after = s.handOn b after := rfl
@[simp] theorem setPort_handOn (s : State) (p : Port) (x : PortState) (b : Block) (after : List Nat) :
    (s.setPort p x).handOn b after = s.handOn b after := rfl
@[simp] theorem tick_handOn (s : State) (b : Block) (after : List Nat) : s.tick.handOn b after = s.handOn b after := rfl
@[simp] theorem send_handOn (s : State) (t : Trunk) (k : TriggerKind) (sender : Block) (l : List Nat) (b : Block)
    (after : List Nat) : (s.send t k sender l).handOn b after = s.handOn b after := rfl

/-- The stamps handed on are those of the block's outstanding offers, and those given. -/
theorem mem_handOn (s : State) (b : Block) (after : List Nat) (n : Nat) :
    n ∈ s.handOn b after ↔ (∃ o ∈ s.offers, o.block = b ∧ o.stamp = n) ∨ n ∈ after := by
  simp [State.handOn, State.madeBy, and_assoc]

/-- What a block has offered is handed on, and so is what its own work comes after. -/
theorem stamp_mem_handOn {s : State} {b : Block} {o : Offer} (after : List Nat) (ho : o ∈ s.offers) (hb : o.block = b) :
    o.stamp ∈ s.handOn b after := (mem_handOn ..).mpr (.inl ⟨o, ho, hb, rfl⟩)
theorem subset_handOn (s : State) (b : Block) (after : List Nat) : after ⊆ s.handOn b after :=
  fun _ h => (mem_handOn ..).mpr (.inr h)

/-! ## The part's standing follows RSTn and the monitor -/

theorem halted_congr {s t : State} (h : t.monitor = s.monitor) : t.halted = s.halted := by simp [State.halted, h]

theorem running_congr {s t : State} (hr : t.rstnLow = s.rstnLow) (hm : t.monitor = s.monitor) :
    t.running = s.running := by simp [State.running, hr, halted_congr hm]

theorem running_iff (s : State) : s.running = true ↔ s.rstnLow = false ∧ s.halted = false := by
  simp [State.running]

/-! ## Every lane, trunk and port is listed -/

@[simp] theorem mem_allLanes (l : Lane) : l ∈ allLanes := by revert l; decide
@[simp] theorem mem_allTrunks (t : Trunk) : t ∈ allTrunks := by revert t; decide
@[simp] theorem mem_allPorts (p : Port) : p ∈ allPorts := by revert p; decide
theorem nodup_allLanes : allLanes.Nodup := by decide
theorem nodup_allTrunks : allTrunks.Nodup := by decide
theorem nodup_allPorts : allPorts.Nodup := by decide
@[simp] theorem mem_otherPorts (p q : Port) : q ∈ otherPorts p ↔ q ≠ p := by revert p q; decide

end Sys2Proof.Machine
end

