-- ==== Sys2Proof/Laws/Frames.lean ====
section
/-! SUPPORT. What the shared operations of a trunk's selector can reach: one lemma for each, composed by `SelFrame.trans`. -/

namespace Sys2Proof.Machine

/-! ## Relations -/

theorem SameDevice.refl (s : State) : SameDevice s s := ⟨rfl, rfl, rfl, rfl, rfl, rfl, rfl, rfl, rfl, rfl, rfl, rfl⟩

theorem SameDevice.trans {s t u : State} (h : SameDevice s t) (h' : SameDevice t u) : SameDevice s u :=
  ⟨h'.rstnLow.trans h.rstnLow, h'.started.trans h.started, h'.monitor.trans h.monitor,
    h'.blockCounter.trans h.blockCounter, h'.haltCount.trans h.haltCount, h'.instantTaken.trans h.instantTaken,
    h'.scanCaptured.trans h.scanCaptured, h'.scano.trans h.scano, h'.proposalCounter.trans h.proposalCounter,
    h'.orphans.trans h.orphans, h'.freeCount.trans h.freeCount, h'.pending.trans h.pending⟩

/-- What names a hold: its owner, session and lane. -/
def holdId (x : TrunkState) : Option (Port × Octet × Lane) := x.hold.map fun h => (h.owner, h.session, h.lane)

/-- The part of the emitter that only an emission changes. -/
def emitted (x : TrunkState) : Option OutBlock × SeqNo × Option SeqNo × Count × Count × Count × Count :=
  (x.em.td, x.em.cursor, x.em.lastEmitted, x.em.counters.emitted, x.em.counters.fromActive, x.em.counters.mended,
    x.em.counters.fill)

/-- Only trunk k's selection record, dormant mark, history, flags, switch counters and reports differ, and offers. -/
structure SelFrame (k : Trunk) (s t : State) : Prop where
  device : SameDevice s t
  ports : t.ports = s.ports
  lanes : t.lanes = s.lanes
  triggers : t.triggers = s.triggers
  trunks : ∀ u : Trunk, u ≠ k → t.trunk u = s.trunk u
  charter : (t.trunk k).charter = (s.trunk k).charter
  ballots : (t.trunk k).ballots = (s.trunk k).ballots
  favoured : (t.trunk k).favoured = (s.trunk k).favoured
  proposal : (t.trunk k).proposal = (s.trunk k).proposal
  hold : holdId (t.trunk k) = holdId (s.trunk k)
  em : emitted (t.trunk k) = emitted (s.trunk k)

theorem SelFrame.refl (k : Trunk) (s : State) : SelFrame k s s :=
  ⟨SameDevice.refl s, rfl, rfl, rfl, fun _ _ => rfl, rfl, rfl, rfl, rfl, rfl, rfl⟩

theorem SelFrame.trans {k : Trunk} {s t u : State} (h : SelFrame k s t) (h' : SelFrame k t u) : SelFrame k s u :=
  ⟨h.device.trans h'.device, h'.ports.trans h.ports, h'.lanes.trans h.lanes, h'.triggers.trans h.triggers,
    fun v hv => (h'.trunks v hv).trans (h.trunks v hv), h'.charter.trans h.charter, h'.ballots.trans h.ballots,
    h'.favoured.trans h.favoured, h'.proposal.trans h.proposal, h'.hold.trans h.hold, h'.em.trans h.em⟩

/-- Replacing a trunk's record keeps the frame when the record keeps what the frame names. -/
theorem SelFrame.setTrunk {k : Trunk} {s : State} {x : TrunkState} (hc : x.charter = (s.trunk k).charter)
    (hb : x.ballots = (s.trunk k).ballots) (hf : x.favoured = (s.trunk k).favoured)
    (hp : x.proposal = (s.trunk k).proposal) (hh : holdId x = holdId (s.trunk k))
    (he : emitted x = emitted (s.trunk k)) : SelFrame k s (s.setTrunk k x) :=
  ⟨⟨rfl, rfl, rfl, rfl, rfl, rfl, rfl, rfl, rfl, rfl, rfl, rfl⟩, rfl, rfl, rfl,
    fun u hu => trunk_setTrunk_ne s x hu, by simpa using hc, by simpa using hb, by simpa using hf, by simpa using hp,
    by simpa using hh, by simpa using he⟩

/-- An update that, on every record, keeps what the frame names keeps the frame. -/
theorem modTrunk_frame (s : State) (k : Trunk) (f : TrunkState → TrunkState)
    (hc : ∀ x, (f x).charter = x.charter := by intro; rfl) (hb : ∀ x, (f x).ballots = x.ballots := by intro; rfl)
    (hf : ∀ x, (f x).favoured = x.favoured := by intro; rfl) (hp : ∀ x, (f x).proposal = x.proposal := by intro; rfl)
    (hh : ∀ x, holdId (f x) = holdId x := by intro; rfl) (he : ∀ x, emitted (f x) = emitted x := by intro; rfl) :
    SelFrame k s (s.modTrunk k f) :=
  SelFrame.setTrunk (hc _) (hb _) (hf _) (hp _) (hh _) (he _)

theorem SelFrame.offer (k : Trunk) (s : State) (dest : List Port) (b : Block) (after : List Nat) (e : Event) :
    SelFrame k s (s.offer dest b after e) :=
  ⟨⟨rfl, rfl, rfl, rfl, rfl, rfl, rfl, rfl, rfl, rfl, rfl, rfl⟩, rfl, rfl, rfl, fun _ _ => rfl, rfl, rfl, rfl, rfl,
    rfl, rfl⟩

/-! ## The actions of a selector -/

theorem modSel_frame (s : State) (t : Trunk) (f : Selection → Selection) : SelFrame t s (s.modSel t f) :=
  modTrunk_frame ..

theorem writeRecord_frame (s : State) (t : Trunk) (c : Cause) (src dst : Option Lane) (k : SwitchKind) (after : List Nat) :
    SelFrame t s (s.writeRecord t c src dst k after) := by
  unfold State.writeRecord
  exact SelFrame.trans (modTrunk_frame ..) (SelFrame.offer ..)

theorem start_frame (s : State) (t : Trunk) (d : Lane) (after : List Nat) : SelFrame t s (s.start t d after) := by
  unfold State.start
  exact ((modTrunk_frame ..).trans (writeRecord_frame ..)).trans (SelFrame.offer ..)

theorem drop_frame (s : State) (t : Trunk) (after : List Nat) : SelFrame t s (s.drop t after) := by
  unfold State.drop
  exact ((modTrunk_frame ..).trans (writeRecord_frame ..)).trans (SelFrame.offer ..)

theorem immediateSwitch_frame (s : State) (t : Trunk) (a d : Lane) (c : Cause) (after : List Nat) :
    SelFrame t s (s.immediateSwitch t a d c after) := by
  unfold State.immediateSwitch
  exact modTrunk_frame ..

theorem aim_frame (s : State) (t : Trunk) (d : Lane) (c : Cause) (after : List Nat) :
    SelFrame t s (s.aim t d c after) := modSel_frame ..

theorem cancel_frame (s : State) (t : Trunk) : SelFrame t s (s.cancel t) := modSel_frame ..

theorem act_frame (s : State) (t : Trunk) (k : TriggerKind) (d : Decision) (after : List Nat) :
    SelFrame t s (s.act t k d after) := by
  unfold State.act
  dsimp only
  repeat' split
  all_goals first
    | with_reducible exact SelFrame.refl ..
    | with_reducible exact start_frame ..
    | with_reducible exact drop_frame ..
    | with_reducible exact aim_frame ..
    | with_reducible exact cancel_frame ..
    | with_reducible exact immediateSwitch_frame ..

theorem markHold_frame (s : State) (t : Trunk) (after : List Nat) : SelFrame t s (s.markHold t after) := by
  unfold State.markHold
  cases hh : (s.trunk t).hold with
  | none => exact SelFrame.refl ..
  | some h =>
    dsimp only
    split
    · exact SelFrame.refl ..
    · refine SelFrame.trans ?_ (SelFrame.offer ..)
      rw [modTrunk_eq]
      exact SelFrame.setTrunk rfl rfl rfl rfl (by simp [holdId, hh]) rfl

theorem disableEmitter_frame (s : State) (t : Trunk) (after : List Nat) : SelFrame t s (s.disableEmitter t after) := by
  unfold State.disableEmitter State.modEm
  dsimp only
  split
  · exact (modTrunk_frame ..).trans (SelFrame.offer ..)
  · exact modTrunk_frame ..

theorem disable_frame (s : State) (t : Trunk) (after : List Nat) : SelFrame t s (s.disable t after) := by
  unfold State.disable
  dsimp only
  split
  · exact ((modSel_frame ..).trans (writeRecord_frame ..)).trans (disableEmitter_frame ..)
  · exact (modSel_frame ..).trans (disableEmitter_frame ..)

theorem enable_frame (s : State) (t : Trunk) (after : List Nat) : SelFrame t s (s.enable t after) := by
  unfold State.enable
  exact (modTrunk_frame ..).trans (SelFrame.offer ..)

theorem installSteps_frame (s : State) (t : Trunk) (after : List Nat) : SelFrame t s (s.installSteps t after) := by
  unfold State.installSteps
  dsimp only
  repeat' split
  all_goals first
    | with_reducible exact modSel_frame ..
    | with_reducible exact (modSel_frame ..).trans (enable_frame ..)
    | with_reducible exact (modSel_frame ..).trans (disable_frame ..)

theorem judge_frame (s : State) (t : Trunk) (k : TriggerKind) (after : List Nat) : SelFrame t s (s.judge t k after) := by
  unfold State.judge
  dsimp only
  split
  · exact SelFrame.refl ..
  · exact ((markHold_frame ..).trans (modSel_frame ..)).trans (act_frame ..)

/-- One evaluation reaches only its trunk's selection record, dormant mark, history, flags and switch counters, and offers. -/
theorem evaluate_frame (s : State) (t : Trunk) (k : TriggerKind) (after : List Nat) :
    SelFrame t s (s.evaluate t k after) := by
  unfold State.evaluate
  split
  · exact (installSteps_frame ..).trans (judge_frame ..)
  · exact judge_frame ..

/-! ## Reports -/

theorem handleReport_frame (s : State) (t : Trunk) (k : ReportKind) (after : List Nat) :
    SelFrame t s (s.handleReport t k after) := by
  unfold State.handleReport
  split
  · unfold State.handleJudgement
    split
    · exact SelFrame.refl ..
    · exact (writeRecord_frame ..).trans (modSel_frame ..)
  · unfold State.handleCompletion State.complete
    dsimp only
    split
    · exact (writeRecord_frame ..).trans (modSel_frame ..)
    · exact SelFrame.refl ..
  · unfold State.handleLoss State.slip State.modEm
    dsimp only
    repeat' split
    all_goals first
      | with_reducible exact SelFrame.refl ..
      | with_reducible exact immediateSwitch_frame ..
      | exact (modTrunk_frame ..).trans (writeRecord_frame ..)
  · unfold State.handleAlignWait State.complete State.modEm
    dsimp only
    repeat' split
    all_goals first
      | with_reducible exact SelFrame.refl ..
      | exact ((writeRecord_frame ..).trans (modSel_frame ..)).trans (modTrunk_frame ..)

theorem takeReport_frame (s : State) (t : Trunk) (r : Report) : SelFrame t s (s.takeReport t r) := by
  unfold State.takeReport
  dsimp only
  split
  · exact (handleReport_frame ..).trans (modSel_frame ..)
  · exact (handleReport_frame ..).trans (evaluate_frame ..)

theorem takeReports_frame (t : Trunk) (rs : List Report) : ∀ s : State, SelFrame t s (s.takeReports t rs) := by
  induction rs with
  | nil => exact fun s => SelFrame.refl ..
  | cons r rs ih => exact fun s => (takeReport_frame s t r).trans (ih _)

/-- Settling a trunk reaches no more than the reports' evaluations. -/
theorem settleTrunk_frame (s : State) (t : Trunk) : SelFrame t s (s.settleTrunk t) := by
  unfold State.settleTrunk
  exact (modTrunk_frame ..).trans (takeReports_frame ..)

/-- With no report outstanding there is nothing to settle. -/
theorem settleTrunk_nil {s : State} {t : Trunk} (h : (s.trunk t).reports = []) : s.settleTrunk t = s := by
  have e : ({ s.trunk t with reports := [] } : TrunkState) = s.trunk t := by rw [← h]
  simp [State.settleTrunk, h, State.takeReports, e]

/-- With no step due there is nothing to settle. -/
theorem settleLane_nil {s : State} {l : Lane} (h : (s.lane l).rx.due = []) : s.settleLane l = s := by
  simp [State.settleLane, State.takeStep, h]

end Sys2Proof.Machine
end

