-- ==== Sys2Proof/Laws/Emission.lean ====
section
/-! SUPPORT. What an emission instant can reach: purges and recorded statuses among the members, the trunk's own record, and
offers; composed by `TrunkOnly.trans`. -/

namespace Sys2Proof.Machine

theorem TrunkOnly.refl (k : Trunk) (s : State) : TrunkOnly k s s :=
  ⟨rfl, rfl, rfl, rfl, rfl, rfl, rfl, fun _ _ => rfl, rfl, rfl, rfl, rfl, rfl, fun _ => rfl, fun _ => rfl, fun _ _ => rfl⟩

theorem members_of_charter {s t : State} {k : Trunk} (h : (t.trunk k).charter = (s.trunk k).charter) :
    t.members k = s.members k := by simp [State.members, h]

theorem TrunkOnly.trans {k : Trunk} {s t u : State} (h : TrunkOnly k s t) (h' : TrunkOnly k t u) : TrunkOnly k s u :=
  ⟨h'.ports.trans h.ports, h'.monitor.trans h.monitor, h'.blockCounter.trans h.blockCounter,
    h'.haltCount.trans h.haltCount, h'.scano.trans h.scano, h'.proposalCounter.trans h.proposalCounter,
    h'.orphans.trans h.orphans, fun v hv => (h'.trunks v hv).trans (h.trunks v hv), h'.charter.trans h.charter,
    h'.ballots.trans h.ballots, h'.favoured.trans h.favoured, h'.proposal.trans h.proposal, h'.hold.trans h.hold,
    fun l => (h'.rx l).trans (h.rx l), fun l => (h'.bars l).trans (h.bars l),
    fun l hl => (h'.others l (by rwa [members_of_charter h.charter])).trans (h.others l hl)⟩

theorem lane_of_lanes {s t : State} (h : t.lanes = s.lanes) (l : Lane) : t.lane l = s.lane l := by
  simp [State.lane, h]

theorem port_of_ports {s t : State} (h : t.ports = s.ports) (p : Port) : t.port p = s.port p := by
  simp [State.port, h]

theorem trunk_of_trunks {s t : State} (h : t.trunks = s.trunks) (k : Trunk) : t.trunk k = s.trunk k := by
  simp [State.trunk, h]

theorem SelFrame.trunkOnly {k : Trunk} {s t : State} (h : SelFrame k s t) : TrunkOnly k s t :=
  ⟨h.ports, h.device.monitor, h.device.blockCounter, h.device.haltCount, h.device.scano, h.device.proposalCounter,
    h.device.orphans, h.trunks, h.charter, h.ballots, h.favoured, h.proposal, h.hold,
    fun l => by rw [lane_of_lanes h.lanes], fun l => by rw [lane_of_lanes h.lanes],
    fun l _ => lane_of_lanes h.lanes l⟩

/-- An update of the trunk's record that keeps charter, claims and proposal reaches only the trunk. -/
theorem modTrunk_only (s : State) (k : Trunk) (f : TrunkState → TrunkState)
    (hc : ∀ x, (f x).charter = x.charter := by intro; rfl) (hb : ∀ x, (f x).ballots = x.ballots := by intro; rfl)
    (hf : ∀ x, (f x).favoured = x.favoured := by intro; rfl) (hp : ∀ x, (f x).proposal = x.proposal := by intro; rfl)
    (hh : ∀ x, holdId (f x) = holdId x := by intro; rfl) : TrunkOnly k s (s.modTrunk k f) :=
  ⟨rfl, rfl, rfl, rfl, rfl, rfl, rfl, fun u hu => trunk_setTrunk_ne s _ hu, by simpa using hc _, by simpa using hb _,
    by simpa using hf _, by simpa using hp _, by simpa [holdId] using hh (s.trunk k), fun _ => rfl, fun _ => rfl,
    fun _ _ => rfl⟩

theorem modEm_only (s : State) (k : Trunk) (f : Emitter → Emitter) : TrunkOnly k s (s.modEm k f) := modTrunk_only ..
theorem modSel_only (s : State) (k : Trunk) (f : Selection → Selection) : TrunkOnly k s (s.modSel k f) := modTrunk_only ..

theorem offer_only (k : Trunk) (s : State) (dest : List Port) (b : Block) (after : List Nat) (e : Event) :
    TrunkOnly k s (s.offer dest b after e) := (SelFrame.offer ..).trunkOnly

/-- Replacing the buffer and status of a member reaches only the trunk. -/
theorem modLane_only (s : State) (k : Trunk) (l : Lane) (f : LaneState → LaneState) (hl : l ∈ s.members k)
    (hr : ∀ x, (f x).rx = x.rx := by intro; rfl) (hb : ∀ x, (f x).bars = x.bars := by intro; rfl) :
    TrunkOnly k s (s.modLane l f) := by
  refine ⟨rfl, rfl, rfl, rfl, rfl, rfl, rfl, fun _ _ => rfl, rfl, rfl, rfl, rfl, rfl, fun l' => ?_, fun l' => ?_,
    fun l' hl' => ?_⟩
  · rw [modLane_eq, lane_setLane]; split
    · next h => rw [h, hr]
    · rfl
  · rw [modLane_eq, lane_setLane]; split
    · next h => rw [h, hb]
    · rfl
  · rw [modLane_eq, lane_setLane_ne]
    intro h; exact hl' (h ▸ hl)

theorem purgeLanes_only (k : Trunk) (q : SeqNo) (ls : List Lane) :
    ∀ s : State, (∀ l ∈ ls, l ∈ s.members k) → TrunkOnly k s (s.purgeLanes q ls) := by
  induction ls with
  | nil => exact fun s _ => TrunkOnly.refl ..
  | cons l ls ih =>
    intro s h
    exact (modLane_only s k l _ (h l (by simp))).trans (ih _ fun l' hl' => h l' (by simp [hl']))

theorem recordStatuses_only (k : Trunk) (st : List (Lane × AlignStatus)) :
    ∀ s : State, (∀ e ∈ st, e.1 ∈ s.members k) → TrunkOnly k s (s.recordStatuses st) := by
  induction st with
  | nil => exact fun s _ => TrunkOnly.refl ..
  | cons e st ih =>
    intro s h
    exact (modLane_only s k e.1 _ (h e (by simp))).trans (ih _ fun e' he' => h e' (by simp [he']))

theorem gapRun_only (s : State) (k : Trunk) (gap : Bool) (q : SeqNo) (a : Option Lane) :
    TrunkOnly k s (s.gapRun k gap q a) := by
  unfold State.gapRun
  dsimp only
  repeat' split
  all_goals first
    | with_reducible exact (modEm_only ..).trans (offer_only ..)
    | with_reducible exact modEm_only ..

theorem emit_only (s : State) (k : Trunk) (b : LaneBlock) (c : Bool) (src : Source) (ls : List Lane)
    (h : ∀ l ∈ ls, l ∈ s.members k) : TrunkOnly k s (s.emit k b c src ls) := by
  unfold State.emit
  exact ((modEm_only ..).trans (purgeLanes_only k _ _ _ (by
    intro l hl; rw [members_of_charter (modEm_only s k _).charter]; exact h l hl))).trans (gapRun_only ..)

theorem advanceAlignWait_only (s : State) (k : Trunk) : TrunkOnly k s (s.advanceAlignWait k).1 := by
  unfold State.advanceAlignWait
  dsimp only
  split
  · dsimp only
    exact modSel_only ..
  · exact TrunkOnly.refl ..

theorem emitAfter_only {s : State} {k : Trunk} (f : Emitter → Emitter) (b : LaneBlock) (c : Bool) (src : Source)
    (ls : List Lane) (h : ∀ l ∈ ls, l ∈ s.members k) : TrunkOnly k s ((s.modEm k f).emit k b c src ls) :=
  (modEm_only ..).trans (emit_only _ _ _ _ _ _ (by
    intro l hl; rw [members_of_charter (modEm_only s k _).charter]; exact h l hl))

theorem emitCentring_only (s : State) (k : Trunk) : TrunkOnly k s (s.emitCentring k).1 := by
  unfold State.emitCentring
  dsimp only
  refine TrunkOnly.trans ?_ (advanceAlignWait_only ..)
  split
  · exact (modEm_only ..).trans (emitAfter_only _ _ _ _ _ (by
      intro l hl; rw [members_of_charter (modEm_only s k _).charter]; exact hl))
  · exact emitAfter_only _ _ _ _ _ fun l hl => (List.mem_filter.mp hl).1

theorem emitMisaligned_only (s : State) (k : Trunk) (st : List (Lane × AlignStatus)) :
    TrunkOnly k s (s.emitMisaligned k st).1 := by
  unfold State.emitMisaligned
  dsimp only
  refine TrunkOnly.trans ?_ (advanceAlignWait_only ..)
  split <;> exact emitAfter_only _ _ _ _ _ fun l hl => hl

theorem emitCarrying_only (s : State) (k : Trunk) (st : List (Lane × AlignStatus)) :
    TrunkOnly k s (s.emitCarrying k st).1 := by
  unfold State.emitCarrying
  dsimp only
  split
  · dsimp only
    exact emitAfter_only _ _ _ _ _ fun l hl => hl
  · split
    · exact (emitAfter_only _ _ _ _ _ fun l hl => hl).trans (advanceAlignWait_only ..)
    · exact emitMisaligned_only ..

theorem judgeImmediate_only (s : State) (k : Trunk) : TrunkOnly k s (s.judgeImmediate k).1 := by
  unfold State.judgeImmediate
  dsimp only
  split
  · dsimp only
    exact modEm_only ..
  · exact TrunkOnly.refl ..

theorem judged_members (s : State) (k : Trunk) : ∀ e ∈ s.judged k, e.1 ∈ s.members k := by
  intro e he
  obtain ⟨l, hl, rfl⟩ := List.mem_map.mp he
  exact hl

theorem emissionSteps_only (s : State) (k : Trunk) : TrunkOnly k s (s.emissionSteps k).1 := by
  unfold State.emissionSteps
  dsimp only
  refine TrunkOnly.trans (recordStatuses_only k _ s (judged_members s k)) ?_
  split
  · dsimp only
    exact emitAfter_only _ _ _ _ _ fun l hl => by
      rw [members_of_charter (modEm_only _ k _).charter] at hl
      exact hl
  · dsimp only
    refine TrunkOnly.trans (judgeImmediate_only ..) ?_
    split
    · exact emitCentring_only ..
    · exact emitCarrying_only ..

theorem instant_only (s : State) (k : Trunk) : TrunkOnly k s (s.instant k) := by
  unfold State.instant
  dsimp only
  exact ((emissionSteps_only ..).trans (modTrunk_only ..)).trans (takeReports_frame ..).trunkOnly

/-- An emission instant reaches only its trunk and its members' buffers. -/
theorem emissionInstant_only (s : State) (k : Trunk) : TrunkOnly k s (s.emissionInstant k) := by
  unfold State.emissionInstant
  refine TrunkOnly.trans (settleTrunk_frame ..).trunkOnly ?_
  refine TrunkOnly.trans (t := { s.settleTrunk k with instantTaken := (s.settleTrunk k).instantTaken.set k.val true })
    ⟨rfl, rfl, rfl, rfl, rfl, rfl, rfl, fun _ _ => rfl, rfl, rfl, rfl, rfl, rfl, fun _ => rfl, fun _ => rfl,
      fun _ _ => rfl⟩ ?_
  dsimp only
  split
  · exact modEm_only ..
  · exact instant_only ..

/-! ## What an emission does to the trunk's record and to a lane -/

@[simp] theorem purgeLanes_trunk (q : SeqNo) (k : Trunk) (ls : List Lane) (s : State) :
    (s.purgeLanes q ls).trunk k = s.trunk k := by
  unfold State.purgeLanes
  induction ls generalizing s with
  | nil => rfl
  | cons l ls ih => rw [List.foldl_cons, ih]; rfl

theorem purge_purge (q : SeqNo) (bs : List LaneBlock) : purge q (purge q bs) = purge q bs := by
  simp [purge, List.filter_filter]

theorem purgeLanes_lane (q : SeqNo) (l : Lane) (ls : List Lane) (s : State) :
    (s.purgeLanes q ls).lane l =
      if l ∈ ls then { s.lane l with buffer := purge q (s.lane l).buffer } else s.lane l := by
  unfold State.purgeLanes
  induction ls generalizing s with
  | nil => simp
  | cons a ls ih =>
    rw [List.foldl_cons, ih, modLane_eq, lane_setLane]
    by_cases h : l = a
    · subst h; simp [purge_purge]
    · simp [h]

@[simp] theorem gapRun_trunk (s : State) (t : Trunk) (gap : Bool) (q : SeqNo) (a : Option Lane) :
    (s.gapRun t gap q a).trunk t = { s.trunk t with em := { (s.trunk t).em with gapRun := gap } } := by
  unfold State.gapRun
  dsimp only
  repeat' split
  all_goals simp

@[simp] theorem gapRun_lane (s : State) (t : Trunk) (gap : Bool) (q : SeqNo) (a : Option Lane) (l : Lane) :
    (s.gapRun t gap q a).lane l = s.lane l := by
  unfold State.gapRun
  dsimp only
  repeat' split
  all_goals rfl

/-- The trunk's record after an emission (R33 step 4, R39 to R41). -/
theorem emit_trunk (s : State) (t : Trunk) (b : LaneBlock) (c : Bool) (src : Source) (ls : List Lane) :
    (s.emit t b c src ls).trunk t = { s.trunk t with em := { (s.trunk t).em with
      td := some (outBlock b ((s.trunk t).em.breakFor b c)), lastEmitted := some b.seq, breakPending := false
      cursor := b.seq + 1, counters := (s.trunk t).em.counters.emit src
      gapRun := src = .fill && ((s.trunk t).sel.mode = .carrying || (s.trunk t).sel.mode = .switching) } } := by
  simp [State.emit]

/-- When an emitted block carries BREAK (R39): the lane block did, the emission centres from a non-empty buffer, break pending is
set, no block was emitted before, or its sequence is not last emitted + 1. -/
theorem breakFor_iff (e : Emitter) (b : LaneBlock) (c : Bool) : e.breakFor b c = true ↔
    b.brk = true ∨ c = true ∨ e.breakPending = true ∨ e.lastEmitted = none ∨ ∃ q ∈ e.lastEmitted, b.seq ≠ q + 1 := by
  unfold Emitter.breakFor
  cases e.lastEmitted <;> simp [or_assoc]

/-- What the gap run of an emission offers: its begin or its end when the flag changes, and nothing otherwise (R40). -/
theorem gapRun_offers (s : State) (t : Trunk) (gap : Bool) (q : SeqNo) (a : Option Lane) :
    (s.gapRun t gap q a).offers = s.offers ++ (if gap = (s.trunk t).em.gapRun then [] else
      [{ event := if gap then .gapRunBegin t (some q) a else .gapRunEnd t (some q) a, time := s.blockCounter
         block := .emitter t, stamp := s.stamp, after := [], dest := allPorts }]) := by
  unfold State.gapRun
  cases gap <;> cases (s.trunk t).em.gapRun <;> simp

/-- A purge offers nothing and leaves the block counter. -/
@[simp] theorem purgeLanes_device (q : SeqNo) (ls : List Lane) (s : State) :
    (s.purgeLanes q ls).offers = s.offers ∧ (s.purgeLanes q ls).stamp = s.stamp ∧
      (s.purgeLanes q ls).blockCounter = s.blockCounter := by
  unfold State.purgeLanes
  induction ls generalizing s with
  | nil => simp
  | cons l ls ih => rw [List.foldl_cons]; exact ih _

/-- What an emission offers: the change of the gap run, and nothing else (R40). -/
theorem emit_offers (s : State) (t : Trunk) (b : LaneBlock) (c : Bool) (src : Source) (ls : List Lane) :
    (s.emit t b c src ls).offers = s.offers ++
      (if ((s.emit t b c src ls).trunk t).em.gapRun = (s.trunk t).em.gapRun then [] else
        [{ event := if ((s.emit t b c src ls).trunk t).em.gapRun then .gapRunBegin t (some b.seq) (s.trunk t).sel.active
             else .gapRunEnd t (some b.seq) (s.trunk t).sel.active
           time := s.blockCounter, block := .emitter t, stamp := s.stamp, after := [], dest := allPorts }]) := by
  simp [State.emit, gapRun_offers, purgeLanes_device]

/-- A lane after an emission: its buffer is purged when it is one of those given (R28). -/
theorem emit_lane (s : State) (t : Trunk) (b : LaneBlock) (c : Bool) (src : Source) (ls : List Lane) (l : Lane) :
    (s.emit t b c src ls).lane l =
      if l ∈ ls then { s.lane l with buffer := purge b.seq (s.lane l).buffer } else s.lane l := by
  simp only [State.emit, gapRun_lane, purgeLanes_lane, modEm_eq, setTrunk_lane]

@[simp] theorem recordStatuses_trunk (k : Trunk) (st : List (Lane × AlignStatus)) (s : State) :
    (s.recordStatuses st).trunk k = s.trunk k := by
  unfold State.recordStatuses
  induction st generalizing s with
  | nil => rfl
  | cons e st ih => rw [List.foldl_cons, ih]; rfl

/-- Recording the statuses of some lanes writes each of those lanes' last alignment status, and nothing else (R31). -/
theorem recordStatuses_lane (f : Lane → AlignStatus) (l : Lane) (ls : List Lane) (s : State) :
    (s.recordStatuses (ls.map fun l => (l, f l))).lane l =
      if l ∈ ls then { s.lane l with status := f l } else s.lane l := by
  unfold State.recordStatuses
  induction ls generalizing s with
  | nil => simp
  | cons a ls ih =>
    rw [List.map_cons, List.foldl_cons, ih, modLane_eq, lane_setLane]
    by_cases h : l = a
    · subst h; simp
    · simp [h]

/-- An instant of a trunk that emits, no report being left: the emission steps, then the reports taken within the instant. -/
theorem exec_emissionInstant {s : State} {t : Trunk} (h1 : s.rstnLow = false) (h2 : s.monitor.state = .present)
    (h3 : (s.trunk t).reports = []) (h4 : (s.trunk t).sel.mode ≠ .disabled) :
    exec (.emissionInstant t) s =
      .next (({ s with instantTaken := s.instantTaken.set t.val true } : State).instant t) := by
  have hr : s.running = true := by simp [State.running, h1, State.halted, h2]
  have hm : ¬ (({ s with instantTaken := s.instantTaken.set t.val true } : State).trunk t).sel.mode = .disabled := h4
  show Host.Outcome.next _ = _
  simp only [hr, if_true, State.emissionInstant, settleTrunk_nil h3, hm, if_false]

end Sys2Proof.Machine
end

