-- ==== Sys2Proof/Laws/Decisions.lean ====
section
/-! SUPPORT. What a decision reads: two states with the same lanes, charter and favoured lane rank a trunk's members alike; a row
that makes an evaluation answers it, an install's makes the timers IDLE first; and what an evaluation is, by the hold and by the
trunk's state. -/

namespace Sys2Proof.Machine

section
variable {s t : State} {k : Trunk}

theorem eligible_congr (hl : t.lanes = s.lanes) (hc : (t.trunk k).charter = (s.trunk k).charter) (l : Lane) :
    t.eligible k l = s.eligible k l := by
  simp [State.eligible, State.members, State.barred, lane_of_lanes hl, hc]

theorem bestGrade_congr (hl : t.lanes = s.lanes) (hc : (t.trunk k).charter = (s.trunk k).charter) :
    t.bestGrade k = s.bestGrade k := by
  simp only [State.bestGrade, members_of_charter hc, eligible_congr hl hc, lane_of_lanes hl]

theorem selectionOrder_congr (hc : (t.trunk k).charter = (s.trunk k).charter)
    (hf : (t.trunk k).favoured = (s.trunk k).favoured) : t.selectionOrder k = s.selectionOrder k := by
  simp only [State.selectionOrder, members_of_charter hc, hf]

theorem top_congr (hl : t.lanes = s.lanes) (hc : (t.trunk k).charter = (s.trunk k).charter)
    (hf : (t.trunk k).favoured = (s.trunk k).favoured) : t.top k = s.top k := by
  simp only [State.top, selectionOrder_congr hc hf, eligible_congr hl hc, bestGrade_congr hl hc, lane_of_lanes hl]

end

theorem barred_eq_false (s : State) (l : Lane) : s.barred l = false ↔ (s.lane l).bars = Vector.replicate 4 false := by
  simp [State.barred, PortSet.isEmpty]

/-- A lane is eligible exactly when it is a member, unbarred and not FAILED (R75). -/
theorem eligible_iff (s : State) (t : Trunk) (l : Lane) :
    s.eligible t l = true ↔ l ∈ s.members t ∧ s.barred l = false ∧ (s.lane l).rx.grade ≠ .failed := by
  simp [State.eligible, and_assoc]

/-- Top is eligible and of the best grade. -/
theorem top_eligible {s : State} {t : Trunk} {d : Lane} (h : s.top t = some d) :
    s.eligible t d = true ∧ s.bestGrade t = some (s.lane d).rx.grade := by
  have := List.find?_some h
  simp only [Bool.and_eq_true, decide_eq_true_eq] at this
  exact ⟨this.1, this.2.symm⟩

/-- The best grade is GOOD or DEGRADED: FAILED lanes are not eligible. -/
theorem bestGrade_ne_failed (s : State) (t : Trunk) : s.bestGrade t ≠ some .failed := by
  unfold State.bestGrade
  split
  · simp
  · split <;> simp

/-- With no member eligible there is no best grade. -/
theorem bestGrade_none {s : State} {t : Trunk} (h : ∀ l, s.eligible t l = false) : s.bestGrade t = none := by
  simp [State.bestGrade, h]

/-- A trigger taken with no report outstanding is one evaluation of its trunk, the trigger being gone. -/
theorem takes_exec {s : State} {t : Trunk} {choice : Nat} {g : Trigger} (h : s.Takes t choice g) :
    exec (.triggerEvaluation t choice) s =
      .next (({ s with triggers := s.triggers.erase g } : State).evaluate t g.kind g.after) := by
  obtain ⟨h1, h2, h3⟩ := h
  have hg : g.trunk = t := by
    have hm := List.mem_of_getElem? h3
    have h4 : g ∈ s.triggersAt t := (List.mem_filter.mp hm).1
    simpa using (List.mem_filter.mp h4).2
  show Host.Outcome.next _ = _
  simp only [h1, h3, State.takeTrigger, hg, settleTrunk_nil h2]
  rfl

/-- Writing back the count of free values a state has leaves it as it is. -/
theorem withFree_self {v : State} {n : Nat} (h : v.freeCount = n) : ({ v with freeCount := n } : State) = v := by
  subst h
  rfl

/-- A row that makes an evaluation answers it, on the state it finds; a restore-wait expiry has advanced the count of free values by
then, which the evaluation reads before (log entry 29). -/
theorem evaluates_exec {s u : State} {t : Trunk} {i : Instr} {k : TriggerKind} {after : List Nat}
    (h : s.Evaluates t i k u after) :
    exec i s = .next { ({ u with freeCount := s.freeCount } : State).evaluate t k after with freeCount := u.freeCount } := by
  rcases h with ⟨choice, g, rfl, hg, rfl, rfl, rfl⟩ | ⟨h1, h2, h3, rfl, ⟨rfl, rfl, h4, rfl⟩ | ⟨c, rfl, rfl, h4, rfl⟩⟩
  · rw [takes_exec hg]
    have e := (evaluate_frame ({ s with triggers := s.triggers.erase g } : State) t g.kind g.after).device.freeCount
    exact congrArg Host.Outcome.next (withFree_self e).symm
  · have hr : s.running = true := by simp [State.running, h1, State.halted, h2]
    have e := (evaluate_frame (s.setTrunk t { s.trunk t with sel := { (s.trunk t).sel with holdOff := .idle } }) t
      .holdOffExpiry []).device.freeCount
    refine Eq.trans ?_ (congrArg Host.Outcome.next (withFree_self e).symm)
    show Host.Outcome.next _ = _
    simp only [hr, if_true, State.holdOffExpires, settleTrunk_nil h3, h4]
    rfl
  · have hr : s.running = true := by simp [State.running, h1, State.halted, h2]
    have e := (evaluate_frame (s.setTrunk t { s.trunk t with sel := { (s.trunk t).sel with restore := .due c } }) t
      .restoreExpiry []).device.freeCount
    show Host.Outcome.next _ = _
    simp only [hr, if_true, State.restoreExpires, settleTrunk_nil h3, h4]
    exact congrArg (fun n => Host.Outcome.next { (State.evaluate _ t .restoreExpiry []) with freeCount := n + 1 }) e

/-- An emitter report is evaluated as a grade trigger is: neither opens a gate or has install steps, and both give HEALTH (R74,
R80). -/
theorem evaluate_report (s : State) (t : Trunk) (l : Lane) (after : List Nat) :
    s.evaluate t .report after = s.evaluate t (.grade l) after := rfl

/-- With members, an install trigger at a trunk that is not DISABLED makes both timers IDLE, and the rest of its evaluation is that of
any trigger (R87 steps 1 and 5). -/
theorem evaluate_install {s : State} {t : Trunk} (hm : s.members t ≠ []) (hd : (s.trunk t).sel.mode ≠ .disabled)
    (after : List Nat) :
    s.evaluate t .install after =
      (s.setTrunk t { s.trunk t with sel := { (s.trunk t).sel with holdOff := .idle, restore := .idle } }).judge t .install
        after := by
  have hm' : (s.trunk t).charter.terms.members ≠ [] := hm
  simp [State.evaluate, State.installSteps, hd, State.members, hm']

/-! ## What one evaluation is -/

/-- The state an evaluation finds has the timers changed at most, and the lanes as they were. -/
theorem evaluates_trunk {s u : State} {t : Trunk} {i : Instr} {k : TriggerKind} {after : List Nat} (h : s.Evaluates t i k u after) :
    u.trunk t = { s.trunk t with sel := { (s.trunk t).sel with
      holdOff := (u.trunk t).sel.holdOff, restore := (u.trunk t).sel.restore } } ∧
    u.lanes = s.lanes ∧ u.blockCounter = s.blockCounter ∧ u.offers = s.offers ∧ u.stamp = s.stamp ∧
    (k ≠ .holdOffExpiry → (u.trunk t).sel.holdOff = (s.trunk t).sel.holdOff) := by
  rcases h with ⟨choice, g, rfl, hg, rfl, rfl, rfl⟩ | ⟨h1, h2, h3, rfl, ⟨rfl, rfl, h4, rfl⟩ | ⟨c, rfl, rfl, h4, rfl⟩⟩
  · exact ⟨rfl, rfl, rfl, rfl, rfl, fun _ => rfl⟩
  · exact ⟨by simp, rfl, rfl, rfl, rfl, by simp⟩
  · have e : ({ s.setTrunk t { s.trunk t with sel := { (s.trunk t).sel with restore := .due c } } with
        freeCount := s.freeCount + 1 } : State).trunk t =
        { s.trunk t with sel := { (s.trunk t).sel with restore := .due c } } := trunk_setTrunk_self ..
    exact ⟨by rw [e], rfl, rfl, rfl, rfl, by rw [e]; simp⟩

/-- A row that makes an evaluation at a trunk that is not DISABLED (one of an install with members) answers steps 2 to 7 of R80, on
the state it finds; an install has made the timers IDLE. -/
theorem evaluates_judge {s u : State} {t : Trunk} {i : Instr} {k : TriggerKind} {after : List Nat} (h : s.Evaluates t i k u after)
    (hm : k = .install → s.members t ≠ []) (hd : (s.trunk t).sel.mode ≠ .disabled) :
    exec i s = .next { (({ u with freeCount := s.freeCount } : State).setTrunk t { s.trunk t with sel := { (s.trunk t).sel with
        holdOff := if k = .install then .idle else (u.trunk t).sel.holdOff
        restore := if k = .install then .idle else (u.trunk t).sel.restore } }).judge t k after with
      freeCount := u.freeCount } := by
  obtain ⟨hu, _⟩ := evaluates_trunk h
  generalize (u.trunk t).sel.holdOff = ho at hu ⊢
  generalize (u.trunk t).sel.restore = r at hu ⊢
  rw [evaluates_exec h]
  generalize hv : ({ u with freeCount := s.freeCount } : State) = v
  have hvt : v.trunk t = { s.trunk t with sel := { (s.trunk t).sel with holdOff := ho, restore := r } } := by rw [← hv]; exact hu
  by_cases hi : k = .install
  · have hvm : v.members t ≠ [] := fun e => hm hi (by simpa [State.members, hvt] using e)
    have hvd : (v.trunk t).sel.mode ≠ .disabled := by rw [hvt]; exact hd
    simp only [hi, if_true]
    rw [evaluate_install hvm hvd, hvt]
  · have he : v.evaluate t k after = v.judge t k after := by simp [State.evaluate, hi]
    simp only [hi, if_false]
    rw [he, ← hvt, setTrunk_trunk_self]

/-- Without a hold, steps 4 to 7 of R80 are left: the timers take the values decided, and the decision is acted on. -/
theorem judge_unheld {v : State} {t : Trunk} (hd : (v.trunk t).sel.mode ≠ .disabled) (hh : (v.trunk t).hold = none)
    (k : TriggerKind) (after : List Nat) :
    v.judge t k after = (v.setTrunk t { v.trunk t with sel := { (v.trunk t).sel with
      holdOff := (v.decide t k).holdOff, restore := (v.decide t k).restore } }).act t k (v.decide t k) after := by
  have hm : v.markHold t after = v := by simp [State.markHold, hh]
  unfold State.judge
  rw [if_neg hd, hm]
  rfl

/-- An active hold settles steps 4 to 6 of R80: its lane is desired, both timers become IDLE and the gate is open; a hold that was
dormant is marked active first (R62). -/
theorem judge_active {v : State} {t : Trunk} {h : Hold} (hd : (v.trunk t).sel.mode ≠ .disabled) (hh : (v.trunk t).hold = some h)
    (hb : v.barred h.lane = false) (hg : (v.lane h.lane).rx.grade ≠ .failed) (k : TriggerKind) (after : List Nat) :
    let active : Hold := { h with dormant := false }
    v.judge t k after =
      ((if h.dormant then (v.setTrunk t { v.trunk t with hold := some active }).offer allPorts (.selector t) after
          (.holdActive t h.lane h.owner h.session (v.lane h.lane).rx.grade (v.barred h.lane))
        else v).setTrunk t { v.trunk t with
          hold := some active, sel := { (v.trunk t).sel with holdOff := .idle, restore := .idle } }).act t k
        ⟨some h.lane, .idle, true, .idle⟩ after := by
  intro active
  have hm : v.markHold t after = if h.dormant then (v.setTrunk t { v.trunk t with hold := some active }).offer allPorts
      (.selector t) after (.holdActive t h.lane h.owner h.session (v.lane h.lane).rx.grade (v.barred h.lane)) else v := by
    cases hdo : h.dormant <;> simp [State.markHold, hh, hb, hg, hdo, active]
  rw [← hm]
  have ht : (v.markHold t after).trunk t = { v.trunk t with hold := some active } := by
    rw [hm]
    split
    · exact trunk_setTrunk_self v t _
    · have e : active = h := by cases h; simp_all [active]
      rw [e, ← hh]
  unfold State.judge
  rw [if_neg hd]
  generalize v.markHold t after = w at ht ⊢
  have hact : (w.trunk t).activeHold = some h.lane := by simp [TrunkState.activeHold, ht, active]
  have hap : w.holdOffApplies t = false := by
    simp only [State.holdOffApplies, hact]
    split <;> simp_all
  have hdec : w.decide t k = ⟨some h.lane, .idle, true, .idle⟩ := by
    simp [State.decide, State.decisionCase, hact, desiredLane, restoreAfter, hap, holdOffGate]
  dsimp only
  rw [hdec]
  simp only [modSel_eq, ht]

/-- Step 7 of R80 at a STARVED trunk (R85). -/
theorem act_starved {v : State} {t : Trunk} (hm : (v.trunk t).sel.mode = .starved) (k : TriggerKind) (d : Decision)
    (after : List Nat) :
    v.act t k d after = match d.desired with
      | some l => v.start t l after
      | none => v := by
  simp only [State.act, hm]
  all_goals rfl

/-- Step 7 of R80 at a CARRYING trunk (R85). -/
theorem act_carrying {v : State} {t : Trunk} {a : Lane} (hm : (v.trunk t).sel.mode = .carrying)
    (ha : (v.trunk t).sel.active = some a) (k : TriggerKind) (d : Decision) (after : List Nat) :
    v.act t k d after =
      if d.desired = some a then v else if d.gateOpen then
        match d.desired with
        | none => v.drop t after
        | some l =>
          if v.eligible t a then v.aim t l (switchCause d.restore k v.freeCause l) after
          else v.immediateSwitch t a l (switchCause d.restore k v.freeCause l) after
      else v := by
  simp only [State.act, hm, ha]
  all_goals rfl

/-- Step 7 of R80 at a SWITCHING trunk (R86). -/
theorem act_switching {v : State} {t : Trunk} {a : Lane} (hm : (v.trunk t).sel.mode = .switching)
    (ha : (v.trunk t).sel.active = some a) (k : TriggerKind) (d : Decision) (after : List Nat) :
    v.act t k d after = match d.desired with
      | none => v.drop t after
      | some l =>
        if l = a then v.cancel t
        else if v.eligible t a then
          if (v.trunk t).sel.target = some l then v else v.aim t l (switchCause d.restore k v.freeCause l) after
        else v.immediateSwitch t a l (switchCause d.restore k v.freeCause l) after := by
  simp only [State.act, hm, ha]
  all_goals rfl

/-- With members, or with no install trigger outstanding, a report is handled and evaluated (R88, R96). -/
theorem takeReport_eq {s : State} {t : Trunk} (h : s.members t ≠ [] ∨ ∀ g ∈ s.triggersAt t, g.kind ≠ .install) (r : Report) :
    s.takeReport t r = (s.handleReport t r.kind r.after).evaluate t .report r.after := by
  have e : s.leftToInstall t r.kind = false := by
    cases r.kind <;> simp only [State.leftToInstall]
    rcases h with h | h <;> simp_all
  simp [State.takeReport, e]

/-! ## The offers of step 7 -/

/-- Offers of class TRUNK have been made, and trunk t's hold is as it was. -/
def ActsOn (t : Trunk) (s r : State) : Prop :=
  (r.trunk t).hold = (s.trunk t).hold ∧ ∃ more, r.offers = s.offers ++ more ∧ ∀ o ∈ more, o.event.cls = .trunk

theorem ActsOn.refl (t : Trunk) (s : State) : ActsOn t s s := ⟨rfl, [], by simp, by simp⟩

theorem ActsOn.trans {t : Trunk} {s r u : State} (h : ActsOn t s r) (h' : ActsOn t r u) : ActsOn t s u := by
  obtain ⟨h1, m, h2, h3⟩ := h
  obtain ⟨h1', m', h2', h3'⟩ := h'
  refine ⟨h1'.trans h1, m ++ m', by rw [h2', h2, List.append_assoc], fun o ho => ?_⟩
  rcases List.mem_append.mp ho with ho | ho
  · exact h3 o ho
  · exact h3' o ho

theorem ActsOn.modTrunk (t : Trunk) (s : State) (f : TrunkState → TrunkState)
    (h : ∀ x, (f x).hold = x.hold := by intro; rfl) : ActsOn t s (s.modTrunk t f) :=
  ⟨by simpa using h _, [], by simp, by simp⟩

theorem ActsOn.offer (t : Trunk) (s : State) (dest : List Port) (b : Block) (after : List Nat) (e : Event)
    (h : e.cls = .trunk := by rfl) : ActsOn t s (s.offer dest b after e) := ⟨rfl, [_], rfl, by simpa using h⟩

theorem writeRecord_acts (s : State) (t : Trunk) (c : Cause) (src dst : Option Lane) (k : SwitchKind) (after : List Nat) :
    ActsOn t s (s.writeRecord t c src dst k after) := by
  unfold State.writeRecord
  exact (ActsOn.modTrunk ..).trans (ActsOn.offer ..)

theorem start_acts (s : State) (t : Trunk) (d : Lane) (after : List Nat) : ActsOn t s (s.start t d after) := by
  unfold State.start
  exact ((ActsOn.modTrunk ..).trans (writeRecord_acts ..)).trans (ActsOn.offer ..)

theorem drop_acts (s : State) (t : Trunk) (after : List Nat) : ActsOn t s (s.drop t after) := by
  unfold State.drop
  exact ((ActsOn.modTrunk ..).trans (writeRecord_acts ..)).trans (ActsOn.offer ..)

theorem aim_acts (s : State) (t : Trunk) (d : Lane) (c : Cause) (after : List Nat) : ActsOn t s (s.aim t d c after) :=
  ActsOn.modTrunk ..

theorem cancel_acts (s : State) (t : Trunk) : ActsOn t s (s.cancel t) := ActsOn.modTrunk ..

theorem immediateSwitch_acts (s : State) (t : Trunk) (a d : Lane) (c : Cause) (after : List Nat) :
    ActsOn t s (s.immediateSwitch t a d c after) := ActsOn.modTrunk ..

/-- Step 7 of R80 offers events of class TRUNK alone, and leaves the hold as it is. -/
theorem act_acts (s : State) (t : Trunk) (k : TriggerKind) (d : Decision) (after : List Nat) :
    ActsOn t s (s.act t k d after) := by
  unfold State.act
  dsimp only
  repeat' split
  all_goals first
    | with_reducible exact ActsOn.refl ..
    | with_reducible exact start_acts ..
    | with_reducible exact drop_acts ..
    | with_reducible exact aim_acts ..
    | with_reducible exact cancel_acts ..
    | with_reducible exact immediateSwitch_acts ..

end Sys2Proof.Machine
end

