-- ==== Sys2Proof/Laws/Registry.lean ====
section
/-! SUPPORT. What the claim registry and the concurrence unit can reach: a departure (R68, R123) and an install (R49, R69,
R117), said once, field by field. -/

namespace Sys2Proof.Machine

/-! ## Work that leaves receivers, ports, selection records and emitters alone -/

/-- Nothing outside the trunks' charters, claims and proposals differs but buffers, triggers, offers, orphans, the proposal
counter and the counters of stamps; the offers made stand after those given. -/
structure Bookkeeping (after : List Nat) (s t : State) : Prop where
  rstnLow : t.rstnLow = s.rstnLow
  started : t.started = s.started
  monitor : t.monitor = s.monitor
  blockCounter : t.blockCounter = s.blockCounter
  haltCount : t.haltCount = s.haltCount
  instantTaken : t.instantTaken = s.instantTaken
  scanCaptured : t.scanCaptured = s.scanCaptured
  scano : t.scano = s.scano
  freeCount : t.freeCount = s.freeCount
  pending : t.pending = s.pending
  ports : t.ports = s.ports
  rx : ∀ l : Lane, (t.lane l).rx = (s.lane l).rx
  bars : ∀ l : Lane, (t.lane l).bars = (s.lane l).bars
  sel : ∀ k : Trunk, (t.trunk k).sel = (s.trunk k).sel
  em : ∀ k : Trunk, (t.trunk k).em = (s.trunk k).em
  history : ∀ k : Trunk, (t.trunk k).history = (s.trunk k).history
  reports : ∀ k : Trunk, (t.trunk k).reports = (s.trunk k).reports
  offers : ∃ more, t.offers = s.offers ++ more ∧ ∀ o ∈ more, ∀ n ∈ after, n ∈ o.after

theorem Bookkeeping.refl (after : List Nat) (s : State) : Bookkeeping after s s :=
  ⟨rfl, rfl, rfl, rfl, rfl, rfl, rfl, rfl, rfl, rfl, rfl, fun _ => rfl, fun _ => rfl, fun _ => rfl, fun _ => rfl,
    fun _ => rfl, fun _ => rfl, [], by simp, by simp⟩

theorem Bookkeeping.trans {after : List Nat} {s t u : State} (h : Bookkeeping after s t) (h' : Bookkeeping after t u) :
    Bookkeeping after s u := by
  obtain ⟨m, hm, hm'⟩ := h.offers
  obtain ⟨n, hn, hn'⟩ := h'.offers
  refine ⟨h'.rstnLow.trans h.rstnLow, h'.started.trans h.started, h'.monitor.trans h.monitor,
    h'.blockCounter.trans h.blockCounter, h'.haltCount.trans h.haltCount, h'.instantTaken.trans h.instantTaken,
    h'.scanCaptured.trans h.scanCaptured, h'.scano.trans h.scano, h'.freeCount.trans h.freeCount,
    h'.pending.trans h.pending, h'.ports.trans h.ports, fun l => (h'.rx l).trans (h.rx l),
    fun l => (h'.bars l).trans (h.bars l), fun k => (h'.sel k).trans (h.sel k), fun k => (h'.em k).trans (h.em k),
    fun k => (h'.history k).trans (h.history k), fun k => (h'.reports k).trans (h.reports k), m ++ n, ?_, ?_⟩
  · rw [hn, hm, List.append_assoc]
  · intro o ho
    rcases List.mem_append.mp ho with ho | ho
    · exact hm' o ho
    · exact hn' o ho

theorem Bookkeeping.weaken {after after' : List Nat} {s t : State} (h : Bookkeeping after s t) (ha : after' ⊆ after) :
    Bookkeeping after' s t := by
  obtain ⟨m, hm, hm'⟩ := h.offers
  exact ⟨h.rstnLow, h.started, h.monitor, h.blockCounter, h.haltCount, h.instantTaken, h.scanCaptured, h.scano,
    h.freeCount, h.pending, h.ports, h.rx, h.bars, h.sel, h.em, h.history, h.reports, m, hm,
    fun o ho n hn => hm' o ho n (ha hn)⟩

/-- Replacing a trunk's record keeps the books when selection record, emitter, history and reports are kept. -/
theorem setTrunk_books (after : List Nat) (s : State) (k : Trunk) (x : TrunkState) (h1 : x.sel = (s.trunk k).sel)
    (h2 : x.em = (s.trunk k).em) (h3 : x.history = (s.trunk k).history) (h4 : x.reports = (s.trunk k).reports) :
    Bookkeeping after s (s.setTrunk k x) := by
  refine ⟨rfl, rfl, rfl, rfl, rfl, rfl, rfl, rfl, rfl, rfl, rfl, fun _ => rfl, fun _ => rfl, fun u => ?_, fun u => ?_,
    fun u => ?_, fun u => ?_, [], by simp, by simp⟩ <;> rw [trunk_setTrunk] <;> split <;> simp_all

theorem offerHere_books (s : State) (dest : List Port) (b : Block) (after : List Nat) (e : Event) :
    Bookkeeping after s (s.offerHere dest b after e) :=
  ⟨rfl, rfl, rfl, rfl, rfl, rfl, rfl, rfl, rfl, rfl, rfl, fun _ => rfl, fun _ => rfl, fun _ => rfl, fun _ => rfl,
    fun _ => rfl, fun _ => rfl, [_], rfl, by simp⟩

theorem tick_books (after : List Nat) (s : State) : Bookkeeping after s s.tick :=
  ⟨rfl, rfl, rfl, rfl, rfl, rfl, rfl, rfl, rfl, rfl, rfl, fun _ => rfl, fun _ => rfl, fun _ => rfl, fun _ => rfl,
    fun _ => rfl, fun _ => rfl, [], by simp, by simp⟩

theorem send_books (after : List Nat) (s : State) (t : Trunk) (k : TriggerKind) (b : Block) (after' : List Nat) :
    Bookkeeping after s (s.send t k b after') :=
  ⟨rfl, rfl, rfl, rfl, rfl, rfl, rfl, rfl, rfl, rfl, rfl, fun _ => rfl, fun _ => rfl, fun _ => rfl, fun _ => rfl,
    fun _ => rfl, fun _ => rfl, [], by simp, by simp⟩

theorem flush_books (after : List Nat) (s : State) (l : Lane) : Bookkeeping after s (s.flush l) := by
  refine ⟨rfl, rfl, rfl, rfl, rfl, rfl, rfl, rfl, rfl, rfl, rfl, fun l' => ?_, fun l' => ?_, fun _ => rfl, fun _ => rfl,
    fun _ => rfl, fun _ => rfl, [], by simp [State.flush], by simp⟩ <;>
    rw [State.flush, modLane_eq, lane_setLane] <;> split <;> simp_all

/-- A fold of work that keeps the books keeps them. -/
theorem foldl_books {α : Type} (after : List Nat) (f : State → α → State) (h : ∀ s a, Bookkeeping after s (f s a)) :
    ∀ (as : List α) (s : State), Bookkeeping after s (as.foldl f s)
  | [], _ => Bookkeeping.refl ..
  | a :: as, s => (h s a).trans (foldl_books after f h as _)

/-! ## The favoured lane -/

/-- Nothing of the trunks but their favoured lanes differs, and lanes and triggers are kept. -/
structure FavouredOnly (s t : State) : Prop where
  lanes : t.lanes = s.lanes
  proposalCounter : t.proposalCounter = s.proposalCounter
  orphans : t.orphans = s.orphans
  trunks : ∀ k : Trunk, { t.trunk k with favoured := (s.trunk k).favoured } = s.trunk k

theorem FavouredOnly.refl (s : State) : FavouredOnly s s := ⟨rfl, rfl, rfl, fun _ => rfl⟩

theorem FavouredOnly.trans {s t u : State} (h : FavouredOnly s t) (h' : FavouredOnly t u) : FavouredOnly s u := by
  refine ⟨h'.lanes.trans h.lanes, h'.proposalCounter.trans h.proposalCounter, h'.orphans.trans h.orphans, fun k => ?_⟩
  exact (congrArg (fun x : TrunkState => { x with favoured := (s.trunk k).favoured }) (h'.trunks k)).trans (h.trunks k)

theorem favouredNow_congr {s t : State} {k : Trunk} (hm : t.members k = s.members k)
    (hb : (t.trunk k).ballots = (s.trunk k).ballots) : t.favouredNow k = s.favouredNow k := by
  have c : ∀ l, t.ballotsFor k l = s.ballotsFor k l := fun l => by simp only [State.ballotsFor, hb]
  have e : ∀ ms, t.pickFavoured k ms = s.pickFavoured k ms := by
    intro ms
    induction ms with
    | nil => rfl
    | cons l ls ih => simp only [State.pickFavoured, c, ih]
  simp [State.favouredNow, e, hm]

/-- Recomputing writes the favoured lane of R58, whatever stood there. -/
theorem refavourHere_trunk (s : State) (t : Trunk) (after : List Nat) (k : Trunk) :
    (s.refavourHere t after).trunk k =
      if k = t then { s.trunk t with favoured := s.favouredNow t } else s.trunk k := by
  unfold State.refavourHere
  dsimp only
  split
  · next h =>
    split
    · next hk => subst hk; rw [h]
    · rfl
  · rw [offerHere_trunk, modTrunk_eq, trunk_setTrunk]

theorem refavourHere_books (s : State) (t : Trunk) (after : List Nat) :
    Bookkeeping after s (s.refavourHere t after) := by
  unfold State.refavourHere
  dsimp only
  split
  · exact Bookkeeping.refl ..
  · rw [modTrunk_eq]
    exact Bookkeeping.trans (t := s.setTrunk t { s.trunk t with favoured := s.favouredNow t })
      (setTrunk_books _ _ _ _ rfl rfl rfl rfl) (offerHere_books ..)

theorem refavourHere_only (s : State) (t : Trunk) (after : List Nat) : FavouredOnly s (s.refavourHere t after) := by
  refine ⟨?_, ?_, ?_, fun k => ?_⟩
  · unfold State.refavourHere; dsimp only; split <;> rfl
  · unfold State.refavourHere; dsimp only; split <;> rfl
  · unfold State.refavourHere; dsimp only; split <;> rfl
  · rw [refavourHere_trunk]
    split
    · next h => subst h; rfl
    · rfl

@[simp] theorem refavourHere_triggers (s : State) (t : Trunk) (after : List Nat) :
    (s.refavourHere t after).triggers = s.triggers := by
  unfold State.refavourHere; dsimp only; split <;> rfl

/-! ## A departure -/

/-- A trunk's record without a port's ballot and hold (R68). -/
def TrunkState.without (x : TrunkState) (p : Port) : TrunkState :=
  { x with ballots := x.ballots.set p.val none, hold := x.hold.filter fun h => h.owner ≠ p }

theorem dropClaims_eq (s : State) (p : Port) (t : Trunk) :
    s.dropClaims p t = s.setTrunk t ((s.trunk t).without p) := by
  unfold State.dropClaims State.claimsOf TrunkState.without
  dsimp only
  rw [modTrunk_eq]
  congr 2
  cases (s.trunk t).hold with
  | none => rfl
  | some h => by_cases ho : h.owner = p <;> simp [ho, Option.filter]

/-- Folding an update of each listed trunk's own record updates each listed trunk once. -/
theorem foldl_setTrunk (g : TrunkState → TrunkState) (k : Trunk) : ∀ (ts : List Trunk) (s : State), ts.Nodup →
    (ts.foldl (fun s t => s.setTrunk t (g (s.trunk t))) s).trunk k = if k ∈ ts then g (s.trunk k) else s.trunk k
  | [], s, _ => by simp
  | t :: ts, s, h => by
    rw [List.foldl_cons, foldl_setTrunk g k ts _ (List.nodup_cons.mp h).2]
    by_cases hk : k = t
    · subst hk; simp [(List.nodup_cons.mp h).1]
    · simp [hk]

theorem dropAll_trunk (s : State) (p : Port) (k : Trunk) :
    (allTrunks.foldl (fun s t => s.dropClaims p t) s).trunk k = (s.trunk k).without p := by
  simp only [dropClaims_eq]
  rw [foldl_setTrunk (fun x => x.without p) k _ s nodup_allTrunks, if_pos (mem_allTrunks k)]

/-- A fold that leaves a field alone at each step leaves it alone. -/
theorem foldl_keeps {α β : Type} (f : State → α → State) (g : State → β) (h : ∀ s a, g (f s a) = g s) :
    ∀ (as : List α) (s : State), g (as.foldl f s) = g s
  | [], _ => rfl
  | a :: as, s => (foldl_keeps f g h as _).trans (h s a)

theorem foldl_favouredOnly {α : Type} (f : State → α → State) (h : ∀ s a, FavouredOnly s (f s a)) :
    ∀ (as : List α) (s : State), FavouredOnly s (as.foldl f s)
  | [], s => FavouredOnly.refl s
  | a :: as, s => (h s a).trans (foldl_favouredOnly f h as _)

theorem favouredOnly_of_eq {s t : State} (h1 : t.lanes = s.lanes) (h2 : t.proposalCounter = s.proposalCounter)
    (h3 : t.orphans = s.orphans) (h4 : t.trunks = s.trunks) : FavouredOnly s t :=
  ⟨h1, h2, h3, fun k => by rw [trunk_of_trunks h4]⟩

/-- The registry's part of a departure keeps the books, and every offer it makes stands after those given. -/
theorem registryDeparture_books (s : State) (p : Port) (cause : Reason) (after : List Nat) :
    Bookkeeping after s (s.registryDeparture p cause after) := by
  unfold State.registryDeparture
  dsimp only
  refine Bookkeeping.trans ?_ (tick_books ..)
  refine Bookkeeping.trans ?_ (foldl_books after _ (fun s c => ?_) _ _)
  · refine Bookkeeping.trans ?_ (foldl_books after _ (fun s c => ?_) _ _)
    · refine Bookkeeping.trans ?_ (tick_books ..)
      refine Bookkeeping.trans ?_ (foldl_books after _ (fun s c => ?_) _ _)
      · refine foldl_books after _ (fun s t => ?_) _ _
        rw [dropClaims_eq]
        exact setTrunk_books _ _ _ _ rfl rfl rfl rfl
      · split
        · exact refavourHere_books ..
        · exact Bookkeeping.refl ..
    · split
      · exact send_books ..
      · split
        · exact send_books ..
        · exact Bookkeeping.refl ..
  · split
    · exact offerHere_books ..
    · exact Bookkeeping.refl ..

/-- Folding the recomputation over some of the trunks, each listed once, recomputes each of those. -/
theorem foldl_refavour {α : Type} (after : List Nat) (trunkOf : α → Trunk) (cond : α → Bool) (k : Trunk) :
    ∀ (as : List α) (s : State), (as.map trunkOf).Nodup →
      ((as.foldl (fun s c => if cond c then s.refavourHere (trunkOf c) after else s) s).trunk k) =
        if ∃ c ∈ as, trunkOf c = k ∧ cond c = true then { s.trunk k with favoured := s.favouredNow k } else s.trunk k
  | [], s, _ => by simp
  | c :: cs, s, h => by
    have hn := List.nodup_cons.mp (by simpa using h : (trunkOf c :: cs.map trunkOf).Nodup)
    rw [List.foldl_cons, foldl_refavour after trunkOf cond k cs _ hn.2]
    by_cases hc : cond c = true
    · simp only [hc, if_true]
      by_cases hk : trunkOf c = k
      · have hno : ¬ ∃ c' ∈ cs, trunkOf c' = k ∧ cond c' = true := by
          rintro ⟨c', h1, h2, _⟩
          exact hn.1 (List.mem_map.mpr ⟨c', h1, h2.trans hk.symm⟩)
        have hyes : ∃ c' ∈ c :: cs, trunkOf c' = k ∧ cond c' = true := ⟨c, by simp, hk, hc⟩
        rw [if_neg hno, if_pos hyes, refavourHere_trunk, if_pos hk.symm, hk]
      · have e : (s.refavourHere (trunkOf c) after).trunk k = s.trunk k := by
          rw [refavourHere_trunk, if_neg (fun h => hk h.symm)]
        have ef : (s.refavourHere (trunkOf c) after).favouredNow k = s.favouredNow k :=
          favouredNow_congr (by simp [State.members, e]) (by rw [e])
        have hiff : (∃ c' ∈ c :: cs, trunkOf c' = k ∧ cond c' = true) ↔ ∃ c' ∈ cs, trunkOf c' = k ∧ cond c' = true := by
          simp [hk]
        rw [e, ef]
        simp only [hiff]
    · have hiff : (∃ c' ∈ c :: cs, trunkOf c' = k ∧ cond c' = true) ↔ ∃ c' ∈ cs, trunkOf c' = k ∧ cond c' = true := by
        simp [hc]
      simp only [hc, if_false, hiff, Bool.false_eq_true]

/-- The registry's part of a departure, on every trunk: the port's claims are gone, and where it had a ballot the favoured lane
is that of the ballots left (R68). -/
theorem registryDeparture_trunk (s : State) (p : Port) (cause : Reason) (after : List Nat) (k : Trunk) :
    ∃ u : State, (u.trunk k = (s.trunk k).without p) ∧
      (s.registryDeparture p cause after).trunk k =
        if (s.trunk k).ballots[p.val].isSome then { (s.trunk k).without p with favoured := u.favouredNow k }
        else (s.trunk k).without p := by
  refine ⟨allTrunks.foldl (fun s t => s.dropClaims p t) s, dropAll_trunk .., ?_⟩
  unfold State.registryDeparture
  dsimp only
  rw [tick_trunk]
  rw [foldl_keeps (g := fun s => s.trunk k) _ (by intro s c; split <;> rfl)]
  rw [foldl_keeps (g := fun s => s.trunk k) _ (by intro s c; split; · rfl
                                                  · split <;> rfl)]
  have hf := foldl_refavour after (fun c : Trunk × Option Lane × Option Lane => c.1) (fun c => c.2.1.isSome) k
    (allTrunks.map fun t => (t, s.claimsOf p t)) (allTrunks.foldl (fun s t => s.dropClaims p t) s)
    (by simpa [List.map_map, Function.comp_def] using nodup_allTrunks)
  dsimp only at hf
  rw [tick_trunk, hf, dropAll_trunk]
  have hiff : (∃ c ∈ allTrunks.map (fun t => (t, s.claimsOf p t)), c.1 = k ∧ c.2.1.isSome = true) ↔
      (s.trunk k).ballots[p.val].isSome = true := by
    constructor
    · rintro ⟨c, hc, rfl, h⟩
      obtain ⟨t, _, rfl⟩ := List.mem_map.mp hc
      exact h
    · intro h
      exact ⟨_, List.mem_map.mpr ⟨k, mem_allTrunks k, rfl⟩, rfl, h⟩
  simp only [hiff]

@[simp] theorem registryDeparture_lanes (s : State) (p : Port) (cause : Reason) (after : List Nat) :
    (s.registryDeparture p cause after).lanes = s.lanes := by
  unfold State.registryDeparture
  dsimp only
  rw [tick_lanes]
  rw [foldl_keeps (g := fun s => s.lanes) _ (by intro s c; split <;> rfl)]
  rw [foldl_keeps (g := fun s => s.lanes) _ (by intro s c; split; · rfl
                                                · split <;> rfl)]
  rw [tick_lanes]
  rw [foldl_keeps (g := fun s => s.lanes) _ (by intro s c; split; · exact (refavourHere_only ..).lanes
                                                · rfl)]
  rw [foldl_keeps (g := fun s => s.lanes) _ (by intro s c; rfl)]

@[simp] theorem registryDeparture_counter (s : State) (p : Port) (cause : Reason) (after : List Nat) :
    (s.registryDeparture p cause after).proposalCounter = s.proposalCounter := by
  unfold State.registryDeparture
  dsimp only
  rw [tick_proposalCounter]
  rw [foldl_keeps (g := fun s => s.proposalCounter) _ (by intro s c; split <;> rfl)]
  rw [foldl_keeps (g := fun s => s.proposalCounter) _ (by intro s c; split; · rfl
                                                          · split <;> rfl)]
  rw [tick_proposalCounter]
  rw [foldl_keeps (g := fun s => s.proposalCounter) _ (by
    intro s c; split; · exact (refavourHere_only ..).proposalCounter
    · rfl)]
  rw [foldl_keeps (g := fun s => s.proposalCounter) _ (by intro s c; rfl)]

@[simp] theorem registryDeparture_orphans (s : State) (p : Port) (cause : Reason) (after : List Nat) :
    (s.registryDeparture p cause after).orphans = s.orphans := by
  unfold State.registryDeparture
  dsimp only
  rw [tick_orphans]
  rw [foldl_keeps (g := fun s => s.orphans) _ (by intro s c; split <;> rfl)]
  rw [foldl_keeps (g := fun s => s.orphans) _ (by intro s c; split; · rfl
                                                  · split <;> rfl)]
  rw [tick_orphans]
  rw [foldl_keeps (g := fun s => s.orphans) _ (by intro s c; split; · exact (refavourHere_only ..).orphans
                                                  · rfl)]
  rw [foldl_keeps (g := fun s => s.orphans) _ (by intro s c; rfl)]

/-- The concurrence unit's part of a departure on one trunk: a proposal that requires the port is gone (R123). -/
theorem departTrunk_trunk (s : State) (p : Port) (cause : Reason) (after : List Nat) (t k : Trunk) :
    (s.departTrunk p cause after t).trunk k = if k = t then
      { s.trunk t with proposal := (s.trunk t).proposal.filter fun q => !PortSet.has q.required p } else s.trunk k := by
  unfold State.departTrunk State.closeHere
  split
  · next h =>
    split
    · next hk =>
      subst hk
      have : ({ s.trunk k with proposal := none } : TrunkState) = s.trunk k := by rw [← h]
      rw [h]
      exact this.symm
    · rfl
  · next q h =>
    split
    · next hr =>
      simp only [h, hr, Option.filter, offerHere_trunk, modTrunk_eq, trunk_setTrunk]
      rfl
    · next hr =>
      split
      · next hk =>
        subst hk
        have : ({ s.trunk k with proposal := some q } : TrunkState) = s.trunk k := by rw [← h]
        simp [h, hr, Option.filter, this]
      · rfl

theorem departTrunk_books (s : State) (p : Port) (cause : Reason) (after : List Nat) (t : Trunk) :
    Bookkeeping after s (s.departTrunk p cause after t) := by
  unfold State.departTrunk State.closeHere
  split
  · exact Bookkeeping.refl ..
  · next q h =>
    split
    · simp only [modTrunk_eq]
      exact Bookkeeping.trans (t := s.setTrunk t { s.trunk t with proposal := none })
        (setTrunk_books _ _ _ _ rfl rfl rfl rfl) (offerHere_books ..)
    · exact Bookkeeping.refl ..

theorem foldl_departTrunk (p : Port) (cause : Reason) (after : List Nat) (k : Trunk) :
    ∀ (ts : List Trunk) (s : State), ts.Nodup →
      (ts.foldl (fun s t => s.departTrunk p cause after t) s).trunk k = if k ∈ ts then
        { s.trunk k with proposal := (s.trunk k).proposal.filter fun q => !PortSet.has q.required p } else s.trunk k
  | [], s, _ => by simp
  | t :: ts, s, h => by
    rw [List.foldl_cons, foldl_departTrunk p cause after k ts _ (List.nodup_cons.mp h).2, departTrunk_trunk]
    by_cases hk : k = t
    · subst hk; simp [(List.nodup_cons.mp h).1]
    · simp [hk]

/-- What a departure does to every trunk (R68, R123). -/
theorem depart_trunk (s : State) (p : Port) (cause : Reason) (after : List Nat) (k : Trunk) :
    ∃ f, (s.depart p cause after).trunk k =
      { s.trunk k with
        ballots := (s.trunk k).ballots.set p.val none
        hold := (s.trunk k).hold.filter fun h => h.owner ≠ p
        proposal := (s.trunk k).proposal.filter fun q => !PortSet.has q.required p
        favoured := f } := by
  obtain ⟨u, hu, e⟩ := registryDeparture_trunk s p cause after k
  refine ⟨((s.registryDeparture p cause after).trunk k).favoured, ?_⟩
  unfold State.depart State.concurrenceDeparture
  rw [tick_trunk, foldl_departTrunk _ _ _ _ _ _ nodup_allTrunks, if_pos (mem_allTrunks k), e]
  split <;> rfl

theorem depart_books (s : State) (p : Port) (cause : Reason) (after : List Nat) :
    Bookkeeping after s (s.depart p cause after) := by
  unfold State.depart State.concurrenceDeparture
  exact ((registryDeparture_books ..).trans (foldl_books after _ (fun s t => departTrunk_books ..) _ _)).trans
    (tick_books ..)

theorem departTrunk_keeps {β : Type} (g : State → β) (h1 : ∀ s t x, g (State.setTrunk s t x) = g s)
    (h2 : ∀ s d b a e, g (State.offerHere s d b a e) = g s) (s : State) (p : Port) (cause : Reason) (after : List Nat)
    (t : Trunk) : g (s.departTrunk p cause after t) = g s := by
  unfold State.departTrunk State.closeHere
  split
  · rfl
  · split
    · split
      · rfl
      · rw [h2, modTrunk_eq, h1]
    · rfl

@[simp] theorem depart_lanes (s : State) (p : Port) (cause : Reason) (after : List Nat) :
    (s.depart p cause after).lanes = s.lanes := by
  unfold State.depart State.concurrenceDeparture
  rw [tick_lanes, foldl_keeps (g := fun s => s.lanes) _ (fun s t => departTrunk_keeps (fun s => s.lanes)
    (fun _ _ _ => rfl) (fun _ _ _ _ _ => rfl) s p cause after t), registryDeparture_lanes]

@[simp] theorem depart_proposalCounter (s : State) (p : Port) (cause : Reason) (after : List Nat) :
    (s.depart p cause after).proposalCounter = s.proposalCounter := by
  unfold State.depart State.concurrenceDeparture
  rw [tick_proposalCounter, foldl_keeps (g := fun s => s.proposalCounter) _ (fun s t => departTrunk_keeps
    (fun s => s.proposalCounter) (fun _ _ _ => rfl) (fun _ _ _ _ _ => rfl) s p cause after t), registryDeparture_counter]

@[simp] theorem depart_orphans (s : State) (p : Port) (cause : Reason) (after : List Nat) :
    (s.depart p cause after).orphans = s.orphans := by
  unfold State.depart State.concurrenceDeparture
  rw [tick_orphans, foldl_keeps (g := fun s => s.orphans) _ (fun s t => departTrunk_keeps
    (fun s => s.orphans) (fun _ _ _ => rfl) (fun _ _ _ _ _ => rfl) s p cause after t), registryDeparture_orphans]

end Sys2Proof.Machine
end

