-- ==== Sys2Proof/Laws/Departures.lean ====
section
/-! SUPPORT. The triggers and offers of a departure (R68, R123), and what a departure does as a whole. -/

namespace Sys2Proof.Machine

/-! ## Work that only appends offers, or triggers -/

/-- Nothing but offers differs: those made are of the block, time, destination and stamps given, with the events given. -/
structure Offers (b : Block) (dest : List Port) (after : List Nat) (events : List Event) (s t : State) : Prop where
  offers : ∃ more, t.offers = s.offers ++ more ∧
    more.map (fun o => (o.event, o.block, o.dest)) = events.map (fun e => (e, b, dest)) ∧
    ∀ o ∈ more, o.time = s.blockCounter ∧ after ⊆ o.after
  blockCounter : t.blockCounter = s.blockCounter

theorem Offers.nil {b : Block} {dest : List Port} {after : List Nat} {s t : State} (ho : t.offers = s.offers)
    (hc : t.blockCounter = s.blockCounter) : Offers b dest after [] s t := ⟨⟨[], by simp [ho], rfl, by simp⟩, hc⟩

theorem Offers.trans {b : Block} {dest : List Port} {after : List Nat} {es es' : List Event} {s t u : State}
    (h : Offers b dest after es s t) (h' : Offers b dest after es' t u) : Offers b dest after (es ++ es') s u := by
  obtain ⟨m, hm, hm1, hm2⟩ := h.offers
  obtain ⟨n, hn, hn1, hn2⟩ := h'.offers
  refine ⟨⟨m ++ n, by rw [hn, hm, List.append_assoc], by rw [List.map_append, List.map_append, hm1, hn1], fun o ho => ?_⟩,
    h'.blockCounter.trans h.blockCounter⟩
  rcases List.mem_append.mp ho with ho | ho
  · exact hm2 o ho
  · rw [← h.blockCounter]; exact hn2 o ho

theorem Offers.tick {b : Block} {dest : List Port} {after : List Nat} {es : List Event} {s t : State}
    (h : Offers b dest after es s t) : Offers b dest after es s t.tick := ⟨h.offers, h.blockCounter⟩

theorem offerHere_offersOne (s : State) (b : Block) (dest : List Port) (after : List Nat) (e : Event) :
    Offers b dest after [e] s (s.offerHere dest b after e) := ⟨⟨[_], rfl, rfl, by simp⟩, rfl⟩

/-- A fold offers what its steps offer, where each step's offers are those of the state the fold began with. -/
theorem foldl_offers {α : Type} {b : Block} {dest : List Port} {after : List Nat} (f : State → α → State)
    (es : State → α → List Event)
    (h : ∀ s t, Offers b dest after (es s t) s (f s t)) (hk : ∀ s t k, k ≠ t → es (f s t) k = es s k) :
    ∀ (ts : List α) (s : State), ts.Nodup → Offers b dest after (ts.flatMap (es s)) s (ts.foldl f s)
  | [], s, _ => Offers.nil rfl rfl
  | t :: ts, s, hn => by
    rw [List.flatMap_cons, List.foldl_cons]
    have e : ts.flatMap (es s) = ts.flatMap (es (f s t)) := by
      refine List.flatMap_congr fun k hk' => (hk s t k ?_).symm
      rintro rfl
      exact (List.nodup_cons.mp hn).1 hk'
    rw [e]
    exact (h s t).trans (foldl_offers f es h hk ts _ (List.nodup_cons.mp hn).2)

/-! ## The registry's part -/

/-- The FAVOURED-CHANGED of a recomputation, if there is one (R58). -/
def State.favouredChange (s : State) (t : Trunk) : List Event :=
  if s.favouredNow t = (s.trunk t).favoured then []
  else [.favouredChanged t (s.trunk t).favoured (s.favouredNow t) (match s.favouredNow t with
    | some l => s.ballotsFor t l
    | none => 0) (s.trunk t).charter.version]

theorem refavourHere_offers (s : State) (t : Trunk) (after : List Nat) :
    Offers .registry allPorts after (s.favouredChange t) s (s.refavourHere t after) := by
  unfold State.refavourHere State.favouredChange
  dsimp only
  split
  · exact Offers.nil rfl rfl
  · exact ⟨⟨[_], rfl, rfl, by simp⟩, rfl⟩

theorem favouredChange_congr {s t : State} {k : Trunk} (h : t.trunk k = s.trunk k) : t.favouredChange k = s.favouredChange k := by
  have hf : t.favouredNow k = s.favouredNow k := favouredNow_congr (by simp [State.members, h]) (by rw [h])
  have hb : ∀ l, t.ballotsFor k l = s.ballotsFor k l := fun l => by simp only [State.ballotsFor, h]
  unfold State.favouredChange
  rw [hf, h]
  cases s.favouredNow k <;> simp only [hb]

/-- The events of a departure at the registry: the changes of the favoured lanes, with the claims gone (R68 step 3). -/
def State.departureChanges (s : State) (p : Port) : List Event :=
  allTrunks.flatMap fun k =>
    if (s.trunk k).ballots[p.val].isSome then
      (allTrunks.foldl (fun s t => s.dropClaims p t) s).favouredChange k
    else []

/-- The CLAIM-DROPPED events of a departure (R68 step 5). -/
def State.departureDrops (s : State) (p : Port) (cause : Reason) : List Event :=
  allTrunks.flatMap fun k =>
    if (s.claimsOf p k).1.isSome || (s.claimsOf p k).2.isSome then
      [.claimDropped k p (s.port p).session (s.claimsOf p k).1 (s.claimsOf p k).2 cause]
    else []

/-- The triggers of a departure (R68 step 4): the trunk and the kind. -/
def State.departureKinds (s : State) (p : Port) : List (Trunk × TriggerKind × Block) :=
  allTrunks.flatMap fun k =>
    if (s.claimsOf p k).2.isSome then [(k, .hold, .registry)]
    else if (s.claimsOf p k).1.isSome then [(k, .ballot, .registry)]
    else []

theorem dropAll_offers (s : State) (p : Port) :
    (allTrunks.foldl (fun s t => s.dropClaims p t) s).offers = s.offers ∧
      (allTrunks.foldl (fun s t => s.dropClaims p t) s).blockCounter = s.blockCounter ∧
      (allTrunks.foldl (fun s t => s.dropClaims p t) s).triggers = s.triggers :=
  ⟨foldl_keeps (fun s t => s.dropClaims p t) (fun s => s.offers) (fun _ _ => rfl) _ s,
    foldl_keeps (fun s t => s.dropClaims p t) (fun s => s.blockCounter) (fun _ _ => rfl) _ s,
    foldl_keeps (fun s t => s.dropClaims p t) (fun s => s.triggers) (fun _ _ => rfl) _ s⟩

theorem foldl_sends (p : Port) (after : List Nat) (c : Trunk → Option Lane × Option Lane) :
    ∀ (ts : List Trunk) (s : State), ∃ more, (ts.foldl (fun s k =>
      if (c k).2.isSome then s.send k .hold .registry after
      else if (c k).1.isSome then s.send k .ballot .registry after else s) s).triggers = s.triggers ++ more ∧
      more.map (fun g => (g.trunk, g.kind, g.sender)) = (ts.flatMap fun k =>
        if (c k).2.isSome then [(k, TriggerKind.hold, Block.registry)]
        else if (c k).1.isSome then [(k, .ballot, .registry)] else []) ∧ ∀ g ∈ more, g.after = after
  | [], s => ⟨[], by simp, rfl, by simp⟩
  | k :: ts, s => by
    rw [List.foldl_cons, List.flatMap_cons]
    obtain ⟨m, h1, h2, h3⟩ := foldl_sends p after c ts (if (c k).2.isSome then s.send k .hold .registry after
      else if (c k).1.isSome then s.send k .ballot .registry after else s)
    rw [h1, ← h2]
    by_cases hh : (c k).2.isSome
    · exact ⟨⟨k, .hold, .registry, s.stamp, after⟩ :: m, by simp [hh], by simp [hh], by simpa using h3⟩
    · by_cases hb : (c k).1.isSome
      · exact ⟨⟨k, .ballot, .registry, s.stamp, after⟩ :: m, by simp [hh, hb], by simp [hh, hb], by simpa using h3⟩
      · exact ⟨m, by simp [hh, hb], by simp [hh, hb], h3⟩

/-- The triggers and offers of the registry's part of a departure (R68). -/
theorem registryDeparture_sends (s : State) (p : Port) (cause : Reason) (after : List Nat) :
    (∃ more, (s.registryDeparture p cause after).triggers = s.triggers ++ more ∧
      more.map (fun g => (g.trunk, g.kind, g.sender)) = s.departureKinds p ∧ ∀ g ∈ more, after ⊆ g.after) ∧
    ∃ u, Offers .registry allPorts after (s.departureChanges p) s u ∧
      Offers .registry [p] after (s.departureDrops p cause) u (s.registryDeparture p cause after) := by
  unfold State.registryDeparture
  dsimp only
  obtain ⟨o1, c1, t1⟩ := dropAll_offers s p
  simp only [List.foldl_map]
  unfold State.departureChanges State.departureDrops State.departureKinds
  generalize ht : allTrunks.foldl (fun s t => s.dropClaims p t) s = u at *
  generalize hv : (allTrunks.foldl (fun v t => if (s.claimsOf p t).1.isSome then v.refavourHere t after else v) u).tick = v
  have hv1 : Offers .registry allPorts after (allTrunks.flatMap fun k =>
      if (s.trunk k).ballots[p.val].isSome then u.favouredChange k else []) u v := by
    rw [← hv]
    refine Offers.tick (foldl_offers (b := .registry) (dest := allPorts) (after := after)
      (fun v t => if (s.claimsOf p t).1.isSome then v.refavourHere t after else v)
      (fun v t => if (s.trunk t).ballots[p.val].isSome then v.favouredChange t else []) (fun w t => ?_) (fun w t k hk => ?_)
      allTrunks u nodup_allTrunks)
    · by_cases hb : (s.trunk t).ballots[p.val].isSome
      · simp only [State.claimsOf, hb, if_true]; exact refavourHere_offers ..
      · simp only [State.claimsOf, hb, if_false, Bool.false_eq_true]; exact Offers.nil rfl rfl
    · rw [favouredChange_congr (t := if (s.claimsOf p t).1.isSome then w.refavourHere t after else w) (s := w)]
      split
      · rw [refavourHere_trunk, if_neg hk]
      · rfl
  have hvt : v.triggers = s.triggers := by
    rw [← hv, tick_triggers, foldl_keeps (g := fun s => s.triggers) _ (by
      intro s c; split
      · exact refavourHere_triggers ..
      · rfl), t1]
  obtain ⟨m, h1, h2, h3⟩ := foldl_sends p (v.handOn .registry after) (s.claimsOf p) allTrunks v
  generalize hw : allTrunks.foldl (fun x k => if (s.claimsOf p k).2.isSome then x.send k .hold .registry (v.handOn .registry after)
      else if (s.claimsOf p k).1.isSome then x.send k .ballot .registry (v.handOn .registry after) else x) v = w at *
  have hwo : w.offers = v.offers ∧ w.blockCounter = v.blockCounter := by
    have keep {β : Type} (g : State → β) (hs : ∀ s t k b a, g (State.send s t k b a) = g s) : g w = g v := by
      rw [← hw]
      refine foldl_keeps (g := g) _ (fun s c => ?_) _ _
      split
      · exact hs ..
      · split
        · exact hs ..
        · rfl
    exact ⟨keep _ fun _ _ _ _ _ => rfl, keep _ fun _ _ _ _ _ => rfl⟩
  refine ⟨⟨m, ?_, h2, fun g hg => by rw [h3 g hg]; exact subset_handOn ..⟩, w, ?_, ?_⟩
  · rw [tick_triggers, foldl_keeps (g := fun s => s.triggers) _ (by intro s c; split <;> rfl), h1, hvt]
  · have := hv1.trans (Offers.nil (b := .registry) (dest := allPorts) (after := after) hwo.1 hwo.2)
    rw [List.append_nil] at this
    obtain ⟨m, e1, e2, e3⟩ := this.offers
    exact ⟨⟨m, by rw [e1, o1], e2, by rw [← c1]; exact e3⟩, by rw [this.blockCounter, c1]⟩
  · refine Offers.tick (foldl_offers (b := .registry) (dest := [p]) (after := after)
      (fun x k => if (s.claimsOf p k).1.isSome || (s.claimsOf p k).2.isSome then
        x.offerHere [p] .registry after (.claimDropped k p (s.port p).session (s.claimsOf p k).1 (s.claimsOf p k).2 cause) else x)
      (fun _ k => if (s.claimsOf p k).1.isSome || (s.claimsOf p k).2.isSome then
        [.claimDropped k p (s.port p).session (s.claimsOf p k).1 (s.claimsOf p k).2 cause] else []) (fun x k => ?_)
      (fun _ _ _ _ => rfl) allTrunks w nodup_allTrunks)
    split
    · exact offerHere_offersOne ..
    · exact Offers.nil rfl rfl

/-! ## The concurrence unit's part -/

/-- The CLOSED event of a departure on a trunk, if there is one (R123). -/
def State.departureClosing (s : State) (p : Port) (cause : Reason) (k : Trunk) : List Event :=
  match (s.trunk k).proposal with
  | none => []
  | some q =>
    if PortSet.has q.required p then
      [.closed k q.number (if q.proposer = p then .withdrawn else .voided) (some p) cause q.concurred]
    else []

theorem departTrunk_offers (s : State) (p : Port) (cause : Reason) (after : List Nat) (t : Trunk) :
    Offers .concurrence allPorts after (s.departureClosing p cause t) s (s.departTrunk p cause after t) := by
  unfold State.departTrunk State.closeHere State.departureClosing
  cases hq : (s.trunk t).proposal with
  | none => exact Offers.nil rfl rfl
  | some q =>
    by_cases hr : PortSet.has q.required p
    · simp only [hr, if_true]
      exact ⟨⟨[⟨_, s.blockCounter, .concurrence, s.stamp, after, allPorts⟩], rfl, rfl, by simp⟩, rfl⟩
    · simp only [hr, if_false, Bool.false_eq_true]
      exact Offers.nil rfl rfl

theorem concurrenceDeparture_offers (s : State) (p : Port) (cause : Reason) (after : List Nat) :
    Offers .concurrence allPorts after (allTrunks.flatMap (s.departureClosing p cause)) s
      (s.concurrenceDeparture p cause after) := by
  unfold State.concurrenceDeparture
  refine Offers.tick (foldl_offers (b := .concurrence) (dest := allPorts) (after := after)
    (fun s t => s.departTrunk p cause after t) (fun s t => s.departureClosing p cause t) (fun s t => departTrunk_offers ..)
    (fun s t k hk => ?_) allTrunks s nodup_allTrunks)
  unfold State.departureClosing
  rw [departTrunk_trunk, if_neg hk]

/-! ## A departure -/

theorem claimsOf_hold (s : State) (p : Port) (k : Trunk) :
    (s.claimsOf p k).2 = ((s.trunk k).hold.filter fun h => h.owner = p).map Hold.lane := by
  unfold State.claimsOf
  cases (s.trunk k).hold with
  | none => rfl
  | some h => by_cases ho : h.owner = p <;> simp [ho, Option.filter]

theorem flatMap_eq_filterMap {α β : Type} (f : α → List β) (g : α → Option β) (h : ∀ a, f a = (g a).toList) (as : List α) :
    as.flatMap f = as.filterMap g := by
  induction as with
  | nil => rfl
  | cons a as ih => rw [List.flatMap_cons, List.filterMap_cons, ih, h]; cases g a <;> rfl

/-- What the registry and the concurrence unit do with a departure, once the port controller has changed port p's record and made
its own offers. -/
theorem depart_departs {s u : State} {p : Port} (cause : Reason) {own : List Offer} (hp : ∀ q : Port, q ≠ p → u.port q = s.port q)
    (hs : (u.port p).session = (s.port p).session) (ht : u.trunks = s.trunks) (hl : u.lanes = s.lanes)
    (hg : u.triggers = s.triggers) (hc : u.blockCounter = s.blockCounter) (ho : u.offers = s.offers ++ own) :
    Departs p cause own s (u.depart p cause (u.handOn (.portController p) [])) := by
  generalize ha : u.handOn (.portController p) [] = after
  have hin : ∀ o ∈ s.offers ++ own, o.block = .portController p → o.stamp ∈ after := by
    intro o h1 h2
    rw [← ha]
    exact stamp_mem_handOn (s := u) [] (ho ▸ h1) h2
  have tk : ∀ k, u.trunk k = s.trunk k := trunk_of_trunks ht
  have bk := depart_books u p cause after
  have tr := fun k => depart_trunk u p cause after k
  obtain ⟨⟨m, m1, m2, m3⟩, w, w1, w2⟩ := registryDeparture_sends u p cause after
  have cd := concurrenceDeparture_offers (u.registryDeparture p cause after) p cause after
  have keeps : (u.depart p cause after).triggers = (u.registryDeparture p cause after).triggers := by
    unfold State.depart State.concurrenceDeparture
    rw [tick_triggers, foldl_keeps (g := fun s => s.triggers) _ (fun s t => departTrunk_keeps (fun s => s.triggers)
      (fun _ _ _ => rfl) (fun _ _ _ _ _ => rfl) s p cause after t)]
  have rk := fun k => registryDeparture_trunk u p cause after k
  have dk : ∀ k, (u.depart p cause after).trunk k = { (u.registryDeparture p cause after).trunk k with
      proposal := ((u.registryDeparture p cause after).trunk k).proposal.filter fun q => !PortSet.has q.required p } := by
    intro k
    unfold State.depart State.concurrenceDeparture
    rw [tick_trunk, foldl_departTrunk _ _ _ _ _ _ nodup_allTrunks, if_pos (mem_allTrunks k)]
  generalize ht' : u.depart p cause after = t at *
  have now : ∀ (v : State) (k : Trunk), v.trunk k = (u.trunk k).without p → v.favouredNow k = t.favouredNow k ∧
      ∀ l, v.ballotsFor k l = t.ballotsFor k l := by
    intro v k hv
    obtain ⟨f, hf⟩ := tr k
    have hb : (v.trunk k).ballots = (t.trunk k).ballots := by rw [hv, hf]; rfl
    exact ⟨favouredNow_congr (by simp only [State.members]; rw [hv, hf]; rfl) hb, fun l => by simp only [State.ballotsFor, hb]⟩
  have fav : ∀ k, (t.trunk k).favoured =
      if (s.trunk k).ballots[p.val].isSome then t.favouredNow k else (s.trunk k).favoured := by
    intro k
    obtain ⟨v, hv, e⟩ := rk k
    rw [dk, e, tk, ← (now v k hv).1]
    split <;> rfl
  have hold : ∀ k, (u.claimsOf p k).2.isSome = (s.trunk k).hold.any fun h => h.owner = p := by
    intro k
    rw [claimsOf_hold, tk]
    cases (s.trunk k).hold with
    | none => rfl
    | some h => by_cases ho : h.owner = p <;> simp [ho, Option.filter]
  obtain ⟨a1, a2, a3, a4⟩ := w1.offers
  obtain ⟨b1, b2, b3, b4⟩ := w2.offers
  obtain ⟨c1, c2, c3, c4⟩ := cd.offers
  have hx : (u.registryDeparture p cause after).concurrenceDeparture p cause after = t := ht'
  rw [hx] at c2
  refine
    { lanes := by rw [← ht', depart_lanes, hl]
      ports := fun q hq => by rw [port_of_ports bk.ports, hp q hq]
      charter := fun k => by obtain ⟨f, hf⟩ := tr k; rw [hf, tk]
      sel := fun k => by rw [bk.sel, tk]
      em := fun k => by rw [bk.em, tk]
      history := fun k => by rw [bk.history, tk]
      ballots := fun k => by obtain ⟨f, hf⟩ := tr k; rw [hf, tk]
      hold := fun k => by obtain ⟨f, hf⟩ := tr k; rw [hf, tk]
      proposal := fun k => by obtain ⟨f, hf⟩ := tr k; rw [hf, tk]
      favoured := fav
      sent := ⟨m, by rw [keeps, m1, hg], ?_, fun g hgm o ho hb => m3 g hgm (hin o ho hb)⟩
      offered := ⟨a1 ++ b1 ++ c1, ?_, ?_, fun o ho => ?_⟩ }
  · rw [m2]
    refine flatMap_eq_filterMap _ _ (fun k => ?_) _
    rw [hold]
    have : (u.claimsOf p k).1 = (s.trunk k).ballots[p.val] := by simp [State.claimsOf, tk]
    rw [this]
    split
    · rfl
    · split <;> rfl
  · rw [c2, b2, a2, ho]; simp
  · rw [List.map_append, List.map_append, a3, b3, c3]
    unfold State.departureChanges State.departureDrops
    simp only [List.map_flatMap]
    refine congrArg₂ _ (congrArg₂ _ ?_ ?_) ?_
    · refine flatMap_eq_filterMap _ _ (fun k => ?_) _
      have hd := dropAll_trunk u p k
      have hn := now _ k hd
      rw [fav, tk]
      by_cases hb : (s.trunk k).ballots[p.val].isSome
      · simp only [hb, if_true, State.favouredChange, hn.1, hd, tk]
        by_cases he : t.favouredNow k = (s.trunk k).favoured
        · simp [he, TrunkState.without]
        · simp only [TrunkState.without, he, if_false, List.map_cons, List.map_nil, Option.toList_some]
          cases t.favouredNow k <;> simp only [hn.2]
      · simp [hb]
    · refine flatMap_eq_filterMap _ _ (fun k => ?_) _
      have : (u.claimsOf p k).1 = (s.trunk k).ballots[p.val] := by simp [State.claimsOf, tk]
      rw [this, claimsOf_hold, tk, hs]
      split <;> simp
    · refine flatMap_eq_filterMap _ _ (fun k => ?_) _
      have : ((u.registryDeparture p cause after).trunk k).proposal = (s.trunk k).proposal := by
        obtain ⟨v, hv, e⟩ := rk k
        rw [e, tk]
        split <;> rfl
      unfold State.departureClosing
      rw [this]
      cases (s.trunk k).proposal with
      | none => rfl
      | some q => by_cases hr : PortSet.has q.required p <;> simp [hr, Option.filter]
  · have hw : ∀ o ∈ a1 ++ b1 ++ c1, o.time = s.blockCounter ∧ after ⊆ o.after := by
      intro o ho
      rcases List.mem_append.mp ho with ho | ho
      · rcases List.mem_append.mp ho with ho | ho
        · rw [← hc]; exact a4 o ho
        · rw [← hc, ← w1.blockCounter]; exact b4 o ho
      · rw [← hc, ← w1.blockCounter, ← w2.blockCounter]; exact c4 o ho
    exact ⟨(hw o ho).1, fun a h1 h2 => (hw o ho).2 (hin a h1 h2)⟩

/-- A departure stays one when port p's own record is replaced after it. -/
theorem Departs.setPort {p : Port} {cause : Reason} {own : List Offer} {s t : State} (h : Departs p cause own s t)
    (x : PortState) : Departs p cause own s (t.setPort p x) :=
  ⟨h.lanes, fun q hq => (port_setPort_ne t x hq).trans (h.ports q hq), h.charter, h.sel, h.em, h.history, h.ballots, h.hold,
    h.proposal, fun k => (h.favoured k).trans (by rw [favouredNow_congr (s := t.setPort p x) (t := t) rfl rfl]), h.sent,
    h.offered⟩

end Sys2Proof.Machine
end

