-- ==== Sys2Proof/Laws/Install.lean ====
section
/-! SUPPORT. What an install does (R45, R49, R50, R69, R117), field by field. -/

namespace Sys2Proof.Machine

/-! ## The discards -/

/-- A trunk's record whose ballots and hold name only the lanes given (R69). -/
def TrunkState.discarded (x : TrunkState) (ms : List Lane) : TrunkState :=
  { x with
    ballots := x.ballots.map fun b => b.filter fun l => ms.contains l
    hold := x.hold.filter fun h => ms.contains h.lane }

/-- Work that keeps lanes, the proposal counter, orphans, triggers and the other trunks. -/
structure TrunkBooks (k : Trunk) (s t : State) : Prop where
  lanes : t.lanes = s.lanes
  proposalCounter : t.proposalCounter = s.proposalCounter
  orphans : t.orphans = s.orphans
  triggers : t.triggers = s.triggers
  trunks : ∀ u : Trunk, u ≠ k → t.trunk u = s.trunk u

theorem TrunkBooks.refl (k : Trunk) (s : State) : TrunkBooks k s s := ⟨rfl, rfl, rfl, rfl, fun _ _ => rfl⟩

theorem TrunkBooks.trans {k : Trunk} {s t u : State} (h : TrunkBooks k s t) (h' : TrunkBooks k t u) : TrunkBooks k s u :=
  ⟨h'.lanes.trans h.lanes, h'.proposalCounter.trans h.proposalCounter, h'.orphans.trans h.orphans,
    h'.triggers.trans h.triggers, fun v hv => (h'.trunks v hv).trans (h.trunks v hv)⟩

theorem setTrunk_trunkBooks (s : State) (k : Trunk) (x : TrunkState) : TrunkBooks k s (s.setTrunk k x) :=
  ⟨rfl, rfl, rfl, rfl, fun _ h => trunk_setTrunk_ne s x h⟩

theorem offerHere_trunkBooks (k : Trunk) (s : State) (dest : List Port) (b : Block) (after : List Nat) (e : Event) :
    TrunkBooks k s (s.offerHere dest b after e) := ⟨rfl, rfl, rfl, rfl, fun _ _ => rfl⟩

theorem tick_trunkBooks (k : Trunk) (s : State) : TrunkBooks k s s.tick := ⟨rfl, rfl, rfl, rfl, fun _ _ => rfl⟩

/-- One ballot of the discards. -/
def State.discardBallot (ms : List Lane) (v : Pair) (t : Trunk) (after : List Nat) (s : State) (p : Port) : State :=
  match (s.trunk t).ballots[p.val] with
  | none => s
  | some l =>
    if ms.contains l then s
    else
      (s.modTrunk t fun x => { x with ballots := x.ballots.set p.val none }).offerHere allPorts .registry after
        (.claimDiscarded t false p l v)

theorem discardBallots_eq (s : State) (t : Trunk) (after : List Nat) :
    s.discardBallots t after =
      allPorts.foldl (State.discardBallot (s.members t) (s.trunk t).charter.version t after) s := rfl

theorem discardBallot_trunk (ms : List Lane) (v : Pair) (t : Trunk) (after : List Nat) (s : State) (p : Port) :
    (State.discardBallot ms v t after s p).trunk t =
      { s.trunk t with ballots := (s.trunk t).ballots.set p.val ((s.trunk t).ballots[p.val].filter fun l => ms.contains l) } := by
  have keep : ∀ b, (s.trunk t).ballots[p.val] = b →
      ({ s.trunk t with ballots := (s.trunk t).ballots.set p.val b } : TrunkState) = s.trunk t := by
    rintro _ rfl; simp
  unfold State.discardBallot
  split
  · next h => rw [h]; exact (keep _ h).symm
  · next l h =>
    rw [h]
    by_cases hm : ms.contains l = true
    · simp only [hm, if_true, Option.filter]
      exact (keep _ h).symm
    · simp only [hm, Option.filter]
      simp

theorem discardBallot_books (ms : List Lane) (v : Pair) (t : Trunk) (after : List Nat) (s : State) (p : Port) :
    Bookkeeping after s (State.discardBallot ms v t after s p) := by
  unfold State.discardBallot
  split
  · exact Bookkeeping.refl ..
  · next l h =>
    split
    · exact Bookkeeping.refl ..
    · rw [modTrunk_eq]
      exact Bookkeeping.trans (t := s.setTrunk t { s.trunk t with ballots := (s.trunk t).ballots.set p.val none })
        (setTrunk_books _ _ _ _ rfl rfl rfl rfl) (offerHere_books ..)

theorem discardBallot_trunkBooks (ms : List Lane) (v : Pair) (t : Trunk) (after : List Nat) (s : State) (p : Port) :
    TrunkBooks t s (State.discardBallot ms v t after s p) := by
  unfold State.discardBallot
  split
  · exact TrunkBooks.refl ..
  · split
    · exact TrunkBooks.refl ..
    · rw [modTrunk_eq]
      exact (setTrunk_trunkBooks ..).trans (offerHere_trunkBooks ..)

theorem discardBallots_trunk (s : State) (t : Trunk) (after : List Nat) :
    (s.discardBallots t after).trunk t =
      { s.trunk t with ballots := (s.trunk t).ballots.map fun b => b.filter fun l => (s.members t).contains l } := by
  rw [discardBallots_eq]
  generalize s.members t = ms
  generalize (s.trunk t).charter.version = v
  simp only [allPorts, List.foldl_cons, List.foldl_nil, discardBallot_trunk]
  congr 1
  apply Vector.ext
  intro i hi
  have : i = 0 ∨ i = 1 ∨ i = 2 ∨ i = 3 := by omega
  rcases this with rfl | rfl | rfl | rfl <;> simp

theorem discardBallots_books (s : State) (t : Trunk) (after : List Nat) :
    Bookkeeping after s (s.discardBallots t after) := by
  rw [discardBallots_eq]
  exact foldl_books after _ (fun s p => discardBallot_books ..) _ _

theorem foldl_trunkBooks {α : Type} (k : Trunk) (f : State → α → State) (h : ∀ s a, TrunkBooks k s (f s a)) :
    ∀ (as : List α) (s : State), TrunkBooks k s (as.foldl f s)
  | [], _ => TrunkBooks.refl ..
  | a :: as, s => (h s a).trans (foldl_trunkBooks k f h as _)

theorem discardBallots_trunkBooks (s : State) (t : Trunk) (after : List Nat) :
    TrunkBooks t s (s.discardBallots t after) := by
  rw [discardBallots_eq]
  exact foldl_trunkBooks t _ (fun s p => discardBallot_trunkBooks ..) _ _

theorem discardHold_trunk (s : State) (t : Trunk) (after : List Nat) :
    (s.discardHold t after).trunk t =
      { s.trunk t with hold := (s.trunk t).hold.filter fun h => (s.members t).contains h.lane } := by
  have keep : ∀ h, (s.trunk t).hold = h → ({ s.trunk t with hold := h } : TrunkState) = s.trunk t := by
    rintro _ rfl; rfl
  unfold State.discardHold
  split
  · next h => rw [h]; exact (keep _ h).symm
  · next x h =>
    rw [h]
    by_cases hm : (s.members t).contains x.lane = true
    · simp only [hm, if_true, Option.filter]
      exact (keep _ h).symm
    · simp only [hm, Option.filter]
      simp

theorem discardHold_books (s : State) (t : Trunk) (after : List Nat) : Bookkeeping after s (s.discardHold t after) := by
  unfold State.discardHold
  split
  · exact Bookkeeping.refl ..
  · split
    · exact Bookkeeping.refl ..
    · rw [modTrunk_eq]
      exact Bookkeeping.trans (t := s.setTrunk t { s.trunk t with hold := none })
        (setTrunk_books _ _ _ _ rfl rfl rfl rfl) (offerHere_books ..)

theorem discardHold_trunkBooks (s : State) (t : Trunk) (after : List Nat) : TrunkBooks t s (s.discardHold t after) := by
  unfold State.discardHold
  split
  · exact TrunkBooks.refl ..
  · split
    · exact TrunkBooks.refl ..
    · rw [modTrunk_eq]
      exact (setTrunk_trunkBooks ..).trans (offerHere_trunkBooks ..)

theorem refavourHere_trunkBooks (s : State) (t : Trunk) (after : List Nat) :
    TrunkBooks t s (s.refavourHere t after) := by
  unfold State.refavourHere
  dsimp only
  split
  · exact TrunkBooks.refl ..
  · rw [modTrunk_eq]
    exact (setTrunk_trunkBooks ..).trans (offerHere_trunkBooks ..)

/-- The registry's part of an install: claims that name no member are gone, and the favoured lane is that of R58 (R69). -/
theorem registryInstall_trunk (s : State) (t : Trunk) (after : List Nat) :
    (s.registryInstall t after).trunk t =
      { (s.trunk t).discarded (s.members t) with favoured := (s.registryInstall t after).favouredNow t } := by
  have hm : ((s.discardBallots t after).members t) = s.members t := by
    simp [State.members, discardBallots_trunk]
  have e : (((s.discardBallots t after).discardHold t after).tick).trunk t = (s.trunk t).discarded (s.members t) := by
    rw [tick_trunk, discardHold_trunk, hm, discardBallots_trunk]
    rfl
  have hf : (s.registryInstall t after).favouredNow t =
      (((s.discardBallots t after).discardHold t after).tick).favouredNow t := by
    apply favouredNow_congr <;> simp [State.registryInstall, State.refavour, State.members, refavourHere_trunk]
  rw [hf]
  unfold State.registryInstall State.refavour
  rw [tick_trunk, refavourHere_trunk, if_pos rfl, e]

theorem registryInstall_books (s : State) (t : Trunk) (after : List Nat) :
    Bookkeeping after s (s.registryInstall t after) := by
  unfold State.registryInstall State.refavour
  exact ((((discardBallots_books ..).trans (discardHold_books ..)).trans (tick_books ..)).trans
    (refavourHere_books ..)).trans (tick_books ..)

theorem registryInstall_trunkBooks (s : State) (t : Trunk) (after : List Nat) :
    TrunkBooks t s (s.registryInstall t after) := by
  unfold State.registryInstall State.refavour
  exact ((((discardBallots_trunkBooks ..).trans (discardHold_trunkBooks ..)).trans (tick_trunkBooks ..)).trans
    (refavourHere_trunkBooks ..)).trans (tick_trunkBooks ..)

/-! ## The offers of the discards -/

/-- The CLAIM-DISCARDED of a port's ballot, if its lane is none of those given (R69). -/
def TrunkState.ballotDiscard (x : TrunkState) (ms : List Lane) (t : Trunk) (p : Port) : List Event :=
  ((x.ballots[p.val].filter fun l => !ms.contains l).map fun l => .claimDiscarded t false p l x.charter.version).toList

/-- The CLAIM-DISCARDED of the hold, if its lane is none of those given (R69). -/
def TrunkState.holdDiscard (x : TrunkState) (ms : List Lane) (t : Trunk) : List Event :=
  ((x.hold.filter fun h => !ms.contains h.lane).map fun h => .claimDiscarded t true h.owner h.lane x.charter.version).toList

theorem discardBallots_offers (s : State) (t : Trunk) (after : List Nat) :
    Offers .registry allPorts after (allPorts.flatMap ((s.trunk t).ballotDiscard (s.members t) t)) s
      (s.discardBallots t after) := by
  rw [discardBallots_eq]
  generalize hv : (s.trunk t).charter.version = v
  generalize s.members t = ms
  have e : allPorts.flatMap ((s.trunk t).ballotDiscard ms t) = allPorts.flatMap fun p =>
      (((s.trunk t).ballots[p.val].filter fun l => !ms.contains l).map fun l => Event.claimDiscarded t false p l v).toList := by
    refine List.flatMap_congr fun p _ => ?_
    rw [TrunkState.ballotDiscard, hv]
  rw [e]
  refine foldl_offers (b := .registry) (dest := allPorts) (after := after) (State.discardBallot ms v t after)
    (fun s p => (((s.trunk t).ballots[p.val].filter fun l => !ms.contains l).map fun l =>
      Event.claimDiscarded t false p l v).toList) (fun s p => ?_) (fun s p k hk => ?_) allPorts s nodup_allPorts
  · unfold State.discardBallot
    cases hb : (s.trunk t).ballots[p.val] with
    | none => exact Offers.nil rfl rfl
    | some l =>
      by_cases hm : ms.contains l = true
      · simp only [hm, if_true, Option.filter, Bool.not_true]
        exact Offers.nil rfl rfl
      · simp only [hm, Option.filter, Bool.not_false, if_true]
        exact ⟨⟨[⟨_, s.blockCounter, .registry, s.stamp, after, allPorts⟩], rfl, rfl, by simp⟩, rfl⟩
  · have hne : p.val ≠ k.val := fun h => hk (Fin.ext h.symm)
    simp only [discardBallot_trunk, Vector.getElem_set, hne, if_false]

theorem discardHold_offers (s : State) (t : Trunk) (after : List Nat) :
    Offers .registry allPorts after ((s.trunk t).holdDiscard (s.members t) t) s (s.discardHold t after) := by
  unfold State.discardHold TrunkState.holdDiscard
  cases hh : (s.trunk t).hold with
  | none => exact Offers.nil rfl rfl
  | some h =>
    by_cases hm : (s.members t).contains h.lane = true
    · simp only [hm, if_true, Option.filter, Bool.not_true]
      exact Offers.nil rfl rfl
    · simp only [hm, Option.filter, Bool.not_false, if_true]
      refine ⟨⟨[⟨_, s.blockCounter, .registry, s.stamp, after, allPorts⟩], rfl, ?_, by simp⟩, rfl⟩
      simp

/-- The FAVOURED-CHANGED of an install (R69), told by the record after it. -/
def State.favouredInstall (s r : State) (t : Trunk) : List Event :=
  if (r.trunk t).favoured = (s.trunk t).favoured then []
  else [.favouredChanged t (s.trunk t).favoured (r.trunk t).favoured (match (r.trunk t).favoured with
    | some l => r.ballotsFor t l
    | none => 0) (s.trunk t).charter.version]

theorem registryInstall_offers (s : State) (t : Trunk) (after : List Nat) :
    Offers .registry allPorts after
      (allPorts.flatMap ((s.trunk t).ballotDiscard (s.members t) t) ++ (s.trunk t).holdDiscard (s.members t) t ++
        s.favouredInstall (s.registryInstall t after) t) s (s.registryInstall t after) := by
  have hm : ((s.discardBallots t after).members t) = s.members t := by simp [State.members, discardBallots_trunk]
  have hh : ((s.discardBallots t after).trunk t).holdDiscard (s.members t) t = (s.trunk t).holdDiscard (s.members t) t := by
    rw [discardBallots_trunk]; rfl
  have h2 := discardHold_offers (s.discardBallots t after) t after
  rw [hm, hh] at h2
  have e : (((s.discardBallots t after).discardHold t after).tick).trunk t = (s.trunk t).discarded (s.members t) := by
    rw [tick_trunk, discardHold_trunk, hm, discardBallots_trunk]
    rfl
  have h3 := refavourHere_offers (((s.discardBallots t after).discardHold t after).tick) t after
  have hr : (s.registryInstall t after).trunk t = { (s.trunk t).discarded (s.members t) with
      favoured := (((s.discardBallots t after).discardHold t after).tick).favouredNow t } := by
    unfold State.registryInstall State.refavour
    rw [tick_trunk, refavourHere_trunk, if_pos rfl, e]
  have hb : ∀ l, (s.registryInstall t after).ballotsFor t l =
      (((s.discardBallots t after).discardHold t after).tick).ballotsFor t l := fun l => by
    simp only [State.ballotsFor, hr, e]
  have hf : s.favouredInstall (s.registryInstall t after) t =
      (((s.discardBallots t after).discardHold t after).tick).favouredChange t := by
    unfold State.favouredInstall State.favouredChange
    rw [hr, e]
    simp only [TrunkState.discarded]
    cases (((s.discardBallots t after).discardHold t after).tick).favouredNow t <;> simp only [hb] <;> rfl
  rw [hf]
  exact (((discardBallots_offers s t after).trans h2).tick.trans h3).tick

/-! ## The flush of leaving lanes -/

theorem foldl_flush_lane (l : Lane) : ∀ (ls : List Lane) (s : State),
    (ls.foldl (fun s l => s.flush l) s).lane l =
      if l ∈ ls then { s.lane l with buffer := [], status := .empty } else s.lane l
  | [], s => by simp
  | a :: ls, s => by
    rw [List.foldl_cons, foldl_flush_lane l ls, State.flush, modLane_eq, lane_setLane]
    by_cases h : l = a
    · subst h; simp
    · simp [h]

theorem flushLeaving_lane (s : State) (old new : List Lane) (l : Lane) :
    (s.flushLeaving old new).lane l =
      if l ∈ old ∧ l ∉ new then { s.lane l with buffer := [], status := .empty } else s.lane l := by
  rw [State.flushLeaving, foldl_flush_lane]
  simp

@[simp] theorem flush_trunk (s : State) (l : Lane) (k : Trunk) : (s.flush l).trunk k = s.trunk k := rfl

@[simp] theorem flushLeaving_trunk (s : State) (old new : List Lane) (k : Trunk) :
    (s.flushLeaving old new).trunk k = s.trunk k :=
  foldl_keeps (fun s l => s.flush l) (fun s => s.trunk k) (fun _ _ => rfl) _ s

@[simp] theorem flushLeaving_triggers (s : State) (old new : List Lane) :
    (s.flushLeaving old new).triggers = s.triggers :=
  foldl_keeps (fun s l => s.flush l) (fun s => s.triggers) (fun _ _ => rfl) _ s

@[simp] theorem flushLeaving_offers (s : State) (old new : List Lane) :
    (s.flushLeaving old new).offers = s.offers :=
  foldl_keeps (fun s l => s.flush l) (fun s => s.offers) (fun _ _ => rfl) _ s

@[simp] theorem flushLeaving_proposalCounter (s : State) (old new : List Lane) :
    (s.flushLeaving old new).proposalCounter = s.proposalCounter :=
  foldl_keeps (fun s l => s.flush l) (fun s => s.proposalCounter) (fun _ _ => rfl) _ s

@[simp] theorem flushLeaving_orphans (s : State) (old new : List Lane) :
    (s.flushLeaving old new).orphans = s.orphans :=
  foldl_keeps (fun s l => s.flush l) (fun s => s.orphans) (fun _ _ => rfl) _ s

theorem flushLeaving_books (after : List Nat) (s : State) (old new : List Lane) :
    Bookkeeping after s (s.flushLeaving old new) :=
  foldl_books after _ (fun _ _ => flush_books ..) _ _

/-! ## The install -/

/-- What the registry offers at an install to the members given (R69), told by the state after it. -/
def State.installEvents (s r : State) (t : Trunk) (ms : List Lane) : List Event :=
  let v := nextNumber (s.trunk t).charter.version
  (allPorts.flatMap fun p => (((s.trunk t).ballots[p.val].filter fun l => !ms.contains l).map fun l =>
      Event.claimDiscarded t false p l v).toList) ++
    (((s.trunk t).hold.filter fun h => !ms.contains h.lane).map fun h => Event.claimDiscarded t true h.owner h.lane v).toList ++
    if (r.trunk t).favoured = (s.trunk t).favoured then []
    else [.favouredChanged t (s.trunk t).favoured (r.trunk t).favoured (match (r.trunk t).favoured with
      | some l => r.ballotsFor t l
      | none => 0) v]

/-- What the charter store does with an install (R45, R49, R50, R69). -/
structure StoreInstalls (t : Trunk) (terms : CharterTerms) (after : List Nat) (s r : State) : Prop where
  books : Bookkeeping after s r
  proposalCounter : r.proposalCounter = s.proposalCounter
  orphans : r.orphans = s.orphans
  trunk : r.trunk t = { (s.trunk t).discarded terms.members with
    charter := { terms := terms, version := nextNumber (s.trunk t).charter.version }
    favoured := r.favouredNow t }
  trunks : ∀ u : Trunk, u ≠ t → r.trunk u = s.trunk u
  lane : ∀ l : Lane, r.lane l =
    if l ∈ s.members t ∧ l ∉ terms.members then { s.lane l with buffer := [], status := .empty } else s.lane l
  triggers : ∃ stamp, r.triggers = s.triggers ++
    [{ trunk := t, kind := .install, sender := .charterStore, stamp := stamp, after := after }]
  offers : Offers .registry allPorts after (s.installEvents r t terms.members) s r

theorem storeInstall_spec (s : State) (t : Trunk) (terms : CharterTerms) (after : List Nat) :
    StoreInstalls t terms after s (s.storeInstall t terms after) := by
  unfold State.storeInstall
  dsimp only
  rw [modTrunk_eq]
  generalize hs1 : s.setTrunk t { s.trunk t with charter := { terms := terms, version := nextNumber (s.trunk t).charter.version } } = s1
  have e1 : s1.trunk t = { s.trunk t with charter := { terms := terms, version := nextNumber (s.trunk t).charter.version } } := by
    rw [← hs1, trunk_setTrunk_self]
  have b1 : Bookkeeping after s s1 := by rw [← hs1]; exact setTrunk_books _ _ _ _ rfl rfl rfl rfl
  have t1 : TrunkBooks t s s1 := by rw [← hs1]; exact setTrunk_trunkBooks ..
  generalize hs2 : s1.flushLeaving (s.members t) terms.members = s2
  have e2 : ∀ k, s2.trunk k = s1.trunk k := fun k => by rw [← hs2, flushLeaving_trunk]
  have b2 : Bookkeeping after s1 s2 := by rw [← hs2]; exact flushLeaving_books ..
  have p2 : s2.proposalCounter = s1.proposalCounter := by rw [← hs2, flushLeaving_proposalCounter]
  have o2 : s2.orphans = s1.orphans := by rw [← hs2, flushLeaving_orphans]
  have g2 : s2.triggers = s1.triggers := by rw [← hs2, flushLeaving_triggers]
  have o3 : s2.offers = s1.offers := by rw [← hs2, flushLeaving_offers]
  have l2 : ∀ l, s2.lane l = if l ∈ s.members t ∧ l ∉ terms.members then
      { s1.lane l with buffer := [], status := .empty } else s1.lane l := fun l => by rw [← hs2, flushLeaving_lane]
  clear hs2
  have m2 : s2.members t = terms.members := by simp [State.members, e2, e1]
  have t3 := registryInstall_trunkBooks s2 t after
  have f3 := registryInstall_offers s2 t after
  have c2 : s2.offers = s.offers ∧ s2.blockCounter = s.blockCounter :=
    ⟨o3.trans (by rw [← hs1]; rfl), b2.blockCounter.trans b1.blockCounter⟩
  refine ⟨?_, ?_, ?_, ?_, ?_, ?_, ?_, ?_⟩
  · exact ((b1.trans b2).trans (registryInstall_books s2 t after)).trans (send_books ..)
  · rw [send_proposalCounter, t3.proposalCounter, p2, t1.proposalCounter]
  · rw [send_orphans, t3.orphans, o2, t1.orphans]
  · have h := registryInstall_trunk s2 t after
    rw [m2, e2, e1] at h
    have hf : ((s2.registryInstall t after).send t .install .charterStore after).favouredNow t =
        (s2.registryInstall t after).favouredNow t :=
      favouredNow_congr (by simp only [State.members, send_trunk]) (by rw [send_trunk])
    rw [send_trunk, hf, h]
    generalize State.favouredNow _ t = f
    rfl
  · intro u hu
    rw [send_trunk, t3.trunks u hu, e2, t1.trunks u hu]
  · intro l
    rw [send_lane, lane_of_lanes t3.lanes, l2, lane_of_lanes t1.lanes]
  · exact ⟨_, by rw [send_triggers, t3.triggers, g2, t1.triggers]⟩
  · clear t3
    generalize s2.registryInstall t after = w at *
    obtain ⟨⟨m, e3, e4, e5⟩, e6⟩ := f3
    rw [c2.1] at e3
    rw [c2.2] at e5 e6
    refine ⟨⟨m, e3, ?_, e5⟩, e6⟩
    rw [e4, m2]
    unfold State.installEvents State.favouredInstall TrunkState.ballotDiscard TrunkState.holdDiscard
    rw [send_trunk, e2, e1]
    rfl

/-- What an install does (R117, R49): the proposal removed, INSTALLED offered first, then the charter store's work, all of whose
offers and whose trigger come after INSTALLED and what the concurrence unit's own work comes after (R149). -/
structure Installs (t : Trunk) (terms : CharterTerms) (number : Pair) (p : Port) (after : List Nat) (s r : State) : Prop where
  books : Bookkeeping after s r
  proposalCounter : r.proposalCounter = s.proposalCounter
  orphans : r.orphans = s.orphans
  trunk : r.trunk t = { (s.trunk t).discarded terms.members with
    charter := { terms := terms, version := nextNumber (s.trunk t).charter.version }
    favoured := r.favouredNow t, proposal := none }
  trunks : ∀ u : Trunk, u ≠ t → r.trunk u = s.trunk u
  lane : ∀ l : Lane, r.lane l =
    if l ∈ s.members t ∧ l ∉ terms.members then { s.lane l with buffer := [], status := .empty } else s.lane l
  triggers : ∃ stamp stamps, r.triggers = s.triggers ++
    [{ trunk := t, kind := .install, sender := .charterStore, stamp := stamp, after := stamps }] ∧
    s.stamp ∈ stamps ∧ after ⊆ stamps
  offers : ∃ more, r.offers = s.offers ++
    { event := .installed t (nextNumber (s.trunk t).charter.version) number p terms.members.length
      time := s.blockCounter, block := .concurrence, stamp := s.stamp, after := after, dest := allPorts } :: more ∧
    more.map (fun o => (o.event, o.block, o.dest)) =
      (s.installEvents r t terms.members).map (fun e => (e, .registry, allPorts)) ∧
    ∀ o ∈ more, o.time = s.blockCounter ∧ s.stamp ∈ o.after

theorem install_spec (s : State) (t : Trunk) (terms : CharterTerms) (number : Pair) (p : Port) (after : List Nat) :
    Installs t terms number p after s (s.install t terms number p after) := by
  unfold State.install
  dsimp only
  rw [offer_eq, modTrunk_eq]
  have b0 : Bookkeeping after s (s.setTrunk t { s.trunk t with proposal := none }) :=
    setTrunk_books _ _ _ _ rfl rfl rfl rfl
  generalize ho : (Event.installed t (nextNumber (s.trunk t).charter.version) number p terms.members.length) = e
  generalize hs1 : ((s.setTrunk t { s.trunk t with proposal := none }).offerHere allPorts .concurrence after e).tick = s1
  have e1 : s1.trunk t = { s.trunk t with proposal := none } := by rw [← hs1]; simp
  have n1 : ∀ u, u ≠ t → s1.trunk u = s.trunk u := fun u hu => by rw [← hs1]; simp [hu]
  have l1 : s1.lanes = s.lanes := by rw [← hs1]; rfl
  have o1 : s1.offers = s.offers ++
      [{ event := e, time := s.blockCounter, block := .concurrence, stamp := s.stamp, after := after, dest := allPorts }] := by
    rw [← hs1]; rfl
  have hin : s.stamp ∈ s1.handOn .concurrence after :=
    stamp_mem_handOn (o := ⟨e, s.blockCounter, .concurrence, s.stamp, after, allPorts⟩) after (by simp [o1]) rfl
  have h := storeInstall_spec s1 t terms (s1.handOn .concurrence after)
  have m1 : s1.members t = s.members t := by simp [State.members, e1]
  refine ⟨?_, ?_, ?_, ?_, ?_, ?_, ?_, ?_⟩
  · refine Bookkeeping.trans ?_ (h.books.weaken (subset_handOn ..))
    rw [← hs1]
    exact (b0.trans (offerHere_books ..)).trans (tick_books ..)
  · rw [h.proposalCounter, ← hs1]; rfl
  · rw [h.orphans, ← hs1]; rfl
  · rw [h.trunk, e1]; rfl
  · intro u hu; rw [h.trunks u hu, n1 u hu]
  · intro l; rw [h.lane, m1, lane_of_lanes l1]
  · obtain ⟨st, hst⟩ := h.triggers
    exact ⟨st, _, by rw [hst, ← hs1]; rfl, hin, subset_handOn ..⟩
  · obtain ⟨more, e2, e3, e4⟩ := h.offers.offers
    have hb : s1.blockCounter = s.blockCounter := by rw [← hs1]; rfl
    have he : s1.installEvents (s1.storeInstall t terms (s1.handOn .concurrence after)) t terms.members =
        s.installEvents (s1.storeInstall t terms (s1.handOn .concurrence after)) t terms.members := by
      unfold State.installEvents
      rw [e1]
    rw [he] at e3
    have e5 : ∀ o ∈ more, o.time = s.blockCounter ∧ s.stamp ∈ o.after := fun o hmo =>
      ⟨(e4 o hmo).1.trans hb, (e4 o hmo).2 hin⟩
    refine ⟨more, ?_, e3, e5⟩
    rw [e2, o1, ho, List.append_assoc]
    rfl

end Sys2Proof.Machine
end

