-- ==== Sys2Proof/Laws/Transactions.lean ====
section
/-! SUPPORT. How a command reaches its owner: taking a frame, dispatch, handing over and the owner's taking, said once for every
command; and frames and the rows given by octets. -/

namespace Sys2Proof.Machine

/-- The part in which a command's row is taken: ATTACH, RENEW, DETACH and SUBSCRIBE have one. -/
def Command.partOf (c : Command) (part : Part) : Part := if c.inParts then part else .whole

/-- Every command's row is the command step in its part. -/
theorem exec_row (c : Command) (p : Port) (tag : Octet) (part : Part) (s : State) :
    exec (c.row p tag part) s = .next (s.command p tag (c.partOf part) c) := by
  cases c <;> rfl

theorem halted_of_present {s : State} (h : s.monitor.state = .present) : s.halted = false := by
  simp [State.halted, h]

theorem halted_of_absent {s : State} (h : s.monitor.state ≠ .present) : s.halted = true := by
  simp [State.halted, h]

/-- A transaction that is heard is neither ignored nor abandoned. -/
theorem unheard_eq_false (f : Transaction) : f.unheard = false ↔ f.ignored = false ∧ f.phase ≠ .abandoned := by
  simp [Transaction.unheard]

@[simp] theorem plainOctets_length (f : Transaction) (n : Nat) : (f.plainOctets n).length = n := by
  unfold Transaction.plainOctets
  split <;> simp
  omega

/-- A transaction that no port reset has abandoned ends as `endedPort` says. -/
theorem endTransaction_eq {s : State} {p : Port} {n : Nat} (h : (s.ending p).phase ≠ .abandoned) :
    s.endTransaction p n = s.setPort p (s.endedPort p n) := by
  simp [State.endTransaction, h, State.endedPort, PortState.onPin]

/-- A frame that can be taken is taken: the port's record takes `takenPort`, and the frame is judged. -/
theorem endFrame_taken {s : State} {p : Port} {n : Nat} (h : s.CanTake p n) (j : Judgement) (part : Part) :
    s.endFrame p n j part = (s.setPort p (s.takenPort p n)).takeFrame p j part := by
  obtain ⟨h1, h2, h3, h4, h5⟩ := h
  simp [State.endFrame, h1, h3, h4, h5, halted_of_present h2, endTransaction_eq ((unheard_eq_false _).mp h3).2, State.takenPort]

theorem leaseRestarted_of_not {x : PortState} (h : x.mode ≠ .attached) : x.leaseRestarted = x := by
  simp [PortState.leaseRestarted, h]

@[simp] theorem leaseRestarted_mode (x : PortState) : x.leaseRestarted.mode = x.mode := rfl
@[simp] theorem leaseRestarted_slot (x : PortState) : x.leaseRestarted.slot = x.slot := rfl
@[simp] theorem leaseRestarted_session (x : PortState) : x.leaseRestarted.session = x.session := rfl
@[simp] theorem takenPort_mode (s : State) (p : Port) (n : Nat) : (s.takenPort p n).mode = (s.port p).mode := rfl
@[simp] theorem takenPort_slot (s : State) (p : Port) (n : Nat) : (s.takenPort p n).slot = (s.port p).slot := rfl
@[simp] theorem takenPort_session (s : State) (p : Port) (n : Nat) : (s.takenPort p n).session = (s.port p).session := rfl
@[simp] theorem takenPort_subs (s : State) (p : Port) (n : Nat) : (s.takenPort p n).subs = (s.port p).subs := rfl

/-- Hearing a frame restarts the lease of an ATTACHED port and does nothing else. -/
theorem heard_eq (s : State) (p : Port) : s.heard p = s.setPort p (s.port p).leaseRestarted := by
  unfold State.heard
  split
  · next h => simp [PortState.leaseRestarted, PortState.restartLease, h, leaseStep]
  · next h => rw [leaseRestarted_of_not h, setPort_port_self]

theorem received_eq (s : State) (p : Port) (n : Nat) :
    (s.setPort p (s.takenPort p n)).heard p = s.received p n := by
  simp [heard_eq, State.received]

/-- A finished command leaves its response in the slot. -/
theorem finish_eq (s : State) (p : Port) (tag : Octet) (c : Command) (r : Reply) :
    s.finish p tag c.code r = s.answered p tag c r.1 r.2 := by
  simp [State.finish, State.answered]

theorem carryOut_eq (s : State) (p : Port) (tag : Octet) (c : Command) (after : List Nat) :
    s.carryOut p tag c after =
      (s.perform p after c).1.answered p tag c (s.perform p after c).2.1 (s.perform p after c).2.2 := by
  simp only [State.carryOut, finish_eq]

theorem perform_query {c : Command} (h : c.isQuery = true) (s : State) (p : Port) (after : List Nat) :
    s.perform p after c = (s, s.answerQuery c []) := by
  cases c <;> first | rfl | cases h

theorem allowedAlways_of_query {c : Command} (h : c.isQuery = true) : c.allowedAlways = true := by
  cases c <;> first | rfl | cases h

theorem inParts_of_query {c : Command} (h : c.isQuery = true) : c.inParts = true := by
  cases c <;> first | rfl | cases h

theorem received_mode (s : State) (p : Port) (n : Nat) : ((s.received p n).port p).mode = (s.port p).mode := by
  simp [State.received]

/-- Dispatch goes on for a command taken in every port state, and for any from an ATTACHED port. -/
theorem dispatch_goesOn {s : State} {p : Port} {c : Command} (n : Nat)
    (ha : c.allowedAlways = true ∨ (s.port p).mode = .attached) :
    (!c.allowedAlways && ((s.received p n).port p).mode != .attached) = false := by
  rcases ha with ha | ha <;> simp [ha, received_mode]

/-- A frame of a command taken whole, from an ATTACHED port or for a command taken in every port state. -/
theorem command_whole {s : State} {p : Port} (tag : Octet) {c : Command} (h : s.CanTake p (4 + c.operands.length))
    (ha : c.allowedAlways = true ∨ (s.port p).mode = .attached) :
    s.command p tag .whole c = (s.received p (4 + c.operands.length)).carryOut p tag c
      ((s.received p (4 + c.operands.length)).handOn (.portController p) []) := by
  simp only [State.command, endFrame_taken h, State.takeFrame, State.dispatch, received_eq, dispatch_goesOn _ ha]
  rfl

/-- The same in the row's own words, for ATTACH, RENEW, DETACH and SUBSCRIBE. -/
theorem exec_here {s : State} {p : Port} (tag : Octet) {c : Command} (part : Part) (ho : c.inParts = false)
    (h : s.CanTake p (4 + c.operands.length)) (ha : c.allowedAlways = true ∨ (s.port p).mode = .attached) :
    exec (c.row p tag part) s = .next ((s.received p (4 + c.operands.length)).carryOut p tag c
      ((s.received p (4 + c.operands.length)).handOn (.portController p) [])) := by
  rw [exec_row, Command.partOf, ho, ← command_whole tag h ha]
  rfl

/-- A command that arrives at its owner is carried out on the state its owner finds. -/
theorem exec_arrives {s u : State} {p : Port} {tag : Octet} {c : Command} {part : Part} {after : List Nat}
    (ho : c.inParts = true) (h : s.Arrives p tag c part u after) :
    exec (c.row p tag part) s = .next (u.carryOut p tag c after) := by
  rw [exec_row, Command.partOf, ho]
  rcases h with ⟨rfl, h, ha, rfl, rfl⟩ | ⟨rfl, hr, hn, hs, rfl⟩
  · simp [command_whole tag h (.inr ha)]
  · simp [State.command, hr, State.ownerTakes, hn, hs]

/-- A query that completes is answered from the state it finds, but for the records it has read before. -/
theorem exec_completes {s u : State} {p : Port} {tag : Octet} {c : Command} {part : Part} {got : List (Nat × List Octet)}
    (hq : c.isQuery = true) (h : s.Completes p tag c part u got) :
    exec (c.row p tag part) s = .next (u.answered p tag c (u.answerQuery c got).1 (u.answerQuery c got).2) := by
  rw [exec_row, Command.partOf, inParts_of_query hq]
  rcases h with ⟨rfl, h, rfl, rfl⟩ | ⟨rfl, hr, hn, hs, rfl⟩
  · simp [command_whole tag h (.inl (allowedAlways_of_query hq)), carryOut_eq, perform_query hq]
  · simp [State.command, hr, State.ownerTakes, hn, hs, finish_eq]

/-- A command handed over is left in the slot on its way; a query is begun. -/
theorem command_handOver {s : State} {p : Port} (tag : Octet) {c : Command} (h : s.CanTake p (4 + c.operands.length))
    (ha : c.allowedAlways = true ∨ (s.port p).mode = .attached) :
    s.command p tag .handOver c =
      s.setPort p { (s.takenPort p (4 + c.operands.length)).leaseRestarted with slot := s.underWay p tag c } := by
  simp only [State.command, endFrame_taken h, State.takeFrame, State.dispatch, received_eq, dispatch_goesOn _ ha]
  simp [State.received, State.underWay]

/-- A command from a port that is not ATTACHED, but for ATTACH and the queries, is refused as its frame is dispatched. -/
theorem command_unattached {s : State} {p : Port} (tag : Octet) {c : Command} {part : Part}
    (h : s.CanTake p (4 + c.operands.length)) (ha : (s.port p).mode ≠ .attached) (hc : c.allowedAlways = false)
    (hp : part = .whole ∨ part = .handOver) :
    s.command p tag part c = (s.setPort p (s.takenPort p (4 + c.operands.length))).answered p tag c .notAttached [] := by
  have hm : s.received p (4 + c.operands.length) = s.setPort p (s.takenPort p (4 + c.operands.length)) := by
    simp [State.received, leaseRestarted_of_not (x := s.takenPort p _) (by simpa using ha)]
  have hn : (!c.allowedAlways && ((s.setPort p (s.takenPort p (4 + c.operands.length))).port p).mode != .attached) = true := by
    simp [ha, hc]
  rcases hp with rfl | rfl <;>
    simp only [State.command, endFrame_taken h, State.takeFrame, State.dispatch, received_eq, hm, hn, finish_eq] <;>
    rfl

/-- A query under way reads a record it has not read yet, and nothing else changes. -/
theorem exec_read {s : State} {p : Port} {tag : Octet} {c : Command} {got : List (Nat × List Octet)} {now : List (List Octet)}
    {i : Nat} {r : List Octet} (hc : c.inParts = true) (hr : s.rstnLow = false) (hs : (s.port p).slot = .reading tag c got)
    (hq : s.queryRecords c = .ok now) (hi : now[i]? = some r) (hg : got.lookup i = none) :
    exec (c.row p tag (.read i)) s =
      .next (s.setPort p { s.port p with slot := .reading tag c (got ++ [(i, r)]) }) := by
  rw [exec_row, Command.partOf, hc]
  simp [State.command, hr, State.readRecord, hs, hq, hi, hg]

/-! ## What a command's row can do -/

/-- A relation that what a command's row does beside its owner's work keeps: changes of port p's record, of the count of free
values and of the orphans. -/
structure CommandFrame (p : Port) (R : State → State → Prop) : Prop where
  refl : ∀ s, R s s
  trans : ∀ s t u, R s t → R t u → R s u
  port : ∀ s x, R s (s.setPort p x)
  free : ∀ (s : State) n, R s { s with freeCount := n }
  orphans : ∀ (s : State) os, R s { s with orphans := os }

variable {p : Port} {R : State → State → Prop}

theorem CommandFrame.modPort (h : CommandFrame p R) (s : State) (f : PortState → PortState) : R s (s.modPort p f) := h.port s _

theorem CommandFrame.endTransaction (h : CommandFrame p R) (s : State) (n : Nat) : R s (s.endTransaction p n) := by
  unfold State.endTransaction
  dsimp only
  split
  · exact h.trans _ _ _ (h.free s _) (h.modPort _ _)
  · exact h.modPort _ _

theorem CommandFrame.carryOut (h : CommandFrame p R) {c : Command} (perf : ∀ s after, R s (s.perform p after c).1)
    (s : State) (tag : Octet) (after : List Nat) : R s (s.carryOut p tag c after) := by
  rw [carryOut_eq]
  exact h.trans _ _ _ (perf s after) (h.port _ _)

theorem CommandFrame.dispatch (h : CommandFrame p R) {c : Command} (perf : ∀ s after, R s (s.perform p after c).1)
    (s : State) (tag : Octet) (part : Part) : R s (s.dispatch p tag c part) := by
  unfold State.dispatch
  dsimp only
  have h1 : R s (s.heard p) := by rw [heard_eq]; exact h.port _ _
  refine h.trans _ _ _ h1 ?_
  split
  · exact h.modPort _ _
  · split
    · exact h.modPort _ _
    · exact h.carryOut perf _ _ _

/-- What `orphan` finds is the port's own command. -/
theorem orphan_some {s : State} {tag : Octet} {c : Command} {o : Orphan} (h : s.orphan p tag c = some o) :
    o.port = p ∧ o.tag = tag ∧ o.command = c := by
  simpa using List.find?_some h

/-- A command's row, in any part and in every outcome, keeps every such relation that its owner's work keeps. -/
theorem CommandFrame.command (h : CommandFrame p R) {c : Command} (perf : ∀ s after, R s (s.perform p after c).1)
    (s : State) (tag : Octet) (part : Part) : R s (s.command p tag part c) := by
  have hf : ∀ part, R s (s.endFrame p (4 + c.operands.length) (.valid tag c) part) := by
    intro part
    unfold State.endFrame
    dsimp only
    split
    · exact h.refl s
    · refine h.trans _ _ _ (h.endTransaction s (4 + c.operands.length)) ?_
      split
      · exact h.refl _
      · split
        · exact h.modPort _ _
        · exact h.trans _ _ _ (h.modPort _ _) (h.dispatch perf _ _ _)
  cases part with
  | whole => exact hf _
  | handOver => exact hf _
  | read i =>
    simp only [State.command, State.readRecord]
    repeat' split
    all_goals first | exact h.refl s | exact h.modPort _ _
  | atOwner =>
    simp only [State.command, State.ownerTakes]
    split
    · exact h.refl s
    · split
      · rename_i o ho
        obtain ⟨hp, -, hc⟩ := orphan_some ho
        subst hp hc
        exact h.trans _ _ _ (h.orphans s _) (perf _ _)
      · repeat' split
        all_goals first
          | exact h.refl s
          | exact h.modPort _ _
          | exact h.carryOut perf _ _ _

end Sys2Proof.Machine
end

