-- ==== Sys2Proof/Laws/Halt.lean ====
section
/-! SUPPORT. The work that completes before a resume: what the commands completed then and the triggers taken then leave alone, and
that a part with no such work left is as it is. -/

namespace Sys2Proof.Machine

/-! ## What commands leave alone -/

/-- What no command of port p and no trigger changes: the pin, the monitor, the counters of the timebase, the commands whose port
was reset, the queue, and the other ports. -/
def outsideOf (p : Port) (s : State) :
    Bool × Bool × Monitor × Count × Count × List Orphan × List Instr × (Port → Option PortState) :=
  (s.rstnLow, s.started, s.monitor, s.blockCounter, s.haltCount, s.orphans, s.pending,
    fun q => if q = p then none else some (s.port q))

theorem outsideOf_port {p q : Port} {s t : State} (h : outsideOf p t = outsideOf p s) (hq : q ≠ p) : t.port q = s.port q := by
  simp only [outsideOf, Prod.mk.injEq] at h
  simpa [hq] using congrFun h.2.2.2.2.2.2.2 q

theorem SameDevice.outsideOf {s t : State} (h : SameDevice s t) (hp : t.ports = s.ports) (p : Port) :
    outsideOf p t = outsideOf p s := by
  simp only [Machine.outsideOf, h.rstnLow, h.started, h.monitor, h.blockCounter, h.haltCount, h.orphans, h.pending,
    port_of_ports hp]

theorem Bookkeeping.outsideOf {after : List Nat} {s t : State} (h : Bookkeeping after s t) (ho : t.orphans = s.orphans)
    (p : Port) : outsideOf p t = outsideOf p s := by
  simp only [Machine.outsideOf, h.rstnLow, h.started, h.monitor, h.blockCounter, h.haltCount, ho, h.pending,
    port_of_ports h.ports]

section
variable (s : State) (p : Port) (t : Trunk) (l : Lane) (after : List Nat)

@[simp] theorem setPort_outsideOf (x : PortState) : outsideOf p (s.setPort p x) = outsideOf p s := by
  have h : (fun q => if q = p then none else some ((s.setPort p x).port q)) =
      fun q => if q = p then none else some (s.port q) := by
    funext q
    split
    · rfl
    · next h => rw [port_setPort_ne s x h]
  simp [outsideOf, h]
@[simp] theorem setTrunk_outsideOf (x : TrunkState) : outsideOf p (s.setTrunk t x) = outsideOf p s := rfl
@[simp] theorem setLane_outsideOf (x : LaneState) : outsideOf p (s.setLane l x) = outsideOf p s := rfl
@[simp] theorem send_outsideOf (k : TriggerKind) (b : Block) : outsideOf p (s.send t k b after) = outsideOf p s := rfl
@[simp] theorem tick_outsideOf : outsideOf p s.tick = outsideOf p s := rfl
@[simp] theorem offerHere_outsideOf (d : List Port) (b : Block) (e : Event) : outsideOf p (s.offerHere d b after e) = outsideOf p s := rfl

@[simp] theorem sendForLane_outsideOf (k : TriggerKind) (b : Block) : outsideOf p (s.sendForLane l k b after) = outsideOf p s := by
  unfold State.sendForLane
  split <;> simp

@[simp] theorem regrade_outsideOf : outsideOf p (s.regrade l after) = outsideOf p s := by
  unfold State.regrade
  dsimp only
  split <;> simp

@[simp] theorem takeStep_outsideOf (d : LaneStep) : outsideOf p (s.takeStep l d) = outsideOf p s := by
  unfold State.takeStep
  dsimp only
  repeat' split
  all_goals simp

@[simp] theorem settleLane_outsideOf : outsideOf p (s.settleLane l) = outsideOf p s := by simp [State.settleLane]

@[simp] theorem removeBar_outsideOf (i j : Port) : outsideOf p (s.removeBar i j after l) = outsideOf p s := by simp [State.removeBar]

@[simp] theorem close_outsideOf (o : Closing) (q : Option Port) (r : Reason) : outsideOf p (s.close t o q r after) = outsideOf p s := by
  unfold State.close State.closeHere
  split <;> rfl

@[simp] theorem refavour_outsideOf : outsideOf p (s.refavour t after) = outsideOf p s :=
  (refavourHere_books ..).outsideOf (refavourHere_only ..).orphans p

@[simp] theorem install_outsideOf (terms : CharterTerms) (n : Pair) : outsideOf p (s.install t terms n p after) = outsideOf p s :=
  (install_spec ..).books.outsideOf (install_spec ..).orphans p

@[simp] theorem depart_outsideOf (cause : Reason) : outsideOf p (s.depart p cause after) = outsideOf p s :=
  (depart_books ..).outsideOf (depart_orphans ..) p

@[simp] theorem ifAttached_outsideOf (f : State × Reply) :
    outsideOf p (s.ifAttached p f).1 = if (s.port p).mode = .attached then outsideOf p f.1 else outsideOf p s := by
  unfold State.ifAttached
  split <;> rfl

end

/-- Carrying out a command leaves the timebase, the monitor and the queue as they are. -/
theorem perform_outsideOf (s : State) (p : Port) (after : List Nat) (c : Command) : outsideOf p (s.perform p after c).1 = outsideOf p s := by
  cases c <;> simp only [State.perform, State.attach, State.detach, State.subscribe, State.setDegrade,
    State.clearLaneCounters, State.ballot, State.placeHold, State.releaseHold, State.placeBar, State.liftBar,
    State.liftStaleBar, State.propose, State.concur, State.dissent, State.withdrawProposal, State.openProposal,
    State.installAtOnce, ifAttached_outsideOf]
  all_goals repeat' split
  all_goals first | with_reducible rfl | simp
  all_goals rfl

/-! ## Commands completed -/

/-- The execution under way on a port completes and its response is placed: its slot is empty then, and only what its command
changes differs. -/
theorem completeOn_keeps (s : State) (p : Port) :
    ((((s.completeExecution p).placeResponse p).port p).slot = .empty) ∧
      outsideOf p ((s.completeExecution p).placeResponse p) = outsideOf p s := by
  have place : ∀ (u : State) (r : Response), (u.port p).slot = .done r → ((u.placeResponse p).port p).slot = .empty ∧
      outsideOf p (u.placeResponse p) = outsideOf p u := by
    intro u r h
    simp only [State.placeResponse, h, modPort_eq, port_setPort_self, setPort_outsideOf, and_self]
  have fin : ∀ (u : State) (tag : Octet) (c : Command) (r : Reply), outsideOf p u = outsideOf p s →
      (((u.finish p tag c.code r).placeResponse p).port p).slot = .empty ∧
        outsideOf p ((u.finish p tag c.code r).placeResponse p) = outsideOf p s := by
    intro u tag c r h
    rw [finish_eq]
    have h' := place (u.answered p tag c r.1 r.2) _ (by simp [State.answered]; rfl)
    exact ⟨h'.1, h'.2.trans ((setPort_outsideOf ..).trans h)⟩
  unfold State.completeExecution
  split
  · exact fin _ _ _ _ (perform_outsideOf ..)
  · exact fin _ _ _ _ rfl
  · next h => exact place _ _ h
  · next h => simp [State.placeResponse, h]

/-- What no completing command changes: the pin, the monitor, the counters of the timebase and the queue. -/
def clockOf (s : State) : Bool × Bool × Monitor × Count × Count × List Instr :=
  (s.rstnLow, s.started, s.monitor, s.blockCounter, s.haltCount, s.pending)

theorem outsideOf_clock {p : Port} {s t : State} (h : outsideOf p t = outsideOf p s) : clockOf t = clockOf s ∧ t.orphans = s.orphans := by
  simp only [outsideOf, Prod.mk.injEq] at h
  simp only [clockOf, Prod.mk.injEq]
  tauto

theorem takeOrphan_keeps (s : State) (o : Orphan) :
    clockOf (s.takeOrphan o) = clockOf s ∧ (s.takeOrphan o).orphans = s.orphans.erase o :=
  outsideOf_clock (perform_outsideOf ({ s with orphans := s.orphans.erase o } : State) o.port o.after o.command)

/-- The commands of ports that were reset are taken one by one, and none is left. -/
theorem takeOrphans_keeps (s : State) : (s.orphans.foldl State.takeOrphan s).orphans = [] ∧
    clockOf (s.orphans.foldl State.takeOrphan s) = clockOf s := by
  generalize hn : s.orphans = os
  induction os generalizing s with
  | nil => exact ⟨hn, rfl⟩
  | cons o os ih =>
    have h := takeOrphan_keeps s o
    obtain ⟨h1, h2⟩ := ih (s.takeOrphan o) (by rw [h.2, hn]; simp)
    exact ⟨h1, h2.trans h.1⟩

/-- Once the commands under way are completed none is left, and the timebase, the monitor and the queue are as they were. -/
theorem completeCommands_keeps (s : State) : s.completeCommands.orphans = [] ∧
    (∀ p, (s.completeCommands.port p).slot = .empty) ∧ clockOf s.completeCommands = clockOf s := by
  obtain ⟨h1, h2⟩ := takeOrphans_keeps s
  unfold State.completeCommands
  generalize s.orphans.foldl State.takeOrphan s = u at h1 h2
  have step : ∀ (ps done : List Port) (v : State), v.orphans = [] → clockOf v = clockOf s →
      (∀ q ∈ done, (v.port q).slot = .empty) →
      let w := ps.foldl (fun s p => (s.completeExecution p).placeResponse p) v
      w.orphans = [] ∧ (∀ q ∈ ps ++ done, (w.port q).slot = .empty) ∧ clockOf w = clockOf s := by
    intro ps
    induction ps with
    | nil => exact fun done v e1 e2 e3 => ⟨e1, by simpa using e3, e2⟩
    | cons p ps ih =>
      intro done v e1 e2 e3
      obtain ⟨k1, k2⟩ := completeOn_keeps v p
      have k3 := outsideOf_clock k2
      obtain ⟨r1, r2, r3⟩ := ih (p :: done) _ (k3.2.trans e1) (k3.1.trans e2) (by
        intro q hq
        by_cases hp : q = p
        · rw [hp]; exact k1
        · rw [outsideOf_port k2 hp]; exact e3 q (by simpa [hp] using hq))
      refine ⟨r1, fun q hq => r2 q ?_, r3⟩
      simp only [List.cons_append, List.mem_cons, List.mem_append] at hq ⊢
      tauto
  obtain ⟨r1, r2, r3⟩ := step allPorts [] u h1 h2 (by simp)
  exact ⟨r1, fun p => r2 p (by simp [mem_allPorts]), r3⟩

/-! ## Triggers taken -/

/-- A trigger taken is gone, and only its trunk's selection record, dormant mark, history, flags and reports differ, and offers. -/
theorem takeTrigger_frame (s : State) (g : Trigger) :
    SelFrame g.trunk { s with triggers := s.triggers.erase g } (s.takeTrigger g) := by
  have h := settleTrunk_frame s g.trunk
  refine SelFrame.trans ?_ (evaluate_frame ..)
  refine ⟨⟨h.device.rstnLow, h.device.started, h.device.monitor, h.device.blockCounter, h.device.haltCount,
    h.device.instantTaken, h.device.scanCaptured, h.device.scano, h.device.proposalCounter, h.device.orphans,
    h.device.freeCount, h.device.pending⟩, h.ports, h.lanes, ?_, h.trunks, h.charter, h.ballots, h.favoured, h.proposal,
    h.hold, h.em⟩
  show (s.settleTrunk g.trunk).triggers.erase g = s.triggers.erase g
  rw [h.triggers]

/-- The triggers are taken one by one, the first sent first. -/
theorem takeTriggers_cons {s : State} {g : Trigger} {rest : List Trigger} (h : s.triggers = g :: rest) :
    s.takeTriggers = (s.takeTrigger g).takeTriggers := by
  have hr : (s.takeTrigger g).triggers = rest := by rw [(takeTrigger_frame s g).triggers]; simp [h]
  simp only [State.takeTriggers, h, hr, List.foldl_cons]

theorem takeTriggers_nil {s : State} (h : s.triggers = []) : s.takeTriggers = s := by simp [State.takeTriggers, h]

/-- What taking every trigger outstanding can do: none is left, and the part outside the trunks is as it was. -/
theorem takeTriggers_keeps (s : State) : s.takeTriggers.triggers = [] ∧ (∀ p, outsideOf p s.takeTriggers = outsideOf p s) ∧
    s.takeTriggers.ports = s.ports ∧ s.takeTriggers.lanes = s.lanes ∧
    ∀ t : Trunk, (s.takeTriggers.trunk t).charter = (s.trunk t).charter := by
  generalize hn : s.triggers = gs
  induction gs generalizing s with
  | nil => rw [takeTriggers_nil hn]; exact ⟨hn, fun _ => rfl, rfl, rfl, fun _ => rfl⟩
  | cons g rest ih =>
    have f := takeTrigger_frame s g
    obtain ⟨h1, h2, h3, h4, h5⟩ := ih (s.takeTrigger g) (by rw [f.triggers]; simp [hn])
    rw [takeTriggers_cons hn]
    refine ⟨h1, fun p => (h2 p).trans (f.device.outsideOf f.ports p), h3.trans f.ports, h4.trans f.lanes, fun t => (h5 t).trans ?_⟩
    by_cases ht : t = g.trunk
    · subst ht; exact f.charter
    · rw [f.trunks t ht]; rfl

/-! ## A trunk emptied in the halt -/

/-- No report moves a DISABLED trunk. -/
theorem handleReport_disabled {s : State} {t : Trunk} (h : (s.trunk t).sel.mode = .disabled) (k : ReportKind)
    (after : List Nat) : ((s.handleReport t k after).trunk t).sel.mode = .disabled := by
  cases k
  case judgement =>
    simp only [State.handleReport, State.handleJudgement]
    split
    · exact h
    · simpa [State.writeRecord] using h
  case completion => simp [State.handleReport, State.handleCompletion, h]
  case alignmentLoss =>
    simp only [State.handleReport, State.handleLoss]
    split
    · exact h
    · simp [h]
  case alignWaitExpiry => simp [State.handleReport, State.handleAlignWait, h]

/-- An evaluation of a DISABLED trunk whose charter is empty leaves it DISABLED (R87). -/
theorem evaluate_disabled {s : State} {t : Trunk} (h : (s.trunk t).sel.mode = .disabled) (hm : s.members t = [])
    (k : TriggerKind) (after : List Nat) : ((s.evaluate t k after).trunk t).sel.mode = .disabled := by
  unfold State.evaluate State.judge State.installSteps
  split <;> simp_all [State.members]

theorem takeReport_disabled {s : State} {t : Trunk} (h : (s.trunk t).sel.mode = .disabled) (hm : s.members t = [])
    (r : Report) : ((s.takeReport t r).trunk t).sel.mode = .disabled := by
  unfold State.takeReport
  dsimp only
  split
  · simpa using handleReport_disabled h r.kind r.after
  · exact evaluate_disabled (handleReport_disabled h ..) (by rw [members_of_charter (handleReport_frame ..).charter, hm]) ..

theorem takeReports_disabled {t : Trunk} (rs : List Report) : ∀ {s : State}, (s.trunk t).sel.mode = .disabled →
    s.members t = [] → ((s.takeReports t rs).trunk t).sel.mode = .disabled := by
  induction rs with
  | nil => exact fun h _ => h
  | cons r rs ih =>
    intro s h hm
    exact ih (takeReport_disabled h hm r) (by rw [members_of_charter (takeReport_frame s t r).charter, hm])

theorem disableEmitter_sel (s : State) (t : Trunk) (after : List Nat) :
    ((s.disableEmitter t after).trunk t).sel = (s.trunk t).sel := by
  unfold State.disableEmitter
  dsimp only
  split <;> simp

theorem disable_mode (s : State) (t : Trunk) (after : List Nat) : ((s.disable t after).trunk t).sel.mode = .disabled := by
  unfold State.disable
  dsimp only
  rw [disableEmitter_sel]
  split <;> simp [State.writeRecord]

/-- The install trigger of an emptied trunk leaves it DISABLED (R54, R87). -/
theorem evaluate_install_empty {s : State} {t : Trunk} (hm : s.members t = []) (after : List Nat) :
    ((s.evaluate t .install after).trunk t).sel.mode = .disabled := by
  have e : ((s.installSteps t after).trunk t).sel.mode = .disabled := by
    unfold State.installSteps
    dsimp only
    generalize hu : (s.modSel t fun x => { x with holdOff := .idle, restore := .idle }) = u
    have hm' : u.members t = [] := by rw [← hu]; simpa [State.members] using hm
    rw [hm']
    by_cases hd : (u.trunk t).sel.mode = .disabled
    · simp [hd]
    · simpa [hd] using disable_mode ..
  simp [State.evaluate, State.judge, e]

theorem takeTrigger_disables {s : State} {g : Trigger} (hm : s.members g.trunk = [])
    (h : (s.trunk g.trunk).sel.mode = .disabled ∨ g.kind = .install) :
    ((s.takeTrigger g).trunk g.trunk).sel.mode = .disabled := by
  have hs : (s.settleTrunk g.trunk).members g.trunk = [] := by
    rw [members_of_charter (settleTrunk_frame ..).charter, hm]
  have hd : (s.trunk g.trunk).sel.mode = .disabled → ((s.settleTrunk g.trunk).trunk g.trunk).sel.mode = .disabled := by
    intro h
    refine takeReports_disabled _ ?_ ?_ <;> simp_all [State.members]
  unfold State.takeTrigger
  generalize s.settleTrunk g.trunk = u at hs hd
  have hv : ({ u with triggers := u.triggers.erase g } : State).members g.trunk = [] := hs
  have hd' : (s.trunk g.trunk).sel.mode = .disabled →
      (({ u with triggers := u.triggers.erase g } : State).trunk g.trunk).sel.mode = .disabled := hd
  dsimp only
  generalize ({ u with triggers := u.triggers.erase g } : State) = v at hv hd'
  rcases h with h | h
  · exact evaluate_disabled (hd' h) hv ..
  · rw [h]
    exact evaluate_install_empty hv _

/-- A trunk whose charter is empty is DISABLED once the triggers are taken, when it was or its install trigger is among them
(R54). -/
theorem takeTriggers_disables {s : State} {t : Trunk} (hm : s.members t = [])
    (h : (s.trunk t).sel.mode = .disabled ∨ ∃ g ∈ s.triggers, g.trunk = t ∧ g.kind = .install) :
    (s.takeTriggers.trunk t).sel.mode = .disabled := by
  generalize hn : s.triggers = gs
  induction gs generalizing s with
  | nil =>
    rw [takeTriggers_nil hn]
    rcases h with h | ⟨g, hg, -⟩
    · exact h
    · simp [hn] at hg
  | cons g rest ih =>
    have f := takeTrigger_frame s g
    rw [takeTriggers_cons hn]
    have ft : (s.takeTrigger g).triggers = rest := by rw [f.triggers]; simp [hn]
    refine ih ?_ ?_ ft
    · refine (members_of_charter ?_).trans hm
      by_cases ht : t = g.trunk
      · subst ht; exact f.charter
      · rw [f.trunks t ht]; rfl
    · by_cases ht : t = g.trunk
      · subst ht
        rcases h with h | ⟨g', hg', e, k⟩
        · exact .inl (takeTrigger_disables hm (.inl h))
        · rw [hn] at hg'
          rcases List.mem_cons.mp hg' with rfl | hg'
          · exact .inl (takeTrigger_disables hm (.inr k))
          · exact .inr ⟨g', by rwa [ft], e, k⟩
      · rcases h with h | ⟨g', hg', e, k⟩
        · exact .inl (by rw [f.trunks t ht]; exact h)
        · rw [hn] at hg'
          rcases List.mem_cons.mp hg' with rfl | hg'
          · exact absurd e.symm ht
          · exact .inr ⟨g', by rwa [ft], e, k⟩

/-! ## A halt with no work left -/

theorem completeCommands_quiet {s : State} (ho : s.orphans = []) (hs : ∀ p, (s.port p).slot = .empty) :
    s.completeCommands = s := by
  have h : ∀ ps : List Port,
      ps.foldl (fun (s : State) p => (s.completeExecution p).placeResponse p) s = s := by
    intro ps
    induction ps with
    | nil => rfl
    | cons p ps ih =>
      have e : s.completeExecution p = s := by simp [State.completeExecution, hs p]
      have e' : s.placeResponse p = s := by simp [State.placeResponse, hs p]
      rw [List.foldl_cons, e, e', ih]
  unfold State.completeCommands
  rw [ho]
  exact h _

/-- Once the work of the halt is complete no command is under way and no trigger outstanding, and the timebase, the monitor and the
queue are as they were. -/
theorem completeHalt_keeps (s : State) : s.completeHalt.orphans = [] ∧ (∀ p, (s.completeHalt.port p).slot = .empty) ∧
    s.completeHalt.triggers = [] ∧ clockOf s.completeHalt = clockOf s := by
  obtain ⟨h1, h2, h3⟩ := completeCommands_keeps s
  obtain ⟨k1, k2, k3, -, -⟩ := takeTriggers_keeps s.completeCommands
  have k4 := outsideOf_clock (k2 0)
  exact ⟨k4.2.trans h1, fun p => by rw [show s.completeHalt.port p = _ from port_of_ports k3 p]; exact h2 p, k1,
    k4.1.trans h3⟩

/-- With no command under way and no trigger outstanding, nothing is left to complete. -/
theorem completeHalt_quiet {s : State} (ho : s.orphans = []) (hs : ∀ p, (s.port p).slot = .empty) (ht : s.triggers = []) :
    s.completeHalt = s := by
  unfold State.completeHalt
  rw [completeCommands_quiet ho hs, takeTriggers_nil ht]

end Sys2Proof.Machine
end

