-- ==== Sys2Proof/Laws/Offers.lean ====
section
/-! SUPPORT. What is left of the offers once a port controller has taken one (R149): that offer waits at the port no more, and at every
other port the same offers wait in the same order. -/

namespace Sys2Proof.Machine

/-- What is left of an offer taken at a port: the offer to its other destinations, when it has any. -/
theorem mem_takenAt {o b : Offer} {p : Port} :
    b ∈ o.takenAt p ↔ b = { o with dest := o.dest.filter (· != p) } ∧ ∃ q ∈ o.dest, q ≠ p := by
  unfold Offer.takenAt
  dsimp only
  split <;> rename_i h
  · simp_all
    exact fun _ => h
  · simp_all

/-- At a port that takes an offer, that offer waits no more. -/
theorem takenAt_self (o : Offer) (p : Port) : (o.takenAt p).filter (fun b => b.dest.contains p) = [] := by
  refine List.filter_eq_nil_iff.mpr fun b hb => ?_
  rw [(mem_takenAt.mp hb).1]
  simp

/-- At another port it waits as before, whatever is read of it but its destinations. -/
theorem takenAt_other {α : Type} (f : Offer → α) (hf : ∀ (b : Offer) (d : List Port), f { b with dest := d } = f b) (o : Offer)
    {p q : Port} (h : q ≠ p) :
    ((o.takenAt p).filter fun b => b.dest.contains q).map f =
      (([o] : List Offer).filter fun b => b.dest.contains q).map f := by
  unfold Offer.takenAt
  dsimp only
  split <;> rename_i he
  · have : q ∉ o.dest := fun hq => List.filter_eq_nil_iff.mp (List.isEmpty_iff.mp he) q hq (by simpa using h)
    simp [this]
  · by_cases hq : q ∈ o.dest <;> simp [hq, h, hf]

/-- The offers that remain when a port has taken one: the others as they were, and that one for its other destinations (R149). -/
theorem mem_dropOffer {s : State} {p : Port} {o b : Offer} :
    b ∈ (s.dropOffer p o).offers ↔ (b ∈ s.offers ∧ b ≠ o) ∨ (o ∈ s.offers ∧ b ∈ o.takenAt p) := by
  simp only [State.dropOffer, List.mem_flatMap]
  constructor
  · rintro ⟨x, hx, hb⟩
    by_cases e : x = o
    · rw [if_pos e, e] at hb; exact .inr ⟨e ▸ hx, hb⟩
    · rw [if_neg e, List.mem_singleton] at hb; exact .inl (hb ▸ ⟨hx, e⟩)
  · rintro (⟨hb, e⟩ | ⟨ho, hb⟩)
    · exact ⟨b, hb, by simp [e]⟩
    · exact ⟨o, ho, by simpa using hb⟩

/-- The offers that wait at the port that has taken one are the others. -/
theorem dropOffer_offersAt_self (s : State) (p : Port) (o : Offer) :
    (s.dropOffer p o).offersAt p = (s.offers.filter (· ≠ o)).filter fun b => b.dest.contains p := by
  simp only [State.offersAt, State.dropOffer]
  induction s.offers with
  | nil => rfl
  | cons b bs ih =>
    rw [List.flatMap_cons, List.filter_append, ih]
    by_cases e : b = o
    · rw [if_pos e, e, takenAt_self]
      simp
    · by_cases hp : p ∈ b.dest <;> simp [e, hp]

/-- At every other port the same offers wait in the same order. -/
theorem dropOffer_offersAt_other {α : Type} (f : Offer → α) (hf : ∀ (b : Offer) (d : List Port), f { b with dest := d } = f b)
    (s : State) (o : Offer) {p q : Port} (h : q ≠ p) :
    ((s.dropOffer p o).offersAt q).map f = (s.offersAt q).map f := by
  simp only [State.offersAt, State.dropOffer]
  induction s.offers with
  | nil => rfl
  | cons b bs ih =>
    rw [List.flatMap_cons, List.filter_append, List.map_append, ih]
    by_cases e : b = o
    · rw [if_pos e, e, takenAt_other f hf o h, ← List.map_append, ← List.filter_append]; rfl
    · rw [if_neg e, ← List.map_append, ← List.filter_append]; rfl

end Sys2Proof.Machine
end

