-- ==== Sys2Proof/WellFormed.lean ====
section
/-! DEFINITION. Which terms of `Instr` stand for an event the world can give the part. The meanings are total and do not
rely on these checks. -/

namespace Sys2Proof

/-- A COMMAND transaction opens with the kind octet 0xA5, an ignored one with any other octet than the two kinds or with
none (R128), and a qualification that is abandoned had not yet reached 1 ms (R167). -/
def Instr.wf : Instr → Bool
  | .unknownCommand _ os => os.head? == some kindCommand
  | .busyDrop _ os => os.head? == some kindCommand
  | .commandDiscarded _ os => os.head? == some kindCommand
  | .ignoredTransaction _ os => os.head? != some kindCommand && os.head? != some kindFetch
  | .qualificationAbandoned elapsed => elapsed < qualificationNs
  | .attach _ _ _ => true
  | .renew _ _ => true
  | .detach _ _ => true
  | .queryDevice _ _ _ => true
  | .queryPorts _ _ _ => true
  | .queryLane _ _ _ _ => true
  | .queryTrunk _ _ _ _ => true
  | .queryHistory _ _ _ _ => true
  | .subscribe _ _ _ _ => true
  | .setDegrade _ _ _ _ _ _ => true
  | .clearLaneCounters _ _ _ _ => true
  | .ballot _ _ _ _ _ => true
  | .hold _ _ _ _ _ => true
  | .release _ _ _ _ => true
  | .bar _ _ _ _ => true
  | .lift _ _ _ _ => true
  | .liftStale _ _ _ _ _ => true
  | .propose _ _ _ _ _ _ _ _ _ _ _ _ _ => true
  | .concur _ _ _ _ _ => true
  | .dissent _ _ _ _ _ => true
  | .withdraw _ _ _ _ _ => true
  | .responsePlaced _ => true
  | .fetch _ _ => true
  | .portReset _ => true
  | .portResetRelease _ => true
  | .leaseExpiry _ => true
  | .deadlineExpiry _ => true
  | .holdOffExpiry _ => true
  | .restoreWaitExpiry _ => true
  | .alignWaitExpiry _ => true
  | .alignmentLoss _ => true
  | .blockPeriod => true
  | .emissionInstant _ => true
  | .scanCapture => true
  | .triggerEvaluation _ _ => true
  | .clockLoss _ => true
  | .stuckData _ => true
  | .dataTransition _ _ => true
  | .syncMatch _ _ => true
  | .expectedPosition _ _ => true
  | .blockPosition _ _ _ _ => true
  | .fillAlarm _ => true
  | .degradeDeclared _ => true
  | .degradeWindowEnd _ => true
  | .halt => true
  | .qualifying _ => true
  | .haltResume => true
  | .deviceResetAsserted => true
  | .deviceReset => true
  | .notificationOffer _ _ => true

end Sys2Proof
end

