-- ==== Sys2Proof/Tests/Slice0.lean ====
section
/-! SUPPORT. Tests: the checks of WellFormed refuse ill-formed terms; the frame and block checks; one small step per command; and
states that meet the hypotheses of the statements. -/

namespace Sys2Proof.Tests

open Sys2Proof Sys2Proof.Machine

set_option Elab.async false

/-! ## WellFormed refuses -/

theorem test_wf_unknownCommand : (Instr.unknownCommand 0 [0x5A, 1]).wf = false := by decide
theorem test_wf_busyDrop : (Instr.busyDrop 0 []).wf = false := by decide
theorem test_wf_commandDiscarded : (Instr.commandDiscarded 1 [0x00]).wf = false := by decide
theorem test_wf_ignoredCommand : (Instr.ignoredTransaction 1 [0xA5]).wf = false := by decide
theorem test_wf_ignoredFetch : (Instr.ignoredTransaction 1 [0x5A, 0]).wf = false := by decide
theorem test_wf_qualificationAbandoned : (Instr.qualificationAbandoned 1000000).wf = false := by decide
theorem test_wf_accepts : (Instr.ignoredTransaction 1 []).wf = true ∧ (Instr.qualificationAbandoned 999999).wf = true ∧
    (Instr.unknownCommand 0 [0xA5]).wf = true := by decide

/-! ## Words of the spec -/

/-- The example of R130: the register after each octet of a RENEW frame with tag 0x01. -/
theorem test_crc8_renew : crc8 [0xA5] = 0x72 ∧ crc8 [0xA5, 0x01] = 0x5E ∧ crc8 [0xA5, 0x01, 0x11] = 0xEA := by decide +kernel
theorem test_renew_frame : commandFrame 0x01 .renew = [0xA5, 0x01, 0x11, 0xEA] := by decide +kernel
theorem test_renew_judged : judgeFrame [0xA5, 0x01, 0x11, 0xEA] = .valid 0x01 .renew ∧
    judgeFrame [0xA5, 0x01, 0x11] = .bad .short 0x01 0x11 ∧
    judgeFrame [0xA5, 0x01, 0x11, 0xEB] = .bad .frameError 0x01 0x11 := by decide +kernel
/-- The generator and start value of R2 are those of the check whose value over "123456789" is 0x29B1. -/
theorem test_crc16 : crc16 [0x31, 0x32, 0x33, 0x34, 0x35, 0x36, 0x37, 0x38, 0x39] = 0x29B1 := by decide +kernel
theorem test_header : packHeader 0x0001 true false = 0x0006 ∧ headerSeq 0x0006 = 1 ∧ headerFill 0x0006 = true ∧
    headerBreak 0x0006 = false := by decide +kernel
theorem test_sequence : later 0 16383 = true ∧ later 8191 0 = true ∧ later 8192 0 = false ∧ later 5 5 = false := by decide +kernel
theorem test_decodeTableWord : decodeTableWord 32 7 = none := rfl

/-! ## States -/

/-- A port in a session. -/
def attachedPort (session : Octet) : PortState :=
  { PortState.reset with
    mode := .attached, session := session, leaseLength := 3, leaseRemaining := 4800, subs := Subscriptions.all .both }

/-- The part running, P0 to P2 ATTACHED in session 1, P3 OFFLINE. -/
def running0 : State :=
  { State.reset with
    started := true
    monitor := { state := .present, qualNs := 0, haltNs := 0 }
    ports := #v[attachedPort 1, attachedPort 1, attachedPort 1, PortState.reset] }

/-- A receiver in LOCKED and GOOD. -/
def lockedRx : Receiver := { Receiver.reset with lock := .locked, grade := .good }

def block (q : SeqNo) : LaneBlock := { seq := q, fill := false, brk := false, payload := Vector.replicate 58 0x55 }

/-- A lane in LOCKED and GOOD whose buffer holds some blocks. -/
def goodLane (qs : List SeqNo) : LaneState := { LaneState.reset with rx := lockedRx, buffer := qs.map block }

/-- The members of T0 in `fed` and `carrying`: L0 of P0, L4 of P1, L8 of P2. -/
def members0 : List Lane := [0, 4, 8]

/-- T0 with a charter and STARVED, its lanes GOOD with blocks 5 and 6. -/
def fed : State :=
  (((running0.setLane 0 (goodLane [5, 6])).setLane 4 (goodLane [5, 6])).setLane 8 (goodLane [5, 6])).setTrunk 0
    { TrunkState.reset with
      charter := { terms := { members := members0, revertive := true, mend := false, holdOff := 2, restoreWait := 1 }
                   version := 1 }
      sel := { Selection.reset with mode := .starved } }

/-- The same, CARRYING L0 with the cursor at 5. -/
def carrying : State :=
  fed.modTrunk 0 fun x =>
    { x with sel := { x.sel with mode := .carrying, active := some 0 }, em := { x.em with cursor := 5, lastEmitted := some 4 } }

/-- The same, SWITCHING from L0 to L4. -/
def switching : State :=
  carrying.modSel 0 fun x => { x with mode := .switching, target := some 4, cause := some .health }

/-- A trigger of the registry at T0. -/
def trigger0 (k : TriggerKind) : Trigger := { trunk := 0, kind := k, sender := .registry, stamp := 0, after := [] }

def withTrigger (s : State) (k : TriggerKind) : State := { s with triggers := [trigger0 k], stamp := 1 }

/-- An open proposal on T0: P0 proposes, P0 and P1 are required, P0 has concurred. -/
def proposal0 : Proposal :=
  { number := 7, proposer := 0, session := 1
    terms := { members := [0, 4], revertive := false, mend := true, holdOff := 0, restoreWait := 0 }
    required := #v[true, true, false, false], concurred := #v[true, false, false, false], deadline := 32000 }

def proposed : State := running0.modTrunk 0 fun x => { x with proposal := some proposal0 }

/-- The state after a command, or the same where it is not answered with a next state. -/
def after (i : Instr) (s : State) : State :=
  match exec i s with
  | .next t => t
  | .fault _ => s
  | .refused _ => s

/-- The outcome code in the command slot of a port. -/
def outcome (s : State) (p : Port) : Option Code :=
  match (s.port p).slot with
  | .done r => some r.outcome
  | .handed _ _ _ => none
  | .reading _ _ _ => none
  | .empty => none

/-! ## One step of each command -/

theorem test_startUp : (after .haltResume (after (.qualifying 5) State.reset)).monitor.state = .present ∧
    (after .haltResume (after (.qualifying 5) State.reset)).haltCount = 0 := by decide +kernel
theorem test_attach : (running0.port 3).mode = .offline ∧ ((after (.attach 3 9 4) running0).port 3).mode = .attached ∧
    ((after (.attach 3 9 4) running0).port 3).leaseRemaining = 6400 := by decide +kernel
theorem test_renew : outcome (after (.renew 0 9) running0) 0 = some .accepted ∧
    outcome (after (.renew 3 9) running0) 3 = some .notAttached := by decide +kernel
theorem test_detach : ((after (.detach 0 9) running0).port 0).mode = .offline ∧
    outcome (after (.detach 0 9) (after (.bar 1 9 .whole 0) (after (.bar 0 9 .atOwner 0) running0))) 0 = some .accepted := by
  decide +kernel
theorem test_queryDevice : ((after (.queryDevice 3 9 .whole) running0).port 3).slot =
    .done { tag := 9, code := 0x20, outcome := .accepted, result := [0x08, 0x16, 0x01, 0, 0, 0, 0, 0, 0, 0, 0, 0] } := by
  decide +kernel
/-- A query under way when HALT is declared answers the HALT state set. -/
theorem test_queryDevice_halt :
    ((after (.queryDevice 0 9 .atOwner) (after .halt (after (.queryDevice 0 9 .handOver) running0))).port 0).slot =
      .done { tag := 9, code := 0x20, outcome := .accepted, result := [0x08, 0x16, 0x01, 0, 0, 0, 0, 0, 0, 0, 0, 1] } := by
  decide +kernel
/-- A query reads each record by itself: port 1's record read before it detaches, port 2's after it does. -/
theorem test_queryPorts_split :
    ((after (.queryPorts 0 9 .atOwner) (after (.detach 2 9) (after (.detach 1 9) (after (.queryPorts 0 9 (.read 1))
      (after (.queryPorts 0 9 .handOver) running0))))).port 0).slot =
      .done { tag := 9, code := 0x21, outcome := .accepted, result :=
        [1, 1, 0, 0x12, 0xC0, 0, 0, 1, 1, 0, 0x12, 0xC0, 0, 0, 0, 1, 0, 0, 0, 0, 0, 0, 0, 0, 0, 0, 0, 0] } := by decide +kernel
theorem test_queryPorts : outcome (after (.queryPorts 3 9 .whole) running0) 3 = some .accepted := by decide +kernel
theorem test_queryLane : outcome (after (.queryLane 3 9 .whole 16) running0) 3 = some .noSuchLane := by decide +kernel
theorem test_queryTrunk : outcome (after (.queryTrunk 3 9 .whole 8) running0) 3 = some .noSuchTrunk := by decide +kernel
theorem test_queryHistory : outcome (after (.queryHistory 3 9 .whole 7) running0) 3 = some .accepted := by decide +kernel
theorem test_subscribe : ((after (.subscribe 0 9 2 1) running0).port 0).subs.trunk = .onset ∧
    outcome (after (.subscribe 0 9 7 1) running0) 0 = some .badValue := by decide +kernel
theorem test_setDegrade : ((after (.setDegrade 0 9 .whole 3 400 399) running0).lane 3).rx.degradeSet = 400 ∧
    outcome (after (.setDegrade 0 9 .whole 4 10 1) running0) 0 = some .notOwner := by decide +kernel
theorem test_clearLaneCounters : outcome (after (.clearLaneCounters 0 9 .whole 3) running0) 0 = some .accepted := by
  decide +kernel
theorem test_ballot : ((after (.ballot 0 9 .whole 0 8) fed).trunk 0).favoured = some 8 ∧
    outcome (after (.ballot 0 9 .whole 0 1) fed) 0 = some .notMember := by decide +kernel
theorem test_hold : (((after (.hold 0 9 .whole 0 8) fed).trunk 0).hold.map Hold.lane) = some 8 := by decide +kernel
theorem test_release : outcome (after (.release 0 9 .whole 0) fed) 0 = some .noHold := by decide +kernel
theorem test_bar : (after (.bar 0 9 .whole 15) fed).barred 15 = true ∧
    (after (.bar 0 9 .whole 15) fed).barCount 0 = 1 := by decide +kernel
theorem test_lift : outcome (after (.lift 0 9 .whole 15) fed) 0 = some .notBarred := by decide +kernel
theorem test_liftStale : outcome (after (.liftStale 0 9 .whole 15 1) fed) 0 = some .notStale := by decide +kernel
theorem test_propose : ((after (.propose 0 9 .whole 1 1 1 0 0 0 0 1 0 0) running0).trunk 1).charter.version = 1 ∧
    ((after (.propose 0 9 .whole 1 2 1 5 0 0 0 1 0 0) running0).trunk 1).proposal.isSome = true := by decide +kernel
theorem test_concur : ((after (.concur 1 9 .whole 0 7) proposed).trunk 0).charter.terms.members = [0, 4] := by
  decide +kernel
theorem test_dissent : ((after (.dissent 1 9 .whole 0 7) proposed).trunk 0).proposal = none := by decide +kernel
theorem test_withdraw : ((after (.withdraw 0 9 .whole 0 7) proposed).trunk 0).proposal = none ∧
    outcome (after (.withdraw 1 9 .whole 0 7) proposed) 1 = some .notParty := by decide +kernel
theorem test_unknownCommand : outcome (after (.unknownCommand 0 [0xA5, 1, 0x00, crc8 [0xA5, 1, 0x00]]) running0) 0 =
    some .unknownCommand := by decide +kernel
theorem test_busyDrop : ((after (.busyDrop 0 [0xA5]) (after (.renew 0 9) running0)).port 0).busyDrop = true := by
  decide +kernel
theorem test_commandDiscarded : after (.commandDiscarded 0 [0xA5]) { running0 with monitor := State.reset.monitor } =
    { running0 with monitor := State.reset.monitor }.setPort 0 { running0.port 0 with psdo := [0x48] } := by decide +kernel
/-- The status octets of a COMMAND are those of the fall of PCSn: HALT is declared within it. -/
theorem test_commandDiscarded_captured :
    ((after (.commandDiscarded 0 [0xA5, 1]) (after .halt (after (.fetch 0 .start) running0))).port 0).psdo = [0x40, 0] := by
  decide +kernel
theorem test_ignoredTransaction : ((after (.ignoredTransaction 0 [0x11, 2, 3]) running0).port 0).psdo = [0x40, 0, 0] := by
  decide +kernel
theorem test_responsePlaced : (after (.responsePlaced 0) (after (.renew 0 9) running0)).pattn 0 = true := by decide +kernel
/-- The response of a RENEW with tag 9, then 0x00. -/
theorem test_fetch : ((after (.fetch 0 (.whole 7)) (after (.responsePlaced 0) (after (.renew 0 9) running0))).port 0).psdo =
    [0x60, 0, 0, 9, 0x11, 0, 0] := by decide +kernel
theorem test_portReset : ((after (.portReset 0) running0).port 0).mode = .offline ∧
    ((after (.portReset 0) running0).port 0).session = 1 := by decide +kernel
theorem test_portResetRelease : ((after (.portResetRelease 0) (after (.portReset 0) running0)).port 0).prstnLow = false := by
  decide +kernel
theorem test_leaseExpiry : ((after (.leaseExpiry 0) (running0.modPort 0 fun x => { x with leaseRemaining := 0 })).port 0).mode =
    .lapsed ∧ ((after (.leaseExpiry 0) running0).port 0).mode = .attached := by decide +kernel
theorem test_deadlineExpiry : ((after (.deadlineExpiry 0) { proposed with blockCounter := 32000 }).trunk 0).proposal = none ∧
    ((after (.deadlineExpiry 0) { proposed with blockCounter := 31999 }).trunk 0).proposal = some proposal0 := by decide +kernel
theorem test_holdOffExpiry :
    (((after (.holdOffExpiry 0) ((carrying.modRx 0 fun x => { x with grade := .failed }).modSel 0 fun x =>
      { x with holdOff := .running 0 })).trunk 0).sel.active) = some 4 := by decide +kernel
theorem test_restoreWaitExpiry :
    (((after (.restoreWaitExpiry 0) (carrying.modSel 0 fun x => { x with active := some 4, restore := .running 0 0 })).trunk
      0).sel.target) = some 0 := by decide +kernel
theorem test_alignWaitExpiry :
    (((after (.alignWaitExpiry 0) (switching.modTrunk 0 fun x =>
      { x with sel := { x.sel with alignWait := 16 }, reports := [⟨.alignWaitExpiry, []⟩] })).trunk 0).sel.active) = some 4 := by
  decide +kernel
theorem test_alignmentLoss :
    ((after (.alignmentLoss 0) (carrying.modTrunk 0 fun x =>
      { x with reports := [⟨.alignmentLoss (some 0) [], []⟩] })).trunk 0).em.counters.slips = 1 := by decide +kernel
theorem test_blockPeriod : (after .blockPeriod carrying).blockCounter = 1 ∧
    ((after .blockPeriod carrying).port 0).leaseRemaining = 4799 := by decide +kernel
theorem test_emissionInstant : ((after (.emissionInstant 0) carrying).trunk 0).em.cursor = 6 ∧
    ((after (.emissionInstant 0) carrying).trunk 0).em.counters.fromActive = 1 := by decide +kernel
theorem test_scanCapture : (after .scanCapture carrying).scano =
    some ([0xE7, 0x80, 0x1F, 0x1F, 0x1F, 0x1F, 0x1F, 0x1F, 0x1F] ++ List.replicate 7 0xFF) := by decide +kernel
theorem test_triggerEvaluation : ((after (.triggerEvaluation 0 0) (withTrigger fed (.grade 0))).trunk 0).sel.active = some 0 := by
  decide +kernel
theorem test_clockLoss : ((after (.clockLoss 0) carrying).lane 0).rx.lock = .dark ∧
    (after (.clockLoss 0) carrying).triggers.length = 1 := by decide +kernel
theorem test_stuckData : ((after (.stuckData 0) carrying).lane 0).buffer = [] := by decide +kernel
theorem test_dataTransition :
    ((after (.dataTransition 0 true) (after (.clockLoss 0) carrying)).lane 0).rx.lock = .hunt := by decide +kernel
theorem test_syncMatch : ((after (.syncMatch 1 0x3AC5) carrying).lane 1).rx.lock = .confirm := by decide +kernel
theorem test_expectedPosition : ((after (.expectedPosition 0 0) carrying).lane 0).rx.lock = .coast ∧
    ((after (.expectedPosition 0 0) carrying).lane 0).rx.grade = .degraded := by decide +kernel
theorem test_blockPosition :
    ((after (.blockPosition 0 (packHeader 7 false false) (Vector.replicate 58 0x55)
      (blockCheck (packHeader 7 false false) (Vector.replicate 58 0x55)))
      (carrying.modRx 0 fun x => { x with blockOpen := true })).lane 0).buffer.map LaneBlock.seq = [5, 6, 7] := by
  decide +kernel
theorem test_fillAlarm : ((after (.fillAlarm 0) (carrying.modRx 0 fun x => { x with due := [.fillAlarm] })).lane 0).rx.grade =
    .failed := by decide +kernel
theorem test_degradeDeclared :
    ((after (.degradeDeclared 0) (carrying.modRx 0 fun x => { x with due := [.degradeDeclared] })).lane 0).rx.grade =
      .degraded := by decide +kernel
theorem test_degradeWindowEnd :
    ((after (.degradeWindowEnd 0) (carrying.modRx 0 fun x =>
      { x with due := [.windowEnd], windowPos := 1600, windowCount := 2, degrade := true, grade := .degraded })).lane
        0).rx.grade = .good := by decide +kernel
theorem test_halt : (after .halt carrying).halted = true ∧ (after .halt carrying).scano = none := by decide +kernel
theorem test_qualificationAbandoned :
    (after (.qualificationAbandoned 400000) (after (.qualifying 5) State.reset)).monitor =
      { state := .absent, qualNs := 400000, haltNs := 400005 } := by decide +kernel
theorem test_haltResume : ((after .haltResume (after (.qualifying 0) (after .halt carrying))).trunk 0).sel.mode = .starved ∧
    (after .haltResume (after (.qualifying 0) (after .halt carrying))).haltCount = 1 := by decide +kernel
theorem test_deviceResetAsserted : (after .deviceResetAsserted carrying).rstnLow = true := by decide +kernel
theorem test_deviceReset : after .deviceReset carrying = State.reset := by decide +kernel
theorem test_notificationOffer :
    ((after (.notificationOffer 1 0) (after (.bar 0 9 .whole 15) fed)).port 1).queue =
      [.note 1 (.barPlaced 15 0 #v[true, false, false, false] none) 0] := by decide +kernel

/-! ## The example of R58: favoured lanes of a trunk with members L2, L6 and L10 -/

def voting (b0 b1 b2 b3 : Option Lane) : State :=
  running0.modTrunk 1 fun x =>
    { x with
      charter := { x.charter with terms := { CharterTerms.reset with members := [2, 6, 10] } }
      ballots := #v[b0, b1, b2, b3] }

theorem test_favoured_none : (voting none none none none).favouredNow 1 = none := by decide +kernel
theorem test_favoured_tie : (voting (some 10) (some 6) none none).favouredNow 1 = some 6 := by decide +kernel
theorem test_favoured_most : (voting (some 10) (some 6) (some 10) none).favouredNow 1 = some 10 := by decide +kernel
theorem test_favoured_three : (voting (some 2) (some 6) (some 10) none).favouredNow 1 = some 2 := by decide +kernel


/-! ## States that meet the hypotheses of the statements

One theorem for each statement with hypotheses, named after it: a state and operands that meet them together, for every clause,
at the ends of its range. -/

/-- A command arrives whole at the state u: its frame has just been taken. -/
abbrev Arrives (s : State) (p : Port) (tag : Octet) (c : Command) (u : State) : Prop :=
  s.Arrives p tag c .whole u (u.handOn (.portController p) [])

theorem arrives_whole {s : State} {p : Port} (n : Nat) (tag : Octet) (c : Command) (k : n = 4 + c.operands.length)
    (h : s.CanTake p n) (a : (s.port p).mode = .attached) : Arrives s p tag c (s.received p n) :=
  .inl ⟨rfl, k ▸ h, a, k ▸ rfl, k ▸ rfl⟩

/-- A command arrives that was handed over earlier. -/
theorem arrives_later {s : State} {p : Port} (tag : Octet) (c : Command) (h : s.rstnLow = false)
    (o : s.orphans = []) (a : (s.port p).slot = .handed tag c []) : s.Arrives p tag c .atOwner s [] :=
  .inr ⟨rfl, h, by simp [State.orphan, o], a, rfl⟩

/-- A query is completed whole. -/
theorem completes_whole {s : State} {p : Port} (n : Nat) (tag : Octet) (c : Command) (k : n = 4 + c.operands.length)
    (h : s.CanTake p n) : s.Completes p tag c .whole (s.received p n) [] := .inl ⟨rfl, k ▸ h, k ▸ rfl, rfl⟩

/-- A query is completed that has read some of its records. -/
theorem completes_later {s : State} {p : Port} (tag : Octet) (c : Command) (got : List (Nat × List Octet))
    (h : s.rstnLow = false) (o : s.orphans = []) (a : (s.port p).slot = .reading tag c got) :
    s.Completes p tag c .atOwner s got := .inr ⟨rfl, h, by simp [State.orphan, o], a, rfl⟩

/-- The part with a command on its way from P0. -/
def underway (s : State) (c : Command) : State := s.modPort 0 fun x => { x with slot := .handed 9 c [] }

/-- The part in HALT. -/
def stopped : State := after .halt carrying

/-- P0 has left its session while a BAR was on its way. -/
def lapsedUnderway : State :=
  running0.modPort 0 fun x => { x with mode := .lapsed, leaseRemaining := 0, slot := .handed 9 (.bar 0) [] }

theorem test_hyp_StepRunsTheFrontCommand : State.reset.pending = [] := rfl

theorem test_hyp_RefusedFramesAreAnswered : running0.CanTake 0 1 ∧ running0.CanTake 3 4 ∧
    (after (.fetch 0 (.pass 2)) (after (.fetch 0 .start) running0)).CanTake 0 4 ∧
    ([0xA5] : List Octet).length < 4 + ((([0xA5] : List Octet)[2]?).bind operandCount).getD 0 ∧
    ([0xA5, 1, 0x10, 3] : List Octet).length < 4 + ((([0xA5, 1, 0x10, 3] : List Octet)[2]?).bind operandCount).getD 0 ∧
    ([0xA5, 1, 0x11, 0xEB] : List Octet)[3]? ≠ some (crc8 [0xA5, 1, 0x11]) ∧ operandCount 0x11 = some 0 ∧
    operandCount 0x00 = none ∧
    ([0xA5, 1, 0x00, crc8 [0xA5, 1, 0x00]] : List Octet)[3]? = some (crc8 [0xA5, 1, 0x00]) := by decide +kernel

/-- A transaction begun on P0 while PRSTn was low, m octets of it clocked before PRSTn rises. -/
def begunLow (s : State) (clock : Nat → FetchPart) (m : Nat) : State :=
  after (.portResetRelease 0) (after (.fetch 0 (clock m)) (after (.fetch 0 .start) (after (.portReset 0) s)))

/-- A transaction on P0 that a port reset has abandoned. -/
def abandoned0 : State := after (.portReset 0) (after (.fetch 0 .start) running0)

theorem test_hyp_UntakenTransactionsHaveNoEffect :
    (let s := after (.renew 0 9) running0;
      s.rstnLow = false ∧ (s.port 0).canEnd 1 = true ∧ (s.ending 0).phase ≠ .abandoned ∧ (s.ending 0).ignored = false ∧
        s.monitor.state = .present ∧ (s.port 0).slot ≠ .empty) ∧
    (let s := after (.portReset 0) running0;
      s.rstnLow = false ∧ (s.port 0).canEnd 0 = true ∧ (s.ending 0).phase ≠ .abandoned ∧ (s.ending 0).ignored = true ∧
        (s.port 0).prstnLow = true) ∧
    (let s := begunLow running0 .pass 2;
      s.rstnLow = false ∧ (s.port 0).canEnd 4 = true ∧ (s.ending 0).phase ≠ .abandoned ∧ (s.ending 0).ignored = true ∧
        (s.port 0).prstnLow = false) ∧
    (∀ s ∈ [abandoned0, after (.portResetRelease 0) abandoned0],
      s.rstnLow = false ∧ (s.port 0).canEnd 0 = true ∧ (s.ending 0).phase = .abandoned) ∧
    (abandoned0.port 0).prstnLow = true ∧ ((after (.portResetRelease 0) abandoned0).port 0).prstnLow = false ∧
    (stopped.rstnLow = false ∧ (stopped.port 0).canEnd 2 = true ∧ (stopped.ending 0).phase ≠ .abandoned ∧
      stopped.monitor.state ≠ .present) ∧
    ([] : List Octet).head? ≠ some 0xA5 ∧ ([] : List Octet).head? ≠ some 0x5A := by decide +kernel

/-- The octets of a transaction begun in PRSTn low: ones while it is low, then those of an ignored transaction (R128, R141). -/
theorem test_begunLow_octets :
    ((after (.ignoredTransaction 0 [0x11, 2, 3, 4]) (begunLow stopped .pass 0)).port 0).psdo = [0x08, 0, 0, 0] ∧
    ((after (.ignoredTransaction 0 [0x11, 2, 3, 4]) (begunLow stopped .pass 1)).port 0).psdo = [0xFF, 0, 0, 0] ∧
    ((after (.fetch 0 .stop) (after (.fetch 0 (.clock 2)) (begunLow running0 .clock 3))).port 0).psdo =
      [0xFF, 0xFF, 0xFF, 0, 0] ∧
    ((after (.commandDiscarded 0 [0xA5, 1, 0x11, 0xEA]) (begunLow running0 .pass 0)).port 0).slot = .empty := by decide +kernel

theorem test_hyp_UnattachedPortIsRefused :
    (running0.CanTake 3 5 ∧ (running0.port 3).mode ≠ .attached) ∧
    (let s := { running0 with orphans := [{ port := 3, tag := 9, command := .bar 0, after := [] }] };
      (s.port 3).mode ≠ .attached ∧ s.rstnLow = false ∧
        s.orphan 3 9 (.bar 0) = some { port := 3, tag := 9, command := .bar 0, after := [] }) ∧
    (lapsedUnderway.port 0).mode ≠ .attached ∧ lapsedUnderway.rstnLow = false ∧ lapsedUnderway.orphan 0 9 (.bar 0) = none ∧
    (lapsedUnderway.port 0).slot = .handed 9 (.bar 0) [] ∧ (Command.bar 0).inParts = true ∧
    (Command.bar 0).allowedAlways = false := by decide +kernel

theorem test_hyp_HandOverThenTakingIsTheWhole : running0.CanTake 0 5 ∧ (running0.port 0).mode = .attached ∧
    (Command.bar 0).inParts = true ∧ running0.CanTake 3 4 ∧ Command.queryPorts.allowedAlways = true ∧
    Command.queryPorts.inParts = true ∧ running0.orphan 0 9 (.bar 0) = none := by decide +kernel

theorem test_hyp_ResponseIsPlaced :
    (let s := after (.renew 0 9) running0;
      s.rstnLow = false ∧ (s.port 0).slot = .done { tag := 9, code := 0x11, outcome := .accepted, result := [] }) := by
  decide +kernel

theorem test_hyp_FetchDeliversAndRemoves :
    (running0.rstnLow = false ∧ (running0.port 0).prstnLow = false ∧ (running0.port 0).transaction = none ∧
      running0.monitor.state = .present) ∧
    (stopped.rstnLow = false ∧ (stopped.port 0).prstnLow = false ∧ (stopped.port 0).transaction = none ∧
      stopped.monitor.state ≠ .present) ∧
    (let s := after (.portReset 0) running0;
      s.rstnLow = false ∧ (s.port 0).transaction = none ∧ (s.port 0).prstnLow = true) := by decide +kernel

theorem test_hyp_FetchIsItsParts :
    (∃ t u v, (running0.port 0).transaction = none ∧ exec (.fetch 0 .start) running0 = .next t ∧
      exec (.fetch 0 (.clock 0)) t = .next u ∧ exec (.fetch 0 (.clock 7)) u = .next v) ∧
    (∀ clock ∈ [FetchPart.clock, FetchPart.pass], ∃ t u v w, (after (.portReset 0) running0).rstnLow = false ∧
      ((after (.portReset 0) running0).port 0).prstnLow = true ∧
      ((after (.portReset 0) running0).port 0).transaction = none ∧
      exec (.fetch 0 .start) (after (.portReset 0) running0) = .next t ∧ exec (.fetch 0 (clock 1)) t = .next u ∧
      exec (.portResetRelease 0) u = .next v ∧ exec (.fetch 0 (clock 3)) v = .next w) ∧
    ∃ t u, running0.rstnLow = false ∧ (running0.port 0).prstnLow = false ∧ exec (.fetch 0 .start) running0 = .next t ∧
      exec (.fetch 0 (.pass 2)) t = .next u ∧ (2 : Nat) ≤ 5 ∧
      ((after .halt u).port 0).transaction = (u.port 0).transaction.map (fun f => { f with halted := true }) ∧
      ((after .halt u).port 0).psdo = (u.port 0).psdo ∧ ((after .halt u).port 0).prstnLow = false :=
  ⟨⟨_, _, _, by decide +kernel, rfl, rfl, rfl⟩,
    fun _ _ => ⟨_, _, _, _, by decide +kernel, by decide +kernel, by decide +kernel, rfl, rfl, rfl, rfl⟩,
    ⟨_, _, rfl, by decide +kernel, rfl, rfl, by decide, by decide +kernel, by decide +kernel, by decide +kernel⟩⟩

theorem test_hyp_AttachOpensASession : running0.CanTake 3 5 ∧ (running0.port 3).mode ≠ .attached ∧
    (let s := running0.modPort 3 fun x => { x with mode := .lapsed, session := 255 };
      s.CanTake 3 5 ∧ (s.port 3).mode ≠ .attached) ∧ (1 : Octet) ≠ 0 ∧ (255 : Octet) ≠ 0 := by decide +kernel

theorem test_hyp_RenewAndRefusedSessionCommands : running0.CanTake 0 5 ∧ running0.CanTake 0 4 ∧
    (running0.port 0).mode = .attached ∧
    (let s := running0.modLane 15 fun x => { x with bars := PortSet.only 0 };
      s.CanTake 0 4 ∧ (s.port 0).mode = .attached ∧ ∃ l : Lane, PortSet.has (s.lane l).bars 0 = true) ∧
    running0.CanTake 3 5 ∧ (running0.port 3).mode ≠ .attached := by decide +kernel

theorem test_hyp_DetachDepartsFromClaimsAndProposals : proposed.CanTake 0 4 ∧ (proposed.port 0).mode = .attached ∧
    proposed.barCount 0 = 0 := by decide +kernel

theorem test_hyp_SubscribeSetsOneClass : running0.CanTake 0 6 ∧ (running0.port 0).mode = .attached ∧
    (1 : Octet).toNat = EventClass.lane.code ∧ (6 : Octet).toNat = EventClass.device.code ∧ (2 : Octet).toNat = 2 ∧
    6 < (7 : Octet).toNat ∧ 2 < (3 : Octet).toNat := by decide +kernel

theorem test_hyp_DeviceAndPortsAreQueried :
    (∃ u, running0.Completes 3 9 .queryDevice .whole u []) ∧ (∃ u, running0.Completes 3 9 .queryPorts .whole u []) ∧
    (let s := after .halt (after (.queryDevice 0 9 (.read 0)) (after (.queryDevice 0 9 .handOver) carrying))
      ∃ u got, s.Completes 0 9 .queryDevice .atOwner u got ∧ u.monitor.state ≠ .present ∧ got.lookup 0 ≠ none ∧
        s.rstnLow = false ∧ got.lookup 1 = none) ∧
    (let s := after (.queryPorts 0 9 (.read 3)) (after (.queryPorts 0 9 .handOver) carrying)
      ∃ got, s.Completes 0 9 .queryPorts .atOwner s got ∧ got.lookup 3 ≠ none ∧ got.lookup 0 = none ∧ got.lookup 7 = none) :=
  ⟨⟨_, completes_whole 4 _ _ rfl (by decide +kernel)⟩, ⟨_, completes_whole 4 _ _ rfl (by decide +kernel)⟩,
    ⟨_, [(0, [0x08, 0x16, 0x01, 0, 0, 0, 0, 0, 0, 0, 0])],
      completes_later _ _ _ (by decide +kernel) (by decide +kernel) (by decide +kernel), by decide +kernel⟩,
    ⟨[(3, [0, 0, 0, 0, 0, 0])], completes_later _ _ _ (by decide +kernel) (by decide +kernel) (by decide +kernel), by decide⟩⟩

theorem test_hyp_LaneTrunkAndHistoryAreQueried (o : Octet) :
    (∃ u, running0.Completes 3 9 (.queryLane o) .whole u [] ∧ (u.lane 15).rx.due = []) ∧
    (∃ u, running0.Completes 3 9 (.queryTrunk o) .whole u []) ∧ (∃ u, running0.Completes 3 9 (.queryHistory o) .whole u []) ∧
    (let s := after (.queryTrunk 0 9 (.read 0) 7) (after (.queryTrunk 0 9 .handOver 7) running0)
      ∃ got, s.rstnLow = false ∧ s.Completes 0 9 (.queryTrunk 7) .atOwner s got ∧ got.lookup 0 ≠ none ∧
        ∀ i ∈ [1, 2, 3, 4], got.lookup i = none) ∧
    (let s := after (.queryLane 0 9 .handOver 15) running0;
      s.rstnLow = false ∧ s.Completes 0 9 (.queryLane 15) .atOwner s [] ∧ (s.lane 15).rx.due = []) ∧
    (let s := after (.queryHistory 0 9 .handOver 0) running0;
      s.rstnLow = false ∧ s.Completes 0 9 (.queryHistory 0) .atOwner s []) ∧
    (∀ k : Trunk, (running0.trunk k).charter.terms.members.length ≤ 4) ∧ (7 : Octet).toNat = (7 : Trunk).val ∧
    (15 : Octet).toNat = (15 : Lane).val :=
  ⟨⟨_, completes_whole 5 _ _ rfl (by decide +kernel), by decide +kernel⟩, ⟨_, completes_whole 5 _ _ rfl (by decide +kernel)⟩,
    ⟨_, completes_whole 5 _ _ rfl (by decide +kernel)⟩,
    ⟨[(0, [0, 0xFF, 0xFF, 0, 0, 0, 0, 0, 0, 0xFF])], by decide +kernel,
      completes_later _ _ _ (by decide +kernel) (by decide +kernel) (by decide +kernel), by decide +kernel⟩,
    ⟨by decide +kernel, completes_later _ _ _ (by decide +kernel) (by decide +kernel) (by decide +kernel), by decide +kernel⟩,
    ⟨by decide +kernel, completes_later _ _ _ (by decide +kernel) (by decide +kernel) (by decide +kernel)⟩, by decide +kernel⟩

theorem test_hyp_SetDegradeReplacesThresholds (o : Octet) (set clear : Pair) :
    (∃ u, Arrives running0 0 9 (.setDegrade o set clear) u ∧ (u.lane 3).rx.due = []) ∧
    (∃ u, (underway running0 (.setDegrade o set clear)).Arrives 0 9 (.setDegrade o set clear) .atOwner u []) ∧
    (3 : Lane).val / 4 = (0 : Port).val ∧ (4 : Lane).val / 4 ≠ (0 : Port).val :=
  ⟨⟨_, arrives_whole 9 _ _ rfl (by decide +kernel) (by decide +kernel), by decide +kernel⟩,
    ⟨_, arrives_later _ _ rfl rfl rfl⟩, by decide, by decide⟩

theorem test_hyp_ClearLaneCountersClearsFive (o : Octet) :
    (∃ u, Arrives running0 0 9 (.clearLaneCounters o) u) ∧
    (0 : Lane).val / 4 = (0 : Port).val ∧ (15 : Lane).val / 4 ≠ (0 : Port).val :=
  ⟨⟨_, arrives_whole 5 _ _ rfl (by decide +kernel) (by decide +kernel)⟩, by decide, by decide⟩

theorem test_hyp_BallotSetsTheSlot (o lane : Octet) :
    (∃ u, Arrives fed 0 9 (.ballot o lane) u ∧ (u.port 0).mode = .attached ∧
      (u.trunk 0).ballots[(0 : Port).val] = none ∧ (u.trunk 0).ballots[(0 : Port).val] ≠ some 8 ∧
      (8 : Lane) ∈ u.members 0 ∧ (15 : Lane) ∉ u.members 0) ∧
    (0xFF : Octet) = laneOctet none ∧ (8 : Octet) = laneOctet (some 8) ∧ 16 ≤ (16 : Octet).toNat ∧ (254 : Octet) ≠ 0xFF :=
  ⟨⟨_, arrives_whole 6 _ _ rfl (by decide +kernel) (by decide +kernel), by decide +kernel⟩, by decide +kernel⟩

/-- A hold of P0 on L0, a bar on L8. -/
def heldFed : State :=
  (fed.modTrunk 0 fun x => { x with hold := some { owner := 0, session := 1, lane := 0, dormant := false } }).modLane 8
    fun x => { x with bars := PortSet.only 1 }

theorem test_hyp_HoldIsPlacedOrReplaced (o lane : Octet) :
    (∃ u, Arrives heldFed 0 9 (.hold o lane) u ∧ (u.port 0).mode = .attached ∧
      (15 : Lane) ∉ u.members 0 ∧ ((8 : Lane) ∈ u.members 0 ∧ u.barred 8 = true) ∧
      ((4 : Lane) ∈ u.members 0 ∧ u.barred 4 = false) ∧
      ∃ h ∈ (u.trunk 0).hold, h.owner = 0 ∧ h.lane = 0 ∧ h.lane ≠ 4) ∧
    (∃ u, Arrives heldFed 1 9 (.hold o lane) u ∧ (u.port 1).mode = .attached ∧
      ((4 : Lane) ∈ u.members 0 ∧ u.barred 4 = false) ∧ ∃ h ∈ (u.trunk 0).hold, h.owner ≠ 1) ∧
    (∃ u, Arrives fed 0 9 (.hold o lane) u ∧ (u.port 0).mode = .attached ∧ (u.trunk 0).hold = none ∧
      (4 : Lane) ∈ u.members 0 ∧ u.barred 4 = false) :=
  ⟨⟨_, arrives_whole 6 _ _ rfl (by decide +kernel) (by decide +kernel), by decide +kernel, by decide +kernel, by decide +kernel,
      by decide +kernel, ⟨_, rfl, by decide⟩⟩,
    ⟨_, arrives_whole 6 _ _ rfl (by decide +kernel) (by decide +kernel), by decide +kernel, by decide +kernel, ⟨_, rfl, by decide⟩⟩,
    ⟨_, arrives_whole 6 _ _ rfl (by decide +kernel) (by decide +kernel), by decide +kernel⟩⟩

theorem test_hyp_ReleaseRemovesTheOwnersHold (o : Octet) :
    (∃ u, Arrives heldFed 0 9 (.release o) u ∧ (u.port 0).mode = .attached ∧
      (∃ h ∈ (u.trunk 0).hold, h.owner = 0) ∧ (u.trunk 7).hold = none) ∧
    (∃ u, Arrives heldFed 1 9 (.release o) u ∧ (u.port 1).mode = .attached ∧ ∃ h ∈ (u.trunk 0).hold, h.owner ≠ 1) ∧
    (∃ u, (underway heldFed (.release o)).Arrives 0 9 (.release o) .atOwner u [] ∧ (u.port 0).mode = .attached) :=
  ⟨⟨_, arrives_whole 5 _ _ rfl (by decide +kernel) (by decide +kernel), by decide +kernel, ⟨_, rfl, by decide⟩, by decide +kernel⟩,
    ⟨_, arrives_whole 5 _ _ rfl (by decide +kernel) (by decide +kernel), by decide +kernel, ⟨_, rfl, by decide⟩⟩,
    ⟨_, arrives_later _ _ rfl rfl rfl, rfl⟩⟩

theorem test_hyp_BarIsPlaced (o : Octet) :
    (∃ u, Arrives heldFed 1 9 (.bar o) u ∧ (u.port 1).mode = .attached ∧
      PortSet.has (u.lane 8).bars 1 = true ∧ PortSet.has (u.lane 15).bars 1 = false) :=
  ⟨_, arrives_whole 5 _ _ rfl (by decide +kernel) (by decide +kernel), by decide +kernel⟩

theorem test_hyp_BarsAreLifted (o j : Octet) :
    (∃ u, Arrives heldFed 1 9 (.lift o) u ∧ (u.port 1).mode = .attached ∧
      PortSet.has (u.lane 8).bars 1 = true ∧ PortSet.has (u.lane 15).bars 1 = false) ∧
    (let s := heldFed.modLane 15 fun x => { x with bars := PortSet.only 3 };
      ∃ u, Arrives s 0 9 (.liftStale o j) u ∧ (u.port 0).mode = .attached ∧
        (u.port 1).mode = .attached ∧ (u.port 3).mode ≠ .attached ∧
        PortSet.has (u.lane 15).bars 3 = true ∧ PortSet.has (u.lane 8).bars 3 = false) :=
  ⟨⟨_, arrives_whole 5 _ _ rfl (by decide +kernel) (by decide +kernel), by decide +kernel⟩,
    ⟨_, arrives_whole 6 _ _ rfl (by decide +kernel) (by decide +kernel), by decide +kernel⟩⟩

/-- T0 chartered as in `fed`, T1 with an open proposal naming L1 and L5. -/
def contested : State :=
  fed.modTrunk 1 fun x => { x with proposal := some { proposal0 with terms := { proposal0.terms with members := [1, 5] } } }

/-- The charter of the members given, its other fields 0. -/
def plain (ls : List Lane) : CharterTerms :=
  { members := ls, revertive := false, mend := false, holdOff := 0, restoreWait := 0 }

theorem test_charterOperand : charterOperand 0 [0xFF, 0xFF, 0xFF, 0xFF] 0 0 0 0 = some (plain []) ∧
    charterOperand 4 [15, 0, 7, 3] 1 1 200 600 =
      some { members := [15, 0, 7, 3], revertive := true, mend := true, holdOff := 200, restoreWait := 600 } ∧
    charterOperand 5 [15, 0, 7, 3] 0 0 0 0 = none ∧ charterOperand 2 [16, 0, 0, 0] 0 0 0 0 = none ∧
    charterOperand 2 [3, 3, 0, 0] 0 0 0 0 = none ∧ charterOperand 1 [3, 0, 0, 0] 2 0 0 0 = none ∧
    charterOperand 1 [3, 0, 0, 0] 0 0 201 0 = none ∧ charterOperand 1 [3, 0, 0, 0] 0 0 0 601 = none := by decide +kernel

theorem test_hyp_ProposeRefusalsComeInOrder (o count m1 m2 m3 m4 r m h : Octet) (w : Pair) :
    (∃ u, Arrives contested 0 9 (.propose o count m1 m2 m3 m4 r m h w) u ∧ (u.port 0).mode = .attached ∧
      (charterOperand 5 [0, 0, 0, 0] 0 0 0 0 = none) ∧
      (charterOperand 1 [15, 0, 0, 0] 0 0 0 0 = some (plain [15]) ∧
        ¬ ∃ l ∈ u.members 7 ++ (plain [15]).members, l.val / 4 = (0 : Port).val) ∧
      ((∃ l ∈ u.members 1 ++ (plain [0]).members, l.val / 4 = (0 : Port).val) ∧ (u.trunk 1).proposal ≠ none) ∧
      (charterOperand 1 [0, 0, 0, 0] 0 0 0 0 = some (plain [0]) ∧ (u.trunk 7).proposal = none ∧
        (∃ l ∈ u.members 7 ++ (plain [0]).members, l.val / 4 = (0 : Port).val) ∧
        ∃ k ≠ (7 : Trunk), ∃ l ∈ (plain [0]).members, l ∈ u.members k) ∧
      (charterOperand 1 [1, 0, 0, 0] 0 0 0 0 = some (plain [1]) ∧
        (∃ l ∈ u.members 7 ++ (plain [1]).members, l.val / 4 = (0 : Port).val) ∧
        (∀ k ≠ (7 : Trunk), ∀ l ∈ (plain [1]).members, l ∉ u.members k)) ∧
      ∃ q ∈ (u.trunk 1).proposal, ∃ l ∈ (plain [1]).members, l ∈ q.terms.members) :=
  ⟨_, arrives_whole 15 _ _ rfl (by decide +kernel) (by decide +kernel), by decide +kernel, by decide +kernel, by decide +kernel,
    by decide +kernel, by decide +kernel, by decide +kernel, _, rfl, by decide⟩

theorem test_hyp_ProposeOpensAProposal :
    (∃ u, Arrives running0 0 9 (.propose 1 2 1 5 0 0 0 1 0 0) u ∧ (u.port 0).mode = .attached ∧
      charterOperand 2 [1, 5, 0, 0] 0 1 0 0 = some { plain [1, 5] with mend := true } ∧
      (∃ l ∈ u.members 1 ++ [1, 5], l.val / 4 = (0 : Port).val) ∧ (u.trunk 1).proposal = none ∧
      (∀ k ≠ (1 : Trunk), ∀ l ∈ ([1, 5] : List Lane), l ∉ u.members k) ∧ (∀ k : Trunk, (u.trunk k).proposal = none) ∧
      (∀ k : Port, PortSet.has #v[true, true, false, false] k = true ↔
        (u.port k).mode = .attached ∧ ∃ l ∈ u.members 1 ++ [1, 5], l.val / 4 = k.val) ∧
      ∃ k ≠ (0 : Port), PortSet.has #v[true, true, false, false] k = true) :=
  ⟨_, arrives_whole 15 _ _ rfl (by decide +kernel) (by decide +kernel), by decide +kernel, by decide +kernel, by decide +kernel,
    by decide +kernel, by decide +kernel, by decide +kernel, by decide +kernel, by decide +kernel⟩

theorem test_hyp_ProposeAloneInstalls :
    (∃ u, Arrives running0 0 9 (.propose 1 2 1 15 0 0 0 0 0 0) u ∧ (u.port 0).mode = .attached ∧
      charterOperand 2 [1, 15, 0, 0] 0 0 0 0 = some (plain [1, 15]) ∧
      (∃ l ∈ u.members 1 ++ [1, 15], l.val / 4 = (0 : Port).val) ∧ (u.trunk 1).proposal = none ∧
      (∀ k ≠ (1 : Trunk), ∀ l ∈ ([1, 15] : List Lane), l ∉ u.members k) ∧ (∀ k : Trunk, (u.trunk k).proposal = none) ∧
      ∀ k ≠ (0 : Port), (u.port k).mode = .attached → ∀ l ∈ u.members 1 ++ [1, 15], l.val / 4 ≠ k.val) :=
  ⟨_, arrives_whole 15 _ _ rfl (by decide +kernel) (by decide +kernel), by decide +kernel, by decide +kernel, by decide +kernel,
    by decide +kernel, by decide +kernel, by decide +kernel, by decide +kernel⟩

theorem test_hyp_ConcurAddsOrInstalls :
    (∃ u, Arrives proposed 0 9 (.concur 0 7) u ∧ (u.port 0).mode = .attached ∧
      (u.trunk 0).proposal = some proposal0 ∧ PortSet.has proposal0.required 0 = true ∧
      PortSet.has proposal0.concurred 0 = true) ∧
    (∃ u, Arrives proposed 1 9 (.concur 0 7) u ∧ (u.port 1).mode = .attached ∧
      (u.trunk 0).proposal = some proposal0 ∧ PortSet.has proposal0.required 1 = true ∧
      PortSet.has proposal0.concurred 1 = false ∧ proposal0.concurred.set 1 true = proposal0.required) ∧
    (let q := { proposal0 with required := #v[true, true, true, false] };
      let s := running0.modTrunk 0 fun x => { x with proposal := some q };
      ∃ u, Arrives s 1 9 (.concur 0 7) u ∧ (u.port 1).mode = .attached ∧ (u.trunk 0).proposal = some q ∧
        PortSet.has q.required 1 = true ∧ PortSet.has q.concurred 1 = false ∧ q.concurred.set 1 true ≠ q.required) :=
  ⟨⟨_, arrives_whole 7 _ _ rfl (by decide +kernel) (by decide +kernel), by decide +kernel⟩,
    ⟨_, arrives_whole 7 _ _ rfl (by decide +kernel) (by decide +kernel), by decide +kernel⟩,
    ⟨_, arrives_whole 7 _ _ rfl (by decide +kernel) (by decide +kernel), by decide +kernel⟩⟩

theorem test_hyp_AnswerRefusalsComeInOrder (o : Octet) (n : Pair) :
    (∃ u, Arrives proposed 2 9 (.concur o n) u ∧ (u.port 2).mode = .attached ∧
      (u.trunk 7).proposal = none ∧ (u.trunk 0).proposal = some proposal0 ∧ PortSet.has proposal0.required 2 = false) ∧
    (∃ u, Arrives proposed 2 9 (.dissent o n) u ∧ (u.port 2).mode = .attached) ∧
    (∃ u, Arrives proposed 1 9 (.withdraw o n) u ∧ (u.port 1).mode = .attached) ∧
    proposal0.number = 7 ∧ proposal0.proposer ≠ 1 :=
  ⟨⟨_, arrives_whole 7 _ _ rfl (by decide +kernel) (by decide +kernel), by decide +kernel⟩,
    ⟨_, arrives_whole 7 _ _ rfl (by decide +kernel) (by decide +kernel), by decide +kernel⟩,
    ⟨_, arrives_whole 7 _ _ rfl (by decide +kernel) (by decide +kernel), by decide +kernel⟩, by decide, by decide⟩

theorem test_hyp_DissentAndWithdrawClose :
    (∃ u, Arrives proposed 0 9 (.dissent (oct (0 : Trunk).val) proposal0.number) u ∧ (u.port 0).mode = .attached ∧
      (u.trunk 0).proposal = some proposal0 ∧ PortSet.has proposal0.required 0 = true ∧ proposal0.proposer = 0) ∧
    (∃ u, Arrives proposed 1 9 (.dissent (oct (0 : Trunk).val) proposal0.number) u ∧ (u.port 1).mode = .attached ∧
      (u.trunk 0).proposal = some proposal0 ∧ PortSet.has proposal0.required 1 = true ∧ proposal0.proposer ≠ 1) ∧
    (∃ u, Arrives proposed 0 9 (.withdraw (oct (0 : Trunk).val) proposal0.number) u ∧
      (u.port 0).mode = .attached) :=
  ⟨⟨_, arrives_whole 7 _ _ rfl (by decide +kernel) (by decide +kernel), by decide +kernel⟩,
    ⟨_, arrives_whole 7 _ _ rfl (by decide +kernel) (by decide +kernel), by decide +kernel⟩,
    ⟨_, arrives_whole 7 _ _ rfl (by decide +kernel) (by decide +kernel), by decide +kernel⟩⟩

theorem test_hyp_LeaseExpiryLapsesThePort :
    (let s := proposed.modPort 1 fun x => { x with leaseRemaining := 0 };
      s.rstnLow = false ∧ s.monitor.state = .present ∧ (s.port 1).mode = .attached ∧ (s.port 1).leaseRemaining = 0) := by
  decide +kernel

theorem test_hyp_PortResetAndRelease : lapsedUnderway.rstnLow = false ∧ (lapsedUnderway.port 0).prstnLow = false ∧
    (lapsedUnderway.port 0).mode ≠ .attached ∧ (lapsedUnderway.port 0).slot = .handed 9 (.bar 0) [] ∧
    (proposed.rstnLow = false ∧ (proposed.port 0).prstnLow = false ∧ (proposed.port 0).mode = .attached) := by
  decide +kernel

theorem test_hyp_DeadlineExpiresTheProposal : (proposed.trunk 0).proposal = some proposal0 ∧ proposed.rstnLow = false ∧
    proposed.monitor.state = .present ∧ proposal0.deadline = proposed.blockCounter + BitVec.ofNat 32 32000 ∧
    ({ proposed with blockCounter := 32000 } : State).blockCounter = proposal0.deadline ∧
    proposal0.deadline = ({ proposed with blockCounter := 31999 } : State).blockCounter + BitVec.ofNat 32 1 ∧
    (proposed.trunk 1).proposal = none ∧ stopped.monitor.state ≠ .present := by decide +kernel

/-- An event of class DEVICE, offered to P0 with the queue given. -/
def offered (queue : List Entry) : State :=
  (running0.modPort 0 fun x => { x with queue := queue }).offer allPorts .timebase [] (.haltEnded 1 1)

def halts (n : Nat) : List Entry := List.replicate n (.note 1 (.haltEnded 1 1) 0)

theorem test_hyp_OfferIsAdmittedOrDeclined :
    (∀ q ∈ [[], halts 30, halts 31, halts 30 ++ [.lost 1 1 0 0], halts 31 ++ [.lost 1 65535 0 0]],
      (offered q).rstnLow = false ∧ ((offered q).readyOffers 0).map Offer.event = [.haltEnded 1 1] ∧
        ((offered q).port 0).mode ≠ .offline ∧ ((offered q).port 0).subs.mode .device = .both) ∧
    ((offered []).readyOffers 3).map Offer.event = [.haltEnded 1 1] ∧ ((offered []).port 3).mode = .offline := by
  decide +kernel

/-- An event of class TRUNK offered to the ports given, P0 subscribed to the class in the mode given. -/
def heard (m : SubMode) (dest : List Port) (e : Event) : State :=
  (running0.modPort 0 fun x => { x with subs := { x.subs with trunk := m } }).offer dest (.selector 0) [] e

theorem test_hyp_OfferIsAdmittedOrDeclined_modes :
    ∀ m ∈ [SubMode.off, .onset, .both], ∀ dest ∈ [[0], allPorts], ∀ x ∈ [(Event.starved 0 .starve none, false), (.fed 0 4, true)],
      (heard m dest x.1).rstnLow = false ∧ ((heard m dest x.1).readyOffers 0).map Offer.event = [x.1] ∧
        x.1.isClear = x.2 ∧ x.1.cls = .trunk ∧ ((heard m dest x.1).port 0).mode ≠ .offline ∧
        ((heard m dest x.1).port 0).subs.mode .trunk = m := by decide +kernel

/-- Mode ONSET lets an onset in and no clear (R150); an offer stays for the ports that have not taken it (R149). -/
theorem test_notificationOffer_modes :
    (let queued := fun (m : SubMode) (e : Event) => ((after (.notificationOffer 0 0) (heard m allPorts e)).port 0).queue.length;
      queued .onset (.starved 0 .starve none) = 1 ∧ queued .onset (.fed 0 4) = 0 ∧ queued .off (.starved 0 .starve none) = 0) ∧
    (after (.notificationOffer 0 0) (heard .both allPorts (.fed 0 4))).offers.map Offer.dest = [[1, 2, 3]] ∧
    (after (.notificationOffer 0 0) (heard .both [0] (.fed 0 4))).offers = [] := by decide +kernel

theorem test_hyp_LockFollowsTheTables :
    (carrying.rstnLow = false ∧ carrying.monitor.state = .present ∧ (carrying.lane 0).rx.due = [] ∧
      (carrying.lane 0).rx.lock = .locked ∧ (carrying.lane 0).rx.blockOpen = false ∧ (carrying.lane 1).rx.lock = .hunt) ∧
    (∀ x ∈ [(LockState.dark, 0, 0), (.confirm, 1, 0), (.confirm, 2, 0), (.coast, 0, 1), (.coast, 0, 2), (.coast, 0, 3)],
      let s := carrying.modRx 0 fun y => { y with lock := x.1, syncCount := x.2.1, missCount := x.2.2 };
      s.rstnLow = false ∧ s.monitor.state = .present ∧ (s.lane 0).rx.due = [] ∧ (s.lane 0).rx.blockOpen = false ∧
        (s.lane 0).rx.lock = x.1) := by decide +kernel

theorem test_hyp_BlockPositionIsProcessed :
    (let s := carrying.modRx 0 fun x => { x with blockOpen := true, expected := some 7 };
      s.rstnLow = false ∧ s.monitor.state = .present ∧ (s.lane 0).rx.due = [] ∧ (s.lane 0).rx.blockOpen = true ∧
      crc16 (highOctet (packHeader 7 false false) :: lowOctet (packHeader 7 false false) ::
        (Vector.replicate 58 0x55 : Payload).toList) =
          blockCheck (packHeader 7 false false) (Vector.replicate 58 0x55) ∧
      blockCheck (packHeader 7 false false) (Vector.replicate 58 0x55) ≠ 0 ∧
      (s.trunkOf 0 = some 0 ∧ (s.lane 0).buffer = [block 5] ++ [block 6] ∧ later 7 6 = true ∧ later 6 6 = false) ∧
      s.trunkOf 15 = none) ∧
    (([1, 2, 3, 4, 5, 6, 7, 8].map block).length = 8 ∧ later 9 8 = true) := by decide +kernel

theorem test_hyp_BlockPositionIsProcessed_break :
    let s := fun e : Option SeqNo => carrying.modRx 0 fun y => { y with blockOpen := true, expected := e };
    ((s (some 9)).rstnLow = false ∧ (s (some 9)).monitor.state = .present ∧ ((s (some 9)).lane 0).rx.due = [] ∧
      ((s (some 9)).lane 0).rx.blockOpen = true ∧ ((s (some 9)).lane 0).rx.expected = some 9) ∧
    ((s none).lane 0).rx.expected = none ∧ headerSeq (packHeader 7 false false) = 7 ∧ (9 : SeqNo) ≠ 7 := by decide +kernel

/-- Only a sequence break sets the last alignment status (R12, R26). -/
theorem test_blockPosition_status :
    let status := fun expected : Option SeqNo =>
      ((after (.blockPosition 0 (packHeader 7 false false) (Vector.replicate 58 0x55)
        (blockCheck (packHeader 7 false false) (Vector.replicate 58 0x55)))
        ((carrying.modLane 0 fun x => { x with status := .aligned }).modRx 0 fun x =>
          { x with blockOpen := true, expected := expected })).lane 0).status;
    status (some 9) = .empty ∧ status (some 7) = .aligned ∧ status none = .aligned := by decide +kernel

theorem test_hyp_BlockPositionIsProcessed_alarm :
    (∀ r ∈ [0, 6, 7], ∀ a ∈ [false, true],
      let s := carrying.modRx 0 fun x => { x with blockOpen := true, alarmRun := r, fillAlarm := a };
      s.rstnLow = false ∧ s.monitor.state = .present ∧ (s.lane 0).rx.due = [] ∧ (s.lane 0).rx.blockOpen = true ∧
        (s.lane 0).rx.alarmRun = r ∧ (s.lane 0).rx.fillAlarm = a) ∧
    (packHeader 7 true false).getLsbD 1 = true ∧ (packHeader 7 false false).getLsbD 1 = false ∧
    crc16 (highOctet (packHeader 7 true false) :: lowOctet (packHeader 7 true false) ::
      (Vector.replicate 58 0x55 : Payload).toList) =
        blockCheck (packHeader 7 true false) (Vector.replicate 58 0x55) := by decide +kernel


theorem test_hyp_AlarmStepsAreTaken :
    (∀ d ∈ [[LaneStep.fillAlarm], [.fillAlarm, .degradeDeclared, .windowEnd], [.degradeDeclared], [.windowEnd],
        [.degradeDeclared, .windowEnd], []],
      let s := carrying.modRx 0 fun x => { x with due := d };
      s.rstnLow = false ∧ s.monitor.state = .present ∧ (s.lane 0).rx.due = d) := by decide +kernel

theorem test_hyp_TopIsTheBestMember :
    ((fed.trunk 0).favoured = none ∧ (0 : Lane) ∈ fed.members 0 ∧
      (fed.lane 0).bars = Vector.replicate 4 false ∧ (fed.lane 0).rx.grade ≠ .failed) ∧
    (∀ l : Lane, ¬ (l ∈ running0.members 0 ∧ (running0.lane l).bars = Vector.replicate 4 false ∧
      (running0.lane l).rx.grade ≠ .failed)) ∧
    (let s := fed.modTrunk 0 fun x => { x with favoured := some 8 }
      ∀ f ∈ (s.trunk 0).favoured, f ∈ s.members 0) := by decide +kernel

/-- Every lane FAILED. -/
def dark (s : State) : State := allLanes.foldl (fun s l => s.modRx l fun x => { x with grade := .failed }) s

/-- No hold-off. -/
def hasty (s : State) : State :=
  s.modTrunk 0 fun x => { x with charter := { x.charter with terms := { x.charter.terms with holdOff := 0 } } }

/-- T0 is without members, its records otherwise as they are. -/
def unchartered (s : State) : State :=
  s.modTrunk 0 fun x => { x with charter := { x.charter with terms := { x.charter.terms with members := [] } } }

/-- The trigger of the test stands first and alone. -/
theorem takes_trigger0 (s : State) (k : TriggerKind) (h : s.rstnLow = false) (r : (s.trunk 0).reports = []) :
    (withTrigger s k).Takes 0 0 (trigger0 k) :=
  ⟨h, r, by simp [State.readyTriggers, State.triggersAt, withTrigger, trigger0]⟩

/-- What makes an evaluation at T0: the trigger of the test, and the expiry of a timer that has run out. -/
theorem evaluates_trigger0 (s : State) (k : TriggerKind) (h : s.rstnLow = false) (r : (s.trunk 0).reports = []) :
    (withTrigger s k).Evaluates 0 (.triggerEvaluation 0 0) k
      { withTrigger s k with triggers := (withTrigger s k).triggers.erase (trigger0 k) } [] :=
  .inl ⟨0, trigger0 k, rfl, takes_trigger0 s k h r, rfl, rfl, rfl⟩

theorem evaluates_holdOff {s : State} (h : s.rstnLow = false) (m : s.monitor.state = .present) (r : (s.trunk 0).reports = [])
    (e : (s.trunk 0).sel.holdOff = .running 0) : ∃ u, s.Evaluates 0 (.holdOffExpiry 0) .holdOffExpiry u [] ∧
      (u.trunk 0).sel.holdOff = .idle :=
  ⟨_, .inr ⟨h, m, r, rfl, .inl ⟨rfl, rfl, e, rfl⟩⟩, by simp⟩

theorem evaluates_restore {s : State} {c : Lane} (h : s.rstnLow = false) (m : s.monitor.state = .present)
    (r : (s.trunk 0).reports = []) (e : (s.trunk 0).sel.restore = .running c 0) :
    ∃ u, s.Evaluates 0 (.restoreWaitExpiry 0) .restoreExpiry u [] :=
  ⟨_, .inr ⟨h, m, r, rfl, .inr ⟨c, rfl, rfl, e, rfl⟩⟩⟩

theorem test_hyp_TriggersStartAndDrop :
    ((withTrigger running0 .bar).Takes 0 0 (trigger0 .bar) ∧ (running0.trunk 0).sel.mode = .disabled) ∧
    ((withTrigger fed .bar).Takes 0 0 (trigger0 .bar) ∧ (fed.trunk 0).sel.mode = .starved ∧
      (fed.trunk 0).sel.active = none ∧ (fed.trunk 0).hold = none ∧ (withTrigger fed .bar).top 0 = some 0) ∧
    (∀ s ∈ [hasty (dark carrying), dark switching],
      (withTrigger s (.grade 0)).Takes 0 0 (trigger0 (.grade 0)) ∧ (s.trunk 0).sel.active = some 0 ∧
      (s.trunk 0).hold = none ∧ (∀ l, (withTrigger s (.grade 0)).eligible 0 l = false) ∧
      ((s.trunk 0).sel.mode = .switching ∨
        (s.trunk 0).sel.mode = .carrying ∧ (s.trunk 0).charter.terms.holdOff = 0 ∧ (s.trunk 0).sel.holdOff = .idle)) := by
  refine ⟨⟨takes_trigger0 _ _ (by decide +kernel) (by decide +kernel), by decide +kernel⟩,
    ⟨takes_trigger0 _ _ (by decide +kernel) (by decide +kernel), by decide +kernel⟩, ?_⟩
  intro s hs
  rcases List.mem_cons.mp hs with rfl | hs
  · exact ⟨takes_trigger0 _ _ (by decide +kernel) (by decide +kernel), by decide +kernel⟩
  · cases List.mem_singleton.mp hs
    exact ⟨takes_trigger0 _ _ (by decide +kernel) (by decide +kernel), by decide +kernel⟩

/-- T0's charter is not revertive. -/
def loyal (s : State) : State :=
  s.modTrunk 0 fun x => { x with charter := { x.charter with terms := { x.charter.terms with revertive := false } } }

/-- L0 at the grade given. -/
def graded (g : Grade) (s : State) : State := s.modRx 0 fun x => { x with grade := g }

/-- L0 under a bar. -/
def barred0 (s : State) : State := s.modLane 0 fun x => { x with bars := PortSet.only 1 }

theorem test_hyp_TriggersStartAndDrop_moves :
    (∀ x ∈ [(hasty (graded .failed carrying), (4 : Lane)), (barred0 carrying, 4), (graded .failed switching, 4),
        (loyal switching, 0), (graded .degraded switching, 4),
        (graded .degraded (switching.modSel 0 fun y => { y with target := some 8 }), 4)],
      let s := withTrigger x.1 .bar;
      s.rstnLow = false ∧ (s.trunk 0).reports = [] ∧ (s.readyTriggers 0)[0]? = some (trigger0 .bar) ∧
        (s.trunk 0).sel.active = some 0 ∧ (s.trunk 0).hold = none ∧ s.top 0 = some x.2) ∧
    ((hasty (graded .failed carrying)).eligible 0 0 = false ∧ ((hasty carrying).trunk 0).charter.terms.holdOff = 0) ∧
    ((barred0 carrying).eligible 0 0 = false ∧ (barred0 carrying).barred 0 = true) ∧
    ((graded .failed switching).eligible 0 0 = false ∧ (switching.trunk 0).sel.mode = .switching) ∧
    ((loyal switching).eligible 0 0 = true ∧ some ((loyal switching).lane 0).rx.grade = (loyal switching).bestGrade 0) ∧
    ((graded .degraded switching).eligible 0 0 = true ∧
      some ((graded .degraded switching).lane 0).rx.grade ≠ (graded .degraded switching).bestGrade 0 ∧
      (switching.trunk 0).sel.target = some 4) := by decide +kernel

theorem test_hyp_TriggersStartAndDrop_stays :
    (∀ x ∈ [(loyal carrying, (0 : Lane)), (carrying, 0), (hasty (graded .degraded carrying), 4), (switching, 0)],
      let s := withTrigger x.1 .bar;
      s.rstnLow = false ∧ (s.trunk 0).reports = [] ∧ (s.readyTriggers 0)[0]? = some (trigger0 .bar) ∧
        (s.trunk 0).sel.active = some 0 ∧ (s.trunk 0).hold = none ∧ s.top 0 = some x.2 ∧ s.eligible 0 0 = true) ∧
    (∀ s ∈ [loyal carrying, carrying], (s.trunk 0).sel.mode = .carrying ∧ some (s.lane 0).rx.grade = s.bestGrade 0) ∧
    ((loyal carrying).trunk 0).charter.terms.revertive = false ∧ (switching.trunk 0).sel.mode = .switching ∧
    (let s := hasty (graded .degraded carrying);
      (s.trunk 0).sel.mode = .carrying ∧ (s.lane 0).rx.grade = .degraded ∧ s.bestGrade 0 = some .good ∧
        (s.trunk 0).charter.terms.holdOff = 0 ∧ (s.trunk 0).sel.holdOff = .idle) := by decide +kernel

/-- Both timers of T0 have run out. -/
def runOut (c : Lane) (s : State) : State := s.modSel 0 fun x => { x with holdOff := .running 0, restore := .running c 0 }

theorem test_hyp_TriggersStartAndDrop_expiries :
    (∀ s ∈ [fed, dark fed, dark carrying, dark switching, barred0 carrying, graded .failed carrying, graded .failed switching,
        loyal carrying, carrying, loyal switching, graded .degraded carrying, graded .degraded switching, running0],
      let s := runOut 8 s;
      s.rstnLow = false ∧ s.monitor.state = .present ∧ (s.trunk 0).reports = [] ∧ (s.trunk 0).hold = none ∧
        (s.trunk 0).sel.holdOff = .running 0 ∧ (s.trunk 0).sel.restore = .running 8 0) ∧
    (∀ s ∈ [barred0 carrying, graded .failed switching, graded .degraded carrying, graded .degraded switching],
      (s.trunk 0).sel.active = some 0 ∧ (runOut 8 s).top 0 = some 4) ∧
    (∀ s ∈ [dark fed, dark carrying, dark switching], ∀ l, (runOut 8 s).eligible 0 l = false) ∧
    (barred0 carrying).barred 0 = true ∧ (running0.trunk 0).sel.mode = .disabled := by decide +kernel

theorem test_hyp_TriggersStartAndDrop_install :
    (let s := withTrigger (dark fed) .bar;
      s.rstnLow = false ∧ (s.trunk 0).reports = [] ∧ (s.readyTriggers 0)[0]? = some (trigger0 .bar) ∧
        (s.trunk 0).sel.mode = .starved ∧ (s.trunk 0).sel.active = none ∧ (s.trunk 0).hold = none ∧
        ∀ l, s.eligible 0 l = false) ∧
    (∀ x ∈ [hasty (graded .failed carrying), graded .failed switching, loyal carrying, loyal switching,
        hasty (graded .degraded carrying), graded .degraded switching, fed, dark switching],
      ∀ h ∈ [HoldOffTimer.idle, .running 7],
      let s := withTrigger (x.modSel 0 fun y => { y with holdOff := h }) .install;
      s.rstnLow = false ∧ (s.trunk 0).reports = [] ∧ (s.readyTriggers 0)[0]? = some (trigger0 .install) ∧
        s.members 0 ≠ [] ∧ (s.trunk 0).sel.mode ≠ .disabled ∧ (s.trunk 0).hold = none) := by decide +kernel


theorem test_hyp_InstallTriggerFollowsTheCharter :
    (withTrigger running0 .install).Takes 0 0 (trigger0 .install) ∧ running0.members 0 = [] ∧
    (running0.trunk 0).sel.mode = .disabled ∧
    ((withTrigger (unchartered fed) .install).Takes 0 0 (trigger0 .install) ∧ (unchartered fed).members 0 = [] ∧
      ((unchartered fed).trunk 0).sel.mode ≠ .disabled ∧ ((unchartered fed).trunk 0).sel.active = none) ∧
    ((withTrigger (unchartered carrying) .install).Takes 0 0 (trigger0 .install) ∧ (unchartered carrying).members 0 = [] ∧
      ((unchartered carrying).trunk 0).sel.mode ≠ .disabled ∧ ((unchartered carrying).trunk 0).sel.active = some 0) ∧
    (let s := withTrigger (fed.modSel 0 fun _ => Selection.reset) .install;
      s.Takes 0 0 (trigger0 .install) ∧ s.members 0 ≠ [] ∧ (s.trunk 0).hold = none ∧ (s.trunk 0).sel.mode = .disabled ∧
        s.top 0 = some 0) ∧
    (let s := withTrigger (dark (fed.modSel 0 fun _ => Selection.reset)) .install;
      s.Takes 0 0 (trigger0 .install) ∧ s.members 0 ≠ [] ∧ (s.trunk 0).hold = none ∧ (s.trunk 0).sel.mode = .disabled ∧
        ∀ l, s.eligible 0 l = false) ∧
    (let s := withTrigger (carrying.modSel 0 fun x => { x with active := some 15 }) .install;
      s.Takes 0 0 (trigger0 .install) ∧ s.members 0 ≠ [] ∧ (s.trunk 0).hold = none ∧ (s.trunk 0).sel.mode = .carrying ∧
        (s.trunk 0).sel.active = some 15 ∧ (15 : Lane) ∉ s.members 0 ∧ s.top 0 = some 0) :=
  ⟨takes_trigger0 _ _ (by decide +kernel) (by decide +kernel), by decide +kernel, by decide +kernel,
    ⟨takes_trigger0 _ _ (by decide +kernel) (by decide +kernel), by decide +kernel⟩,
    ⟨takes_trigger0 _ _ (by decide +kernel) (by decide +kernel), by decide +kernel⟩,
    ⟨takes_trigger0 _ _ (by decide +kernel) (by decide +kernel), by decide +kernel⟩,
    ⟨takes_trigger0 _ _ (by decide +kernel) (by decide +kernel), by decide +kernel⟩,
    ⟨takes_trigger0 _ _ (by decide +kernel) (by decide +kernel), by decide +kernel⟩⟩

theorem test_hyp_InstallTriggerFollowsTheCharter_members :
    (∀ x ∈ [fed, dark fed, loyal carrying, loyal switching,
        loyal (switching.modSel 0 fun y => { y with target := some 15 }), graded .degraded carrying,
        hasty (graded .degraded carrying), graded .degraded switching,
        graded .degraded (switching.modSel 0 fun y => { y with target := some 15 })],
      let s := withTrigger x .install;
      s.rstnLow = false ∧ (s.trunk 0).reports = [] ∧ (s.readyTriggers 0)[0]? = some (trigger0 .install) ∧
        s.members 0 ≠ [] ∧ (s.trunk 0).hold = none) ∧
    ((fed.trunk 0).sel.mode = .starved ∧ (fed.trunk 0).sel.active = none ∧ fed.top 0 = some 0 ∧
      ∀ l, (dark fed).eligible 0 l = false) ∧
    (∀ s ∈ [loyal carrying, loyal switching], (s.trunk 0).sel.active = some 0 ∧ s.eligible 0 0 = true ∧
      some (s.lane 0).rx.grade = s.bestGrade 0 ∧ (s.trunk 0).charter.terms.revertive = false) ∧
    (∀ s ∈ [graded .degraded carrying, hasty (graded .degraded carrying), graded .degraded switching],
      (s.trunk 0).sel.active = some 0 ∧ s.eligible 0 0 = true ∧ (s.lane 0).rx.grade = .degraded ∧
        s.bestGrade 0 = some .good ∧ s.top 0 = some 4) ∧
    (carrying.trunk 0).charter.terms.holdOff ≠ 0 ∧ (switching.trunk 0).sel.target = some 4 ∧
    (let s := withTrigger (dark (switching.modSel 0 fun y => { y with active := some 15 })) .install;
      s.rstnLow = false ∧ (s.trunk 0).reports = [] ∧ (s.readyTriggers 0)[0]? = some (trigger0 .install) ∧
        s.members 0 ≠ [] ∧ (s.trunk 0).hold = none ∧ (s.trunk 0).sel.mode = .switching ∧
        (s.trunk 0).sel.active = some 15 ∧ (15 : Lane) ∉ s.members 0 ∧ ∀ l, s.eligible 0 l = false) := by decide +kernel


/-- An active hold of P0 on a lane. -/
def holding (l : Lane) (s : State) : State :=
  s.modTrunk 0 fun x => { x with hold := some { owner := 0, session := 1, lane := l, dormant := false } }

theorem test_hyp_ActiveHoldSettlesTheLane :
    (∀ x ∈ [(0, carrying), (0, switching), (4, carrying), (8, switching), (4, switching),
        (4, carrying.modRx 0 fun y => { y with grade := .failed })],
      let s := withTrigger (holding x.1 x.2) .hold;
      s.rstnLow = false ∧ (s.trunk 0).reports = [] ∧ (s.readyTriggers 0)[0]? = some (trigger0 .hold) ∧
        (s.trunk 0).hold = some { owner := 0, session := 1, lane := x.1, dormant := false } ∧
        s.eligible 0 x.1 = true ∧ ((s.trunk 0).sel.mode = .carrying ∨ (s.trunk 0).sel.mode = .switching) ∧
        (s.trunk 0).sel.active = some 0) ∧
    carrying.eligible 0 0 = true ∧ (carrying.modRx 0 fun y => { y with grade := .failed }).eligible 0 0 = false ∧
    (switching.trunk 0).sel.target = some 4 := by decide +kernel

theorem test_hyp_ActiveHoldSettlesTheLane_mark :
    (let s := withTrigger (barred0 (holding 0 carrying)) .bar;
      s.rstnLow = false ∧ (s.trunk 0).reports = [] ∧ (s.readyTriggers 0)[0]? = some (trigger0 .bar) ∧
        (s.trunk 0).hold = some { owner := 0, session := 1, lane := 0, dormant := false } ∧
        (s.trunk 0).sel.mode ≠ .disabled ∧ s.barred 0 = true) ∧
    (let s := withTrigger (fed.modTrunk 0 fun x => { x with hold := some { owner := 0, session := 1, lane := 0, dormant := true } }) .bar;
      s.rstnLow = false ∧ (s.trunk 0).reports = [] ∧ (s.readyTriggers 0)[0]? = some (trigger0 .bar) ∧
        (s.trunk 0).sel.mode ≠ .disabled ∧ s.barred 0 = false ∧ (s.lane 0).rx.grade ≠ .failed) := by decide +kernel

theorem test_hyp_ActiveHoldSettlesTheLane_starts :
    (let s := withTrigger (holding 4 fed) .hold;
      s.rstnLow = false ∧ (s.trunk 0).reports = [] ∧ (s.readyTriggers 0)[0]? = some (trigger0 .hold) ∧
        (s.trunk 0).hold = some { owner := 0, session := 1, lane := 4, dormant := false } ∧ s.eligible 0 4 = true ∧
        (s.trunk 0).sel.mode = .starved) ∧
    (∀ d ∈ [false, true],
      let s := withTrigger (graded .failed (carrying.modTrunk 0 fun x =>
        { x with hold := some { owner := 0, session := 1, lane := 0, dormant := d } })) (.grade 0);
      s.rstnLow = false ∧ (s.trunk 0).reports = [] ∧ (s.readyTriggers 0)[0]? = some (trigger0 (.grade 0)) ∧
        (s.trunk 0).hold = some { owner := 0, session := 1, lane := 0, dormant := d } ∧ (s.trunk 0).sel.mode ≠ .disabled ∧
        (s.lane 0).rx.grade = .failed) := by decide +kernel

theorem test_hyp_ActiveHoldSettlesTheLane_clears :
    (∀ k ∈ [TriggerKind.bar, .install], ∀ x ∈ [fed, carrying, switching, graded .failed carrying], ∀ d ∈ [false, true],
      let s := withTrigger (x.modTrunk 0 fun y =>
        { y with hold := some { owner := 0, session := 1, lane := 4, dormant := d } }) k;
      s.rstnLow = false ∧ (s.trunk 0).reports = [] ∧ (s.readyTriggers 0)[0]? = some (trigger0 k) ∧
        (s.trunk 0).hold = some { owner := 0, session := 1, lane := 4, dormant := d } ∧
        (s.trunk 0).sel.mode ≠ .disabled ∧ s.members 0 ≠ [] ∧ s.eligible 0 4 = true) ∧
    (fed.trunk 0).sel.mode = .starved ∧ (carrying.trunk 0).sel.active = some 0 ∧ (switching.trunk 0).sel.active = some 0 ∧
    carrying.eligible 0 0 = true ∧ (graded .failed carrying).eligible 0 0 = false := by decide +kernel

/-- A hold of P0 on a lane, with the dormant mark given, both timers having run out. -/
def heldOut (x : Lane × Bool) (s : State) : State :=
  runOut 8 (s.modTrunk 0 fun y => { y with hold := some { owner := 0, session := 1, lane := x.1, dormant := x.2 } })

/-- The hypotheses at the expiries: `evaluates_holdOff` and `evaluates_restore` give their evaluations. -/
theorem test_hyp_ActiveHoldSettlesTheLane_expiries :
    (∀ x ∈ [((0 : Lane), false), (0, true), (4, false), (4, true), (8, false)],
      ∀ s ∈ [carrying, switching, fed, graded .failed carrying],
      (heldOut x s).rstnLow = false ∧ (heldOut x s).monitor.state = .present ∧ ((heldOut x s).trunk 0).reports = [] ∧
        ((heldOut x s).trunk 0).sel.holdOff = .running 0 ∧ ((heldOut x s).trunk 0).sel.restore = .running 8 0 ∧
        ((heldOut x s).trunk 0).hold = some { owner := 0, session := 1, lane := x.1, dormant := x.2 } ∧
        ((heldOut x s).trunk 0).sel.mode ≠ .disabled) ∧
    ((graded .failed carrying).lane 0).rx.grade = .failed ∧ carrying.eligible 0 0 = true ∧ carrying.eligible 0 4 = true := by
  decide +kernel

/-- A timer that runs out at a trunk with an active hold begins the switch to its lane; with a hold whose lane has failed, the trunk
goes on as without one, marked dormant (R62, R76, R79). -/
theorem test_expiry_holds :
    (let s := after (.holdOffExpiry 0) (runOut 8 (holding 4 carrying));
      (s.trunk 0).sel.target = some 4 ∧ (s.trunk 0).sel.cause = some .health ∧ (s.trunk 0).sel.restore = .idle) ∧
    (let s := after (.restoreWaitExpiry 0) (runOut 8 (holding 0 (graded .failed carrying)));
      (s.trunk 0).hold.map Hold.dormant = some true ∧ (s.trunk 0).sel.holdOff = .running 0 ∧
        (s.trunk 0).sel.active = some 0) := by decide +kernel

/-- A hold whose mark this evaluation clears settles the lane, HOLD-ACTIVE offered first (R62). -/
theorem test_holdActive_settles :
    (let s := withTrigger (carrying.modTrunk 0 fun y =>
        { y with hold := some { owner := 0, session := 1, lane := 4, dormant := true } }) .install;
      ((after (.triggerEvaluation 0 0) s).trunk 0).sel.target = some 4 ∧
        ((after (.triggerEvaluation 0 0) s).trunk 0).sel.cause = some .membership ∧
        (after (.triggerEvaluation 0 0) s).offers.map Offer.event = [.holdActive 0 4 0 1 .good false]) := by decide +kernel


theorem test_hyp_TimersGateTheDecision :
    (∀ g ∈ [Grade.failed, .degraded], ∀ h ∈ [HoldOffTimer.idle, .running 0, .running 320],
      let s := withTrigger ((carrying.modRx 0 fun x => { x with grade := g }).modSel 0 fun x => { x with holdOff := h }) .bar;
      s.rstnLow = false ∧ s.monitor.state = .present ∧ (s.trunk 0).reports = [] ∧ (s.trunk 0).hold = none ∧
        (s.trunk 0).sel.mode = .carrying ∧ (s.trunk 0).sel.active = some 0 ∧ (0 : Lane) ∈ s.members 0 ∧
        s.barred 0 = false ∧ (s.lane 0).rx.grade = g ∧ s.bestGrade 0 = some .good ∧ s.top 0 = some 4 ∧
        (s.trunk 0).charter.terms.holdOff ≠ 0 ∧ (s.readyTriggers 0)[0]? = some (trigger0 .bar)) ∧
    (∀ w ∈ [0, 1], ∀ r ∈ [RestoreTimer.idle, .running 0 0],
      let s := withTrigger ((carrying.modSel 0 fun x => { x with active := some 4, restore := r }).modTrunk 0 fun x =>
        { x with charter := { x.charter with terms := { x.charter.terms with restoreWait := w } } }) .bar;
      s.rstnLow = false ∧ s.monitor.state = .present ∧ (s.trunk 0).reports = [] ∧ (s.trunk 0).hold = none ∧
        (s.trunk 0).sel.mode = .carrying ∧ (s.trunk 0).sel.active = some 4 ∧ (4 : Lane) ∈ s.members 0 ∧
        s.barred 4 = false ∧ (s.trunk 0).charter.terms.revertive = true ∧ s.bestGrade 0 = some (s.lane 4).rx.grade ∧
        s.top 0 = some 0 ∧ (s.readyTriggers 0)[0]? = some (trigger0 .bar) ∧ (s.trunk 0).sel.restore = r) := by
  decide +kernel

theorem test_hyp_TimersGateTheDecision_cancels :
    (∀ f ∈ [loyal, id], ∀ h ∈ [HoldOffTimer.running 320, .running 0], ∀ r ∈ [RestoreTimer.running 4 0, .due 8],
      let s := withTrigger (f (carrying.modSel 0 fun x => { x with holdOff := h, restore := r })) .bar;
      s.rstnLow = false ∧ s.monitor.state = .present ∧ (s.trunk 0).reports = [] ∧ (s.trunk 0).hold = none ∧
        (s.trunk 0).sel.mode = .carrying ∧ (s.trunk 0).sel.active = some 0 ∧ (0 : Lane) ∈ s.members 0 ∧
        s.barred 0 = false ∧ s.bestGrade 0 = some (s.lane 0).rx.grade ∧ s.top 0 = some 0 ∧
        (s.readyTriggers 0)[0]? = some (trigger0 .bar) ∧ (s.trunk 0).sel.holdOff = h ∧ (s.trunk 0).sel.restore = r) ∧
    (∀ w ∈ [0, 1], ∀ r ∈ [RestoreTimer.running 0 5, .due 0, .running 8 0, .due 8],
      let s := withTrigger ((carrying.modSel 0 fun x => { x with active := some 4, restore := r }).modTrunk 0 fun x =>
        { x with charter := { x.charter with terms := { x.charter.terms with restoreWait := w } } }) .bar;
      s.rstnLow = false ∧ s.monitor.state = .present ∧ (s.trunk 0).reports = [] ∧ (s.trunk 0).hold = none ∧
        (s.trunk 0).sel.mode = .carrying ∧ (s.trunk 0).sel.active = some 4 ∧ (4 : Lane) ∈ s.members 0 ∧
        s.barred 4 = false ∧ (s.trunk 0).charter.terms.revertive = true ∧ s.bestGrade 0 = some (s.lane 4).rx.grade ∧
        s.top 0 = some 0 ∧ (s.readyTriggers 0)[0]? = some (trigger0 .bar) ∧ (s.trunk 0).sel.restore = r) := by
  decide +kernel

theorem test_hyp_TimersGateTheDecision_switching :
    (∀ w ∈ [0, 1], ∀ g ∈ [(0 : Lane), 8], ∀ r ∈ [RestoreTimer.idle, .running 0 0, .running 8 0, .due 0, .due 8],
      let s := withTrigger ((switching.modSel 0 fun x =>
        { x with active := some 4, target := some g, restore := r, holdOff := .running 0 }).modTrunk 0 fun x =>
        { x with charter := { x.charter with terms := { x.charter.terms with restoreWait := w } } }) .bar;
      s.rstnLow = false ∧ s.monitor.state = .present ∧ (s.trunk 0).reports = [] ∧ (s.trunk 0).hold = none ∧
        (s.trunk 0).sel.mode = .switching ∧ (s.trunk 0).sel.active = some 4 ∧ (4 : Lane) ∈ s.members 0 ∧
        s.barred 4 = false ∧ (s.trunk 0).charter.terms.revertive = true ∧ s.bestGrade 0 = some (s.lane 4).rx.grade ∧
        s.top 0 = some 0 ∧ (s.readyTriggers 0)[0]? = some (trigger0 .bar) ∧ (s.trunk 0).sel.restore = r) := by
  decide +kernel

theorem test_hyp_TimersGateTheDecision_drops :
    (let s := dark (carrying.modSel 0 fun x => { x with holdOff := .running 0 });
      s.rstnLow = false ∧ s.monitor.state = .present ∧ (s.trunk 0).reports = [] ∧ (s.trunk 0).hold = none ∧
        (s.trunk 0).sel.mode = .carrying ∧ (s.trunk 0).sel.active = some 0 ∧ (0 : Lane) ∈ s.members 0 ∧
        s.barred 0 = false ∧ (s.trunk 0).sel.holdOff = .running 0 ∧ ∀ l, s.eligible 0 l = false) ∧
    (∀ h ∈ [HoldOffTimer.idle, .running 5],
      let s := withTrigger ((graded .failed carrying).modSel 0 fun x => { x with holdOff := h }) .install;
      s.rstnLow = false ∧ (s.trunk 0).reports = [] ∧ (s.readyTriggers 0)[0]? = some (trigger0 .install) ∧
        (s.trunk 0).sel.mode = .carrying ∧ (s.trunk 0).charter.terms.holdOff ≠ 0 ∧ (s.lane 0).rx.grade = .failed) := by
  decide +kernel

/-- A return that is DUE keeps its target through a trigger, and a RUNNING candidate cancels the switch (R77, R86). -/
theorem test_restore_switching :
    (let s := fun r => withTrigger (switching.modSel 0 fun x => { x with active := some 4, target := some 0, restore := r }) .bar;
      ((after (.triggerEvaluation 0 0) (s (.due 0))).trunk 0).sel = ((s (.due 0)).trunk 0).sel ∧
        ((after (.triggerEvaluation 0 0) (s (.running 0 5))).trunk 0).sel.mode = .carrying ∧
        ((after (.triggerEvaluation 0 0) (s (.running 0 5))).trunk 0).sel.restore = .running 0 5) := by decide +kernel


theorem test_hyp_EachInstantEmitsOneBlock : carrying.rstnLow = false ∧ carrying.monitor.state = .present ∧
    (∀ t : Trunk, (carrying.trunk t).reports = []) ∧ (carrying.trunk 0).sel.mode ≠ .disabled ∧
    (carrying.trunk 1).sel.mode = .disabled ∧ (0 : Lane) ∈ carrying.members 0 ∧ (goodLane []).buffer = [] ∧
    (∃ q ∈ (goodLane [5, 6]).buffer, q.seq = 5) ∧
    (∀ c ∈ [(100 : SeqNo), 1, 4], (∀ q ∈ (goodLane [2, 3, 5, 6]).buffer, q.seq ≠ c)) ∧
    (goodLane [2, 3, 5, 6]).buffer.head? = some (block 2) ∧ (goodLane [2, 3, 5, 6]).buffer.getLast? = some (block 6) ∧
    earlier 6 100 = true ∧ (earlier 6 1 = false ∧ later 2 1 = true) ∧ (earlier 6 4 = false ∧ later 2 4 = false) := by
  decide +kernel

/-- Every cause of BREAK, and none of them (R39). -/
theorem test_break :
    let brk := fun s : State => ((after (.emissionInstant 0) s).trunk 0).em.td.map OutBlock.brk;
    brk carrying = some false ∧ brk switching = some false ∧
    brk (carrying.modEm 0 fun x => { x with breakPending := true }) = some true ∧
    brk (carrying.modEm 0 fun x => { x with lastEmitted := none }) = some true ∧
    brk (carrying.modEm 0 fun x => { x with lastEmitted := some 3 }) = some true ∧
    brk (carrying.modEm 0 fun x => { x with centring := true }) = some true ∧
    brk ((carrying.modEm 0 fun x => { x with centring := true }).setLane 0 (goodLane [])) = some false ∧
    brk (carrying.modLane 0 fun x => { x with buffer := [{ block 5 with brk := true }] }) = some true ∧
    brk (carrying.modTrunk 0 fun x => { x with
      sel := { x.sel with pendingSwitch := some { src := some 8, cause := .bar, after := [] } }
      em := { x.em with immediatePending := true, cursor := 7, lastEmitted := some 6 } }) = some true := by decide +kernel

theorem test_hyp_InstantsTakeTheirBlock :
    (∀ s ∈ [fed, carrying, switching, carrying.modEm 0 fun x => { x with cursor := 100 },
        carrying.modEm 0 fun x => { x with centring := true },
        (carrying.modEm 0 fun x => { x with centring := true }).modLane 0 fun x =>
          { x with buffer := [1, 2, 4, 5, 6].map block }],
      s.rstnLow = false ∧ s.monitor.state = .present ∧ (s.trunk 0).reports = [] ∧
        (s.trunk 0).em.immediatePending = false ∧ (0 : Lane) ∈ s.members 0 ∧ (4 : Lane) ∈ s.members 0 ∧
        (s.lane 0).buffer ≠ []) ∧
    ((fed.trunk 0).sel.mode = .starved) ∧
    ((carrying.trunk 0).sel.mode = .carrying ∧ (carrying.trunk 0).em.centring = false ∧
      (carrying.trunk 0).sel.active = some 0 ∧ (carrying.trunk 0).em.cursor = 5 ∧
      (carrying.lane 0).buffer.find? (fun b => b.seq = 5) = some (block 5) ∧
      (carrying.trunk 0).charter.terms.mend = false ∧ (carrying.trunk 0).em.misalign < 3 ∧
      (∀ b ∈ (carrying.lane 0).buffer, b.seq ≠ 100)) ∧
    ((switching.trunk 0).sel.mode = .switching ∧ (switching.trunk 0).sel.target = some 4 ∧
      (switching.trunk 0).sel.cause = some .health ∧
      (switching.lane 4).buffer.find? (fun b => b.seq = 5) = some (block 5)) := by decide +kernel

theorem test_hyp_InstantsTakeTheirBlock_mend :
    (let s := (carrying.modTrunk 0 fun x =>
        { x with charter := { x.charter with terms := { x.charter.terms with mend := true } } }).setLane 0 (goodLane [7]);
      s.rstnLow = false ∧ s.monitor.state = .present ∧ (s.trunk 0).reports = [] ∧ (s.trunk 0).em.immediatePending = false ∧
        (s.trunk 0).sel.mode = .carrying ∧ (s.trunk 0).em.centring = false ∧ (s.trunk 0).em.misalign < 3 ∧
        (s.trunk 0).charter.terms.mend = true ∧ (∀ b ∈ (s.lane 0).buffer, b.seq ≠ (s.trunk 0).em.cursor) ∧
        s.selectionOrder 0 = [0] ++ 4 :: [8] ∧ s.eligible 0 4 = true ∧ (4 : Lane) ≠ 0 ∧
        some 4 ≠ (s.trunk 0).sel.target ∧
        (s.lane 4).buffer.find? (fun b => b.seq = (s.trunk 0).em.cursor) = some (block 5)) ∧
    (let s := (carrying.modEm 0 fun x => { x with centring := true }).setLane 0 (goodLane []);
      s.rstnLow = false ∧ s.monitor.state = .present ∧ (s.trunk 0).reports = [] ∧ (s.trunk 0).em.immediatePending = false ∧
        (0 : Lane) ∈ s.members 0 ∧ (s.trunk 0).sel.mode = .carrying ∧ (s.trunk 0).em.centring = true ∧
        (s.trunk 0).sel.active = some 0 ∧ (s.lane 0).buffer = []) := by decide +kernel

theorem test_hyp_InstantsTakeTheirBlock_switching :
    (∀ c ∈ [false, true], ∀ m ∈ [0, 3], ∀ b ∈ [[], [5, 6]],
      let s := ((switching.modEm 0 fun x => { x with centring := c, misalign := m }).setLane 4 (goodLane [7])).setLane 0
        (goodLane b);
      s.rstnLow = false ∧ s.monitor.state = .present ∧ (s.trunk 0).reports = [] ∧ (s.trunk 0).em.immediatePending = false ∧
        (s.trunk 0).sel.mode = .switching ∧ (s.trunk 0).sel.active = some 0 ∧ (s.trunk 0).sel.target = some 4 ∧
        (0 : Lane) ∈ s.members 0 ∧ (s.lane 4).buffer.find? (fun q => q.seq = (s.trunk 0).em.cursor) = none) ∧
    (let s := carrying.modEm 0 fun x => { x with cursor := 100, misalign := 3 };
      (s.trunk 0).sel.mode = .carrying ∧ (s.trunk 0).em.centring = false ∧
        (s.lane 0).buffer.find? (fun q => q.seq = (s.trunk 0).em.cursor) = none) := by decide +kernel

/-- The gap run begins with the emission of a fill, and ends with the next block that is none (R40). -/
theorem test_gapRun_offers :
    (after (.emissionInstant 0) (carrying.modEm 0 fun x => { x with cursor := 100 })).offers.map Offer.event =
      [.gapRunBegin 0 (some 100) (some 0)] ∧
    (after (.emissionInstant 0) (carrying.modEm 0 fun x => { x with gapRun := true })).offers.map Offer.event =
      [.gapRunEnd 0 (some 5) (some 0)] ∧ (after (.emissionInstant 0) carrying).offers = [] := by decide +kernel


theorem test_hyp_ReportsAreHandled :
    (∀ st ∈ [[], [(4, AlignStatus.aligned)]],
      let s := carrying.modTrunk 0 fun x => { x with reports := [⟨.alignmentLoss (some 0) st, []⟩] };
      s.rstnLow = false ∧ (s.trunk 0).sel.active = some 0 ∧ (s.trunk 0).hold = none ∧ (s.trunk 0).sel.mode = .carrying ∧
        (s.trunk 0).sel.pendingSwitch = none ∧ s.selectionOrder 0 = [0] ++ 4 :: [8] ∧ s.eligible 0 4 = true ∧
        some (s.lane 4).rx.grade = s.bestGrade 0) ∧
    (let s := switching.modTrunk 0 fun x =>
        { x with sel := { x.sel with alignWait := 16 }, reports := [⟨.alignWaitExpiry, []⟩] };
      s.rstnLow = false ∧ (s.trunk 0).sel.active = some 0 ∧ (s.trunk 0).reports = [⟨.alignWaitExpiry, []⟩] ∧
        (s.trunk 0).sel.mode = .switching ∧ (s.trunk 0).sel.target = some 4 ∧ (s.trunk 0).sel.alignWait = 16 ∧
        (s.trunk 0).sel.cause = some .health) ∧ (carrying.trunk 0).reports = [] := by decide +kernel

/-- T0 in the state given, an alignment loss of L0 reported with L4 ALIGNED, and an align-wait expiry behind it. -/
def losing (s : State) : State :=
  s.modTrunk 0 fun x =>
    { x with
      sel := { x.sel with alignWait := 16 }
      reports := [⟨.alignmentLoss (some 0) [(4, .aligned)], []⟩, ⟨.alignWaitExpiry, []⟩] }

theorem test_hyp_ReportsAreHandled_holds :
    (∀ s ∈ [losing (holding 0 switching), losing (holding 4 switching), losing (holding 8 switching), losing switching,
        losing (barred0 (holding 0 carrying)), losing (holding 8 carrying)],
      s.rstnLow = false ∧ (s.trunk 0).sel.active = some 0 ∧ (s.trunk 0).sel.pendingSwitch = none ∧
        ((s.trunk 0).sel.mode = .carrying ∨ (s.trunk 0).sel.mode = .switching) ∧
        (s.trunk 0).reports = ⟨.alignmentLoss (some 0) [(4, .aligned)], []⟩ :: [⟨.alignWaitExpiry, []⟩]) ∧
    (∀ l ∈ [(0 : Lane), 4, 8], (losing (holding l switching)).eligible 0 l = true) ∧
    (losing (barred0 (holding 0 carrying))).eligible 0 0 = false ∧
    (let s := carrying.modTrunk 0 fun x => { x with reports := [⟨.alignmentLoss (some 4) [], []⟩] };
      s.rstnLow = false ∧ (s.trunk 0).sel.active = some 0) ∧
    (let s := carrying.modTrunk 0 fun x => { x with reports := [⟨.alignWaitExpiry, []⟩] };
      s.rstnLow = false ∧ (s.trunk 0).sel.active = some 0 ∧ (s.trunk 0).sel.mode ≠ .switching) := by decide +kernel

/-- With an active hold alignment loss switches to its lane alone (R100); the align-wait expiry behind a slip completes the switch
that still stands (R103). -/
theorem test_alignmentLoss_holds :
    ((after (.alignmentLoss 0) (losing (holding 4 switching))).trunk 0).sel.active = some 4 ∧
    ((after (.alignmentLoss 0) (losing (holding 0 switching))).trunk 0).sel.active = some 0 ∧
    ((after (.alignmentLoss 0) (losing (holding 8 carrying))).trunk 0).history.map HistoryRecord.cause = [.slip] ∧
    (let s := after (.alignWaitExpiry 0) ((losing (holding 4 switching)).modTrunk 0 fun x =>
      { x with reports := [⟨.alignmentLoss (some 0) [], []⟩, ⟨.alignWaitExpiry, []⟩] });
      (s.trunk 0).sel.active = some 4 ∧ (s.trunk 0).history.map HistoryRecord.cause = [.slip, .health]) := by
  decide +kernel

theorem test_hyp_ReportsAreHandled_raised :
    (∀ c ∈ [false, true],
      let s := carrying.modTrunk 0 fun x =>
        { x with
          sel := { x.sel with pendingSwitch := some { src := some 8, cause := .bar, after := [] } }
          em := { x.em with immediatePending := true, centring := c } };
      s.rstnLow = false ∧ s.monitor.state = .present ∧ (s.trunk 0).sel.active = some 0 ∧ (s.trunk 0).reports = [] ∧
        (s.trunk 0).sel.mode = .carrying ∧ (s.trunk 0).em.immediatePending = true ∧ (s.trunk 0).sel.pendingSwitch ≠ none ∧
        ∃ b ∈ (s.lane 0).buffer, b.seq = (s.trunk 0).em.cursor) ∧
    (∀ x ∈ [(5, 0), (9, 15)],
      let s := (switching.modEm 0 fun y => { y with cursor := x.1, misalign := 3 }).modSel 0 fun y =>
        { y with alignWait := x.2 };
      s.rstnLow = false ∧ s.monitor.state = .present ∧ (s.trunk 0).sel.active = some 0 ∧ (s.trunk 0).reports = [] ∧
        (s.trunk 0).sel.mode = .switching ∧ (s.trunk 0).em.immediatePending = false ∧ (s.trunk 0).em.centring = false ∧
        (s.trunk 0).sel.target = some 4 ∧ (s.trunk 0).sel.cause = some .health ∧
        ((∃ b ∈ (s.lane 4).buffer, b.seq = (s.trunk 0).em.cursor) ↔ x.2 = 0)) ∧
    (let s := carrying.modEm 0 fun y => { y with cursor := 9, misalign := 3 };
      s.rstnLow = false ∧ s.monitor.state = .present ∧ (s.trunk 0).sel.active = some 0 ∧ (s.trunk 0).reports = [] ∧
        (s.trunk 0).sel.mode = .carrying ∧ (s.trunk 0).em.immediatePending = false ∧ (s.trunk 0).em.centring = false ∧
        (s.trunk 0).em.misalign = 3 ∧ ∀ b ∈ (s.lane 0).buffer, b.seq ≠ (s.trunk 0).em.cursor) := by decide +kernel

theorem test_hyp_ReportsAreHandled_found :
    (∀ c ∈ [false, true],
      let s := (switching.setLane 4 (goodLane [7])).modTrunk 0 fun x =>
        { x with
          sel := { x.sel with pendingSwitch := some { src := some 8, cause := .bar, after := [] } }
          em := { x.em with immediatePending := true, centring := c } };
      s.rstnLow = false ∧ s.monitor.state = .present ∧ (s.trunk 0).sel.active = some 0 ∧ (s.trunk 0).reports = [] ∧
        (s.trunk 0).sel.mode = .switching ∧ (s.trunk 0).em.immediatePending = true ∧ (s.trunk 0).em.centring = c ∧
        (s.trunk 0).sel.pendingSwitch = some { src := some 8, cause := .bar, after := [] } ∧
        (∃ b ∈ (s.lane 0).buffer, b.seq = (s.trunk 0).em.cursor) ∧
        ∀ b ∈ (s.lane 4).buffer, b.seq ≠ (s.trunk 0).em.cursor) ∧
    (∀ x ∈ [fed, running0],
      let s := x.modTrunk 0 fun y => { y with reports := [⟨.alignmentLoss (some 0) [], []⟩] };
      s.rstnLow = false ∧ (s.trunk 0).sel.active = none ∧
        ((s.trunk 0).sel.mode = .starved ∨ (s.trunk 0).sel.mode = .disabled)) := by decide +kernel

/-- An immediate switch from L8 is pending at T0. -/
def pending8 (s : State) : State :=
  s.modTrunk 0 fun x =>
    { x with
      sel := { x.sel with pendingSwitch := some { src := some 8, cause := .bar, after := [] } }
      em := { x.em with immediatePending := true } }

/-- An install has emptied the charter of T0 while that switch was pending, and its trigger is outstanding. -/
def emptiedPending : State := withTrigger (unchartered (pending8 carrying)) .install

theorem test_hyp_ReportsAreHandled_both :
    (∀ s ∈ [emptiedPending, pending8 switching, pending8 (graded .degraded switching)],
      s.rstnLow = false ∧ s.monitor.state = .present ∧ (s.trunk 0).reports = [] ∧ (s.trunk 0).sel.active = some 0 ∧
        (s.trunk 0).em.centring = false ∧ (s.trunk 0).em.immediatePending = true ∧
        (s.trunk 0).sel.pendingSwitch = some { src := some 8, cause := .bar, after := [] }) ∧
    emptiedPending.members 0 = [] ∧ (emptiedPending.trunk 0).sel.mode = .carrying ∧
    (trigger0 .install ∈ emptiedPending.triggers ∧ (trigger0 .install).trunk = 0 ∧ (trigger0 .install).kind = .install) ∧
    ∀ s ∈ [pending8 switching, pending8 (graded .degraded switching)],
      (s.trunk 0).sel.mode = .switching ∧ (s.trunk 0).sel.target = some 4 ∧ (s.trunk 0).sel.cause = some .health ∧
        ∀ l ∈ [(0 : Lane), 4], l ∈ s.members 0 ∧ ∃ b ∈ (s.lane l).buffer, b.seq = (s.trunk 0).em.cursor := by decide +kernel

/-- An instant that judges an immediate switch and completes a switch records both, while the evaluation of the first leaves the second
standing (R97, R99). -/
theorem test_emissionInstant_both :
    let causes := fun s : State => ((after (.emissionInstant 0) s).trunk 0).history.map fun r => (r.cause, r.kind);
    causes (pending8 (graded .degraded switching)) = [(.bar, .hitless), (.health, .hitless)] ∧
    causes (pending8 switching) = [(.bar, .hitless)] := by decide +kernel

/-- R110, last row: the DISABLE record names the lane the pending switch has been judged onto. -/
theorem test_disable_after_judgement :
    ((after (.triggerEvaluation 0 0) (after (.emissionInstant 0) emptiedPending)).trunk 0).history.map
      (fun r => (r.cause, r.src, r.dst, r.kind)) = [(.bar, some 8, some 0, .hit), (.disable, some 0, none, .nil)] := by
  decide +kernel

/-- A judged switch offers SWITCHED and counts a hit from a lane to another (R41, R94, R99); a completion counts hitless (R97). -/
theorem test_reports_count :
    (let s := after (.emissionInstant 0) (carrying.modTrunk 0 fun x =>
        { x with
          sel := { x.sel with pendingSwitch := some { src := some 8, cause := .bar, after := [] } }
          em := { x.em with immediatePending := true, centring := true } });
      (s.trunk 0).em.counters.hit = 1 ∧ s.offers.map Offer.event = [.switched 0 .bar (some 8) (some 0) .hit 1]) ∧
    (let s := after (.emissionInstant 0) (loyal switching);
      (s.trunk 0).em.counters.hitless = 1 ∧
        s.offers.map Offer.event = [.switched 0 .health (some 0) (some 4) .hitless 1]) := by decide +kernel


theorem test_hyp_BlockPeriodCountsAndScanIsCaptured : carrying.rstnLow = false ∧ carrying.monitor.state = .present ∧
    (∀ t : Trunk, (carrying.trunk t).reports = []) ∧ stopped.rstnLow = false ∧ stopped.monitor.state ≠ .present ∧
    (∀ t : Trunk, (stopped.trunk t).reports = []) := by decide +kernel

/-- The part qualifying its reference after a halt. -/
def qualifying0 : State := after (.qualifying 0) stopped

theorem test_hyp_HaltStopsThePart : carrying.rstnLow = false ∧ carrying.monitor.state = .present ∧
    (∀ l : Lane, (carrying.lane l).rx.due = []) ∧ (∀ t : Trunk, (carrying.trunk t).reports = []) ∧
    stopped.rstnLow = false ∧ stopped.monitor.state = .absent ∧ qualifying0.rstnLow = false ∧
    qualifying0.monitor.state = .qualifying ∧ 999999 < 1000000 := by decide +kernel

/-- T0's charter has been emptied in HALT, its install trigger outstanding. -/
def emptiedInHalt : State := withTrigger (unchartered qualifying0) .install

/-- A trunk emptied in HALT is DISABLED at the resume, with a DISABLE record and no RESUME record (R54). -/
theorem test_haltResume_emptied : ((after .haltResume emptiedInHalt).trunk 0).sel.mode = .disabled ∧
    ((after .haltResume emptiedInHalt).trunk 0).history.map (fun r => (r.cause, r.src)) = [(.disable, some 0)] := by
  decide +kernel

/-- A BAR on its way to its owner completes in the halt, and its response waits in the slot after the resume (R148). -/
theorem test_haltResume_underway :
    PortSet.has ((after .haltResume (underway qualifying0 (.bar 0))).lane 0).bars 0 = true ∧
    ((after .haltResume (underway qualifying0 (.bar 0))).port 0).slot = .empty ∧
    ((after .haltResume (underway qualifying0 (.bar 0))).port 0).response.map Response.outcome = some .accepted := by
  decide +kernel

theorem test_hyp_ResumeRestartsThePart_work :
    (∀ s ∈ [emptiedInHalt, underway qualifying0 (.bar 0),
        qualifying0.modPort 0 fun x => { x with slot := .reading 9 .queryPorts [] },
        { qualifying0 with orphans := [{ port := 3, tag := 9, command := .bar 0, after := [] }] }],
      s.rstnLow = false ∧ s.monitor.state = .qualifying) ∧
    emptiedInHalt.orphans = [] ∧ (∀ p : Port, (emptiedInHalt.port p).slot = .empty) ∧
    emptiedInHalt.triggers = trigger0 .install :: [] ∧
    (emptiedInHalt.readyTriggers (trigger0 .install).trunk)[0]? = some (trigger0 .install) ∧
    emptiedInHalt.members 0 = [] ∧ (emptiedInHalt.trunk 0).sel.mode = .carrying ∧
    (underway qualifying0 (.bar 0)).orphans = [] ∧ ((underway qualifying0 (.bar 0)).port 0).slot = .handed 9 (.bar 0) [] ∧
    (Command.bar 0).inParts = true ∧ Command.queryPorts.inParts = true ∧ qualifying0.orphans = [] ∧
    (∀ p : Port, (qualifying0.port p).slot = .empty) ∧ qualifying0.triggers = [] := by decide +kernel

theorem test_hyp_ResumeRestartsThePart : qualifying0.rstnLow = false ∧ qualifying0.monitor.state = .qualifying ∧
    qualifying0.started = true ∧ (qualifying0.trunk 0).sel.mode ≠ .disabled ∧ (qualifying0.trunk 1).sel.mode = .disabled ∧
    (after (.qualifying 5) State.reset).rstnLow = false ∧ (after (.qualifying 5) State.reset).started = false ∧
    (after (.qualifying 5) State.reset).monitor.state = .qualifying ∧
    (∀ t : Trunk, ((after (.qualifying 5) State.reset).trunk t).sel.mode = .disabled) ∧
    (∀ l : Lane, let x := (after (.qualifying 5) State.reset).lane l;
      x = { x with
        buffer := [], status := .empty
        rx := { x.rx with
          lock := .hunt, syncCount := 0, missCount := 0, expected := none, fillAlarm := false, alarmRun := 0
          windowPos := 0, windowCount := 0, degrade := false, blockOpen := false, due := [], grade := .failed } }) := by
  decide +kernel

/-- The resume after a halt sends the grade triggers of the members, and offers what it changes alone (R23, R170). -/
theorem test_haltResume_sends :
    (after .haltResume qualifying0).triggers.map (fun g => (g.trunk, g.kind)) =
      [(0, .grade 0), (0, .grade 4), (0, .grade 8)] ∧
    (after .haltResume qualifying0).offers.length = 6 := by decide +kernel


theorem test_hyp_DeviceResetSetsEveryRecord : carrying.rstnLow = false ∧
    (after .deviceResetAsserted carrying).rstnLow = true := by decide +kernel

theorem test_hyp_CommandsReachOnlyTheirRecords : ∃ r, exec (.clockLoss 0) carrying = .next r ∧ r ≠ carrying :=
  ⟨_, rfl, by decide +kernel⟩

/-- The part carrying, with an open proposal on T1, and a command waiting. -/
def waiting (i : Instr) : State := { contested with pending := [i] }

theorem test_hyp_EveryStepKeepsPortLaws : (waiting (.leaseExpiry 0)).QueueLaw ∧ (waiting (.leaseExpiry 0)).LeaseLaw ∧
    ∃ r, step (waiting (.leaseExpiry 0)) = .next r := ⟨by decide +kernel, by decide +kernel, _, rfl⟩

theorem test_hyp_EveryStepKeepsClaimAndProposalLaws : (waiting (.detach 0 9)).MembershipLaw ∧ (waiting (.detach 0 9)).BallotLaw ∧
    (waiting (.detach 0 9)).HoldLaw ∧ (waiting (.detach 0 9)).FavouredLaw ∧ (waiting (.detach 0 9)).ProposalLaw ∧
    ∃ r, step (waiting (.detach 0 9)) = .next r :=
  ⟨by decide +kernel, by decide +kernel, by decide +kernel, by decide +kernel, by decide +kernel, _, rfl⟩

theorem test_hyp_EveryStepKeepsTrunkLaws :
    (let s := { withTrigger fed .bar with pending := [.triggerEvaluation 0 0] };
      s.MembershipLaw ∧ s.HoldLaw ∧ s.SelectionLaw ∧ s.TrunkLaw ∧ ∃ r, step s = .next r) :=
  ⟨by decide +kernel, by decide +kernel, by decide +kernel, by decide +kernel, _, rfl⟩

theorem test_hyp_EveryStepKeepsEmitterLaws :
    (let s := { carrying with pending := [.emissionInstant 0] };
      s.CounterLaw ∧ s.MisalignLaw ∧ s.HistoryLaw ∧ ∃ r, step s = .next r) :=
  ⟨by decide +kernel, by decide +kernel, by decide +kernel, _, rfl⟩

theorem test_hyp_EveryStepKeepsLaneLaws :
    (let s := { carrying with pending := [.clockLoss 0] };
      s.ReceiverLaw ∧ s.GradeLaw ∧ s.BufferLaw ∧ ∃ r, step s = .next r) :=
  ⟨by decide +kernel, by decide +kernel, by decide +kernel, _, rfl⟩

end Sys2Proof.Tests
end

