-- ==== Sys2Proof/Proofs/LaneCommands.lean ====
section
/-! SUPPORT. Commands of the lane receivers: the lane operand and the ownership of a lane, and CLEAR-LANE-COUNTERS at its
receiver (R21) with the row that carries it. -/

namespace Sys2Proof.Machine

/-! ## The lane operand and the lane's owner -/

theorem laneOperand_eq_none {o : Octet} (h : 16 ≤ o.toNat) : laneOperand o = none :=
  dif_neg (by omega)

theorem laneOperand_eq_some {o : Octet} {l : Lane} (h : o.toNat = l.val) : laneOperand o = some l := by
  have hr : o.toNat < 16 := by omega
  rw [laneOperand, dif_pos hr]
  exact congrArg some (Fin.ext h)

/-- Port n / 4 owns lane n (spec/00_scope.md, How the part is reached). -/
theorem owner_eq_iff (l : Lane) (p : Port) : owner l = p ↔ l.val / 4 = p.val := Fin.ext_iff

/-! ## CLEAR-LANE-COUNTERS (R21) -/

/-- The receiver with its five counters at 0 and every other field as it was. -/
def Receiver.countersCleared (x : Receiver) : Receiver :=
  { x with goodBlocks := 0, checkFailures := 0, sequenceBreaks := 0, fillBlocks := 0, overflowDrops := 0 }

theorem clearLaneCounters_noSuchLane (s : State) (p : Port) {o : Octet} (h : 16 ≤ o.toNat) :
    s.clearLaneCounters p o = (s, refuse .noSuchLane) := by
  simp only [State.clearLaneCounters, laneOperand_eq_none h]

theorem clearLaneCounters_notOwner (s : State) {p : Port} {o : Octet} {l : Lane} (h : o.toNat = l.val)
    (hp : owner l ≠ p) : s.clearLaneCounters p o = (s, refuse .notOwner) := by
  simp only [State.clearLaneCounters, laneOperand_eq_some h, if_pos hp]

theorem clearLaneCounters_accepted (s : State) {p : Port} {o : Octet} {l : Lane} (h : o.toNat = l.val)
    (hp : owner l = p) :
    s.clearLaneCounters p o =
      (s.setLane l { s.lane l with rx := (s.lane l).rx.countersCleared }, accepted) := by
  simp only [State.clearLaneCounters, laneOperand_eq_some h, ne_eq, hp, not_true_eq_false, if_false, modRx_eq,
    Receiver.countersCleared]

/-- The row of a CLEAR-LANE-COUNTERS that arrives answers what its receiver answers, on the state the receiver finds. -/
theorem exec_clearLaneCounters {s u v : State} {after : List Nat} {p : Port} {tag : Octet} {part : Part} {o : Octet}
    {r : Reply} (h : s.Arrives p tag (.clearLaneCounters o) part u after) (hr : u.clearLaneCounters p o = (v, r)) :
    exec (.clearLaneCounters p tag part o) s = .next (v.answered p tag (.clearLaneCounters o) r.1 r.2) := by
  have hperf : u.perform p after (.clearLaneCounters o) = (v, r) := hr
  have hrow := exec_arrives (c := .clearLaneCounters o) rfl h
  rwa [carryOut_eq, hperf] at hrow

/-- Settles O19: the row answers as the receiver does, and the receiver's three cases are the operand out of range, a lane of
another port, and a lane of the port's own. -/
theorem clearLaneCountersClearsFive : Obligations.ClearLaneCountersClearsFive := by
  intro s u after p tag part o harr
  refine ⟨fun hrange => ?_, fun l hl => ⟨fun hother => ?_, fun hown => ?_⟩⟩
  · exact exec_clearLaneCounters harr (clearLaneCounters_noSuchLane u p hrange)
  · exact exec_clearLaneCounters harr (clearLaneCounters_notOwner u hl (mt (owner_eq_iff l p).mp hother))
  · exact exec_clearLaneCounters harr (clearLaneCounters_accepted u hl ((owner_eq_iff l p).mpr hown))

end Sys2Proof.Machine
end

