-- ==== Sys2Proof/Proofs/HoldCommands.lean ====
section
/-! SUPPORT. Commands of the claim registry: the row of a command that arrives, the operands, and HOLD (R60) and RELEASE (R61) at
the registry. -/

namespace Sys2Proof.Machine

/-! ## The row of a command that arrives -/

/-- The row of a command that arrives answers what its owner answers, on the state the owner finds. -/
theorem exec_answers {s u v : State} {after : List Nat} {p : Port} {tag : Octet} {part : Part} {c : Command} {r : Reply}
    (hc : c.inParts = true) (h : s.Arrives p tag c part u after) (hr : u.perform p after c = (v, r)) :
    exec (c.row p tag part) s = .next (v.answered p tag c r.1 r.2) := by
  rw [exec_arrives hc h, carryOut_eq, hr]

/-- The registry goes on with a command whose port it finds ATTACHED (R56). -/
theorem ifAttached_attached {s : State} {p : Port} (h : (s.port p).mode = .attached) (f : State × Reply) :
    s.ifAttached p f = f := if_pos h

/-! ## The trunk operand -/

theorem trunkOperand_eq_none {o : Octet} (h : 8 ≤ o.toNat) : trunkOperand o = none :=
  dif_neg (by omega)

theorem trunkOperand_eq_some {o : Octet} {t : Trunk} (h : o.toNat = t.val) : trunkOperand o = some t := by
  have hr : o.toNat < 8 := by omega
  rw [trunkOperand, dif_pos hr]
  exact congrArg some (Fin.ext h)

/-! ## HOLD (R60) -/

section Hold

variable {s : State} {p : Port} {after : List Nat} {o lane : Octet} {t : Trunk} {l : Lane}

theorem placeHold_noSuchTrunk (hm : (s.port p).mode = .attached) (ho : 8 ≤ o.toNat) :
    s.placeHold p after o lane = (s, refuse .noSuchTrunk) := by
  simp only [State.placeHold, ifAttached_attached hm, trunkOperand_eq_none ho]

theorem placeHold_noSuchLane (hm : (s.port p).mode = .attached) (ho : o.toNat = t.val) (hl : 16 ≤ lane.toNat) :
    s.placeHold p after o lane = (s, refuse .noSuchLane) := by
  simp only [State.placeHold, ifAttached_attached hm, trunkOperand_eq_some ho, laneOperand_eq_none hl]

/-- What HOLD does once its operands name a trunk and a lane: the refusals that are left, the hold that stands, the new one. -/
theorem placeHold_inRange (hm : (s.port p).mode = .attached) (ho : o.toNat = t.val) (hl : lane.toNat = l.val) :
    s.placeHold p after o lane =
      if l ∉ s.members t then (s, refuse .notMember)
      else if s.barred l = true then (s, refuse .barred)
      else if ∃ h ∈ (s.trunk t).hold, h.owner ≠ p then (s, refuse .heldByOther)
      else if ∃ h ∈ (s.trunk t).hold, h.lane = l then (s, accepted)
      else ((s.setTrunk t { s.trunk t with hold := some (holdPlaced (s.trunk t).hold p (s.port p).session l) }).send t .hold
        .registry (s.handOn .registry after), accepted) := by
  simp only [State.placeHold, ifAttached_attached hm, trunkOperand_eq_some ho, laneOperand_eq_some hl, modTrunk_eq,
    setTrunk_handOn, Bool.not_eq_true', List.contains_eq_mem, decide_eq_false_iff_not, Option.any_eq_true, bne_iff_ne, ne_eq,
    decide_eq_true_eq, Option.mem_def]

/-- A hold placed where no other port's hold stands: the mark is clear when the hold is new and kept when it is replaced. -/
theorem holdPlaced_eq {before : Option Hold} (session : Octet) (l : Lane) (h : ∀ x ∈ before, x.owner = p) :
    holdPlaced before p session l =
      { owner := p, session := session, lane := l, dormant := (before.map Hold.dormant).getD false } := by
  cases before with
  | none => rfl
  | some x => rw [← h x rfl]; rfl

end Hold

/-- Settles O22: the row answers as the registry does, whose cases on operands in range are the branches of
`placeHold_inRange`. -/
theorem holdIsPlacedOrReplaced : Obligations.HoldIsPlacedOrReplaced := by
  intro s u after p tag part o lane harr hm answer
  have hrow : ∀ {v code}, u.placeHold p after o lane = (v, (code, [])) → answer v code :=
    fun hr => exec_answers (c := .hold o lane) rfl harr hr
  refine ⟨fun ho => hrow (placeHold_noSuchTrunk hm ho), fun t ho => ⟨fun hl => hrow (placeHold_noSuchLane hm ho hl),
    fun l hl => ?_⟩⟩
  have heq := placeHold_inRange (after := after) hm ho hl
  refine ⟨fun hmem => ?notMember, fun hmem hbar => ?barred, fun hmem hbar => ⟨fun hother => ?heldByOther,
    fun h hh hown hlane => ?stands, fun hown => ?placed⟩⟩
  case notMember => exact hrow (heq.trans (if_pos hmem))
  case barred =>
    rw [if_neg (not_not_intro hmem), if_pos hbar] at heq
    exact hrow heq
  all_goals rw [if_neg (not_not_intro hmem), if_neg (ne_true_of_eq_false hbar)] at heq
  case heldByOther => exact hrow (heq.trans (if_pos hother))
  case stands =>
    have hnone : ¬ ∃ x ∈ (u.trunk t).hold, x.owner ≠ p := by
      rintro ⟨x, hx, hne⟩
      exact hne (Option.mem_unique hx hh ▸ hown)
    rw [if_neg hnone, if_pos ⟨h, hh, hlane⟩] at heq
    exact hrow heq
  case placed =>
    have hother : ¬ ∃ x ∈ (u.trunk t).hold, x.owner ≠ p := fun ⟨x, hx, hne⟩ => hne (hown x hx).1
    have hlane : ¬ ∃ x ∈ (u.trunk t).hold, x.lane = l := fun ⟨x, hx, he⟩ => (hown x hx).2 he
    rw [if_neg hother, if_neg hlane, holdPlaced_eq _ _ fun x hx => (hown x hx).1] at heq
    exact hrow heq

/-! ## RELEASE (R61) -/

theorem releaseHold_noSuchTrunk {s : State} {p : Port} {after : List Nat} {o : Octet} (hm : (s.port p).mode = .attached)
    (ho : 8 ≤ o.toNat) : s.releaseHold p after o = (s, refuse .noSuchTrunk) := by
  simp only [State.releaseHold, ifAttached_attached hm, trunkOperand_eq_none ho]

/-- RELEASE of a trunk in range removes the issuing port's hold, and answers NO-HOLD where there is none of it. -/
theorem releaseHold_inRange {s : State} {p : Port} {after : List Nat} {o : Octet} {t : Trunk}
    (hm : (s.port p).mode = .attached) (ho : o.toNat = t.val) :
    s.releaseHold p after o =
      if ∃ h ∈ (s.trunk t).hold, h.owner = p then
        ((s.setTrunk t { s.trunk t with hold := none }).send t .hold .registry (s.handOn .registry after), accepted)
      else (s, refuse .noHold) := by
  simp only [State.releaseHold, ifAttached_attached hm, trunkOperand_eq_some ho, modTrunk_eq, setTrunk_handOn,
    Option.any_eq_true, decide_eq_true_eq, Option.mem_def]

/-- Settles O23: the row answers as the registry does, which asks only whether the hold is the issuing port's. -/
theorem releaseRemovesTheOwnersHold : Obligations.ReleaseRemovesTheOwnersHold := by
  intro s u after p tag part o harr hm
  have hrow : ∀ {v code}, u.releaseHold p after o = (v, (code, [])) →
      exec (.release p tag part o) s = .next (v.answered p tag (.release o) code []) :=
    fun hr => exec_answers (c := .release o) rfl harr hr
  refine ⟨fun ho => hrow (releaseHold_noSuchTrunk hm ho), fun t ho => ⟨fun hnone => ?_, fun hown => ?_⟩⟩
  · have hno : ¬ ∃ h ∈ (u.trunk t).hold, h.owner = p := fun ⟨h, hh, he⟩ => hnone h hh he
    exact hrow ((releaseHold_inRange hm ho).trans (if_neg hno))
  · exact hrow ((releaseHold_inRange hm ho).trans (if_pos hown))

end Sys2Proof.Machine
end

