-- ==== Sys2Proof/Proofs/BarCommands.lean ====
section
/-! SUPPORT. Commands of the claim registry: sets of ports and the bar count, the lane's trigger, and BAR, LIFT and LIFT-STALE
(R64, R65, R66) at the registry. -/

namespace Sys2Proof.Machine

/-! ## The port operand -/

theorem portOperand_eq_none {o : Octet} (h : 4 ≤ o.toNat) : portOperand o = none :=
  dif_neg (by omega)

theorem portOperand_eq_some {o : Octet} {p : Port} (h : o.toNat = p.val) : portOperand o = some p := by
  have hr : o.toNat < 4 := by omega
  rw [portOperand, dif_pos hr]
  exact congrArg some (Fin.ext h)

/-! ## Bar counts (R55) -/

@[simp] theorem has_set_self (ps : PortSet) (p : Port) (b : Bool) : PortSet.has (ps.set p.val b) p = b := by
  simp [PortSet.has]

/-- Two states whose bars of a port differ on one lane alone, barred in the second: its bar count is one more there. -/
theorem barCount_succ {s v : State} {l : Lane} {p : Port} (hs : PortSet.has (s.lane l).bars p = false)
    (hv : PortSet.has (v.lane l).bars p = true) (hother : ∀ m ≠ l, v.lane m = s.lane m) :
    v.barCount p = s.barCount p + 1 := by
  have hperm : allLanes.Perm (l :: allLanes.erase l) := List.perm_cons_erase (mem_allLanes l)
  have hrest : (allLanes.erase l).filter (fun m => PortSet.has (v.lane m).bars p) =
      (allLanes.erase l).filter fun m => PortSet.has (s.lane m).bars p :=
    List.filter_congr fun m hm => by rw [hother m (nodup_allLanes.mem_erase_iff.mp hm).1]
  simp only [State.barCount, (hperm.filter _).length_eq, List.filter_cons, hs, hv, hrest, if_true, Bool.false_eq_true,
    if_false, List.length_cons]

/-! ## A lane's bar set replaced -/

/-- What BAR, LIFT and LIFT-STALE do when their checks pass: the lane's bar set is replaced, one bar trigger goes to the lane's
trunk if it is a member, and an event is offered to all four ports. -/
def State.rebar (s : State) (l : Lane) (bars : PortSet) (after : List Nat) (e : Event) : State :=
  ((s.setLane l { s.lane l with bars := bars }).sendForLane l .bar .registry (s.handOn .registry after)).offer allPorts
    .registry after e

theorem sendForLane_some {s : State} {l : Lane} {t : Trunk} (h : s.trunkOf l = some t) (k : TriggerKind) (b : Block)
    (after : List Nat) : s.sendForLane l k b after = s.send t k b after := by
  simp only [State.sendForLane, h]

theorem sendForLane_none {s : State} {l : Lane} (h : s.trunkOf l = none) (k : TriggerKind) (b : Block) (after : List Nat) :
    s.sendForLane l k b after = s := by
  simp only [State.sendForLane, h]

@[simp] theorem sendForLane_lane (s : State) (l : Lane) (k : TriggerKind) (b : Block) (after : List Nat) (m : Lane) :
    (s.sendForLane l k b after).lane m = s.lane m := by
  cases h : s.trunkOf l with
  | none => rw [sendForLane_none h]
  | some t => rw [sendForLane_some h]; rfl

@[simp] theorem sendForLane_trunkOf (s : State) (l : Lane) (k : TriggerKind) (b : Block) (after : List Nat) (m : Lane) :
    (s.sendForLane l k b after).trunkOf m = s.trunkOf m := by
  cases h : s.trunkOf l with
  | none => rw [sendForLane_none h]
  | some t => rw [sendForLane_some h]; rfl

@[simp] theorem setLane_trunkOf (s : State) (l : Lane) (x : LaneState) (m : Lane) : (s.setLane l x).trunkOf m = s.trunkOf m :=
  rfl

/-- The replacement in the words of R64 and R65: the trigger goes to the trunk that the membership lookup gives, if any. -/
theorem rebar_eq (s : State) (l : Lane) (bars : PortSet) (after : List Nat) (e : Event) :
    s.rebar l bars after e =
      (match s.trunkOf l with
        | some t => (s.setLane l { s.lane l with bars := bars }).send t .bar .registry (s.handOn .registry after)
        | none => s.setLane l { s.lane l with bars := bars }).offer allPorts .registry after e := rfl

/-! ## BAR (R64) -/

section Commands

variable {s : State} {p : Port} {after : List Nat} {o j : Octet} {l : Lane}

theorem placeBar_noSuchLane (hm : (s.port p).mode = .attached) (ho : 16 ≤ o.toNat) :
    s.placeBar p after o = (s, refuse .noSuchLane) := by
  simp only [State.placeBar, ifAttached_attached hm, laneOperand_eq_none ho]

/-- BAR of a lane in range: a bar that stands is left, a new one is placed. -/
theorem placeBar_inRange (hm : (s.port p).mode = .attached) (ho : o.toNat = l.val) :
    s.placeBar p after o =
      if PortSet.has (s.lane l).bars p = true then (s, accepted)
      else (s.rebar l ((s.lane l).bars.set p.val true) after
        (.barPlaced l p ((s.lane l).bars.set p.val true) (s.trunkOf l)), accepted) := by
  simp only [State.placeBar, ifAttached_attached hm, laneOperand_eq_some ho, modLane_eq, setLane_handOn, sendForLane_lane,
    sendForLane_trunkOf, lane_setLane_self, setLane_trunkOf, PortSet.add, State.rebar]

/-! ## LIFT and LIFT-STALE (R65, R66) -/

theorem removeBar_eq (s : State) (p k : Port) (after : List Nat) (l : Lane) :
    s.removeBar p k after l =
      s.rebar l ((s.lane l).bars.set k.val false) after
        (.barLifted l k p ((s.lane l).bars.set k.val false) (s.trunkOf l)) := by
  simp only [State.removeBar, modLane_eq, setLane_handOn, sendForLane_lane, sendForLane_trunkOf, lane_setLane_self,
    setLane_trunkOf, PortSet.remove, State.rebar]

theorem liftBar_noSuchLane (hm : (s.port p).mode = .attached) (ho : 16 ≤ o.toNat) :
    s.liftBar p after o = (s, refuse .noSuchLane) := by
  simp only [State.liftBar, ifAttached_attached hm, laneOperand_eq_none ho]

/-- LIFT of a lane in range turns on the port's own bar alone. -/
theorem liftBar_inRange (hm : (s.port p).mode = .attached) (ho : o.toNat = l.val) :
    s.liftBar p after o =
      if PortSet.has (s.lane l).bars p = true then (s.removeBar p p after l, accepted) else (s, refuse .notBarred) := by
  simp only [State.liftBar, ifAttached_attached hm, laneOperand_eq_some ho]

theorem liftStaleBar_noSuchLane (hm : (s.port p).mode = .attached) (ho : 16 ≤ o.toNat) :
    s.liftStaleBar p after o j = (s, refuse .noSuchLane) := by
  simp only [State.liftStaleBar, ifAttached_attached hm, laneOperand_eq_none ho]

theorem liftStaleBar_noSuchPort (hm : (s.port p).mode = .attached) (ho : o.toNat < 16) (hj : 4 ≤ j.toNat) :
    s.liftStaleBar p after o j = (s, refuse .noSuchPort) := by
  simp only [State.liftStaleBar, ifAttached_attached hm, laneOperand_eq_some (l := ⟨o.toNat, ho⟩) rfl, portOperand_eq_none hj]

/-- LIFT-STALE with operands in range: a port that is ATTACHED keeps its bar, and the rest is LIFT's. -/
theorem liftStaleBar_inRange {k : Port} (hm : (s.port p).mode = .attached) (ho : o.toNat = l.val) (hj : j.toNat = k.val) :
    s.liftStaleBar p after o j =
      if (s.port k).mode = .attached then (s, refuse .notStale)
      else if PortSet.has (s.lane l).bars k = true then (s.removeBar p k after l, accepted) else (s, refuse .notBarred) := by
  simp only [State.liftStaleBar, ifAttached_attached hm, laneOperand_eq_some ho, portOperand_eq_some hj]

/-- LIFT, and LIFT-STALE of a port that is not ATTACHED, lift the bar of the port k they are about in one way. -/
theorem perform_lifting {c : Command} {k : Port} (hm : (s.port p).mode = .attached) (ho : o.toNat = l.val)
    (hk : (c = .lift o ∧ k = p) ∨ (c = .liftStale o j ∧ j.toNat = k.val ∧ (s.port k).mode ≠ .attached)) :
    s.perform p after c =
      if PortSet.has (s.lane l).bars k = true then (s.removeBar p k after l, accepted) else (s, refuse .notBarred) := by
  rcases hk with ⟨rfl, rfl⟩ | ⟨rfl, hj, hstale⟩
  · exact liftBar_inRange hm ho
  · exact (liftStaleBar_inRange hm ho hj).trans (if_neg hstale)

end Commands

/-- Settles O24: the row answers as the registry does, and the bar set gains the one port on the one lane. -/
theorem barIsPlaced : Obligations.BarIsPlaced := by
  intro s u after p tag part o harr hm
  have hrow : ∀ {v code}, u.placeBar p after o = (v, (code, [])) →
      exec (.bar p tag part o) s = .next (v.answered p tag (.bar o) code []) :=
    fun hr => exec_answers (c := .bar o) rfl harr hr
  refine ⟨fun ho => hrow (placeBar_noSuchLane hm ho), fun l ho => ⟨fun hhas => ?_, fun hhas => ⟨?_, ?_⟩⟩⟩
  · exact hrow ((placeBar_inRange hm ho).trans (if_pos hhas))
  · exact barCount_succ hhas (by simp) fun m hml => lane_setLane_ne u _ hml
  · have hplaced := (placeBar_inRange (after := after) hm ho).trans (if_neg (ne_true_of_eq_false hhas))
    rw [rebar_eq] at hplaced
    exact hrow hplaced

/-- Settles O25: the row answers as the registry does, whose removal is one for both commands (`perform_lifting`). -/
theorem barsAreLifted : Obligations.BarsAreLifted := by
  intro s u after p tag part o j c hc harr hm refused
  have hparts : c.inParts = true := by rcases hc with rfl | rfl <;> rfl
  have hrow : ∀ {v code}, u.perform p after c = (v, (code, [])) →
      exec (c.row p tag part) s = .next (v.answered p tag c code []) :=
    fun hr => exec_answers hparts harr hr
  refine ⟨fun ho => ?noSuchLane, fun l k ho hk => ⟨fun hstale hmode => ?notStale, fun hnot => ?lifting⟩,
    fun hstale ho hj => ?noSuchPort⟩
  case noSuchLane =>
    rcases hc with rfl | rfl
    · exact hrow (liftBar_noSuchLane hm ho)
    · exact hrow (liftStaleBar_noSuchLane hm ho)
  case noSuchPort =>
    subst hstale
    exact hrow (liftStaleBar_noSuchPort hm ho hj)
  case notStale =>
    subst hstale
    have hj : j.toNat = k.val := by simpa using hk
    exact hrow ((liftStaleBar_inRange hm ho hj).trans (if_pos hmode))
  case lifting =>
    have hk' : (c = .lift o ∧ k = p) ∨ (c = .liftStale o j ∧ j.toNat = k.val ∧ (u.port k).mode ≠ .attached) := by
      rcases hk with hlift | ⟨rfl, hj⟩
      · exact .inl hlift
      · exact .inr ⟨rfl, hj, hnot.resolve_left nofun⟩
    have hperf := perform_lifting (after := after) hm ho hk'
    refine ⟨fun hhas => hrow (hperf.trans (if_neg (ne_true_of_eq_false hhas))), fun hhas => ⟨?_, ?_⟩⟩
    · exact (barCount_succ (by simp) hhas fun m hml => (lane_setLane_ne u _ hml).symm).symm
    · rw [if_pos hhas, removeBar_eq, rebar_eq] at hperf
      exact hrow hperf

end Sys2Proof.Machine
end

