-- ==== Sys2Proof/Proofs/SelectionOrder.lean ====
section
/-! SUPPORT. The ranking of a trunk's members (R75): best grade is least among the eligible, the selection order lists the
members, and Top is the first of that order that is eligible and of the best grade. -/

namespace Sys2Proof.Machine

theorem Grade.rank_injective : Function.Injective Grade.rank := by
  intro g h
  cases g <;> cases h <;> simp [Grade.rank]

/-- Only GOOD has rank 0. -/
theorem Grade.one_le_rank {g : Grade} (h : g ≠ .good) : 1 ≤ g.rank := by
  cases g <;> simp_all [Grade.rank]

section
variable {s : State} {t : Trunk} {d m : Lane}

/-! ## Best grade -/

theorem bestGrade_good (hm : s.eligible t m = true) (hg : (s.lane m).rx.grade = .good) : s.bestGrade t = some .good :=
  if_pos (List.any_eq_true.mpr ⟨m, ((eligible_iff s t m).mp hm).1, by simp [hm, hg]⟩)

theorem bestGrade_degraded (hm : s.eligible t m = true)
    (hnone : ∀ l, s.eligible t l = true → (s.lane l).rx.grade ≠ .good) : s.bestGrade t = some .degraded := by
  have hno : ¬ (s.members t).any (fun l => s.eligible t l && (s.lane l).rx.grade = .good) = true := by
    simpa using fun l _ => hnone l
  have hany : (s.members t).any (fun l => s.eligible t l) = true :=
    List.any_eq_true.mpr ⟨m, ((eligible_iff s t m).mp hm).1, hm⟩
  rw [State.bestGrade, if_neg hno, if_pos hany]

/-- Where a member is eligible, the best grade is that of an eligible member than which none is better graded. -/
theorem exists_bestGraded (hm : s.eligible t m = true) :
    ∃ d, s.eligible t d = true ∧ s.bestGrade t = some (s.lane d).rx.grade ∧
      ∀ l, s.eligible t l = true → (s.lane d).rx.grade.rank ≤ (s.lane l).rx.grade.rank := by
  by_cases hgood : ∃ d, s.eligible t d = true ∧ (s.lane d).rx.grade = .good
  · obtain ⟨d, hd, hg⟩ := hgood
    exact ⟨d, hd, hg ▸ bestGrade_good hd hg, fun l _ => hg ▸ Nat.zero_le _⟩
  · have hnone : ∀ l, s.eligible t l = true → (s.lane l).rx.grade ≠ .good := fun l hl hg => hgood ⟨l, hl, hg⟩
    have hg : (s.lane m).rx.grade = .degraded := by
      have hne := hnone m hm
      have hnf := ((eligible_iff s t m).mp hm).2.2
      cases h : (s.lane m).rx.grade <;> simp_all
    exact ⟨m, hm, hg ▸ bestGrade_degraded hm hnone, fun l hl => hg ▸ Grade.one_le_rank (hnone l hl)⟩

/-- No eligible member is better graded than the best grade. -/
theorem bestGrade_rank_le (h : s.bestGrade t = some (s.lane d).rx.grade) (hm : s.eligible t m = true) :
    (s.lane d).rx.grade.rank ≤ (s.lane m).rx.grade.rank := by
  obtain ⟨b, -, hb, hle⟩ := exists_bestGraded hm
  have hdb : (s.lane d).rx.grade = (s.lane b).rx.grade := Option.some.inj (h.symm.trans hb)
  exact hdb ▸ hle m hm

/-- An eligible member not of the best grade is worse graded. -/
theorem bestGrade_rank_lt (h : s.bestGrade t = some (s.lane d).rx.grade) (hm : s.eligible t m = true)
    (hne : some (s.lane m).rx.grade ≠ s.bestGrade t) : (s.lane d).rx.grade.rank < (s.lane m).rx.grade.rank := by
  refine lt_of_le_of_ne (bestGrade_rank_le h hm) fun heq => hne ?_
  rw [h, Grade.rank_injective heq]

/-! ## Selection order -/

/-- The favoured lane, if there is one, stands first, and the members other than it follow in rank order. -/
theorem selectionOrder_eq (s : State) (t : Trunk) :
    s.selectionOrder t =
      (s.trunk t).favoured.toList ++ (s.members t).filter fun l => some l != (s.trunk t).favoured := by
  cases h : (s.trunk t).favoured with
  | none =>
    have hall : (s.members t).filter (fun l => some l != none) = s.members t := List.filter_eq_self.mpr fun _ _ => rfl
    simp [State.selectionOrder, h, hall]
  | some f => simp [State.selectionOrder, h, bne]

/-- Every member stands in the selection order. -/
theorem mem_selectionOrder (h : m ∈ s.members t) : m ∈ s.selectionOrder t := by
  rw [selectionOrder_eq]
  by_cases hf : some m = (s.trunk t).favoured
  · simp [← hf]
  · simp [h, hf]

/-! ## Top -/

/-- Without a best grade there is no Top. -/
theorem top_none (h : s.bestGrade t = none) : s.top t = none := by
  simp [State.top, h]

/-- Where a member is eligible there is a Top: the best graded member stands in the selection order. -/
theorem exists_top (hm : s.eligible t m = true) : ∃ d, s.top t = some d := by
  obtain ⟨b, hb, hbest, -⟩ := exists_bestGraded hm
  refine Option.isSome_iff_exists.mp (List.find?_isSome.mpr ⟨b, ?_, ?_⟩)
  · exact mem_selectionOrder ((eligible_iff s t b).mp hb).1
  · simp [hb, hbest]

/-- No member before Top in the selection order is both eligible and of the best grade. -/
theorem top_first (h : s.top t = some d) : ∃ before later, s.selectionOrder t = before ++ d :: later ∧
    ∀ l ∈ before, s.eligible t l = true → some (s.lane l).rx.grade ≠ s.bestGrade t := by
  obtain ⟨-, before, later, horder, hbefore⟩ := List.find?_eq_some_iff_append.mp h
  exact ⟨before, later, horder, fun l hl hel => by simpa [hel] using hbefore l hl⟩

end

/-- Settles O42: best grade and Top by whether a member is eligible; Top is the first of the best graded. -/
theorem topIsTheBestMember : Obligations.TopIsTheBestMember := by
  refine ⟨by decide, barred_eq_false, fun s t _ => ?_⟩
  intro fits order
  have horder : s.selectionOrder t = order := selectionOrder_eq s t
  have hfits : ∀ l, s.eligible t l = true ↔ fits l := fun l => by rw [eligible_iff, barred_eq_false]
  refine ⟨horder, hfits, fun hnone => ?_, fun ⟨m, hm⟩ => ?_⟩
  · have hbest : s.bestGrade t = none :=
      bestGrade_none fun l => Bool.eq_false_iff.mpr fun hl => hnone l ((hfits l).mp hl)
    exact ⟨hbest, top_none hbest⟩
  · obtain ⟨d, htop⟩ := exists_top ((hfits m).mpr hm)
    obtain ⟨hd, hbest⟩ := top_eligible htop
    obtain ⟨before, later, hsplit, hfirst⟩ := top_first htop
    refine ⟨d, before, later, htop, hbest, (hfits d).mp hd, horder ▸ hsplit, fun l hl => ?_, fun l hl => ?_⟩
    · exact bestGrade_rank_le hbest ((hfits l).mpr hl)
    · by_cases hl' : fits l
      · exact .inr (bestGrade_rank_lt hbest ((hfits l).mpr hl') (hfirst l hl ((hfits l).mpr hl')))
      · exact .inl hl'

end Sys2Proof.Machine
end

