-- ==== Sys2Proof/Proofs/ProposeCommand.lean ====
section
/-! SUPPORT. PROPOSE at the concurrence unit: the parties and the required set (R113, R114), what its checks ask of the other
trunks (R113), and the opening of a proposal (R112, R116). -/

namespace Sys2Proof.Machine

/-! ## Sets of ports by their members -/

theorem has_of (f : Port → Bool) (p : Port) : PortSet.has (PortSet.of f) p = f p := by
  fin_cases p <;> rfl

/-- Two sets of ports with the same ports are one. -/
theorem PortSet.eq_of_has {a b : PortSet} (h : ∀ p : Port, PortSet.has a p = PortSet.has b p) : a = b :=
  Vector.ext fun i hi => h ⟨i, hi⟩

theorem has_only_ne {p k : Port} (h : k ≠ p) : PortSet.has (PortSet.only p) k = false := by
  have hval : p.val ≠ k.val := fun he => h (Fin.ext he.symm)
  simp [PortSet.has, PortSet.only, Vector.getElem_set_ne _ _ hval]

section

variable {s : State} {p : Port} {after : List Nat} {t : Trunk} {proposed : List Lane}

/-! ## Parties and the required set (R113, R114) -/

/-- A port is a party when it owns a lane of the union of the installed and the proposed member list. -/
theorem has_parties : PortSet.has (s.parties t proposed) p = true ↔ ∃ l ∈ s.members t ++ proposed, l.val / 4 = p.val := by
  simp only [State.parties, has_of, List.any_eq_true, decide_eq_true_eq, owner_eq_iff]

/-- A port is required when it is ATTACHED and a party. -/
theorem has_requiredSet : PortSet.has (s.requiredSet t proposed) p = true ↔
    (s.port p).mode = .attached ∧ ∃ l ∈ s.members t ++ proposed, l.val / 4 = p.val := by
  rw [State.requiredSet, has_of, Bool.and_eq_true, has_parties, decide_eq_true_eq, and_comm]

/-- The required set is the only set of the ATTACHED parties. -/
theorem requiredSet_eq {required : PortSet} (h : ∀ k : Port, PortSet.has required k = true ↔
    (s.port k).mode = .attached ∧ ∃ l ∈ s.members t ++ proposed, l.val / 4 = k.val) :
    s.requiredSet t proposed = required :=
  PortSet.eq_of_has fun k => Bool.eq_iff_iff.mpr (has_requiredSet.trans (h k).symm)

/-! ## The lanes of the other trunks (R113) -/

theorem laneTaken_iff : s.laneTaken t proposed = true ↔ ∃ k ≠ t, ∃ l ∈ proposed, l ∈ s.members k := by
  simp [State.laneTaken]

theorem mem_proposedMembers {k : Trunk} {l : Lane} :
    l ∈ s.proposedMembers k ↔ ∃ q ∈ (s.trunk k).proposal, l ∈ q.terms.members := by
  unfold State.proposedMembers
  cases (s.trunk k).proposal <;> simp

theorem laneContested_iff :
    s.laneContested t proposed = true ↔ ∃ k ≠ t, ∃ l ∈ proposed, ∃ q ∈ (s.trunk k).proposal, l ∈ q.terms.members := by
  simp only [State.laneContested, List.any_eq_true, mem_allTrunks, true_and, Bool.and_eq_true, bne_iff_ne,
    List.contains_eq_mem, decide_eq_true_eq, mem_proposedMembers]

/-! ## PROPOSE once its operands are in range (R113 to R116) -/

variable {o : Octet} {terms : CharterTerms}

/-- What PROPOSE does once its operands name a trunk and a charter: the refusals that are left in their order, the install at
once when the proposer alone is required, and otherwise the opening of a proposal. -/
theorem propose_inRange (hm : (s.port p).mode = .attached) (ho : o.toNat = t.val) :
    s.propose p after o (some terms) =
      if ¬ ∃ l ∈ s.members t ++ terms.members, l.val / 4 = p.val then (s, refuse .notParty)
      else if (s.trunk t).proposal ≠ none then (s, refuse .proposalOpen)
      else if ∃ k ≠ t, ∃ l ∈ terms.members, l ∈ s.members k then (s, refuse .laneTaken)
      else if ∃ k ≠ t, ∃ l ∈ terms.members, ∃ q ∈ (s.trunk k).proposal, l ∈ q.terms.members then (s, refuse .laneContested)
      else if s.requiredSet t terms.members = PortSet.only p then s.installAtOnce p after t terms
      else s.openProposal p after t terms := by
  simp only [State.propose, ifAttached_attached hm, trunkOperand_eq_some ho, Bool.not_eq_true', ← Bool.not_eq_true,
    has_parties, Option.isSome_iff_ne_none, laneTaken_iff, laneContested_iff]

/-- A PROPOSE whose checks pass installs or opens, as its required set has it. -/
theorem propose_checked (hm : (s.port p).mode = .attached) (ho : o.toNat = t.val)
    (hparty : ∃ l ∈ s.members t ++ terms.members, l.val / 4 = p.val) (hnone : (s.trunk t).proposal = none)
    (hfree : ∀ k ≠ t, ∀ l ∈ terms.members, l ∉ s.members k ∧ ∀ q ∈ (s.trunk k).proposal, l ∉ q.terms.members) :
    s.propose p after o (some terms) =
      if s.requiredSet t terms.members = PortSet.only p then s.installAtOnce p after t terms
      else s.openProposal p after t terms := by
  have hfreeInstalled : ¬ ∃ k ≠ t, ∃ l ∈ terms.members, l ∈ s.members k :=
    fun ⟨k, hk, l, hl, hmem⟩ => (hfree k hk l hl).1 hmem
  have hfreeProposed : ¬ ∃ k ≠ t, ∃ l ∈ terms.members, ∃ q ∈ (s.trunk k).proposal, l ∈ q.terms.members :=
    fun ⟨k, hk, l, hl, q, hq, hmem⟩ => (hfree k hk l hl).2 q hq hmem
  rw [propose_inRange hm ho, if_neg (not_not_intro hparty), if_neg (not_not_intro hnone), if_neg hfreeInstalled,
    if_neg hfreeProposed]

/-- A required set that holds another port is not the proposer's alone. -/
theorem requiredSet_ne_only {k : Port} (hk : k ≠ p) (h : PortSet.has (s.requiredSet t proposed) k = true) :
    s.requiredSet t proposed ≠ PortSet.only p :=
  fun heq => by simp [heq, has_only_ne hk] at h

end

/-- Settles O28: the required set is the one the statement describes (`requiredSet_eq`), it is not the proposer's alone, and so
PROPOSE, whose checks pass (`propose_checked`), opens the proposal. What `openProposal` does is what the statement writes out. -/
theorem proposeOpensAProposal : Obligations.ProposeOpensAProposal := by
  intro s u after p tag part o count m1 m2 m3 m4 revertive mend holdOff wait t terms required c harr hm ho hterms hparty hnone
    hfree hrequired ⟨k, hk, hhas⟩ n q
  have hset : u.requiredSet t terms.members = required := requiredSet_eq hrequired
  have hopens : u.propose p after o (some terms) = u.openProposal p after t terms :=
    (propose_checked hm ho hparty hnone hfree).trans (if_neg (requiredSet_ne_only hk (hset ▸ hhas)))
  have hperf : u.perform p after c = u.openProposal p after t terms := by
    rw [← hopens, ← hterms]; rfl
  subst hset
  exact exec_answers rfl harr hperf

end Sys2Proof.Machine
end

