-- ==== Sys2Proof/Proofs/LaneEvents.lean ====
section
/-! SUPPORT. Events of the lanes: the grade recomputed (R18), the loss-of-lock effects (R10), the steps due (R15 to R17), the sync
judgement (R8, R9) and a block position (R11 to R16), each said once as a replacement of the lane's record and what it sends. -/

namespace Sys2Proof.Machine

/-! ## The grade recomputed (R18) -/

/-- The grade of a receiver by the table of R18. -/
def Receiver.derived (x : Receiver) : Grade := gradeOf x.lock x.fillAlarm x.degrade

theorem derived_eq (x : Receiver) : x.derived =
    if x.lock = .locked ∧ x.fillAlarm = false then if x.degrade then .degraded else .good
    else if x.lock = .coast ∧ x.fillAlarm = false then .degraded else .failed := by
  unfold Receiver.derived gradeOf
  cases x.lock <;> cases x.fillAlarm <;> simp

theorem rank_lt_iff (g h : Grade) :
    g.rank < h.rank ↔ (g = .good ∧ h ≠ .good) ∨ (g = .degraded ∧ h = .failed) := by
  cases g <;> cases h <;> decide

theorem regrade_same {s : State} {l : Lane} (h : (s.lane l).rx.derived = (s.lane l).rx.grade) (after : List Nat) :
    s.regrade l after = s := if_pos h

/-- A grade that changes is written, sent to the lane's trunk, and offered to all four ports. -/
theorem regrade_change {s : State} {l : Lane} (h : (s.lane l).rx.derived ≠ (s.lane l).rx.grade) (after : List Nat) :
    s.regrade l after =
      ((s.setLane l { s.lane l with rx := { (s.lane l).rx with grade := (s.lane l).rx.derived } }).sendForLane l (.grade l)
        (.receiver l) (s.handOn (.receiver l) after)).offer allPorts (.receiver l) after
          (gradeEvent l (s.lane l).rx.grade (s.lane l).rx.derived (s.lane l).rx) := if_neg h

/-- Settles O39: the grade of the table either stands, or is written, sent and offered. -/
theorem gradeChangeIsSentAndOffered : Obligations.GradeChangeIsSentAndOffered := by
  intro s l after x g v worse
  have hg : x.derived = g := derived_eq x
  refine ⟨fun h => regrade_same (hg.trans h) after, fun h => ?_⟩
  rw [regrade_change (hg.trans_ne h), hg]
  have hevent : gradeEvent l x.grade g x = if worse then .gradeWorse l x.grade g x.lock x.fillAlarm x.degrade
      else .gradeBetter l x.grade g x.lock x.fillAlarm x.degrade := by
    simp only [gradeEvent, rank_lt_iff, worse]
  rw [← hevent]
  rfl

/-! ## Loss of lock (R10) and the sync judgement (R5 to R9) -/

theorem loseLock_eq (s : State) (l : Lane) (entered : LockState) (after : List Nat) :
    s.loseLock l entered after =
      (s.setLane l { s.lane l with buffer := [], status := .empty, rx := (s.lane l).rx.loseLock entered }).regrade l
        after := by
  simp [State.loseLock, State.flush]

/-- The receiver as it holds lock at an expected position, before its grade is recomputed. -/
def Receiver.locks (x : Receiver) (lock : LockState) (misses : Nat) : Receiver :=
  { x with lock := lock, syncCount := 0, missCount := misses, blockOpen := true }

theorem holdLock_eq (s : State) (l : Lane) (lock : LockState) (misses : Nat) :
    s.holdLock l lock misses =
      (s.setLane l { s.lane l with rx := (s.lane l).rx.locks lock misses }).regrade l [] := rfl

theorem running_of {s : State} (hr : s.rstnLow = false) (hm : s.monitor.state = .present) : s.running = true :=
  (running_iff s).mpr ⟨hr, halted_of_present hm⟩

theorem not_running_of_low {s : State} (h : s.rstnLow = true) : s.running = false := by
  simp [State.running, h]

/-- A receiver event while the receivers run, no step of an earlier block position being due. -/
theorem receiverEvent_settled {s : State} {l : Lane} (hrun : s.running = true) (hdue : (s.lane l).rx.due = [])
    (f : State → State) : s.receiverEvent l f = f s := by
  simp only [State.receiverEvent, hrun, if_true, settleLane_nil hdue]

/-- With no step due the loss-of-lock effects leave the list of steps as it is. -/
theorem loseLock_settled {x : Receiver} (h : x.due = []) (entered : LockState) :
    x.loseLock entered = { x with
      lock := entered, syncCount := 0, missCount := 0, expected := none, fillAlarm := false, alarmRun := 0
      windowPos := 0, windowCount := 0, degrade := false, blockOpen := false } := by
  rw [Receiver.loseLock, ← h]

/-- Settles O38: each row is a receiver event, settled by the branch of its meaning that the lock state picks. -/
theorem lockFollowsTheTables : Obligations.LockFollowsTheTables := by
  intro s l hr hm hdue x loses becomes
  have hrun : s.running = true := running_of hr hm
  have hevent : ∀ f : State → State, s.receiverEvent l f = f s := receiverEvent_settled hrun hdue
  have hloses : ∀ {i lock}, exec i s = .next (s.loseLock l lock []) → loses i lock := by
    intro i lock h
    rw [loseLock_eq, loseLock_settled hdue] at h
    exact h
  have hdark : ∀ {i}, exec i s = .next (s.receiverEvent l fun s => s.goDark l) →
      (x.lock ≠ .dark → loses i .dark) ∧ (x.lock = .dark → exec i s = .next s) := by
    intro i h
    rw [hevent] at h
    exact ⟨fun hl => hloses (h.trans (congrArg _ (if_neg hl))), fun hl => h.trans (congrArg _ (if_pos hl))⟩
  have hclock := hdark (i := .clockLoss l) rfl
  have hstuck := hdark (i := .stuckData l) rfl
  have hdata : ∀ clock, exec (.dataTransition l clock) s =
      .next (if x.lock = .dark ∧ clock then s.loseLock l .hunt [] else s) := fun clock => congrArg _ (hevent _)
  have hsync : ∀ bits, exec (.syncMatch l bits) s = .next (if x.lock = .hunt ∧ bits = 0x3AC5 then
      s.setLane l { s.lane l with rx := { x with lock := .confirm, syncCount := 1 } } else s) :=
    fun bits => congrArg _ (hevent _)
  have hexpected : x.blockOpen = false → ∀ bits, exec (.expectedPosition l bits) s =
      .next (s.judgeSync l (bits == 0x3AC5)) := by
    intro ho bits
    show Host.Outcome.next (s.receiverEvent l _) = _
    rw [hevent, if_neg (ne_true_of_eq_false ho)]
    rfl
  refine ⟨fun hl => ⟨?_, ?_⟩, fun hl => ⟨?_, ?_, ?_, ?_⟩,
    fun clock hl => ?_, fun bits hl hb => ?_, fun bits h => ?_, fun ho => ⟨fun hl hc => ?_, fun hl => ?_, fun bits hb => ?_⟩⟩
  · exact hclock.1 hl
  · exact hstuck.1 hl
  · exact hclock.2 hl
  · exact hstuck.2 hl
  · exact hloses ((hdata true).trans (congrArg _ (if_pos ⟨hl, rfl⟩)))
  · exact (hdata false).trans (congrArg _ (if_neg (by simp)))
  · exact (hdata clock).trans (congrArg _ (if_neg fun h => hl h.1))
  · exact (hsync bits).trans (congrArg _ (if_pos ⟨hl, hb⟩))
  · exact (hsync bits).trans (congrArg _ (if_neg fun h' => h.elim (· h'.1) (· h'.2)))
  · rw [hexpected ho]
    simp [State.judgeSync, show (s.lane l).rx.lock = .confirm from hl, show (s.lane l).rx.syncCount = 1 from hc, x]
  · show exec _ s = _
    rw [hexpected ho]
    rcases hl with ⟨hl, hc⟩ | hl | hl <;>
      simp [State.judgeSync, show (s.lane l).rx.lock = _ from hl, holdLock_eq, Receiver.locks, x]
    simp [show (s.lane l).rx.syncCount = 2 from hc]
  · have hne : (bits == 0x3AC5) = false := by simpa using hb
    have hrow : ∀ {u}, s.judgeSync l false = u → exec (.expectedPosition l bits) s = .next u := by
      rintro _ rfl
      rw [hexpected ho, hne]
    refine ⟨fun hl => hloses (hrow ?_), fun hl => hrow ?_, fun hl hmiss => hrow ?_, fun hl hmiss => hloses (hrow ?_)⟩
    · simp [State.judgeSync, show (s.lane l).rx.lock = _ from hl]
    · simp [State.judgeSync, show (s.lane l).rx.lock = _ from hl, holdLock_eq, Receiver.locks, x]
    · have hno : (s.lane l).rx.missCount ≠ 3 := fun h => by
        have : x.missCount = 3 := h
        omega
      have hx : (s.lane l).rx.locks .coast (x.missCount + 1) =
          { x with syncCount := 0, missCount := x.missCount + 1, blockOpen := true } := by
        rw [Receiver.locks, ← hl]
      rw [← hx]
      simp [State.judgeSync, show (s.lane l).rx.lock = _ from hl, hno, holdLock_eq, x]
    · simp [State.judgeSync, show (s.lane l).rx.lock = _ from hl, show (s.lane l).rx.missCount = _ from hmiss]

/-! ## The steps due (R15 to R17) -/

/-- The receiver once a due step has been taken. -/
def Receiver.stepped (x : Receiver) (d : LaneStep) : Receiver := { x.apply d with due := x.due.erase d }

theorem takeStep_not_due {s : State} {l : Lane} {d : LaneStep} (h : d ∉ (s.lane l).rx.due) : s.takeStep l d = s :=
  if_neg (by simpa using h)

theorem takeStep_due {s : State} {l : Lane} {d : LaneStep} (h : d ∈ (s.lane l).rx.due) :
    s.takeStep l d =
      let v := s.setLane l { s.lane l with rx := (s.lane l).rx.stepped d }
      if ((s.lane l).rx.stepped d).due = [] then v.regrade l [] else v := by
  simp only [State.takeStep, List.contains_eq_mem, decide_eq_true h, if_true, modRx_eq, lane_setLane_self]
  rfl

/-- Settles O41: each row takes its step when it is due, the end of the window after a declaration of the same position. -/
theorem alarmStepsAreTaken : Obligations.AlarmStepsAreTaken := by
  intro s l hr hm x becomes ended
  have hrun : s.running = true := running_of hr hm
  have hfill : exec (.fillAlarm l) s = .next (s.takeStep l .fillAlarm) := congrArg _ (if_pos hrun)
  have hdeclared : exec (.degradeDeclared l) s = .next (s.takeStep l .degradeDeclared) := congrArg _ (if_pos hrun)
  have hend : LaneStep.windowEnd ∈ x.due → exec (.degradeWindowEnd l) s =
      .next ((s.takeStep l .degradeDeclared).takeStep l .windowEnd) :=
    fun h => congrArg _ (if_pos (by simpa [hrun] using h))
  have hended : ∀ y : Receiver, (y.apply .windowEnd).degrade = if y.windowCount ≤ y.degradeClear then false else y.degrade := by
    intro y
    by_cases h : y.windowCount ≤ y.degradeClear <;> simp [Receiver.apply, h]
  refine ⟨fun rest h => ?_, fun rest h => ?_, fun h => ?_, fun h => ?_, fun h => ?_, fun h => ?_, fun h => ?_⟩
  · have hmem : LaneStep.fillAlarm ∈ (s.lane l).rx.due := by simp [show (s.lane l).rx.due = _ from h]
    have hx : (s.lane l).rx.stepped .fillAlarm = { x with fillAlarm := !x.fillAlarm, due := rest } := by
      simp [Receiver.stepped, Receiver.apply, show (s.lane l).rx.due = _ from h, x]
    show exec _ s = _
    rw [hfill, takeStep_due hmem, hx]
  · have hmem : LaneStep.degradeDeclared ∈ (s.lane l).rx.due := by simp [show (s.lane l).rx.due = _ from h]
    have hx : (s.lane l).rx.stepped .degradeDeclared = { x with degrade := true, due := rest } := by
      simp [Receiver.stepped, Receiver.apply, show (s.lane l).rx.due = _ from h, x]
    show exec _ s = _
    rw [hdeclared, takeStep_due hmem, hx]
  · have hmem : LaneStep.windowEnd ∈ (s.lane l).rx.due := by simp [show (s.lane l).rx.due = _ from h]
    have hnot : LaneStep.degradeDeclared ∉ (s.lane l).rx.due := by simp [show (s.lane l).rx.due = _ from h]
    have hx : (s.lane l).rx.stepped .windowEnd = ended x := by
      have hd := hended x
      simp only [Receiver.stepped, show (s.lane l).rx.due = _ from h, ended, ← hd]
      rfl
    show exec _ s = _
    rw [hend hmem, takeStep_not_due hnot, takeStep_due hmem, hx]
  · have hmem : LaneStep.degradeDeclared ∈ (s.lane l).rx.due := by simp [show (s.lane l).rx.due = _ from h]
    have hx : (s.lane l).rx.stepped .degradeDeclared = { x with degrade := true, due := [.windowEnd] } := by
      simp [Receiver.stepped, Receiver.apply, show (s.lane l).rx.due = _ from h, x]
    have hy : ({ x with degrade := true, due := [.windowEnd] } : Receiver).stepped .windowEnd =
        ended { x with degrade := true } := by
      have hd := hended { x with degrade := true }
      simp only [Receiver.stepped, ended, ← hd]
      rfl
    show exec _ s = _
    rw [hend (by simp [h]), takeStep_due hmem, hx]
    simp only [List.cons_ne_nil, if_false]
    rw [takeStep_due (by simp)]
    simp only [lane_setLane_self, setLane_setLane, hy]
  · rw [hfill, takeStep_not_due h]
  · rw [hdeclared, takeStep_not_due h]
  · exact congrArg _ (if_neg (by simpa [hrun] using h))

/-! ## What a lane event reaches -/

/-- Replacing a lane's record, its bar set and thresholds kept, reaches only the lane. -/
theorem setLane_laneOnly (s : State) (l : Lane) (x : LaneState) (hb : x.bars = (s.lane l).bars)
    (hs : x.rx.degradeSet = (s.lane l).rx.degradeSet) (hc : x.rx.degradeClear = (s.lane l).rx.degradeClear) :
    LaneOnly l s (s.setLane l x) := by
  refine ⟨⟨rfl, rfl, rfl, rfl, rfl, rfl, rfl, rfl, rfl, rfl, rfl, rfl⟩, rfl, rfl, fun m hm => lane_setLane_ne s x hm,
    fun m => ?_, fun m => ?_, fun m => ?_⟩ <;> rw [lane_setLane] <;> split
  all_goals first | rfl | (next h => subst h; assumption)

/-! ## A block position (R11 to R16, R25) -/

/-- The membership lookup gives a trunk whose charter contains the lane, and none when no charter does (R47). -/
theorem trunkOf_some {s : State} {l : Lane} {t : Trunk} (h : s.trunkOf l = some t) : l ∈ s.members t := by
  simpa using List.find?_some h

theorem trunkOf_eq_none_iff {s : State} {l : Lane} : s.trunkOf l = none ↔ ∀ t : Trunk, l ∉ s.members t := by
  simp [State.trunkOf]

/-- What the buffer of a lane holds once a block has been offered to it, and whether the oldest was dropped: a non-member's block is
discarded (R25). -/
def State.heldAfter (s : State) (l : Lane) (held : List LaneBlock) (b : LaneBlock) : List LaneBlock × Bool :=
  if s.trunkOf l = none then (held, false) else appendBlock held b

/-- The lane's record after a block position whose check passes (R12, R14 to R16, R25). -/
def State.passedLane (s : State) (l : Lane) (b : LaneBlock) : LaneState :=
  let x := (s.lane l).rx
  let run := alarmRunAfter x.fillAlarm b.fill x.alarmRun
  let kept := s.heldAfter l (if x.isBreak b.seq then [] else (s.lane l).buffer) b
  { s.lane l with
    rx := ({ x.passed b.seq b.fill with
      overflowDrops := if kept.2 then x.overflowDrops + 1 else x.overflowDrops, alarmRun := run.1 }).closePosition run.2
    buffer := kept.1
    status := if x.isBreak b.seq then .empty else (s.lane l).status }

theorem offerBlock_eq (s : State) (l : Lane) (b : LaneBlock) :
    s.offerBlock l b = s.setLane l { s.lane l with
      buffer := (s.heldAfter l (s.lane l).buffer b).1
      rx := { (s.lane l).rx with overflowDrops :=
        if (s.heldAfter l (s.lane l).buffer b).2 then (s.lane l).rx.overflowDrops + 1 else (s.lane l).rx.overflowDrops } } := by
  unfold State.offerBlock State.heldAfter
  cases h : s.trunkOf l with
  | none => exact (setLane_lane_self s l).symm
  | some t =>
    simp only [modLane_eq, reduceCtorEq, if_false]
    split <;> rfl

theorem passBlock_eq (s : State) (l : Lane) (b : LaneBlock) : s.passBlock l b = s.setLane l (s.passedLane l b) := by
  unfold State.passBlock State.passedLane
  cases hb : (s.lane l).rx.isBreak b.seq <;>
    simp [offerBlock_eq, State.flush, hb, State.heldAfter, Receiver.passed]

/-- The lane's record after a block position whose check fails (R13, R16). -/
theorem failBlock_eq (s : State) (l : Lane) :
    s.failBlock l = s.setLane l { s.lane l with rx := (s.lane l).rx.failed.closePosition false } := rfl

/-- A block is broken exactly when a sequence is expected and it is another. -/
theorem isBreak_iff (x : Receiver) (q : SeqNo) : x.isBreak q = true ↔ ∃ e ∈ x.expected, e ≠ q := by
  unfold Receiver.isBreak
  cases x.expected with
  | none => simp
  | some e => simpa using not_congr (eq_comm (a := q) (b := e))

theorem crc16_serial (octets : List Octet) : crc16 octets = serialCrc 0x1021 0xFFFF octets :=
  foldl_flatMap_of crc16Octet_serial octets _

/-- A receiver after a block position: the window has advanced, no block is being received, and the steps due are noted. -/
theorem closePosition_eq (x : Receiver) (changes : Bool) :
    x.closePosition changes = { x with
      windowPos := x.windowPos + 1, blockOpen := false
      due := (if changes then [.fillAlarm] else []) ++
        ((if x.degrade = false ∧ x.degradeSet ≤ x.windowCount then [LaneStep.degradeDeclared] else []) ++
          (if 1600 ≤ x.windowPos + 1 then [LaneStep.windowEnd] else [])) } := by
  simp [Receiver.closePosition, dueSteps, windowLength]

/-- A block offered to an empty buffer is held alone; behind a newest block it is appended when it is later, the oldest of eight
being dropped, and held alone when it is not (R25). -/
theorem appendBlock_nil (b : LaneBlock) : appendBlock [] b = ([b], false) := rfl

theorem appendBlock_snoc (older : List LaneBlock) (newest b : LaneBlock) :
    appendBlock (older ++ [newest]) b =
      if later b.seq newest.seq then
        if (older ++ [newest]).length < 8 then (older ++ [newest] ++ [b], false)
        else ((older ++ [newest]).drop 1 ++ [b], true)
      else ([b], false) := by
  rw [appendBlock, List.getLast?_concat]
  rfl

/-- Settles O40: the row replaces the lane's record, by `failBlock_eq` or by `passBlock_eq`. -/
theorem blockPositionIsProcessed : Obligations.BlockPositionIsProcessed := by
  refine ⟨crc16_serial, fun a b => ⟨by simp [later], rfl⟩,
    fun s l => ⟨fun t ht => trunkOf_some ht, fun h => trunkOf_eq_none_iff.mp h⟩, ?_⟩
  intro s l header check payload hr hm hdue hopen x q fill good breaks windowSteps
  have hrow : exec (.blockPosition l header payload check) s = .next (if checkPasses header payload check then
      s.passBlock l { seq := q, fill := fill, brk := header.getLsbD 0, payload := payload } else s.failBlock l) := by
    show Host.Outcome.next (s.receiverEvent l _) = _
    rw [receiverEvent_settled (running_of hr hm) hdue, if_pos hopen]
    rfl
  have hgood : checkPasses header payload check = true ↔ good := by
    simp [checkPasses, blockCheck, good]
  rw [hrow]
  by_cases hg : good
  · rw [if_pos (hgood.mpr hg), passBlock_eq]
    refine ⟨_, rfl, setLane_laneOnly _ _ _ rfl rfl rfl, rfl, rfl, ?_⟩
    rw [lane_setLane_self]
    have hbreaks : breaks ↔ x.isBreak q = true := (isBreak_iff x q).symm
    rw [State.passedLane, closePosition_eq]
    refine ⟨rfl, rfl, rfl, rfl, rfl, rfl, rfl, fun h => absurd hg h, fun _ => ⟨rfl, rfl, rfl, rfl, ?_, fun h => ?_, fun h => ?_,
      fun h => ?_, fun h hrun => ?_, fun h hrun => ?_, fun h => ?_, fun h => ?_,
      if x.isBreak q then [] else (s.lane l).buffer, fun h => ?_, fun h => ?_, fun h => ?_, fun h => ⟨fun hheld => ?_,
      fun older newest hheld => ⟨fun hlater => ?_, fun hlater hlen => ?_, fun hlater hlen => ?_⟩⟩⟩⟩
    · cases fill <;> simp [Receiver.passed, x]
    · simp [Receiver.passed, hbreaks.mp h, x]
    · simp [Receiver.passed, mt hbreaks.mpr h, x]
    · simp [alarmRunAfter, show fill = (s.lane l).rx.fillAlarm from h, windowSteps, Receiver.passed, x]
    · have h7 : (s.lane l).rx.alarmRun ≠ 7 := hrun
      simp [alarmRunAfter, show ¬ fill = (s.lane l).rx.fillAlarm from h, fillAlarmRun, h7, windowSteps, Receiver.passed, x]
    · have h7 : (s.lane l).rx.alarmRun = 7 := hrun
      simp [alarmRunAfter, show ¬ fill = (s.lane l).rx.fillAlarm from h, fillAlarmRun, h7, windowSteps, Receiver.passed, x]
    · exact if_pos (hbreaks.mp h)
    · exact if_neg (mt hbreaks.mpr h)
    · exact if_pos (hbreaks.mp h)
    · exact if_neg (mt hbreaks.mpr h)
    · simp [State.heldAfter, h, x]
    all_goals
      have hheld_after : ∀ held b, s.heldAfter l held b = appendBlock held b := fun held b => if_neg h
      simp only [hheld_after]
      simp only [show (if (s.lane l).rx.isBreak q = true then [] else (s.lane l).buffer) = _ from hheld]
    · simp [appendBlock_nil, x]
    · simp [appendBlock_snoc, hlater, x]
    · rw [hheld] at hlen ⊢
      simp only [appendBlock_snoc, hlater, hlen, if_true]
      simp [x]
    · rw [hheld] at hlen ⊢
      simp only [appendBlock_snoc, hlater, hlen, if_true]
      simp [x]
  · rw [if_neg (mt hgood.mp hg), failBlock_eq]
    refine ⟨_, rfl, setLane_laneOnly _ _ _ rfl rfl rfl, rfl, rfl, ?_⟩
    rw [lane_setLane_self]
    rw [closePosition_eq]
    exact ⟨rfl, rfl, rfl, rfl, rfl, rfl, rfl, fun _ => ⟨rfl, rfl, rfl, rfl, rfl, rfl, rfl, rfl, rfl, rfl, rfl⟩, fun h => absurd h hg⟩

end Sys2Proof.Machine
end

