-- ==== Sys2Proof/Proofs/BallotCommand.lean ====
section
/-! SUPPORT. SET-DEGRADE at the lane's receiver (R20); the favoured lane as the member with most ballots (R58), and BALLOT at the
registry (R57). -/

namespace Sys2Proof.Machine

/-! ## SET-DEGRADE (R20) -/

section SetDegrade

variable {s : State} {p : Port} {o : Octet} {l : Lane} {set clear : Pair}

theorem setDegrade_noSuchLane (ho : 16 ≤ o.toNat) : s.setDegrade p o set clear = (s, refuse .noSuchLane) := by
  simp only [State.setDegrade, laneOperand_eq_none ho]

/-- SET-DEGRADE of a lane in range: the owner's check, then the values', then the thresholds. -/
theorem setDegrade_inRange (ho : o.toNat = l.val) :
    s.setDegrade p o set clear =
      if l.val / 4 ≠ p.val then (s, refuse .notOwner)
      else if 1 ≤ set.toNat ∧ set.toNat ≤ 400 ∧ clear.toNat < set.toNat then
        ((s.settleLane l).modRx l fun x => { x with degradeSet := set.toNat, degradeClear := clear.toNat }, accepted)
      else (s, refuse .badValue) := by
  simp only [State.setDegrade, laneOperand_eq_some ho, ne_eq, owner_eq_iff]

end SetDegrade

/-- Settles O18: the row answers as the receiver does, whose cases on a lane in range are the branches of `setDegrade_inRange`. -/
theorem setDegradeReplacesThresholds : Obligations.SetDegradeReplacesThresholds := by
  intro s u after p tag part o set clear harr
  have hrow : ∀ {v code}, u.setDegrade p o set clear = (v, (code, [])) →
      exec (.setDegrade p tag part o set clear) s = .next (v.answered p tag (.setDegrade o set clear) code []) :=
    fun hr => exec_answers (c := .setDegrade o set clear) rfl harr hr
  refine ⟨fun ho => hrow (setDegrade_noSuchLane ho), fun l ho => ⟨fun hp => ?_, fun hp => ⟨fun hbad => ?_,
    fun h1 h2 h3 hdue => ?_⟩⟩⟩
  all_goals have heq := setDegrade_inRange (s := u) (p := p) (set := set) (clear := clear) ho
  · exact hrow (heq.trans (if_pos hp))
  all_goals rw [if_neg (not_not_intro hp)] at heq
  · exact hrow (heq.trans (if_neg (by omega)))
  · rw [if_pos ⟨h1, h2, h3⟩, settleLane_nil hdue] at heq
    exact hrow heq

/-! ## The favoured lane (R58) -/

section Favoured

variable {s : State} {t : Trunk}

/-- No lane of a list is picked exactly when none of them has a ballot. -/
theorem pickFavoured_eq_none {ls : List Lane} : s.pickFavoured t ls = none ↔ ∀ l ∈ ls, s.ballotsFor t l = 0 := by
  induction ls with
  | nil => simp [State.pickFavoured]
  | cons l ls ih =>
    rw [State.pickFavoured]
    cases h : s.pickFavoured t ls with
    | none =>
      have hrest := ih.mp h
      by_cases hl : s.ballotsFor t l = 0 <;> simp [hl]
      exact hrest
    | some r =>
      have hsome : ¬ ∀ m ∈ ls, s.ballotsFor t m = 0 := fun hall => by simp [ih.mpr hall] at h
      have hgoal : ¬ ∀ m ∈ l :: ls, s.ballotsFor t m = 0 := fun hall => hsome fun m hm => hall m (by simp [hm])
      by_cases hl : s.ballotsFor t l < s.ballotsFor t r <;> simp only [hl, if_true, if_false, reduceCtorEq, false_iff] <;>
        exact hgoal

/-- The lane picked has a ballot, more than every lane before it, and no fewer than any after it. -/
theorem pickFavoured_most {ls : List Lane} {r : Lane} (h : s.pickFavoured t ls = some r) :
    0 < s.ballotsFor t r ∧ ∃ higher lower, ls = higher ++ r :: lower ∧
      (∀ m ∈ higher, s.ballotsFor t m < s.ballotsFor t r) ∧ ∀ m ∈ lower, s.ballotsFor t m ≤ s.ballotsFor t r := by
  induction ls generalizing r with
  | nil => simp [State.pickFavoured] at h
  | cons l ls ih =>
    rw [State.pickFavoured] at h
    cases hls : s.pickFavoured t ls with
    | none =>
      have hzero := pickFavoured_eq_none.mp hls
      simp only [hls] at h
      split at h
      · cases h
      · next hl =>
        cases h
        exact ⟨Nat.pos_of_ne_zero hl, [], ls, rfl, by simp, fun m hm => by simp [hzero m hm]⟩
    | some q =>
      obtain ⟨hpos, higher, lower, rfl, hhigher, hlower⟩ := ih hls
      simp only [hls] at h
      split at h
      · next hl =>
        cases h
        exact ⟨hpos, l :: higher, lower, rfl, by simpa using ⟨hl, hhigher⟩, hlower⟩
      · next hl =>
        cases h
        have hle : s.ballotsFor t q ≤ s.ballotsFor t l := Nat.le_of_not_lt hl
        refine ⟨by omega, [], _, rfl, by simp, fun m hm => ?_⟩
        rcases List.mem_append.mp hm with hm | hm
        · exact (hhigher m hm).le.trans hle
        · rcases List.mem_cons.mp hm with rfl | hm
          · exact hle
          · exact (hlower m hm).trans hle

end Favoured

/-- Settles O21: the lane written is the one picked among the members, and the recomputation is the branch of a change or none. -/
theorem favouredLaneHasMostBallots : Obligations.FavouredLaneHasMostBallots := by
  intro s t after count f
  have hf : f = s.favouredNow t := by
    simp [f, State.refavour, refavourHere_trunk]
  refine ⟨?_, fun l hl => ?_, ?_⟩
  · rw [hf]
    exact pickFavoured_eq_none
  · exact pickFavoured_most (hf ▸ hl : s.favouredNow t = some l)
  · rw [hf]
    rfl

/-! ## BALLOT (R57) -/

theorem oct_toNat {n : Nat} (h : n < 256) : (oct n).toNat = n := by
  simp [oct, Nat.mod_eq_of_lt h]

/-- The octet of a lane or none is read back as that (R175). -/
theorem laneOrNone_octet (choice : Option Lane) : laneOrNone (laneOctet choice) = some choice := by
  cases choice with
  | none => rfl
  | some l =>
    have hl : (oct l.val).toNat = l.val := oct_toNat (by omega)
    have hne : oct l.val ≠ 0xFF := fun h => by
      have := congrArg BitVec.toNat h
      simp only [hl, BitVec.reduceToNat] at this
      omega
    rw [laneOctet, laneOrNone, if_neg hne, laneOperand_eq_some hl]
    rfl

theorem laneOrNone_eq_none {o : Octet} (h : 16 ≤ o.toNat) (hne : o ≠ 0xFF) : laneOrNone o = none := by
  rw [laneOrNone, if_neg hne, laneOperand_eq_none h]
  rfl

section Ballot

variable {s : State} {p : Port} {after : List Nat} {o lane : Octet} {t : Trunk} {choice : Option Lane}

theorem ballot_noSuchTrunk (hm : (s.port p).mode = .attached) (ho : 8 ≤ o.toNat) :
    s.ballot p after o lane = (s, refuse .noSuchTrunk) := by
  simp only [State.ballot, ifAttached_attached hm, trunkOperand_eq_none ho]

theorem ballot_noSuchLane (hm : (s.port p).mode = .attached) (ho : o.toNat = t.val) (hl : 16 ≤ lane.toNat)
    (hne : lane ≠ 0xFF) : s.ballot p after o lane = (s, refuse .noSuchLane) := by
  simp only [State.ballot, ifAttached_attached hm, trunkOperand_eq_some ho, laneOrNone_eq_none hl hne]

/-- BALLOT once its operands are in range: a lane that is no member is refused, an equal slot stands, and otherwise the slot takes
the operand, the trigger is sent and the favoured lane recomputed. -/
theorem ballot_inRange (hm : (s.port p).mode = .attached) (ho : o.toNat = t.val) :
    s.ballot p after o (laneOctet choice) =
      if ∀ l ∈ choice, l ∈ s.members t then
        if (s.trunk t).ballots[p.val] = choice then (s, accepted)
        else (((s.setTrunk t { s.trunk t with ballots := (s.trunk t).ballots.set p.val choice }).send t .ballot .registry
          (s.handOn .registry after)).refavour t after, accepted)
      else (s, refuse .notMember) := by
  have hall : choice.all (fun l => (s.members t).contains l) = true ↔ ∀ l ∈ choice, l ∈ s.members t := by
    simp [Option.all_eq_true]
  simp only [State.ballot, ifAttached_attached hm, trunkOperand_eq_some ho, laneOrNone_octet, hall, modTrunk_eq,
    setTrunk_handOn]

end Ballot

/-- Settles O20: the row answers as the registry does, whose cases on operands in range are the branches of `ballot_inRange`. -/
theorem ballotSetsTheSlot : Obligations.BallotSetsTheSlot := by
  intro s u after p tag part o lane harr hm
  have hrow : ∀ {v code}, u.ballot p after o lane = (v, (code, [])) →
      exec (.ballot p tag part o lane) s = .next (v.answered p tag (.ballot o lane) code []) :=
    fun hr => exec_answers (c := .ballot o lane) rfl harr hr
  refine ⟨fun ho => hrow (ballot_noSuchTrunk hm ho), fun t ho => ⟨fun hl hne => hrow (ballot_noSuchLane hm ho hl hne),
    fun choice hc => ?_⟩⟩
  have heq := ballot_inRange (after := after) (choice := choice) hm ho
  rw [← hc] at heq
  refine ⟨fun ⟨l, hl, hno⟩ => ?_, fun hall => ⟨fun hsame => ?_, fun hother => ?_⟩⟩
  · exact hrow (heq.trans (if_neg fun hall => hno (hall l hl)))
  · exact hrow (heq.trans ((if_pos hall).trans (if_pos hsame)))
  · exact hrow (heq.trans ((if_pos hall).trans (if_neg hother)))

end Sys2Proof.Machine
end

