-- ==== Sys2Proof/Proofs/Concurrence.lean ====
section
/-! SUPPORT. The concurrence unit: the charter operands (R46), the refusals of PROPOSE (R113) and its install at once (R115), the
install in the words of the statements (R49, R69, R117), CONCUR, DISSENT and WITHDRAW (R118 to R121), and the deadline (R122). -/

namespace Sys2Proof.Machine

/-! ## The charter operands (R46) -/

/-- Member octets are read as lanes exactly when they are the octets of those lanes. -/
theorem memberLanes_eq_some {os : List Octet} {ls : List Lane} :
    memberLanes os = some ls ↔ ls.map (fun l => oct l.val) = os := by
  have hone : ∀ (o : Octet) (l : Lane), laneOperand o = some l ↔ oct l.val = o := by
    intro o l
    have hl : (oct l.val).toNat = l.val := oct_toNat (by omega)
    constructor
    · intro h
      by_cases ho : o.toNat < 16
      · rw [laneOperand, dif_pos ho] at h
        cases h
        simp [oct]
      · simp [laneOperand_eq_none (Nat.le_of_not_lt ho)] at h
    · rintro rfl
      exact laneOperand_eq_some hl
  induction os generalizing ls with
  | nil => cases ls <;> simp [memberLanes]
  | cons o os ih =>
    rw [memberLanes]
    cases ls with
    | nil =>
      cases laneOperand o <;> cases memberLanes os <;> simp
    | cons l ls =>
      have htail : memberLanes os = some ls ↔ ls.map (fun l => oct l.val) = os := ih
      simp only [List.map_cons, List.cons.injEq, ← hone, ← htail]
      cases laneOperand o <;> cases memberLanes os <;> simp

theorem flagOperand_eq_some {o : Octet} {b : Bool} : flagOperand o = some b ↔ o = flagOctet b := by
  unfold flagOperand flagOctet
  by_cases h0 : o = 0
  · subst h0
    cases b <;> simp
  · by_cases h1 : o = 1
    · subst h1
      cases b <;> simp
    · cases b <;> simp only [h0, h1, if_true, if_false, reduceCtorEq, Bool.false_eq_true]

theorem distinctLanes_iff (ls : List Lane) : distinctLanes ls = true ↔ ls.Nodup := by
  induction ls with
  | nil => simp [distinctLanes]
  | cons l ls ih => simp [distinctLanes, ih]

/-- Settles O27: the operands are judged one by one, each by its own lemma. -/
theorem charterOperandsAreJudged : Obligations.CharterOperandsAreJudged := by
  intro count m1 m2 m3 m4 revertive mend holdOff wait terms
  rw [← memberLanes_eq_some, ← flagOperand_eq_some (o := revertive), ← flagOperand_eq_some (o := mend), charterOperand]
  by_cases hc : count.toNat ≤ 4
  · rw [if_pos hc]
    generalize memberLanes _ = lanes
    generalize flagOperand revertive = r
    generalize flagOperand mend = m
    obtain ⟨members, rev, men, ho, rw'⟩ := terms
    rcases lanes with _ | ls
    · simp
    rcases r with _ | r
    · simp
    rcases m with _ | m
    · simp
    simp only [Bool.and_eq_true, distinctLanes_iff, decide_eq_true_eq, Option.some.injEq]
    split
    · next h =>
      obtain ⟨⟨h1, h2⟩, h3⟩ := h
      simp only [Option.some.injEq, CharterTerms.mk.injEq]
      constructor
      · rintro ⟨rfl, rfl, rfl, rfl, rfl⟩
        exact ⟨hc, h1, rfl, rfl, rfl, rfl, h2, rfl, h3⟩
      · rintro ⟨-, -, rfl, rfl, rfl, rfl, -, rfl, -⟩
        exact ⟨rfl, rfl, rfl, rfl, rfl⟩
    · next h =>
      refine iff_of_false nofun ?_
      rintro ⟨-, h1, rfl, -, -, -, h2, -, h3⟩
      exact h ⟨⟨h1, h2⟩, h3⟩
  · rw [if_neg hc]
    exact iff_of_false nofun fun h => hc h.1

/-- A valid charter is within the ranges of R46. -/
theorem charterOperand_law {count m1 m2 m3 m4 revertive mend holdOff : Octet} {wait : Pair} {terms : CharterTerms}
    (h : charterOperand count [m1, m2, m3, m4] revertive mend holdOff wait = some terms) : terms.Law := by
  obtain ⟨hc, hnodup, hmembers, -, -, hhold, hhold', hwait, hwait'⟩ :=
    (charterOperandsAreJudged count m1 m2 m3 m4 revertive mend holdOff wait terms).mp h
  refine ⟨?_, hnodup, by omega, by omega⟩
  have := congrArg List.length hmembers
  simp only [List.length_map, List.length_take, List.length_cons, List.length_nil] at this
  omega

/-! ## PROPOSE: the refusals and the install at once (R113, R115) -/

section Propose

variable {s : State} {p : Port} {after : List Nat} {o : Octet} {t : Trunk}

theorem propose_noSuchTrunk (hm : (s.port p).mode = .attached) (ho : 8 ≤ o.toNat) (charter : Option CharterTerms) :
    s.propose p after o charter = (s, refuse .noSuchTrunk) := by
  simp only [State.propose, ifAttached_attached hm, trunkOperand_eq_none ho]

theorem propose_badCharter (hm : (s.port p).mode = .attached) (ho : o.toNat = t.val) :
    s.propose p after o none = (s, refuse .badCharter) := by
  simp only [State.propose, ifAttached_attached hm, trunkOperand_eq_some ho]

end Propose

/-- Settles O26: each refusal is a branch of `propose_inRange`, those before it not taken. -/
theorem proposeRefusalsComeInOrder : Obligations.ProposeRefusalsComeInOrder := by
  intro s u after p tag part o count m1 m2 m3 m4 revertive mend holdOff wait c harr hm refused charter
  have hrow : ∀ {code}, u.propose p after o charter = (u, (code, [])) → refused code :=
    fun hr => exec_answers (c := c) rfl harr hr
  refine ⟨fun ho => hrow (propose_noSuchTrunk hm ho charter), fun t ho => ⟨fun hbad => ?badCharter, fun terms hterms => ?_⟩⟩
  case badCharter =>
    refine hrow ?_
    rw [hbad]
    exact propose_badCharter hm ho
  have heq := propose_inRange (after := after) (terms := terms) hm ho
  rw [← (show charter = some terms from hterms)] at heq
  refine ⟨fun hparty => hrow (heq.trans (if_pos hparty)), fun hparty => ?_⟩
  rw [if_neg (not_not_intro hparty)] at heq
  refine ⟨fun hopen => hrow (heq.trans (if_pos hopen)), fun hnone => ?_⟩
  rw [if_neg (not_not_intro hnone)] at heq
  refine ⟨fun htaken => hrow (heq.trans (if_pos htaken)), fun hfree ⟨k, hk, q, hq, l, hl, hmem⟩ => ?_⟩
  rw [if_neg fun ⟨k, hk, l, hl, hmem⟩ => hfree k hk l hl hmem] at heq
  exact hrow (heq.trans (if_pos ⟨k, hk, l, hl, q, hq, hmem⟩))

theorem has_only_self (p : Port) : PortSet.has (PortSet.only p) p = true := by
  simp [PortSet.only]

/-- The required set is the proposer's alone when it is an ATTACHED party and no other ATTACHED port is one. -/
theorem requiredSet_eq_only {s : State} {p : Port} {t : Trunk} {proposed : List Lane} (hm : (s.port p).mode = .attached)
    (hparty : ∃ l ∈ s.members t ++ proposed, l.val / 4 = p.val)
    (halone : ∀ k ≠ p, (s.port k).mode = .attached → ∀ l ∈ s.members t ++ proposed, l.val / 4 ≠ k.val) :
    s.requiredSet t proposed = PortSet.only p := by
  refine requiredSet_eq fun k => ?_
  by_cases hk : k = p
  · subst hk
    exact iff_of_true (has_only_self k) ⟨hm, hparty⟩
  · refine iff_of_false (by simp [has_only_ne hk]) ?_
    rintro ⟨hk', l, hl, howns⟩
    exact halone k hk hk' l hl howns

/-- Settles O29: the required set is the proposer's alone, and so PROPOSE, whose checks pass, installs at once. -/
theorem proposeAloneInstalls : Obligations.ProposeAloneInstalls := by
  intro s u after p tag part o count m1 m2 m3 m4 revertive mend holdOff wait t terms c harr hm ho hterms hparty hnone hfree
    halone v
  have hv : v = nextNumber (u.trunk t).charter.version := rfl
  clear_value v
  have hperf : u.perform p after c = (u.install t terms 0 p after, (.installed, pairOctets v)) := by
    rw [hv]
    show u.propose p after o (charterOperand count [m1, m2, m3, m4] revertive mend holdOff wait) = _
    rw [hterms, propose_checked hm ho hparty hnone hfree, if_pos (requiredSet_eq_only hm hparty halone),
      State.installAtOnce]
  have hrow := exec_answers (c := c) (part := part) rfl harr hperf
  exact hrow

/-! ## The install (R117) -/

/-- Settles O30: the install in the words of `install_spec`. -/
theorem installReplacesTheCharter : Obligations.InstallReplacesTheCharter := by
  intro s t terms number p after r v f
  have h : Installs t terms number p after s r := install_spec s t terms number p after
  clear_value r
  have htrunk := h.trunk
  have hnow : f = r.favouredNow t := congrArg TrunkState.favoured htrunk
  obtain ⟨stamp, stamps, htriggers, hstamp, -⟩ := h.triggers
  obtain ⟨more, hoffers, hevents, hmore⟩ := h.offers
  refine ⟨?charter, ?proposal, fun k => ?ballots, ?hold, hnow, h.books.sel t, h.books.em t, h.books.history t, h.lane,
    ⟨stamp, stamps, htriggers, hstamp⟩, ⟨more, hoffers, ?_, fun o ho => ?_⟩, h.trunks, h.books.ports, h.books.monitor,
    h.books.blockCounter, h.proposalCounter⟩
  case charter => rw [htrunk]; rfl
  case proposal => rw [htrunk]
  case ballots => simp only [htrunk, TrunkState.discarded, Vector.getElem_map]
  case hold => rw [htrunk]; rfl
  · have hfst : more.map Offer.event = s.installEvents r t terms.members := by
      have := congrArg (List.map Prod.fst) hevents
      simpa only [List.map_map, Function.comp_def, List.map_id'] using this
    rw [hfst]
    unfold State.installEvents
    have hballots : (allPorts.flatMap fun p => (((s.trunk t).ballots[p.val].filter fun l => !terms.members.contains l).map
        fun l => Event.claimDiscarded t false p l v).toList) = allPorts.filterMap fun k =>
          ((s.trunk t).ballots[k.val].filter fun l => l ∉ terms.members).map fun l => .claimDiscarded t false k l v := by
      refine flatMap_eq_filterMap _ _ (fun k => ?_) _
      simp
    refine congrArg₂ _ (congrArg₂ _ hballots ?_) rfl
    simp only [List.contains_eq_mem, decide_not]
    rfl
  · have hmem : (o.event, o.block, o.dest) ∈ more.map fun o => (o.event, o.block, o.dest) := List.mem_map_of_mem ho
    rw [hevents] at hmem
    obtain ⟨e, -, he⟩ := List.mem_map.mp hmem
    simp only [Prod.mk.injEq] at he
    exact ⟨he.2.1.symm, he.2.2.symm, (hmore o ho).1, (hmore o ho).2⟩

/-! ## CONCUR, DISSENT and WITHDRAW (R118 to R121) -/

section Answers

variable {s : State} {p : Port} {after : List Nat} {o : Octet} {n : Pair} {t : Trunk} {q : Proposal}

theorem quoted_noSuchTrunk (ho : 8 ≤ o.toNat) : s.quoted o n = .error .noSuchTrunk := by
  simp only [State.quoted, trunkOperand_eq_none ho]

theorem quoted_noProposal (ho : o.toNat = t.val) (hq : (s.trunk t).proposal = none) :
    s.quoted o n = .error .noProposal := by
  simp only [State.quoted, trunkOperand_eq_some ho, hq]

theorem quoted_some (ho : o.toNat = t.val) (hq : (s.trunk t).proposal = some q) :
    s.quoted o n = if n = q.number then .ok (t, q) else .error .wrongProposal := by
  simp only [State.quoted, trunkOperand_eq_some ho, hq]

/-- The trunk operand and the number of an open proposal quote it. -/
theorem quoted_own (hq : (s.trunk t).proposal = some q) : s.quoted (oct t.val) q.number = .ok (t, q) := by
  rw [quoted_some (oct_toNat (by omega)) hq, if_pos rfl]

/-- What CONCUR, DISSENT and WITHDRAW answer where the quoting fails. -/
theorem answer_error {c : Command} {code : Code} (hm : (s.port p).mode = .attached)
    (hc : c = .concur o n ∨ c = .dissent o n ∨ c = .withdraw o n) (h : s.quoted o n = .error code) :
    s.perform p after c = (s, refuse code) := by
  rcases hc with rfl | rfl | rfl <;>
    simp only [State.perform, State.concur, State.dissent, State.withdrawProposal, ifAttached_attached hm, h]

/-- What CONCUR does once it quotes an open proposal. -/
theorem concur_quoted (hm : (s.port p).mode = .attached) (h : s.quoted o n = .ok (t, q)) :
    s.concur p after o n =
      if PortSet.has q.required p = false then (s, refuse .notParty)
      else if PortSet.has q.concurred p = true then (s, accepted)
      else if PortSet.add q.concurred p = q.required then
        (s.install t q.terms q.number p after, (.installed, pairOctets (nextNumber (s.trunk t).charter.version)))
      else (s.setTrunk t { s.trunk t with proposal := some { q with concurred := PortSet.add q.concurred p } }, accepted) := by
  simp only [State.concur, ifAttached_attached hm, h, Bool.not_eq_true', modTrunk_eq]

/-- What DISSENT does once it quotes an open proposal. -/
theorem dissent_quoted (hm : (s.port p).mode = .attached) (h : s.quoted o n = .ok (t, q)) :
    s.dissent p after o n =
      if PortSet.has q.required p = false then (s, refuse .notParty)
      else (s.close t (if q.proposer = p then .withdrawn else .rejected) (some p) .dissent after, accepted) := by
  simp only [State.dissent, ifAttached_attached hm, h, Bool.not_eq_true']
  split_ifs <;> rfl

/-- What WITHDRAW does once it quotes an open proposal. -/
theorem withdraw_quoted (hm : (s.port p).mode = .attached) (h : s.quoted o n = .ok (t, q)) :
    s.withdrawProposal p after o n =
      if q.proposer = p then (s.close t .withdrawn (some p) .withdraw after, accepted) else (s, refuse .notParty) := by
  simp only [State.withdrawProposal, ifAttached_attached hm, h]

/-- A closing removes the proposal and offers CLOSED (R118). -/
theorem close_eq (hq : (s.trunk t).proposal = some q) (outcome : Closing) (port : Option Port) (reason : Reason) :
    s.close t outcome port reason after =
      (s.setTrunk t { s.trunk t with proposal := none }).offer allPorts .concurrence after
        (.closed t q.number outcome port reason q.concurred) := by
  simp only [State.close, State.closeHere, hq, modTrunk_eq, offer_eq]

end Answers

/-- Settles O31: the three branches of `concur_quoted` past its refusal. -/
theorem concurAddsOrInstalls : Obligations.ConcurAddsOrInstalls := by
  intro s u after p tag part t q c harr hm hq hreq
  have heq := concur_quoted (after := after) hm (quoted_own hq)
  rw [if_neg (ne_false_of_eq_true hreq)] at heq
  have hrow : ∀ {v r}, u.concur p after (oct t.val) q.number = (v, r) →
      exec (c.row p tag part) s = .next (v.answered p tag c r.1 r.2) := fun hr => exec_answers (c := c) rfl harr hr
  refine ⟨fun hhas => hrow (heq.trans (if_pos hhas)), fun hnot => ?_⟩
  intro with_p v
  rw [if_neg (ne_true_of_eq_false hnot)] at heq
  refine ⟨fun hshort => ?_, fun hall => ?_⟩
  · have hadds := hrow (heq.trans (if_neg hshort))
    exact hadds
  · have hinstalls := hrow (heq.trans (if_pos hall))
    exact hinstalls

/-- Settles O32: the quoting fails, or the port is no party of the proposal quoted. -/
theorem answerRefusalsComeInOrder : Obligations.AnswerRefusalsComeInOrder := by
  intro s u after p tag part o n c hc harr hm refused
  have hparts : c.inParts = true := by rcases hc with rfl | rfl | rfl <;> rfl
  have hrow : ∀ {code}, u.perform p after c = (u, refuse code) → refused code := fun hr => exec_answers hparts harr hr
  refine ⟨fun ho => hrow (answer_error hm hc (quoted_noSuchTrunk ho)), fun t ho => ⟨fun hnone => ?_, fun q hq =>
    ⟨fun hn => ?_, fun hn hne hreq => ?_, fun hn he hprop => ?_⟩⟩⟩
  · exact hrow (answer_error hm hc (quoted_noProposal ho hnone))
  · exact hrow (answer_error hm hc ((quoted_some ho hq).trans (if_neg hn)))
  all_goals have hquoted : u.quoted o n = .ok (t, q) := (quoted_some ho hq).trans (if_pos hn)
  · rcases hc with rfl | rfl | rfl
    · exact hrow ((concur_quoted hm hquoted).trans (if_pos hreq))
    · exact hrow ((dissent_quoted hm hquoted).trans (if_pos hreq))
    · exact absurd rfl hne
  · subst he
    exact hrow ((withdraw_quoted hm hquoted).trans (if_neg hprop))

/-- Settles O33: DISSENT and WITHDRAW of a proposal quoted by its own number close it (`close_eq`). -/
theorem dissentAndWithdrawClose : Obligations.DissentAndWithdrawClose := by
  intro s u after p tag part t q c harr hm hq closes
  have hclose : ∀ {outcome reason}, c.inParts = true →
      u.perform p after c = (u.close t outcome (some p) reason after, accepted) → closes outcome reason := by
    intro outcome reason hparts hperf
    rw [close_eq hq] at hperf
    exact exec_answers hparts harr hperf
  refine ⟨fun he hreq => ?_, fun he hprop => ?_⟩ <;> subst he
  · exact hclose rfl ((dissent_quoted hm (quoted_own hq)).trans (if_neg (ne_false_of_eq_true hreq)))
  · exact hclose rfl ((withdraw_quoted hm (quoted_own hq)).trans (if_pos hprop))

/-! ## The deadline (R122) -/

/-- A deadline equal to the block counter is reached; one at most 32,000 periods ahead is not (R122; log entry 7). -/
theorem deadlineReached_now (s : State) : s.deadlineReached s.blockCounter = true := by
  simp [State.deadlineReached, State.periodsTo]

theorem deadlineReached_ahead {s : State} {n : Nat} (h1 : 1 ≤ n) (h2 : n ≤ 32000) :
    s.deadlineReached (s.blockCounter + BitVec.ofNat 32 n) = false := by
  have hdist : s.periodsTo (s.blockCounter + BitVec.ofNat 32 n) = n := by
    rw [State.periodsTo, BitVec.add_comm, BitVec.add_sub_cancel, BitVec.toNat_ofNat, Nat.mod_eq_of_lt (by omega)]
  simp [State.deadlineReached, hdist, deadlinePeriods]
  omega

/-- Settles O36: the row closes a proposal whose deadline is reached, and changes nothing otherwise. -/
theorem deadlineExpiresTheProposal : Obligations.DeadlineExpiresTheProposal := by
  intro s t
  refine ⟨fun q hq hr hm => ?_, fun h => ?_⟩
  · have hrow : exec (.deadlineExpiry t) s =
        .next (if s.deadlineReached q.deadline then s.close t .expired none .deadline [] else s) := by
      show Host.Outcome.next (if s.running then s.expireProposal t else s) = _
      rw [if_pos (running_of hr hm)]
      simp only [State.expireProposal, show (s.trunk t).proposal = some q from hq]
    refine ⟨fun he => ?_, fun n h1 h2 he => ?_⟩
    · rw [hrow, he, if_pos (deadlineReached_now s), close_eq hq]
    · rw [hrow, he, if_neg (by simp [deadlineReached_ahead h1 h2])]
  · show Host.Outcome.next (if s.running then s.expireProposal t else s) = _
    rcases h with h | h
    · simp [State.expireProposal, h]
    · simp [State.running, halted_of_absent h]

end Sys2Proof.Machine
end

