-- ==== Sys2Proof/Proofs/SelectorKeeps.lean ====
section
/-! SUPPORT. What a trunk's selector keeps of its records (R41, R72, R89, R92): one lemma for each of its actions, composed by
`Turns.trans`; and that one evaluation leaves the trunk in a state that fits its charter and its bars. -/

namespace Sys2Proof.Machine

/-! ## What is kept -/

/-- What the laws of the emitters ask of one trunk (R41, R29, R37, R92). -/
def TrunkState.EmitterFit (x : TrunkState) : Prop :=
  x.em.counters.Balanced ∧ x.em.misalign < misalignLimit ∧ x.history.length ≤ historyLimit

/-- The selection record has its shape, and the immediate pending flag is that of the pending record (R72, R35, R83). -/
def TrunkState.SelFit (x : TrunkState) : Prop :=
  x.sel.Shape ∧ (x.em.immediatePending = true ↔ x.sel.pendingSwitch ≠ none)

/-- What an action of trunk t's selector keeps of that trunk. -/
structure Turns (t : Trunk) (s r : State) : Prop where
  reports : (r.trunk t).reports = (s.trunk t).reports
  fit : (s.trunk t).EmitterFit → (r.trunk t).EmitterFit
  wait : (r.trunk t).sel.alignWait = 0 ∨ (r.trunk t).sel.alignWait = (s.trunk t).sel.alignWait
  sel : (s.trunk t).SelFit → (r.trunk t).SelFit

theorem Turns.refl (t : Trunk) (s : State) : Turns t s s := ⟨rfl, id, .inr rfl, id⟩

theorem Turns.trans {t : Trunk} {s u r : State} (h : Turns t s u) (h' : Turns t u r) : Turns t s r :=
  ⟨h'.reports.trans h.reports, h'.fit ∘ h.fit, h'.wait.elim .inl fun e => by rw [e]; exact h.wait, h'.sel ∘ h.sel⟩

theorem Turns.offer (t : Trunk) (s : State) (dest : List Port) (b : Block) (after : List Nat) (e : Event) :
    Turns t s (s.offer dest b after e) := ⟨rfl, id, .inr rfl, id⟩

theorem modTrunk_turns (s : State) (t : Trunk) (f : TrunkState → TrunkState)
    (wait : (f (s.trunk t)).sel.alignWait = 0 ∨ (f (s.trunk t)).sel.alignWait = (s.trunk t).sel.alignWait)
    (sel : (s.trunk t).SelFit → (f (s.trunk t)).SelFit)
    (reports : (f (s.trunk t)).reports = (s.trunk t).reports := by rfl)
    (fit : (s.trunk t).EmitterFit → (f (s.trunk t)).EmitterFit := by exact id) : Turns t s (s.modTrunk t f) := by
  constructor <;> rw [modTrunk_eq, trunk_setTrunk_self] <;> assumption

theorem modSel_turns (s : State) (t : Trunk) (f : Selection → Selection)
    (wait : (f (s.trunk t).sel).alignWait = 0 ∨ (f (s.trunk t).sel).alignWait = (s.trunk t).sel.alignWait)
    (sel : (s.trunk t).SelFit → TrunkState.SelFit { s.trunk t with sel := f (s.trunk t).sel }) :
    Turns t s (s.modSel t f) := modTrunk_turns s t _ wait sel

/-! ## Records -/

theorem pushRecord_length {h : List HistoryRecord} (hl : h.length ≤ historyLimit) (r : HistoryRecord) :
    (pushRecord h r).length ≤ historyLimit := by
  unfold pushRecord
  split
  · simp only [List.length_append, List.length_singleton]; omega
  · simp only [List.length_append, List.length_drop, List.length_singleton, historyLimit] at *
    omega

theorem writeRecord_turns (s : State) (t : Trunk) (c : Cause) (src dst : Option Lane) (k : SwitchKind) (after : List Nat) :
    Turns t s (s.writeRecord t c src dst k after) := by
  unfold State.writeRecord
  refine Turns.trans (modTrunk_turns s t _ (.inr rfl) id rfl ?_) (Turns.offer ..)
  rintro ⟨hb, hm, hl⟩
  exact ⟨hb, hm, pushRecord_length hl _⟩

@[simp] theorem writeRecord_sel (s : State) (t : Trunk) (c : Cause) (src dst : Option Lane) (k : SwitchKind)
    (after : List Nat) : ((s.writeRecord t c src dst k after).trunk t).sel = (s.trunk t).sel := by
  simp [State.writeRecord]

@[simp] theorem writeRecord_pending (s : State) (t : Trunk) (c : Cause) (src dst : Option Lane) (k : SwitchKind)
    (after : List Nat) :
    ((s.writeRecord t c src dst k after).trunk t).em.immediatePending = (s.trunk t).em.immediatePending := by
  simp [State.writeRecord]

/-! ## The actions -/

section
variable (s : State) (t : Trunk) (after : List Nat)

theorem start_turns (d : Lane) : Turns t s (s.start t d after) := by
  unfold State.start
  refine Turns.trans (Turns.trans (modTrunk_turns s t _ (.inl rfl) ?_) (writeRecord_turns ..)) (Turns.offer ..)
  rintro ⟨-, hp⟩
  exact ⟨by simp [Selection.Shape], hp⟩

theorem drop_turns : Turns t s (s.drop t after) := by
  unfold State.drop
  refine Turns.trans (Turns.trans (modTrunk_turns s t _ (.inl rfl) fun _ => ?_) (writeRecord_turns ..)) (Turns.offer ..)
  exact ⟨by simp [Selection.Shape], by simp⟩

theorem immediateSwitch_turns (a d : Lane) (c : Cause) : Turns t s (s.immediateSwitch t a d c after) :=
  modTrunk_turns s t _ (.inl rfl) fun _ => ⟨by simp [Selection.Shape], by simp⟩

variable {s t}

theorem aim_turns (ha : (s.trunk t).sel.active ≠ none) (d : Lane) (c : Cause) : Turns t s (s.aim t d c after) :=
  modSel_turns s t _ (.inl rfl) fun ⟨_, hp⟩ => ⟨by simp [Selection.Shape, ha], hp⟩

theorem cancel_turns (ha : (s.trunk t).sel.active ≠ none) : Turns t s (s.cancel t) :=
  modSel_turns s t _ (.inl rfl) fun ⟨_, hp⟩ => ⟨by simp [Selection.Shape, ha], hp⟩

/-- Step 7 of R80, in each trunk state (R85, R86). -/
theorem act_turns (k : TriggerKind) (d : Decision) : Turns t s (s.act t k d after) := by
  cases hm : (s.trunk t).sel.mode
  case disabled =>
    rw [State.act, hm]
    exact Turns.refl ..
  case starved =>
    rw [act_starved hm]
    split
    · exact start_turns ..
    · exact Turns.refl ..
  all_goals
    cases ha : (s.trunk t).sel.active with
    | none => rw [State.act, hm, ha]; exact Turns.refl ..
    | some a => ?_
    have hne : (s.trunk t).sel.active ≠ none := by simp [ha]
  case carrying =>
    rw [act_carrying hm ha]
    repeat' split
    all_goals first
      | with_reducible exact Turns.refl ..
      | with_reducible exact drop_turns ..
      | with_reducible exact aim_turns _ hne ..
      | with_reducible exact immediateSwitch_turns ..
  case switching =>
    rw [act_switching hm ha]
    repeat' split
    all_goals first
      | with_reducible exact Turns.refl ..
      | with_reducible exact drop_turns ..
      | with_reducible exact cancel_turns hne
      | with_reducible exact aim_turns _ hne ..
      | with_reducible exact immediateSwitch_turns ..

end

/-! ## One evaluation -/

theorem markHold_turns (s : State) (t : Trunk) (after : List Nat) : Turns t s (s.markHold t after) := by
  unfold State.markHold
  split
  · exact Turns.refl ..
  · dsimp only
    split
    · exact Turns.refl ..
    · exact Turns.trans (modTrunk_turns s t _ (.inr rfl) id) (Turns.offer ..)

@[simp] theorem markHold_sel (s : State) (t : Trunk) (after : List Nat) :
    ((s.markHold t after).trunk t).sel = (s.trunk t).sel := by
  unfold State.markHold
  split
  · rfl
  · dsimp only
    split
    · rfl
    · simp

/-- Writing the timers of a trunk that is not DISABLED. -/
theorem timers_turns {s : State} {t : Trunk} (hd : (s.trunk t).sel.mode ≠ .disabled) (ho : HoldOffTimer) (r : RestoreTimer) :
    Turns t s (s.modSel t fun x => { x with restore := r, holdOff := ho }) :=
  modSel_turns s t _ (.inr rfl) fun ⟨⟨h1, h2, h3, h4, _, h6⟩, hp⟩ => ⟨⟨h1, h2, h3, h4, fun h => absurd h hd, h6⟩, hp⟩

/-- Making both timers IDLE. -/
theorem idle_turns (s : State) (t : Trunk) : Turns t s (s.modSel t fun x => { x with holdOff := .idle, restore := .idle }) :=
  modSel_turns s t _ (.inr rfl) fun ⟨⟨h1, h2, h3, h4, _, h6⟩, hp⟩ => ⟨⟨h1, h2, h3, h4, fun _ => ⟨rfl, rfl⟩, h6⟩, hp⟩

theorem judge_turns (s : State) (t : Trunk) (k : TriggerKind) (after : List Nat) : Turns t s (s.judge t k after) := by
  unfold State.judge
  dsimp only
  split
  · exact Turns.refl ..
  · next hd =>
    exact ((markHold_turns ..).trans (timers_turns (by simpa using hd) _ _)).trans (act_turns ..)

theorem enable_turns {s : State} {t : Trunk} (hd : (s.trunk t).sel.mode = .disabled) (after : List Nat) :
    Turns t s (s.enable t after) := by
  unfold State.enable
  refine Turns.trans (modTrunk_turns s t _ (.inr rfl) ?_) (Turns.offer ..)
  rintro ⟨⟨-, -, hc, hw, -, hp⟩, hi⟩
  simp only [hd] at hc hw hp
  exact ⟨by simp_all [Selection.Shape], hi⟩

theorem disableEmitter_trunk (s : State) (t : Trunk) (after : List Nat) :
    (s.disableEmitter t after).trunk t = { s.trunk t with em := { (s.trunk t).em with
      centring := false, immediatePending := false, misalign := 0, gapRun := false } } := by
  unfold State.disableEmitter
  dsimp only
  split <;> simp

theorem disable_turns (s : State) (t : Trunk) (after : List Nat) : Turns t s (s.disable t after) := by
  unfold State.disable
  dsimp only
  generalize hu : (s.modSel t fun x => { x with
    mode := .disabled, active := none, target := none, alignWait := 0, cause := none, causeAfter := []
    holdOff := .idle, restore := .idle, pendingSwitch := none }) = u
  have huf : (s.trunk t).EmitterFit → (u.trunk t).EmitterFit := by
    rw [← hu, modSel_eq, trunk_setTrunk_self]
    exact id
  have hus : (u.trunk t).reports = (s.trunk t).reports ∧ (u.trunk t).sel.alignWait = 0 ∧ (u.trunk t).sel.Shape ∧
      (u.trunk t).sel.pendingSwitch = none := by
    rw [← hu]; simp [Selection.Shape]
  obtain ⟨h1, h2, h3, h4⟩ := hus
  have last : ∀ v, Turns t u v → (v.trunk t).sel = (u.trunk t).sel → ∀ as, Turns t s (v.disableEmitter t as) := by
    intro v hv hs as
    constructor <;> rw [disableEmitter_trunk]
    · exact hv.reports.trans h1
    · intro h
      obtain ⟨hb, -, hl⟩ := hv.fit (huf h)
      exact ⟨hb, by simp [misalignLimit], hl⟩
    · exact .inl (by simp only [hs, h2])
    · exact fun _ => ⟨by simpa only [hs] using h3, by simp [hs, h4]⟩
  split
  · exact last _ (writeRecord_turns ..) (writeRecord_sel ..) _
  · exact last _ (Turns.refl ..) rfl _

theorem installSteps_turns (s : State) (t : Trunk) (after : List Nat) : Turns t s (s.installSteps t after) := by
  unfold State.installSteps
  refine Turns.trans (idle_turns s t) ?_
  generalize (s.modSel t fun x => { x with holdOff := .idle, restore := .idle }) = u
  dsimp only
  split
  · next hd =>
    split
    · exact Turns.refl ..
    · exact enable_turns hd _
  · split
    · exact disable_turns ..
    · exact Turns.refl ..

/-- One evaluation keeps the laws of its trunk's records. -/
theorem evaluate_turns (s : State) (t : Trunk) (k : TriggerKind) (after : List Nat) :
    Turns t s (s.evaluate t k after) := by
  unfold State.evaluate
  split
  · exact (installSteps_turns ..).trans (judge_turns ..)
  · exact judge_turns ..

/-! ## Reports -/

theorem complete_turns (s : State) (t : Trunk) (b : Lane) (k : SwitchKind) (after : List Nat) :
    Turns t s (s.complete t b k after) := by
  unfold State.complete
  exact Turns.trans (writeRecord_turns ..) (modSel_turns _ t _ (.inl rfl) fun ⟨_, hp⟩ => ⟨by simp [Selection.Shape], hp⟩)

theorem centre_turns (s : State) (t : Trunk) : Turns t s (s.modEm t fun e => { e with centring := true }) :=
  modTrunk_turns s t _ (.inr rfl) id

theorem handleCompletion_turns (s : State) (t : Trunk) (b : Lane) (after : List Nat) :
    Turns t s (s.handleCompletion t b after) := by
  unfold State.handleCompletion
  dsimp only
  split
  · exact complete_turns ..
  · exact Turns.refl ..

theorem handleAlignWait_turns (s : State) (t : Trunk) (after : List Nat) : Turns t s (s.handleAlignWait t after) := by
  unfold State.handleAlignWait
  dsimp only
  split
  · split
    · exact (complete_turns ..).trans (centre_turns ..)
    · exact Turns.refl ..
  · exact Turns.refl ..

theorem handleLoss_turns (s : State) (t : Trunk) (a : Option Lane) (st : List (Lane × AlignStatus)) (after : List Nat) :
    Turns t s (s.handleLoss t a st after) := by
  unfold State.handleLoss
  dsimp only
  split
  · exact Turns.refl ..
  · split
    · split
      · exact immediateSwitch_turns ..
      · exact (centre_turns ..).trans (writeRecord_turns ..)
    · exact Turns.refl ..

/-- Handling a report that is no judgement keeps the laws of the trunk's records. -/
theorem handleReport_turns (s : State) (t : Trunk) {k : ReportKind} (hk : ∀ l d, k ≠ .judgement l d) (after : List Nat) :
    Turns t s (s.handleReport t k after) := by
  cases k with
  | judgement l d => exact absurd rfl (hk l d)
  | completion b => exact handleCompletion_turns ..
  | alignmentLoss a st => exact handleLoss_turns ..
  | alignWaitExpiry => exact handleAlignWait_turns ..

/-- A judgement leaves the selection record as it is but for the pending record, of which none is left (R99). -/
theorem handleJudgement_sel (s : State) (t : Trunk) (l : Option Lane) (d : SwitchKind) (after : List Nat) :
    ((s.handleJudgement t l d after).trunk t).sel = { (s.trunk t).sel with pendingSwitch := none } := by
  unfold State.handleJudgement
  split
  · next h => rw [← h]
  · simp

/-- After a judgement the flag that the judging of it has cleared is the pending record's again (R35, R99). -/
theorem handleJudgement_fit {s : State} {t : Trunk} (hs : (s.trunk t).sel.Shape)
    (hi : (s.trunk t).em.immediatePending = false) (l : Option Lane) (d : SwitchKind) (after : List Nat) :
    ((s.handleJudgement t l d after).trunk t).SelFit := by
  refine ⟨?_, ?_⟩
  · rw [handleJudgement_sel]
    exact ⟨hs.1, hs.2.1, hs.2.2.1, hs.2.2.2.1, hs.2.2.2.2.1, fun h => absurd rfl h⟩
  · rw [handleJudgement_sel]
    unfold State.handleJudgement
    split <;> simp [hi]

theorem handleJudgement_keeps (s : State) (t : Trunk) (l : Option Lane) (d : SwitchKind) (after : List Nat) :
    ((s.handleJudgement t l d after).trunk t).reports = (s.trunk t).reports ∧
      ((s.trunk t).EmitterFit → ((s.handleJudgement t l d after).trunk t).EmitterFit) := by
  unfold State.handleJudgement
  split
  · exact ⟨rfl, id⟩
  · next p _ =>
    have h := writeRecord_turns s t p.cause p.src l d (p.after ++ after)
    simp only [modSel_eq, trunk_setTrunk_self]
    exact ⟨h.reports, h.fit⟩

/-- Taking a report keeps the reports outstanding and the laws of the emitter. -/
theorem takeReport_keeps (s : State) (t : Trunk) (r : Report) :
    ((s.takeReport t r).trunk t).reports = (s.trunk t).reports ∧
      ((s.trunk t).EmitterFit → ((s.takeReport t r).trunk t).EmitterFit) := by
  have handled : ((s.handleReport t r.kind r.after).trunk t).reports = (s.trunk t).reports ∧
      ((s.trunk t).EmitterFit → ((s.handleReport t r.kind r.after).trunk t).EmitterFit) := by
    rcases hk : r.kind with ⟨l, d⟩ | b | ⟨a, st⟩ | _
    · exact handleJudgement_keeps ..
    all_goals
      rw [← hk]
      have h := handleReport_turns s t (k := r.kind) (by simp [hk]) r.after
      exact ⟨h.reports, h.fit⟩
  unfold State.takeReport
  dsimp only
  split
  · exact ⟨(idle_turns ..).reports.trans handled.1, (idle_turns ..).fit ∘ handled.2⟩
  · exact ⟨(evaluate_turns ..).reports.trans handled.1, (evaluate_turns ..).fit ∘ handled.2⟩

theorem takeReports_keeps (t : Trunk) (rs : List Report) : ∀ s : State,
    ((s.takeReports t rs).trunk t).reports = (s.trunk t).reports ∧
      ((s.trunk t).EmitterFit → ((s.takeReports t rs).trunk t).EmitterFit) := by
  induction rs with
  | nil => exact fun s => ⟨rfl, id⟩
  | cons r rs ih =>
    intro s
    have h := takeReport_keeps s t r
    exact ⟨(ih _).1.trans h.1, (ih _).2 ∘ h.2⟩

/-- Once a trunk is settled no report of it is outstanding. -/
theorem settleTrunk_keeps (s : State) (t : Trunk) : ((s.settleTrunk t).trunk t).reports = [] ∧
    ((s.trunk t).EmitterFit → ((s.settleTrunk t).trunk t).EmitterFit) := by
  unfold State.settleTrunk
  have h := takeReports_keeps t (s.trunk t).reports (s.modTrunk t fun x => { x with reports := [] })
  simp only [modTrunk_eq, trunk_setTrunk_self] at h ⊢
  exact h

/-! ## The trunk fits its charter after an evaluation (R89) -/

/-- The active lane and the target are members without bars, and differ. -/
def State.Suits (s : State) (t : Trunk) : Prop :=
  (∀ a ∈ (s.trunk t).sel.active, a ∈ s.members t ∧ s.barred a = false) ∧
  ∀ b ∈ (s.trunk t).sel.target, b ∈ s.members t ∧ s.barred b = false ∧ (s.trunk t).sel.active ≠ some b

/-- The trunk's hold names a member (R63). -/
def State.HoldsMember (s : State) (t : Trunk) : Prop := ∀ h ∈ (s.trunk t).hold, h.lane ∈ s.members t

theorem SelFrame.holdsMember {t : Trunk} {s r : State} (h : SelFrame t s r) (hs : s.HoldsMember t) : r.HoldsMember t := by
  intro g hg
  have hid := h.hold
  rw [holdId, holdId, hg] at hid
  obtain ⟨g', hg', e⟩ := Option.map_eq_some_iff.mp hid.symm
  rw [members_of_charter h.charter]
  have hl : g.lane = g'.lane := by simp only [Prod.mk.injEq] at e; exact e.2.2.symm
  exact hl ▸ hs g' hg'

/-- A lane a trunk may carry: a member without bars. -/
def State.Usable (s : State) (t : Trunk) (l : Lane) : Prop := l ∈ s.members t ∧ s.barred l = false

theorem usable_of_eligible {s : State} {t : Trunk} {l : Lane} (h : s.eligible t l = true) : s.Usable t l :=
  ⟨((eligible_iff ..).mp h).1, ((eligible_iff ..).mp h).2.1⟩

theorem SelFrame.usable {t : Trunk} {s r : State} (h : SelFrame t s r) (l : Lane) : r.Usable t l ↔ s.Usable t l := by
  simp [State.Usable, members_of_charter h.charter, State.barred, lane_of_lanes h.lanes]

/-- Once the dormant mark is written, an active hold's lane is usable (R62). -/
theorem markHold_active {s : State} {t : Trunk} (hs : s.HoldsMember t) (after : List Nat) {l : Lane}
    (hl : ((s.markHold t after).trunk t).activeHold = some l) : s.Usable t l := by
  unfold State.markHold at hl
  cases hh : (s.trunk t).hold with
  | none => simp [hh, TrunkState.activeHold] at hl
  | some h =>
    have key : ∀ d : Bool, d = (s.barred h.lane || decide ((s.lane h.lane).rx.grade = .failed)) →
        (if d then none else some h.lane) = some l → s.Usable t l := by
      intro d hd he
      cases d
      · simp only [Bool.false_eq_true, if_false, Option.some.injEq] at he
        subst he
        exact ⟨hs h hh, (Bool.or_eq_false_iff.mp hd.symm).1⟩
      · simp at he
    rw [hh] at hl
    dsimp only at hl
    split at hl
    · next hd => exact key h.dormant hd.symm (by simpa [TrunkState.activeHold, hh] using hl)
    · exact key _ rfl (by simpa [TrunkState.activeHold] using hl)

/-- The lane a decision desires is usable when an active hold's is (R76). -/
theorem decide_usable {s : State} {t : Trunk} (hs : ∀ l, (s.trunk t).activeHold = some l → s.Usable t l) (k : TriggerKind)
    {l : Lane} (hl : (s.decide t k).desired = some l) : s.Usable t l := by
  have top : s.top t = some l → s.Usable t l := fun h => usable_of_eligible (top_eligible h).1
  unfold State.decide State.decisionCase at hl
  dsimp only at hl
  split at hl
  · next h hh =>
    cases hl
    exact hs _ hh
  · split at hl
    · simp [desiredLane] at hl
    · split at hl
      · next a ha =>
        split at hl
        · next he =>
          have hactive : some a = some l → s.Usable t l := fun h => by cases h; exact usable_of_eligible he.1
          have hcand : ∀ c, s.restoreCandidate t a = some c → s.top t = some c := by
            intro c hc
            unfold State.restoreCandidate at hc
            split at hc
            · split at hc
              · next ht => split at hc <;> simp_all
              · simp at hc
            · simp at hc
          cases hc : s.restoreCandidate t a with
          | none => exact hactive (by simpa [hc, restoreAfter, desiredLane] using hl)
          | some c =>
            have hdue : ∀ r : RestoreTimer, r = .due c ∨ (∃ n, r = .running c n) →
                desiredLane r (.stay a (some c)) = some l → s.Usable t l := by
              rintro r (rfl | ⟨n, rfl⟩) h
              · exact top ((hcand c hc).trans h)
              · exact hactive h
            have hstart : ∀ w, startRestore w c = .due c ∨ ∃ n, startRestore w c = .running c n := by
              intro w
              unfold startRestore
              split
              · exact .inl rfl
              · exact .inr ⟨_, rfl⟩
            refine hdue _ ?_ (hc ▸ hl)
            cases (s.trunk t).sel.restore with
            | idle => exact hstart _
            | running c' n =>
              by_cases h : c' = c
              · exact .inr ⟨n, by simp [restoreAfter, h]⟩
              · simpa only [restoreAfter, h, if_false] using hstart _
            | due c' =>
              by_cases h : c' = c
              · exact .inl (by simp [restoreAfter, h])
              · simpa only [restoreAfter, h, if_false] using hstart _
        · exact top hl
      · exact top hl

/-- A closed hold-off gate means that the active lane is usable (R78). -/
theorem gate_usable {s : State} {t : Trunk} {k : TriggerKind} {a : Lane} (ha : (s.trunk t).sel.active = some a)
    (h : (s.decide t k).gateOpen = false) : s.Usable t a := by
  have happ : s.holdOffApplies t = true := by
    by_contra hn
    simp [State.decide, holdOffGate, hn] at h
  unfold State.holdOffApplies at happ
  split at happ
  · next a' _ _ ha' =>
    rw [ha] at ha'
    cases ha'
    simp only [Bool.and_eq_true, List.contains_eq_mem, decide_eq_true_eq, Bool.not_eq_true'] at happ
    exact happ.1
  · simp at happ

/-- A trunk that carries a usable lane and aims at none suits. -/
theorem suits_carrying {s : State} {t : Trunk} {a : Lane} (ha : (s.trunk t).sel.active = some a)
    (hb : (s.trunk t).sel.target = none) (hu : s.Usable t a) : s.Suits t :=
  ⟨by rw [ha]; rintro _ ⟨⟩; exact hu, by simp [hb]⟩

theorem suits_idle {s : State} {t : Trunk} (ha : (s.trunk t).sel.active = none) (hb : (s.trunk t).sel.target = none) :
    s.Suits t := ⟨by simp [ha], by simp [hb]⟩

theorem suits_switching {s : State} {t : Trunk} {a b : Lane} (ha : (s.trunk t).sel.active = some a)
    (hb : (s.trunk t).sel.target = some b) (hu : s.Usable t a) (hv : s.Usable t b) (hne : b ≠ a) : s.Suits t := by
  refine ⟨by rw [ha]; rintro _ ⟨⟩; exact hu, ?_⟩
  rw [ha, hb]
  rintro _ ⟨⟩
  exact ⟨hv.1, hv.2, by simpa using hne.symm⟩

section
variable (s : State) (t : Trunk) (after : List Nat)

theorem start_sel (d : Lane) : ((s.start t d after).trunk t).sel.mode = .carrying ∧
    ((s.start t d after).trunk t).sel.active = some d ∧ ((s.start t d after).trunk t).sel.target = none := by
  simp [State.start]

theorem drop_sel : ((s.drop t after).trunk t).sel.mode = .starved ∧ ((s.drop t after).trunk t).sel.active = none ∧
    ((s.drop t after).trunk t).sel.target = none := by
  simp [State.drop]

theorem immediateSwitch_sel (a d : Lane) (c : Cause) : ((s.immediateSwitch t a d c after).trunk t).sel.mode = .carrying ∧
    ((s.immediateSwitch t a d c after).trunk t).sel.active = some d ∧
    ((s.immediateSwitch t a d c after).trunk t).sel.target = none := by
  simp [State.immediateSwitch]

theorem aim_sel (d : Lane) (c : Cause) : ((s.aim t d c after).trunk t).sel.mode = .switching ∧
    ((s.aim t d c after).trunk t).sel.active = (s.trunk t).sel.active ∧
    ((s.aim t d c after).trunk t).sel.target = some d := by
  simp [State.aim]

theorem cancel_sel : ((s.cancel t).trunk t).sel.mode = .carrying ∧
    ((s.cancel t).trunk t).sel.active = (s.trunk t).sel.active ∧ ((s.cancel t).trunk t).sel.target = none := by
  simp [State.cancel]

end

/-- Step 7 of R80 leaves a trunk that is not DISABLED in such a state, carrying and aiming at usable lanes (R85, R86). -/
theorem act_suits {s : State} {t : Trunk} {k : TriggerKind} {d : Decision} (hd : (s.trunk t).sel.mode ≠ .disabled)
    (hs : (s.trunk t).sel.Shape) (hl : ∀ l, d.desired = some l → s.Usable t l)
    (hg : ∀ a, (s.trunk t).sel.active = some a → (s.trunk t).sel.mode = .carrying → d.gateOpen = false → s.Usable t a)
    (after : List Nat) :
    (s.act t k d after).Suits t ∧ ((s.act t k d after).trunk t).sel.mode ≠ .disabled := by
  obtain ⟨h1, h2, -⟩ := hs
  have kept : ∀ {r l}, SelFrame t s r → s.Usable t l → r.Usable t l := fun hr hu => (hr.usable _).mpr hu
  have dropped : (s.drop t after).Suits t ∧ ((s.drop t after).trunk t).sel.mode ≠ .disabled := by
    obtain ⟨em, ea, eb⟩ := drop_sel s t after
    exact ⟨suits_idle ea eb, by simp [em]⟩
  have switched : ∀ a l c, d.desired = some l → (s.immediateSwitch t a l c after).Suits t ∧
      ((s.immediateSwitch t a l c after).trunk t).sel.mode ≠ .disabled := by
    intro a l c hdes
    obtain ⟨em, ea, eb⟩ := immediateSwitch_sel s t after a l c
    exact ⟨suits_carrying ea eb (kept (immediateSwitch_frame ..) (hl l hdes)), by simp [em]⟩
  have aimed : ∀ a l c, (s.trunk t).sel.active = some a → d.desired = some l → l ≠ a → s.eligible t a = true →
      (s.aim t l c after).Suits t ∧ ((s.aim t l c after).trunk t).sel.mode ≠ .disabled := by
    intro a l c ha hdes hne he
    obtain ⟨em, ea, eb⟩ := aim_sel s t after l c
    exact ⟨suits_switching (ea.trans ha) eb (kept (aim_frame ..) (usable_of_eligible he)) (kept (aim_frame ..) (hl l hdes)) hne,
      by simp [em]⟩
  cases hm : (s.trunk t).sel.mode
  case disabled => exact absurd hm hd
  case starved =>
    have ha : (s.trunk t).sel.active = none := h1.mpr (.inr hm)
    have hb : (s.trunk t).sel.target = none := h2.mpr (by simp [hm])
    rw [act_starved hm]
    split
    · next l hdes =>
      obtain ⟨em, ea, eb⟩ := start_sel s t after l
      exact ⟨suits_carrying ea eb (kept (start_frame ..) (hl l hdes)), by simp [em]⟩
    · exact ⟨suits_idle ha hb, hd⟩
  all_goals
    obtain ⟨a, ha⟩ : ∃ a, (s.trunk t).sel.active = some a := by
      cases ha : (s.trunk t).sel.active with
      | some a => exact ⟨a, rfl⟩
      | none => simp [h1.mp ha |>.resolve_left hd] at hm
  case carrying =>
    have hb : (s.trunk t).sel.target = none := h2.mpr (by simp [hm])
    rw [act_carrying hm ha]
    split
    · next hdes => exact ⟨suits_carrying ha hb (hl a hdes), hd⟩
    · next hdes =>
      split
      · split
        · exact dropped
        · next l hl' =>
          have hne : l ≠ a := fun e => hdes (e ▸ hl')
          split
          · next he => exact aimed _ _ _ ha hl' hne he
          · exact switched _ _ _ hl'
      · next hgate => exact ⟨suits_carrying ha hb (hg a ha hm (by simpa using hgate)), hd⟩
  case switching =>
    rw [act_switching hm ha]
    split
    · exact dropped
    · next l hl' =>
      split
      · next he =>
        obtain ⟨em, ea, eb⟩ := cancel_sel s t
        exact ⟨suits_carrying (ea.trans ha) eb (kept (cancel_frame ..) (he ▸ hl l hl')), by simp [em]⟩
      · next hne =>
        split
        · next he =>
          split
          · next hb => exact ⟨suits_switching ha hb (usable_of_eligible he) (hl l hl') hne, hd⟩
          · exact aimed _ _ _ ha hl' hne he
        · exact switched _ _ _ hl'

/-- Steps 2 to 7 of R80 leave a trunk that is not DISABLED in a state that suits its charter and its bars. -/
theorem judge_suits {s : State} {t : Trunk} (hd : (s.trunk t).sel.mode ≠ .disabled) (hs : (s.trunk t).SelFit)
    (hh : s.HoldsMember t) (k : TriggerKind) (after : List Nat) :
    (s.judge t k after).Suits t ∧ ((s.judge t k after).trunk t).sel.mode ≠ .disabled := by
  unfold State.judge
  rw [if_neg hd]
  dsimp only
  have hf := markHold_frame s t after
  have hu : ∀ l, ((s.markHold t after).trunk t).activeHold = some l → (s.markHold t after).Usable t l :=
    fun l hl => (hf.usable l).mpr (markHold_active hh after hl)
  have hm : ((s.markHold t after).trunk t).sel.mode ≠ .disabled := by simpa using hd
  have hv : ((s.markHold t after).trunk t).SelFit := (markHold_turns s t after).sel hs
  generalize s.markHold t after = v at hu hm hv
  have hw := (timers_turns hm (v.decide t k).holdOff (v.decide t k).restore).sel hv
  have hwf := modSel_frame v t fun x => { x with restore := (v.decide t k).restore, holdOff := (v.decide t k).holdOff }
  refine act_suits (by simpa using hm) hw.1 (fun l hl => (hwf.usable l).mpr (decide_usable hu k hl)) ?_ after
  intro a ha _ hg
  exact (hwf.usable a).mpr (gate_usable (by simpa using ha) hg)

/-- A trunk is DISABLED after the install steps exactly when its charter is empty (R87). -/
theorem installSteps_mode (s : State) (t : Trunk) (after : List Nat) :
    ((s.installSteps t after).trunk t).sel.mode = .disabled ↔ s.members t = [] := by
  unfold State.installSteps
  dsimp only
  generalize hu : (s.modSel t fun x => { x with holdOff := .idle, restore := .idle }) = u
  have hm : u.members t = s.members t := by rw [← hu]; simp [State.members]
  rw [hm]
  by_cases he : s.members t = []
  · by_cases hd : (u.trunk t).sel.mode = .disabled <;> simp [he, hd, disable_mode]
  · by_cases hd : (u.trunk t).sel.mode = .disabled <;> simp [he, hd, State.enable]

/-- When a trunk is DISABLED after an evaluation: an install's makes it so exactly when the charter is empty, any other leaves
that as it is (R85, R87). -/
theorem evaluate_mode {s : State} {t : Trunk} (hs : (s.trunk t).SelFit) (hh : s.HoldsMember t) (k : TriggerKind)
    (after : List Nat) : ((s.evaluate t k after).trunk t).sel.mode = .disabled ↔
      if k = .install then s.members t = [] else (s.trunk t).sel.mode = .disabled := by
  have judged : ∀ {u : State}, (u.trunk t).SelFit → u.HoldsMember t →
      (((u.judge t k after).trunk t).sel.mode = .disabled ↔ (u.trunk t).sel.mode = .disabled) := by
    intro u hu hm
    by_cases hd : (u.trunk t).sel.mode = .disabled
    · simp [State.judge, hd]
    · exact iff_of_false (judge_suits hd hu hm k after).2 hd
  unfold State.evaluate
  split
  · rw [judged ((installSteps_turns ..).sel hs) ((installSteps_frame ..).holdsMember hh), installSteps_mode]
  · exact judged hs hh

/-- One evaluation leaves the trunk in a state that suits its charter and its bars (R89). -/
theorem evaluate_suits {s : State} {t : Trunk} (hs : (s.trunk t).SelFit) (hh : s.HoldsMember t) (k : TriggerKind)
    (after : List Nat) : (s.evaluate t k after).Suits t := by
  have judged : ∀ {u : State}, (u.trunk t).SelFit → u.HoldsMember t → (u.judge t k after).Suits t := by
    intro u hu hm
    by_cases hd : (u.trunk t).sel.mode = .disabled
    · obtain ⟨⟨h1, h2, -⟩, -⟩ := hu
      simpa [State.judge, hd] using suits_idle (h1.mpr (.inl hd)) (h2.mpr (by simp [hd]))
    · exact (judge_suits hd hu hm k after).1
  unfold State.evaluate
  split
  · exact judged ((installSteps_turns ..).sel hs) ((installSteps_frame ..).holdsMember hh)
  · exact judged hs hh

end Sys2Proof.Machine
end

