-- ==== Sys2Proof/Proofs/EmissionKeeps.lean ====
section
/-! SUPPORT. What an emission instant keeps of the records (R24, R29, R35 to R38, R41): its effects outside its trunk's record, composed
by the rules of `EmissionFrame`, and those on the record. -/

namespace Sys2Proof.Machine

/-! ## Outside the trunk's record -/

/-- A relation that each effect of an emission instant keeps: a trunk's record is replaced, a lane's status written or its buffer
purged, an event offered. -/
structure EmissionFrame (R : State → State → Prop) : Prop where
  refl : ∀ s, R s s
  trans : ∀ {s t u}, R s t → R t u → R s u
  trunk : ∀ s t x, R s (State.setTrunk s t x)
  status : ∀ (s : State) l a, R s (s.setLane l { s.lane l with status := a })
  purge : ∀ (s : State) l q, R s (s.setLane l { s.lane l with buffer := Machine.purge q (s.lane l).buffer })
  offer : ∀ s dest b after e, R s (State.offer s dest b after e)

namespace EmissionFrame

variable {R : State → State → Prop} (h : EmissionFrame R)
include h

theorem foldl {α : Type} {f : State → α → State} (hf : ∀ s a, R s (f s a)) : ∀ (as : List α) (s : State), R s (as.foldl f s)
  | [], s => h.refl s
  | a :: as, s => h.trans (hf s a) (foldl hf as _)

theorem recordStatuses (s : State) (st : List (Lane × AlignStatus)) : R s (s.recordStatuses st) := by
  refine h.foldl (fun u e => ?_) st s
  exact h.status u e.1 e.2

theorem gapRun (s : State) (t : Trunk) (gap : Bool) (q : SeqNo) (a : Option Lane) : R s (s.gapRun t gap q a) := by
  unfold State.gapRun State.modEm State.modTrunk
  dsimp only
  repeat' split
  · exact h.trans (h.trunk ..) (h.offer ..)
  · exact h.trans (h.trunk ..) (h.offer ..)
  · exact h.trunk ..

theorem emit (s : State) (t : Trunk) (b : LaneBlock) (c : Bool) (src : Source) (ls : List Lane) :
    R s (s.emit t b c src ls) := by
  unfold State.emit State.modEm State.modTrunk
  exact h.trans (h.trans (h.trunk ..) (h.foldl (fun s l => h.purge s l b.seq) ls _)) (h.gapRun ..)

theorem advanceAlignWait (s : State) (t : Trunk) : R s (s.advanceAlignWait t).1 := by
  unfold State.advanceAlignWait
  dsimp only
  split
  · exact h.trunk ..
  · exact h.refl s

theorem emitAfter (s : State) (t : Trunk) (f : Emitter → Emitter) (b : LaneBlock) (c : Bool) (src : Source) (ls : List Lane) :
    R s ((s.modEm t f).emit t b c src ls) := h.trans (h.trunk ..) (h.emit ..)

theorem emitCentring (s : State) (t : Trunk) : R s (s.emitCentring t).1 := by
  unfold State.emitCentring
  dsimp only
  refine h.trans ?_ (h.advanceAlignWait ..)
  split
  · exact h.trans (h.trunk ..) (h.emitAfter ..)
  · exact h.emitAfter ..

theorem emitMisaligned (s : State) (t : Trunk) (st : List (Lane × AlignStatus)) : R s (s.emitMisaligned t st).1 := by
  unfold State.emitMisaligned
  dsimp only
  refine h.trans ?_ (h.advanceAlignWait ..)
  split <;> exact h.emitAfter ..

theorem emitCarrying (s : State) (t : Trunk) (st : List (Lane × AlignStatus)) : R s (s.emitCarrying t st).1 := by
  unfold State.emitCarrying
  dsimp only
  split
  · dsimp only
    exact h.emitAfter ..
  · split
    · exact h.trans (h.emitAfter ..) (h.advanceAlignWait ..)
    · exact h.emitMisaligned ..

theorem judgeImmediate (s : State) (t : Trunk) : R s (s.judgeImmediate t).1 := by
  unfold State.judgeImmediate
  dsimp only
  split
  · exact h.trunk ..
  · exact h.refl s

/-- The emission steps keep every such relation. -/
theorem emissionSteps (s : State) (t : Trunk) : R s (s.emissionSteps t).1 := by
  unfold State.emissionSteps
  dsimp only
  refine h.trans (h.recordStatuses s (s.judged t)) ?_
  split
  · dsimp only
    exact h.emitAfter ..
  · refine h.trans (h.judgeImmediate (s.recordStatuses (s.judged t)) t) ?_
    dsimp only
    split
    · exact h.emitCentring ..
    · exact h.emitCarrying ..

end EmissionFrame

/-- An emission leaves the part outside its trunk as it is, but for offers, statuses, and buffers, which lose blocks at most. -/
structure Emission (s r : State) : Prop where
  device : SameDevice s r
  ports : r.ports = s.ports
  triggers : r.triggers = s.triggers
  buffers : ∀ l : Lane, (r.lane l).buffer.Sublist (s.lane l).buffer

theorem Emission.setLane {s : State} {l : Lane} {x : LaneState} (hx : x.buffer.Sublist (s.lane l).buffer) :
    Emission s (s.setLane l x) := by
  refine ⟨⟨rfl, rfl, rfl, rfl, rfl, rfl, rfl, rfl, rfl, rfl, rfl, rfl⟩, rfl, rfl, fun l' => ?_⟩
  rw [lane_setLane]
  split
  · next h => exact h ▸ hx
  · exact List.Sublist.refl _

theorem emission_frame : EmissionFrame Emission where
  refl s := ⟨SameDevice.refl s, rfl, rfl, fun _ => List.Sublist.refl _⟩
  trans h h' := ⟨h.device.trans h'.device, h'.ports.trans h.ports, h'.triggers.trans h.triggers,
    fun l => (h'.buffers l).trans (h.buffers l)⟩
  trunk _ _ _ := ⟨⟨rfl, rfl, rfl, rfl, rfl, rfl, rfl, rfl, rfl, rfl, rfl, rfl⟩, rfl, rfl, fun _ => List.Sublist.refl _⟩
  status _ _ _ := Emission.setLane (List.Sublist.refl _)
  purge _ _ _ := Emission.setLane List.filter_sublist
  offer _ _ _ _ _ := ⟨⟨rfl, rfl, rfl, rfl, rfl, rfl, rfl, rfl, rfl, rfl, rfl, rfl⟩, rfl, rfl, fun _ => List.Sublist.refl _⟩

theorem SelFrame.emission {t : Trunk} {s r : State} (h : SelFrame t s r) : Emission s r :=
  ⟨h.device, h.ports, h.triggers, fun l => by rw [lane_of_lanes h.lanes]⟩

theorem instant_emission (s : State) (t : Trunk) : Emission s (s.instant t) := by
  unfold State.instant
  exact emission_frame.trans (emission_frame.trans (emission_frame.emissionSteps s t) (emission_frame.trunk ..))
    (takeReports_frame ..).emission

/-! ## The emitter's record -/

/-- Only the emitter's record of trunk t differs; its law and the immediate pending flag are kept. -/
structure EmOnly (t : Trunk) (s r : State) : Prop where
  trunk : ∃ e, r.trunk t = { s.trunk t with em := e }
  pending : (r.trunk t).em.immediatePending = (s.trunk t).em.immediatePending
  fit : (s.trunk t).EmitterFit → (r.trunk t).EmitterFit

theorem EmOnly.trans {t : Trunk} {s u r : State} (h : EmOnly t s u) (h' : EmOnly t u r) : EmOnly t s r := by
  obtain ⟨e, he⟩ := h.trunk
  obtain ⟨e', he'⟩ := h'.trunk
  exact ⟨⟨e', by rw [he', he]⟩, h'.pending.trans h.pending, h'.fit ∘ h.fit⟩

theorem EmOnly.of_trunk {t : Trunk} {s r : State} (h : r.trunk t = s.trunk t) : EmOnly t s r :=
  ⟨⟨(s.trunk t).em, by rw [h]⟩, by rw [h], by rw [h]; exact id⟩

theorem EmOnly.modEm (s : State) (t : Trunk) (f : Emitter → Emitter)
    (hp : (f (s.trunk t).em).immediatePending = (s.trunk t).em.immediatePending := by rfl)
    (hc : (f (s.trunk t).em).counters = (s.trunk t).em.counters := by rfl)
    (hm : (s.trunk t).em.misalign < misalignLimit → (f (s.trunk t).em).misalign < misalignLimit := by exact id) :
    EmOnly t s (s.modEm t f) := by
  constructor <;> rw [modEm_eq, trunk_setTrunk_self]
  · exact ⟨_, rfl⟩
  · exact hp
  · rintro ⟨hb, hl, hh⟩
    exact ⟨hc ▸ hb, hm hl, hh⟩

theorem emit_balanced {c : TrunkCounters} (h : c.Balanced) (src : Source) : (c.emit src).Balanced := by
  unfold TrunkCounters.Balanced at *
  cases src <;> simp only [TrunkCounters.emit, h] <;> ring

theorem emit_emOnly (s : State) (t : Trunk) (b : LaneBlock) (c : Bool) (src : Source) (ls : List Lane) :
    EmOnly t s (s.emit t b c src ls) := by
  refine ⟨⟨_, emit_trunk ..⟩, by rw [emit_trunk], ?_⟩
  rw [emit_trunk]
  exact fun ⟨hb, hm, hl⟩ => ⟨emit_balanced hb src, hm, hl⟩

/-- Emitting with the misalignment run cleared first. -/
theorem aligned_emOnly (s : State) (t : Trunk) (b : LaneBlock) (c : Bool) (src : Source) (ls : List Lane) :
    EmOnly t s ((s.modEm t fun e => { e with misalign := 0 }).emit t b c src ls) :=
  (EmOnly.modEm s t _ rfl rfl fun _ => by simp [misalignLimit]).trans (emit_emOnly ..)

/-! ## The emission steps -/

/-- The emission of a trunk once a pending immediate switch has been judged: its emitter's record differs, and the align-wait count,
which advances by one at most, in SWITCHING, and is reported when it comes to 16 (R38); no judgement is reported. -/
structure Emits (t : Trunk) (s : State) (r : State × List ReportKind) : Prop where
  trunk : ∃ e w, r.1.trunk t = { s.trunk t with em := e, sel := { (s.trunk t).sel with alignWait := w } }
  wait : (r.1.trunk t).sel.alignWait = (s.trunk t).sel.alignWait ∨
    (s.trunk t).sel.mode = .switching ∧ (r.1.trunk t).sel.alignWait = (s.trunk t).sel.alignWait + 1 ∧
      ((r.1.trunk t).sel.alignWait = alignWaitLimit → .alignWaitExpiry ∈ r.2)
  pending : (r.1.trunk t).em.immediatePending = (s.trunk t).em.immediatePending
  fit : (s.trunk t).EmitterFit → (r.1.trunk t).EmitterFit
  judged : ∀ l d, .judgement l d ∉ r.2

theorem Emits.of_emOnly {t : Trunk} {s : State} {r : State × List ReportKind} (h : EmOnly t s r.1)
    (hj : ∀ l d, .judgement l d ∉ r.2) : Emits t s r := by
  obtain ⟨e, he⟩ := h.trunk
  exact ⟨⟨e, _, he⟩, .inl (by rw [he]), h.pending, h.fit, hj⟩

theorem Emits.after {t : Trunk} {s u : State} {r : State × List ReportKind} (h : EmOnly t s u) (h' : Emits t u r) :
    Emits t s r := by
  obtain ⟨e, he⟩ := h.trunk
  obtain ⟨e', w, he'⟩ := h'.trunk
  have hsel : (u.trunk t).sel = (s.trunk t).sel := by rw [he]
  exact ⟨⟨e', w, by rw [he', he]⟩, hsel ▸ h'.wait, h'.pending.trans h.pending, h'.fit ∘ h.fit, h'.judged⟩

theorem advanceAlignWait_emits (s : State) (t : Trunk) : Emits t s (s.advanceAlignWait t) := by
  unfold State.advanceAlignWait
  dsimp only
  split
  · next hm =>
    refine ⟨⟨(s.trunk t).em, (s.trunk t).sel.alignWait + 1, by simp⟩, .inr ⟨hm, by simp, fun h => ?_⟩, by simp, ?_, fun l d => ?_⟩
    · simpa using h
    · rw [modSel_eq, trunk_setTrunk_self]
      exact id
    · split <;> simp
  · exact Emits.of_emOnly (EmOnly.of_trunk rfl) (by simp)

theorem emitCentring_emits (s : State) (t : Trunk) : Emits t s (s.emitCentring t) := by
  unfold State.emitCentring
  dsimp only
  refine Emits.after ?_ (advanceAlignWait_emits ..)
  split
  · exact (EmOnly.modEm s t _ rfl rfl fun _ => by simp [misalignLimit]).trans ((EmOnly.modEm _ t _).trans (emit_emOnly ..))
  · exact aligned_emOnly ..

theorem emitMisaligned_emits (s : State) (t : Trunk) (st : List (Lane × AlignStatus)) :
    Emits t s (s.emitMisaligned t st) := by
  unfold State.emitMisaligned
  dsimp only
  generalize hb : (if (s.trunk t).charter.terms.mend then s.mendBlock t else none) = block
  generalize hu : (s.modEm t fun e => { e with
    misalign := if (s.trunk t).em.misalign + 1 = misalignLimit then 0 else e.misalign + 1 }) = u
  have h : EmOnly t s u := by
    rw [← hu]
    refine EmOnly.modEm s t _ rfl rfl fun hlt => ?_
    dsimp only
    split <;> simp only [misalignLimit] at * <;> omega
  have hemit : ∀ v, EmOnly t u v → Emits t s ((v.advanceAlignWait t).1,
      (if (s.trunk t).em.misalign + 1 = misalignLimit then
        [.alignmentLoss (s.trunk t).sel.active st] else []) ++ (v.advanceAlignWait t).2) := by
    intro v hv
    obtain ⟨h1, h2, h3, h4, h5⟩ := Emits.after (h.trans hv) (advanceAlignWait_emits v t)
    refine ⟨h1, h2.imp_right fun ⟨a, b, c⟩ => ⟨a, b, fun e => List.mem_append_right _ (c e)⟩, h3, h4, fun l d hm => ?_⟩
    rcases List.mem_append.mp hm with hm | hm
    · split at hm <;> simp at hm
    · exact h5 l d hm
  cases block with
  | some b => exact hemit _ (emit_emOnly ..)
  | none => exact hemit _ (emit_emOnly ..)

theorem emitCarrying_emits (s : State) (t : Trunk) (st : List (Lane × AlignStatus)) : Emits t s (s.emitCarrying t st) := by
  unfold State.emitCarrying
  dsimp only
  split
  · refine Emits.of_emOnly ?_ (by simp)
    dsimp only
    exact aligned_emOnly ..
  · split
    · exact Emits.after (aligned_emOnly ..) (advanceAlignWait_emits ..)
    · exact emitMisaligned_emits ..

/-- The emission steps of a trunk that is not DISABLED: as those of `Emits`, but that a pending immediate switch has been judged, first
of all reports, when its flag was set (R35). -/
structure Steps (t : Trunk) (s : State) (r : State × List ReportKind) : Prop where
  trunk : ∃ e w, r.1.trunk t = { s.trunk t with em := e, sel := { (s.trunk t).sel with alignWait := w } }
  wait : (r.1.trunk t).sel.alignWait = (s.trunk t).sel.alignWait ∨
    (s.trunk t).sel.mode = .switching ∧ (r.1.trunk t).sel.alignWait = (s.trunk t).sel.alignWait + 1 ∧
      ((r.1.trunk t).sel.alignWait = alignWaitLimit → .alignWaitExpiry ∈ r.2)
  fit : (s.trunk t).EmitterFit → (r.1.trunk t).EmitterFit
  judged : (∃ a d rest, r.2 = .judgement a d :: rest ∧ (∀ l d, .judgement l d ∉ rest) ∧
      (r.1.trunk t).em.immediatePending = false) ∨
    (∀ l d, .judgement l d ∉ r.2) ∧ (r.1.trunk t).em.immediatePending = (s.trunk t).em.immediatePending

theorem Emits.steps {t : Trunk} {s u : State} {r : State × List ReportKind} (h : u.trunk t = s.trunk t) (h' : Emits t u r) :
    Steps t s r := by
  obtain ⟨h1, h2, h3, h4, h5⟩ := Emits.after (EmOnly.of_trunk h) h'
  exact ⟨h1, h2, h4, .inr ⟨h5, h3⟩⟩

theorem emissionSteps_steps (s : State) (t : Trunk) : Steps t s (s.emissionSteps t) := by
  unfold State.emissionSteps
  have htrunk := recordStatuses_trunk t (s.judged t) s
  dsimp only
  generalize s.judged t = st at htrunk ⊢
  generalize s.recordStatuses st = u at htrunk ⊢
  split
  · refine Emits.steps htrunk (Emits.of_emOnly ?_ (by simp))
    dsimp only
    exact aligned_emOnly ..
  · unfold State.judgeImmediate
    have goes : ∀ v : State, Emits t v (if (v.trunk t).em.centring then v.emitCentring t else v.emitCarrying t st) := by
      intro v
      split
      · exact emitCentring_emits ..
      · exact emitCarrying_emits ..
    by_cases hi : (u.trunk t).em.immediatePending = true
    · simp only [hi, if_true]
      generalize hh : (!(u.trunk t).em.centring && ((u.trunk t).sel.active.bind (u.cursorBlock t)).isSome) = hitless
      generalize hv : (u.modEm t fun e => { e with immediatePending := false, centring := !hitless }) = v
      have hvt : v.trunk t = { s.trunk t with em := { (s.trunk t).em with immediatePending := false, centring := !hitless } } := by
        rw [← hv, modEm_eq, trunk_setTrunk_self, htrunk]
      have hg := goes v
      generalize (if (v.trunk t).em.centring = true then v.emitCentring t else v.emitCarrying t st) = r at hg ⊢
      obtain ⟨⟨e, w, h1⟩, h2, h3, h4, h5⟩ := hg
      rw [hvt] at h1 h2 h3 h4
      refine ⟨⟨e, w, h1⟩, h2.imp_right fun ⟨a, b, c⟩ => ⟨a, b, fun e => List.mem_append_right _ (c e)⟩, ?_,
        .inl ⟨_, _, _, rfl, h5, h3⟩⟩
      exact fun hf => h4 hf
    · simp only [hi, if_false, List.nil_append, Bool.false_eq_true]
      exact Emits.steps htrunk (goes u)

end Sys2Proof.Machine
end

