-- ==== Sys2Proof/Proofs/QuietSteps.lean ====
section
/-! SUPPORT. Changes that keep the laws record by record: of lanes (R4, R18, R24), of port records (R127, R154, R160) and of a trunk's
timers, and what is offered and sent beside them. -/

namespace Sys2Proof.Machine

/-! ## Quiet changes -/

/-- A lane's record is replaced by one that keeps the laws of lanes; its bars stay. -/
structure LaneState.Quiet (member : Prop) (x y : LaneState) : Prop where
  bars : y.bars = x.bars
  law : x.rx.Law → y.rx.Law
  grade : x.rx.Law → x.rx.GradeLaw → y.rx.GradeLaw
  length : x.buffer.length ≤ bufferLimit → y.buffer.length ≤ bufferLimit
  empty : ¬ member → x.buffer = [] → y.buffer = []

/-- A port's record is replaced by one that keeps the laws of ports, ATTACHED in the same session when it was ATTACHED, and not
ATTACHED when it was not. -/
structure PortState.Quiet (x y : PortState) : Prop where
  mode : y.mode = .attached ↔ x.mode = .attached
  session : x.mode = .attached → y.session = x.session
  queue : x.QueueLaw → y.QueueLaw
  lease : x.LeaseLaw → y.LeaseLaw

/-- Only TD and the timers of a trunk's record differ, and an IDLE timer stays IDLE. -/
def TrunkState.Quiet (x y : TrunkState) : Prop :=
  y = { x with em := { x.em with td := y.em.td }, sel := { x.sel with holdOff := y.sel.holdOff, restore := y.sel.restore } } ∧
    (x.sel.holdOff = .idle → y.sel.holdOff = .idle) ∧ (x.sel.restore = .idle → y.sel.restore = .idle)

/-- Lanes, ports and timers change quietly; offers, orphans, the timebase and the monitor may differ; triggers may be sent. -/
structure Quiet (s t : State) : Prop where
  lanes : ∀ l : Lane, (s.lane l).Quiet (s.trunkOf l ≠ none) (t.lane l)
  ports : ∀ p : Port, (s.port p).Quiet (t.port p)
  trunks : ∀ u : Trunk, (s.trunk u).Quiet (t.trunk u)
  sent : ∃ more, t.triggers = s.triggers ++ more
  pending : t.pending = s.pending

theorem LaneState.Quiet.refl (member : Prop) (x : LaneState) : x.Quiet member x := ⟨rfl, id, fun _ => id, id, fun _ => id⟩

theorem LaneState.Quiet.trans {member : Prop} {x y z : LaneState} (h : x.Quiet member y) (h' : y.Quiet member z) :
    x.Quiet member z :=
  ⟨h'.bars.trans h.bars, h'.law ∘ h.law, fun hl hg => h'.grade (h.law hl) (h.grade hl hg), h'.length ∘ h.length,
    fun hm => h'.empty hm ∘ h.empty hm⟩

theorem PortState.Quiet.refl (x : PortState) : x.Quiet x := ⟨Iff.rfl, fun _ => rfl, id, id⟩

theorem PortState.Quiet.trans {x y z : PortState} (h : x.Quiet y) (h' : y.Quiet z) : x.Quiet z :=
  ⟨h'.mode.trans h.mode, fun hm => (h'.session (h.mode.mpr hm)).trans (h.session hm), h'.queue ∘ h.queue, h'.lease ∘ h.lease⟩

theorem TrunkState.Quiet.refl (x : TrunkState) : x.Quiet x := ⟨rfl, id, id⟩

theorem TrunkState.Quiet.trans {x y z : TrunkState} (h : x.Quiet y) (h' : y.Quiet z) : x.Quiet z := by
  refine ⟨h'.1.trans ?_, h'.2.1 ∘ h.2.1, h'.2.2 ∘ h.2.2⟩
  rw [h.1]

theorem TrunkState.Quiet.charter {x y : TrunkState} (h : x.Quiet y) : y.charter = x.charter := by rw [h.1]

theorem trunkOf_congr {s t : State} (h : ∀ u : Trunk, (t.trunk u).charter = (s.trunk u).charter) (l : Lane) :
    t.trunkOf l = s.trunkOf l := by
  have hm : t.members = s.members := funext fun u => members_of_charter (h u)
  rw [State.trunkOf, State.trunkOf, hm]

theorem Quiet.refl (s : State) : Quiet s s :=
  ⟨fun _ => .refl .., fun _ => .refl _, fun _ => .refl _, ⟨[], by simp⟩, rfl⟩

theorem Quiet.trans {s t u : State} (h : Quiet s t) (h' : Quiet t u) : Quiet s u := by
  obtain ⟨m, hm⟩ := h.sent
  obtain ⟨m', hm'⟩ := h'.sent
  refine ⟨fun l => (h.lanes l).trans ?_, fun p => (h.ports p).trans (h'.ports p), fun k => (h.trunks k).trans (h'.trunks k),
    ⟨m ++ m', by rw [hm', hm, List.append_assoc]⟩, h'.pending.trans h.pending⟩
  rw [← trunkOf_congr fun k => (h.trunks k).charter]
  exact h'.lanes l

/-- Nothing differs but offers, orphans, the timebase and the monitor, and triggers sent. -/
theorem Quiet.of_eq {s t : State} (hl : t.lanes = s.lanes) (ht : t.trunks = s.trunks) (hp : t.ports = s.ports)
    (hs : ∃ more, t.triggers = s.triggers ++ more) (hq : t.pending = s.pending) : Quiet s t :=
  ⟨fun l => by rw [lane_of_lanes hl]; exact .refl .., fun p => by rw [port_of_ports hp]; exact .refl _,
    fun k => by rw [trunk_of_trunks ht]; exact .refl _, hs, hq⟩

theorem quiet_offer (s : State) (dest : List Port) (b : Block) (after : List Nat) (e : Event) :
    Quiet s (s.offer dest b after e) := .of_eq rfl rfl rfl ⟨[], by simp⟩ rfl

theorem quiet_send (s : State) (t : Trunk) (k : TriggerKind) (b : Block) (after : List Nat) :
    Quiet s (s.send t k b after) := .of_eq rfl rfl rfl ⟨_, rfl⟩ rfl

theorem quiet_sendForLane (s : State) (l : Lane) (k : TriggerKind) (b : Block) (after : List Nat) :
    Quiet s (s.sendForLane l k b after) := by
  unfold State.sendForLane
  split
  · exact quiet_send ..
  · exact .refl s

theorem quiet_setLane {s : State} {l : Lane} {x : LaneState} (h : (s.lane l).Quiet (s.trunkOf l ≠ none) x) :
    Quiet s (s.setLane l x) := by
  refine ⟨fun k => ?_, fun _ => .refl _, fun _ => .refl _, ⟨[], by simp⟩, rfl⟩
  rw [lane_setLane]
  split
  · next hk => exact hk ▸ h
  · exact .refl ..

theorem quiet_setPort {s : State} {p : Port} {x : PortState} (h : (s.port p).Quiet x) : Quiet s (s.setPort p x) := by
  refine ⟨fun _ => .refl .., fun k => ?_, fun _ => .refl _, ⟨[], by simp⟩, rfl⟩
  rw [port_setPort]
  split
  · next hk => exact hk ▸ h
  · exact .refl _

theorem quiet_setTrunk {s : State} {t : Trunk} {x : TrunkState} (h : (s.trunk t).Quiet x) : Quiet s (s.setTrunk t x) := by
  refine ⟨fun _ => .refl .., fun _ => .refl _, fun k => ?_, ⟨[], by simp⟩, rfl⟩
  rw [trunk_setTrunk]
  split
  · next hk => exact hk ▸ h
  · exact .refl _

/-- A fold of quiet changes is quiet. -/
theorem quiet_foldl {α : Type} {f : State → α → State} (h : ∀ s a, Quiet s (f s a)) : ∀ (as : List α) (s : State),
    Quiet s (as.foldl f s)
  | [], s => .refl s
  | a :: as, s => (h s a).trans (quiet_foldl h as _)

/-! ## Receivers -/

theorem Receiver.derived_grade (x : Receiver) (g : Grade) : ({ x with grade := g } : Receiver).derived = x.derived := rfl

/-- The grade is no part of what `Receiver.Law` reads. -/
theorem law_grade {x : Receiver} (h : x.Law) (g : Grade) : ({ x with grade := g } : Receiver).Law := h

/-- A receiver's record is replaced by one that keeps its law, and its grade is recomputed: one lane changes quietly. -/
theorem quiet_regraded {s : State} {l : Lane} {y : LaneState} (hb : y.bars = (s.lane l).bars)
    (hlaw : (s.lane l).rx.Law → y.rx.Law) (hlen : (s.lane l).buffer.length ≤ bufferLimit → y.buffer.length ≤ bufferLimit)
    (hemp : (s.lane l).buffer = [] → y.buffer = []) (after : List Nat) :
    Quiet s ((s.setLane l y).regrade l after) := by
  by_cases hg : y.rx.derived = y.rx.grade
  · rw [regrade_same (by simpa using hg)]
    exact quiet_setLane ⟨hb, hlaw, fun _ _ _ => hg.symm, hlen, fun _ => hemp⟩
  · rw [regrade_change (by simpa using hg), lane_setLane_self, setLane_setLane]
    refine Quiet.trans (Quiet.trans (quiet_setLane ?_) (quiet_sendForLane ..)) (quiet_offer ..)
    exact ⟨hb, fun h => law_grade (hlaw h) _, fun _ _ _ => rfl, hlen, fun _ => hemp⟩

theorem loseLock_law {x : Receiver} (h : x.Law) {entered : LockState} (he : entered = .hunt ∨ entered = .dark) :
    (x.loseLock entered).Law := by
  obtain ⟨-, -, -, -, -, -, -, -, h1, h2, h3, -, -⟩ := h
  rcases he with rfl | rfl <;> simp [Receiver.Law, Receiver.loseLock, windowLength, h1, h2, h3]

theorem quiet_loseLock (s : State) (l : Lane) {entered : LockState} (he : entered = .hunt ∨ entered = .dark)
    (after : List Nat) : Quiet s (s.loseLock l entered after) := by
  rw [loseLock_eq]
  exact quiet_regraded (y := { s.lane l with buffer := [], status := .empty, rx := (s.lane l).rx.loseLock entered }) rfl
    (fun h => loseLock_law h he) (fun _ => Nat.zero_le _) (fun _ => rfl) after

theorem locks_law {x : Receiver} (h : x.Law) {lock : LockState} {misses : Nat}
    (hl : lock = .locked ∧ misses = 0 ∨ lock = .coast ∧ 1 ≤ misses ∧ misses ≤ 3) : (x.locks lock misses).Law := by
  obtain ⟨-, -, -, -, ha, hp, hc, hw, h1, h2, h3, hn, -⟩ := h
  rcases hl with ⟨rfl, rfl⟩ | ⟨rfl, hm, hm'⟩
  · exact ⟨by simp [Receiver.locks], by simp [Receiver.locks], by simp [Receiver.locks], by simp [Receiver.locks], ha, hp, hc, hw,
      h1, h2, h3, hn, fun _ => .inl rfl⟩
  · exact ⟨by simp [Receiver.locks], by simp [Receiver.locks], hm', by simp [Receiver.locks]; omega, ha, hp, hc, hw,
      h1, h2, h3, hn, fun _ => .inr rfl⟩

theorem quiet_holdLock (s : State) (l : Lane) {lock : LockState} {misses : Nat}
    (hl : (s.lane l).rx.Law → lock = .locked ∧ misses = 0 ∨ lock = .coast ∧ 1 ≤ misses ∧ misses ≤ 3) :
    Quiet s (s.holdLock l lock misses) := by
  rw [holdLock_eq]
  exact quiet_regraded (y := { s.lane l with rx := (s.lane l).rx.locks lock misses }) rfl
    (fun h => locks_law h (hl h)) id id []

/-- A receiver's record is replaced where no grade changes. -/
theorem quiet_modRx {s : State} {l : Lane} {f : Receiver → Receiver} (hlaw : (s.lane l).rx.Law → (f (s.lane l).rx).Law)
    (hgrade : (s.lane l).rx.Law → (s.lane l).rx.GradeLaw → (f (s.lane l).rx).GradeLaw) : Quiet s (s.modRx l f) :=
  quiet_setLane ⟨rfl, hlaw, hgrade, id, fun _ => id⟩

theorem stepped_law {x : Receiver} (h : x.Law) (d : LaneStep) : (x.stepped d).Law := by
  obtain ⟨hs, hs', hm, hm', ha, hp, hc, hw, h1, h2, h3, hn, ho⟩ := h
  have hn' : (x.due.erase d).Nodup := hn.erase d
  cases d with
  | fillAlarm =>
    exact ⟨hs, hs', hm, hm', ha, hp, hc, fun e => (List.mem_erase_of_ne (by simp)).mpr (hw e), h1, h2, h3, hn', ho⟩
  | degradeDeclared =>
    exact ⟨hs, hs', hm, hm', ha, hp, hc, fun e => (List.mem_erase_of_ne (by simp)).mpr (hw e), h1, h2, h3, hn', ho⟩
  | windowEnd =>
    exact ⟨hs, hs', hm, hm', ha, Nat.zero_le _, Nat.zero_le _, fun e => by simp [Receiver.stepped, Receiver.apply, windowLength] at e,
      h1, h2, h3, hn', ho⟩

theorem quiet_takeStep (s : State) (l : Lane) (d : LaneStep) : Quiet s (s.takeStep l d) := by
  by_cases hd : d ∈ (s.lane l).rx.due
  · rw [takeStep_due hd]
    dsimp only
    split
    · exact quiet_regraded (y := { s.lane l with rx := (s.lane l).rx.stepped d }) rfl (fun h => stepped_law h d) id id []
    · next hne => exact quiet_setLane ⟨rfl, fun h => stepped_law h d, fun _ _ h => absurd h hne, id, fun _ => id⟩
  · rw [takeStep_not_due hd]
    exact .refl s

theorem quiet_settleLane (s : State) (l : Lane) : Quiet s (s.settleLane l) :=
  ((quiet_takeStep s l _).trans (quiet_takeStep _ l _)).trans (quiet_takeStep _ l _)

@[simp] theorem regrade_due (s : State) (l : Lane) (after : List Nat) :
    ((s.regrade l after).lane l).rx.due = (s.lane l).rx.due := by
  by_cases h : (s.lane l).rx.derived = (s.lane l).rx.grade
  · rw [regrade_same h]
  · rw [regrade_change h]
    simp only [offer_eq, tick_lane, offerHere_lane, State.sendForLane]
    split <;> simp

theorem takeStep_dues (s : State) (l : Lane) (d : LaneStep) :
    ((s.takeStep l d).lane l).rx.due = (s.lane l).rx.due.erase d := by
  by_cases hd : d ∈ (s.lane l).rx.due
  · rw [takeStep_due hd]
    dsimp only
    split <;> simp [Receiver.stepped]
  · rw [takeStep_not_due hd, List.erase_of_not_mem hd]

/-- Once a lane is settled no step of its latest block position is due. -/
theorem settleLane_due {s : State} {l : Lane} (h : (s.lane l).rx.Law) : ((s.settleLane l).lane l).rx.due = [] := by
  have hn : (s.lane l).rx.due.Nodup := h.2.2.2.2.2.2.2.2.2.2.2.1
  unfold State.settleLane
  rw [takeStep_dues, takeStep_dues, takeStep_dues]
  refine List.eq_nil_iff_forall_not_mem.mpr fun d hd => ?_
  have h1 := (List.Nodup.mem_erase_iff ((hn.erase _).erase _)).mp hd
  have h2 := (List.Nodup.mem_erase_iff (hn.erase _)).mp h1.2
  have h3 := (List.Nodup.mem_erase_iff hn).mp h2.2
  cases d
  · exact h3.1 rfl
  · exact h2.1 rfl
  · exact h1.1 rfl

/-! ## Block positions -/

/-- What a block position leaves of a receiver keeps its law, no step having been due: its window and alarm run advance, one miss at
most is counted, its thresholds and lock state stay (R12 to R17). -/
theorem closePosition_law {x y : Receiver} (h : x.Law) (hdue : x.due = [])
    (hy : y.lock = x.lock ∧ y.syncCount = x.syncCount ∧ y.missCount = x.missCount ∧ y.degradeSet = x.degradeSet ∧
      y.degradeClear = x.degradeClear ∧ y.windowPos = x.windowPos ∧ y.windowCount ≤ x.windowCount + 1 ∧ y.alarmRun ≤ 7)
    (changes : Bool) : (y.closePosition changes).Law := by
  obtain ⟨hs, hs', hm, hm', ha, hp, hc, hw, h1, h2, h3, hn, -⟩ := h
  obtain ⟨e1, e2, e3, e4, e5, e6, e7, e8⟩ := hy
  have hlt : x.windowPos < windowLength := by
    refine Nat.lt_of_le_of_ne hp fun e => ?_
    simpa [hdue] using hw e
  rw [closePosition_eq]
  refine ⟨by simpa [e2] using hs, by simpa [e1, e2] using hs', by simpa [e3] using hm, by simpa [e1, e3] using hm', e8, ?_, ?_, ?_,
    by simpa [e4] using h1, by simpa [e4] using h2, by simpa [e4, e5] using h3, ?_, by simp⟩
  · simp only [e6]; omega
  · simp only [e6]; omega
  · simp only [e6, windowLength]
    intro e
    simp [e]
  · dsimp only
    split <;> split <;> split <;> decide

/-- A block position leaves the grade law: neither lock state, fill alarm nor degrade have changed, and no step was due before. -/
theorem closePosition_grade {x y : Receiver} (h : x.GradeLaw) (hdue : x.due = [])
    (hy : y.grade = x.grade ∧ y.lock = x.lock ∧ y.fillAlarm = x.fillAlarm ∧ y.degrade = x.degrade) (changes : Bool) :
    (y.closePosition changes).GradeLaw := by
  obtain ⟨e1, e2, e3, e4⟩ := hy
  intro _
  rw [closePosition_eq]
  simpa [e1, e2, e3, e4] using h hdue

theorem alarmRunAfter_le (a f : Bool) {run : Nat} (h : run ≤ 7) : (alarmRunAfter a f run).1 ≤ 7 := by
  unfold alarmRunAfter fillAlarmRun
  split_ifs <;> dsimp only <;> omega

theorem appendBlock_length {buffer : List LaneBlock} (h : buffer.length ≤ bufferLimit) (b : LaneBlock) :
    (appendBlock buffer b).1.length ≤ bufferLimit := by
  unfold appendBlock bufferLimit at *
  split
  · simp
  · split_ifs <;> simp <;> omega

/-- A lane that has changed quietly changes further, as a whole quietly. -/
theorem Quiet.setLane {s u : State} (h : Quiet s u) {l : Lane} {x : LaneState}
    (hx : (s.lane l).Quiet (s.trunkOf l ≠ none) x) : Quiet s (u.setLane l x) := by
  refine ⟨fun k => ?_, h.ports, h.trunks, h.sent, h.pending⟩
  rw [lane_setLane]
  split
  · next hk => exact hk ▸ hx
  · exact h.lanes k

/-- A block received when the steps of the position before have been taken is processed quietly (R11 to R16, R25). -/
theorem quiet_passBlock {s u : State} (hs : Quiet s u) {l : Lane} (hdue : (s.lane l).rx.Law → (u.lane l).rx.due = [])
    (b : LaneBlock) : Quiet s (u.passBlock l b) := by
  have hl := hs.lanes l
  have hmem : u.trunkOf l = s.trunkOf l := trunkOf_congr (fun k => (hs.trunks k).charter) l
  rw [passBlock_eq]
  refine hs.setLane ⟨hl.bars, fun h => ?_, fun h hg => ?_, fun h => ?_, fun hm he => ?_⟩
  · obtain ⟨-, -, -, -, ha, -⟩ := hl.law h
    change (Receiver.closePosition _ _).Law
    refine closePosition_law (hl.law h) (hdue h) ?_ _
    exact ⟨rfl, rfl, rfl, rfl, rfl, rfl, Nat.le_succ _, alarmRunAfter_le _ _ ha⟩
  · change (Receiver.closePosition _ _).GradeLaw
    refine closePosition_grade (hl.grade h hg) (hdue h) ?_ _
    exact ⟨rfl, rfl, rfl, rfl⟩
  · have hkept : (if (u.lane l).rx.isBreak b.seq then [] else (u.lane l).buffer).length ≤ bufferLimit := by
      split
      · exact Nat.zero_le _
      · exact hl.length h
    simp only [State.passedLane, State.heldAfter]
    split
    · exact hkept
    · exact appendBlock_length hkept b
  · simp only [State.passedLane, State.heldAfter, hmem, not_not.mp hm, if_true, hl.empty hm he, ite_self]

theorem quiet_failBlock {s u : State} (hs : Quiet s u) {l : Lane} (hdue : (s.lane l).rx.Law → (u.lane l).rx.due = []) :
    Quiet s (u.failBlock l) := by
  have hl := hs.lanes l
  rw [failBlock_eq]
  refine hs.setLane ⟨hl.bars, fun h => ?_, fun h hg => ?_, hl.length, hl.empty⟩
  · obtain ⟨-, -, -, -, ha, -⟩ := hl.law h
    exact closePosition_law (y := (u.lane l).rx.failed) (hl.law h) (hdue h) ⟨rfl, rfl, rfl, rfl, rfl, rfl, Nat.le_refl _, ha⟩ false
  · exact closePosition_grade (y := (u.lane l).rx.failed) (hl.grade h hg) (hdue h) ⟨rfl, rfl, rfl, rfl⟩ false

/-! ## Receiver events -/

/-- What a receiver event does quietly on a settled lane it does quietly (R22, R23). -/
theorem quiet_receiverEvent {s : State} {l : Lane} {f : State → State}
    (h : ∀ u : State, Quiet s u → ((s.lane l).rx.Law → (u.lane l).rx.due = []) → Quiet s (f u)) :
    Quiet s (s.receiverEvent l f) := by
  unfold State.receiverEvent
  split
  · exact h _ (quiet_settleLane s l) settleLane_due
  · exact .refl s

theorem quiet_goDark (s : State) (l : Lane) : Quiet s (s.goDark l) := by
  unfold State.goDark
  split
  · exact .refl s
  · exact quiet_loseLock s l (.inr rfl) []

/-- A receiver in HUNT that finds the sync word enters CONFIRM (R7). -/
theorem quiet_confirm {s : State} {l : Lane} (hl : (s.lane l).rx.lock = .hunt) :
    Quiet s (s.modRx l fun x => { x with lock := .confirm, syncCount := 1 }) := by
  refine quiet_modRx (fun h => ?_) fun _ hg hdue => ?_
  · obtain ⟨hs, hs', hm, hm', ha, hp, hc, hw, h1, h2, h3, hn, ho⟩ := h
    simp only [hl, reduceCtorEq, iff_false, not_not, or_self, imp_false] at hm' ho
    exact ⟨by simp, by simp, hm, by simp [hm'], ha, hp, hc, hw, h1, h2, h3, hn, by simp [ho]⟩
  · have := hg hdue
    simpa [gradeOf, hl] using this

/-- The judgement of the sync word at an expected position (R8, R9). -/
theorem quiet_judgeSync (s : State) (l : Lane) (present : Bool) : Quiet s (s.judgeSync l present) := by
  unfold State.judgeSync
  dsimp only
  split
  · next hl =>
    split
    · split
      · refine quiet_modRx (fun h => ?_) fun _ hg => hg
        obtain ⟨hs, hs', h⟩ := h
        exact ⟨Nat.le_refl _, fun e => absurd hl e, h⟩
      · exact quiet_holdLock s l fun _ => .inl ⟨rfl, rfl⟩
    · exact quiet_loseLock s l (.inl rfl) []
  · split
    · exact quiet_holdLock s l fun _ => .inl ⟨rfl, rfl⟩
    · exact quiet_holdLock s l fun _ => .inr ⟨rfl, by omega, by omega⟩
  · split
    · exact quiet_holdLock s l fun _ => .inl ⟨rfl, rfl⟩
    · split
      · exact quiet_loseLock s l (.inl rfl) []
      · next hne =>
        refine quiet_holdLock s l fun ⟨_, _, hm, _⟩ => .inr ⟨rfl, by omega, ?_⟩
        omega
  · exact .refl s
  · exact .refl s

/-- The nine lane events change their lane quietly. -/
theorem exec_lane_quiet {s r : State} {i : Instr} {l : Lane}
    (hi : i = .clockLoss l ∨ i = .stuckData l ∨ (∃ c, i = .dataTransition l c) ∨ (∃ w, i = .syncMatch l w) ∨
      (∃ w, i = .expectedPosition l w) ∨ (∃ h d c, i = .blockPosition l h d c) ∨ i = .fillAlarm l ∨
      i = .degradeDeclared l ∨ i = .degradeWindowEnd l) (h : exec i s = .next r) : Quiet s r := by
  have event : ∀ f, exec i s = .next (s.receiverEvent l f) →
      (∀ u : State, Quiet s u → ((s.lane l).rx.Law → (u.lane l).rx.due = []) → Quiet s (f u)) → Quiet s r := by
    intro f he hf
    cases h.symm.trans he
    exact quiet_receiverEvent hf
  rcases hi with rfl | rfl | ⟨c, rfl⟩ | ⟨w, rfl⟩ | ⟨w, rfl⟩ | ⟨hd, d, c, rfl⟩ | rfl | rfl | rfl
  · exact event _ rfl fun u hu _ => hu.trans (quiet_goDark u l)
  · exact event _ rfl fun u hu _ => hu.trans (quiet_goDark u l)
  · refine event _ rfl fun u hu _ => hu.trans ?_
    split
    · exact quiet_loseLock u l (.inl rfl) []
    · exact .refl u
  · refine event _ rfl fun u hu _ => hu.trans ?_
    split
    · next hl => exact quiet_confirm hl.1
    · exact .refl u
  · refine event _ rfl fun u hu _ => hu.trans ?_
    split
    · exact .refl u
    · exact quiet_judgeSync ..
  · refine event _ rfl fun u hu hdue => ?_
    split
    · split
      · exact quiet_passBlock hu hdue _
      · exact quiet_failBlock hu hdue
    · exact hu
  all_goals
    cases h
    split
  · exact quiet_takeStep ..
  · exact .refl s
  · exact quiet_takeStep ..
  · exact .refl s
  · exact (quiet_takeStep ..).trans (quiet_takeStep ..)
  · exact .refl s

/-! ## Port records -/

/-- A port record that keeps mode, session, queue and lease is quiet. -/
theorem PortState.Quiet.of_eq {x y : PortState} (hm : y.mode = x.mode) (hs : y.session = x.session) (hq : y.queue = x.queue)
    (hr : y.leaseRemaining = x.leaseRemaining) (hl : y.leaseLength = x.leaseLength) : x.Quiet y := by
  refine ⟨by rw [hm], fun _ => hs, fun h => ?_, fun h => ?_⟩
  · simpa only [PortState.QueueLaw, hm, hq] using h
  · simpa only [PortState.LeaseLaw, hm, hr, hl, hs] using h

theorem leaseRestarted_quiet (x : PortState) : x.Quiet x.leaseRestarted := by
  refine ⟨Iff.rfl, fun _ => rfl, id, fun ⟨h1, h2, h3⟩ => ⟨fun hm => ?_, ?_, h3⟩⟩
  · have hm' : x.mode ≠ .attached := hm
    simpa [PortState.leaseRestarted, hm'] using h1 hm'
  · simp only [PortState.leaseRestarted]
    split
    · exact Nat.le_refl _
    · exact h2

/-- The lease of an ATTACHED port at the end of a block period (R137, R166). -/
theorem count_quiet (x : PortState) : x.Quiet x.count := by
  unfold PortState.count
  split
  · next hm => exact ⟨Iff.rfl, fun _ => rfl, id, fun ⟨_, h2, h3⟩ => ⟨fun h => absurd hm h, (Nat.sub_le _ _).trans h2, h3⟩⟩
  · exact .refl x

/-- A queue from which the oldest entry is removed keeps its law. -/
theorem queueLaw_drop {x y : PortState} (hx : x.QueueLaw) (hm : y.mode = x.mode) (hq : y.queue = x.queue.drop 1) : y.QueueLaw := by
  obtain ⟨h1, -, h3⟩ := hx
  have hlen : y.queue.length = x.queue.length - 1 := by rw [hq, List.length_drop]
  refine ⟨by omega, fun h => ?_, fun h => by rw [hq, h3 (hm ▸ h)]; rfl⟩
  simp only [queueLimit] at *
  omega

theorem clockOctet_quiet (x : PortState) (f : Transaction) : x.Quiet (x.clockOctet f).2 := by
  unfold PortState.clockOctet
  dsimp only
  repeat' split
  all_goals first
    | exact .of_eq rfl rfl rfl rfl rfl
    | exact ⟨Iff.rfl, fun _ => rfl, fun h => queueLaw_drop h rfl rfl, id⟩

/-- A LOST marker that loses another event stays one. -/
theorem loseAnother_isLost (e : Entry) (time : Count) : (e.loseAnother time).isLost = e.isLost := by
  cases e <;> rfl

/-- An event that reaches the queue of a port that is not OFFLINE keeps the law of the queue (R154, R160). -/
theorem enqueue_quiet {x : PortState} (hm : x.mode ≠ .offline) (e : Event) (time : Count) : x.Quiet (x.enqueue e time) := by
  unfold PortState.enqueue
  dsimp only
  split
  · next h =>
    refine ⟨Iff.rfl, fun _ => rfl, fun _ => ⟨?_, fun he => ?_, fun ho => absurd ho hm⟩, id⟩
    · simp only [List.length_append, List.length_singleton]; omega
    · simp only [List.length_append, List.length_singleton] at he; omega
  · split
    · next hlost =>
      refine ⟨Iff.rfl, fun _ => rfl, fun ⟨h1, _, _⟩ => ⟨?_, fun _ => ?_, fun ho => absurd ho hm⟩, id⟩
      · cases hq : x.queue.getLast? with
        | none => simp [hq] at hlost
        | some m =>
          have hpos : x.queue ≠ [] := by rintro h0; simp [h0] at hq
          have := List.length_pos_iff.mpr hpos
          simp only [Option.map_some, Option.toList_some, List.length_append, List.length_dropLast, List.length_singleton]
          omega
      · cases hq : x.queue.getLast? with
        | none => simp [hq] at hlost
        | some m =>
          rw [hq] at hlost
          simpa [loseAnother_isLost] using hlost
    · split
      · refine ⟨Iff.rfl, fun _ => rfl, fun _ => ⟨?_, fun _ => ?_, fun ho => absurd ho hm⟩, id⟩
        · simp only [List.length_append, List.length_singleton]; omega
        · simp [Entry.isLost]
      · exact .refl x

/-- A reset of the port by its pin, or by the device, of a port that is not ATTACHED. -/
theorem resetByPin_quiet {x : PortState} (hm : x.mode ≠ .attached) : x.Quiet x.resetByPin :=
  ⟨iff_of_false (by simp [PortState.resetByPin]) hm, fun h => absurd h hm,
    fun _ => ⟨Nat.zero_le _, fun h => by simp [PortState.resetByPin, queueLimit] at h, fun _ => rfl⟩,
    fun _ => ⟨fun _ => rfl, Nat.zero_le _, by simp [PortState.resetByPin]⟩⟩

theorem hold_quiet (x : PortState) : x.Quiet x.hold :=
  ⟨Iff.rfl, fun _ => rfl, fun _ => ⟨Nat.zero_le _, fun h => by simp [PortState.hold, queueLimit] at h, fun _ => rfl⟩, id⟩

end Sys2Proof.Machine
end

