-- ==== Sys2Proof/Proofs/Moves.lean ====
section
/-! SUPPORT. Every step but the release of RSTn is a chain of moves: each changes the records so much that what the laws say of
several records at once holds again after it. -/

namespace Sys2Proof.Machine

/-! ## The moves -/

/-- What ProposalLaw says of one proposal (R124). -/
def State.Pursues (s : State) (q : Proposal) : Prop :=
  PortSet.has q.concurred q.proposer = true ∧ q.concurred ≠ q.required ∧
    ∀ p : Port, (PortSet.has q.concurred p = true → PortSet.has q.required p = true) ∧
      (PortSet.has q.required p = true → (s.port p).mode = .attached)

/-- What MembershipLaw says of charter terms that trunk t may be given: they are valid, and no other trunk names their lanes (R46,
R48). -/
def State.Grants (s : State) (t : Trunk) (terms : CharterTerms) : Prop :=
  terms.Law ∧ ∀ u ≠ t, ∀ l ∈ terms.members, l ∉ s.named u

/-- One move of the part. -/
inductive Move : State → State → Prop
  /-- Records change quietly. -/
  | quiet {s t} (h : Quiet s t) : Move s t
  /-- A session opens (R136). -/
  | attach (s p lease) (hm : (s.port p).mode ≠ .attached) (hl : lease ≠ 0) :
      Move s (s.setPort p ((s.port p).attached lease))
  /-- A port leaves ATTACHED, what it offers of that has been offered, and its departure is taken (R138 to R141). -/
  | leave (s p x u cause) (hm : x.mode ≠ .attached) (hq : (s.port p).QueueLaw → x.QueueLaw)
      (hl : (s.port p).LeaseLaw → x.LeaseLaw) (hu : Quiet (s.setPort p x) u) :
      Move s (u.depart p cause (u.handOn (.portController p) []))
  /-- A lane's bars change and the trigger is sent (R64 to R66). -/
  | bars (s l b after) : Move s ((s.setLane l { s.lane l with bars := b }).sendForLane l .bar .registry after)
  /-- A ballot slot of an ATTACHED port is set to a member or to none (R57). -/
  | ballot (s p t choice after after') (hp : (s.port p).mode = .attached) (hc : ∀ l ∈ choice, l ∈ s.members t) :
      Move s (((s.setTrunk t { s.trunk t with ballots := (s.trunk t).ballots.set p.val choice }).send t .ballot .registry
        after).refavour t after')
  /-- A hold is placed, replaced or released (R60, R61). -/
  | hold (s t h) (hh : ∀ g ∈ h, g.lane ∈ s.members t ∧ (s.port g.owner).mode = .attached ∧ g.session = (s.port g.owner).session) :
      Move s (s.setTrunk t { s.trunk t with hold := h })
  /-- A charter is installed (R49, R117). -/
  | install (s t terms number p after) (h : s.MembershipLaw → s.Grants t terms) : Move s (s.install t terms number p after)
  /-- A trunk's proposal is opened, joined or closed (R116, R118, R119). -/
  | proposal (s t o) (hm : s.MembershipLaw → ∀ q ∈ o, s.Grants t q.terms) (hp : s.ProposalLaw → ∀ q ∈ o, s.Pursues q) :
      Move s (s.setTrunk t { s.trunk t with proposal := o })
  /-- A trigger is evaluated and is outstanding no more (R74). -/
  | trigger (s g) : Move s (({ s with triggers := s.triggers.erase g } : State).evaluate g.trunk g.kind g.after)
  /-- The expiry of a timer is evaluated (R79). -/
  | expiry (s t k after) (hk : k ≠ .install) : Move s (s.evaluate t k after)
  /-- The outstanding reports of a trunk are taken (R88). -/
  | settle (s t) : Move s (s.settleTrunk t)
  /-- The first outstanding report of a trunk, an alignment loss, is taken (R100). -/
  | loss (s t a st after rest) (h : (s.trunk t).reports = ⟨.alignmentLoss a st, after⟩ :: rest) :
      Move s ((s.modTrunk t fun x => { x with reports := rest }).takeReport t ⟨.alignmentLoss a st, after⟩)
  /-- An emission instant of a trunk that is not DISABLED, no report being outstanding (R30). -/
  | instant (s t) (hd : (s.trunk t).sel.mode ≠ .disabled) (hr : (s.trunk t).reports = []) : Move s (s.instant t)
  /-- A trunk's selector and emitter take the resume (R107). -/
  | resume (s t after) : Move s (s.resumeTrunk after t)

/-- Moves one after another. -/
abbrev Moves : State → State → Prop := Relation.ReflTransGen Move

theorem Moves.refl (s : State) : Moves s s := Relation.ReflTransGen.refl

theorem Moves.trans {s t u : State} (h : Moves s t) (h' : Moves t u) : Moves s u := Relation.ReflTransGen.trans h h'

theorem Move.moves {s t : State} (h : Move s t) : Moves s t := .single h

theorem Quiet.moves {s t : State} (h : Quiet s t) : Moves s t := (Move.quiet h).moves

theorem Moves.foldl {α : Type} {f : State → α → State} (h : ∀ s a, Moves s (f s a)) : ∀ (as : List α) (s : State),
    Moves s (as.foldl f s)
  | [], s => .refl s
  | a :: as, s => (h s a).trans (foldl h as _)

/-! ## Commands -/

theorem ifAttached_moves {s : State} {p : Port} {f : State × Reply} (h : (s.port p).mode = .attached → Moves s f.1) :
    Moves s (s.ifAttached p f).1 := by
  unfold State.ifAttached
  split
  · next hm => exact h hm
  · exact .refl s

/-- Nothing differs but offers, orphans, the timebase and the monitor. -/
theorem Quiet.device {s t : State} (hl : t.lanes = s.lanes := by rfl) (ht : t.trunks = s.trunks := by rfl)
    (hp : t.ports = s.ports := by rfl) (hs : t.triggers = s.triggers := by rfl) (hq : t.pending = s.pending := by rfl) :
    Quiet s t := .of_eq hl ht hp ⟨[], by simp [hs]⟩ hq

/-- An update of a port's record that keeps mode, session, queue and lease is quiet. -/
theorem quiet_modPort (s : State) (p : Port) (f : PortState → PortState) (hm : ∀ x, (f x).mode = x.mode := by intro; rfl)
    (hs : ∀ x, (f x).session = x.session := by intro; rfl) (hq : ∀ x, (f x).queue = x.queue := by intro; rfl)
    (hr : ∀ x, (f x).leaseRemaining = x.leaseRemaining := by intro; rfl)
    (hl : ∀ x, (f x).leaseLength = x.leaseLength := by intro; rfl) : Quiet s (s.modPort p f) :=
  quiet_setPort (.of_eq (hm _) (hs _) (hq _) (hr _) (hl _))

theorem attach_moves (s : State) (p : Port) (lease : Octet) : Moves s (s.attach p lease).1 := by
  unfold State.attach
  dsimp only
  split
  · exact .refl s
  · next hm =>
    split
    · exact .refl s
    · next hl => exact (Move.attach s p lease hm hl).moves.trans (quiet_offer ..).moves

theorem detach_moves (s : State) (p : Port) : Moves s (s.detach p).1 := by
  unfold State.detach
  dsimp only
  split
  · exact .refl s
  · refine (Move.leave s p (s.port p).detached _ _ (by simp [PortState.detached]) ?_ ?_ (quiet_offer ..)).moves
    · exact fun _ => ⟨Nat.zero_le _, fun h => by simp [PortState.detached, queueLimit] at h, fun _ => rfl⟩
    · exact fun _ => ⟨fun _ => rfl, Nat.zero_le _, by simp [PortState.detached]⟩

theorem subscribe_moves (s : State) (p : Port) (cls mode : Octet) : Moves s (s.subscribe p cls mode).1 := by
  unfold State.subscribe
  split
  · dsimp only
    exact (quiet_modPort ..).moves
  · exact .refl s

/-- Thresholds in range keep the law of the receiver (R20). -/
theorem quiet_thresholds (s : State) (l : Lane) {set clear : Nat} (h : 1 ≤ set ∧ set ≤ 400 ∧ clear < set) :
    Quiet s (s.modRx l fun x => { x with degradeSet := set, degradeClear := clear }) :=
  quiet_modRx (fun ⟨hs, hs', hm, hm', ha, hp, hc, hw, _, _, _, hn, ho⟩ =>
    ⟨hs, hs', hm, hm', ha, hp, hc, hw, h.1, h.2.1, h.2.2, hn, ho⟩) fun _ hg => hg

theorem setDegrade_moves (s : State) (p : Port) (lane : Octet) (set clear : Pair) :
    Moves s (s.setDegrade p lane set clear).1 := by
  unfold State.setDegrade
  split
  · exact .refl s
  · next l _ =>
    split
    · exact .refl s
    · split
      · next h =>
        exact ((quiet_settleLane s l).trans (quiet_thresholds _ l h)).moves
      · exact .refl s

theorem clearLaneCounters_moves (s : State) (p : Port) (lane : Octet) : Moves s (s.clearLaneCounters p lane).1 := by
  unfold State.clearLaneCounters
  split
  · exact .refl s
  · split
    · exact .refl s
    · dsimp only
      exact (quiet_modRx (fun hx => hx) fun _ hg => hg).moves

theorem ballot_moves (s : State) (p : Port) (after : List Nat) (trunk lane : Octet) :
    Moves s (s.ballot p after trunk lane).1 := by
  unfold State.ballot
  refine ifAttached_moves fun hm => ?_
  split
  · exact .refl s
  · exact .refl s
  · next t choice _ _ =>
    split
    · next hc =>
      split
      · exact .refl s
      · refine (Move.ballot s p t choice _ _ hm fun l hl => ?_).moves
        cases hl
        simpa using hc
    · exact .refl s

theorem placeHold_moves (s : State) (p : Port) (after : List Nat) (trunk lane : Octet) :
    Moves s (s.placeHold p after trunk lane).1 := by
  unfold State.placeHold
  refine ifAttached_moves fun hm => ?_
  split
  · exact .refl s
  · exact .refl s
  · next t l _ _ =>
    split
    · exact .refl s
    · next hl =>
      split
      · exact .refl s
      · split
        · exact .refl s
        · next ho =>
          split
          · exact .refl s
          · refine (Move.hold s t (some (holdPlaced (s.trunk t).hold p (s.port p).session l)) ?_).moves.trans
              (quiet_send ..).moves
            rintro _ ⟨⟩
            have hmem : l ∈ s.members t := by simpa using hl
            cases hh : (s.trunk t).hold with
            | none => exact ⟨hmem, hm, rfl⟩
            | some h =>
              have howner : h.owner = p := by simpa [hh] using ho
              subst howner
              exact ⟨hmem, hm, rfl⟩

theorem releaseHold_moves (s : State) (p : Port) (after : List Nat) (trunk : Octet) :
    Moves s (s.releaseHold p after trunk).1 := by
  unfold State.releaseHold
  refine ifAttached_moves fun _ => ?_
  split
  · exact .refl s
  · next t _ =>
    split
    · exact (Move.hold s t none (by simp)).moves.trans (quiet_send ..).moves
    · exact .refl s

theorem placeBar_moves (s : State) (p : Port) (after : List Nat) (lane : Octet) : Moves s (s.placeBar p after lane).1 := by
  unfold State.placeBar
  refine ifAttached_moves fun _ => ?_
  split
  · exact .refl s
  · next l _ =>
    split
    · exact .refl s
    · exact (Move.bars s l _ _).moves.trans (quiet_offer ..).moves

theorem removeBar_moves (s : State) (issuer j : Port) (after : List Nat) (l : Lane) :
    Moves s (s.removeBar issuer j after l) := by
  unfold State.removeBar
  exact (Move.bars s l _ _).moves.trans (quiet_offer ..).moves

theorem liftBar_moves (s : State) (p : Port) (after : List Nat) (lane : Octet) : Moves s (s.liftBar p after lane).1 := by
  unfold State.liftBar
  refine ifAttached_moves fun _ => ?_
  split
  · exact .refl s
  · split
    · exact removeBar_moves ..
    · exact .refl s

theorem liftStaleBar_moves (s : State) (p : Port) (after : List Nat) (lane port : Octet) :
    Moves s (s.liftStaleBar p after lane port).1 := by
  unfold State.liftStaleBar
  refine ifAttached_moves fun _ => ?_
  split
  · exact .refl s
  · exact .refl s
  · split
    · exact .refl s
    · split
      · exact removeBar_moves ..
      · exact .refl s

/-- The terms of a proposal whose lanes are neither taken nor contested may be granted (R113). -/
theorem grants_of_free {s : State} {t : Trunk} {terms : CharterTerms} (hterms : terms.Law)
    (htaken : ¬ s.laneTaken t terms.members = true) (hcontested : ¬ s.laneContested t terms.members = true) :
    s.Grants t terms := by
  refine ⟨hterms, fun u hu l hl hn => ?_⟩
  rcases List.mem_append.mp hn with hn | hn
  · exact htaken (List.any_eq_true.mpr ⟨u, mem_allTrunks u, by simpa [hu] using ⟨l, hl, hn⟩⟩)
  · exact hcontested (List.any_eq_true.mpr ⟨u, mem_allTrunks u, by simpa [hu] using ⟨l, hl, hn⟩⟩)

theorem openProposal_moves {s : State} {p : Port} {t : Trunk} {terms : CharterTerms} (hm : (s.port p).mode = .attached)
    (hparty : PortSet.has (s.parties t terms.members) p = true) (hg : s.Grants t terms)
    (hmore : ¬ s.requiredSet t terms.members = PortSet.only p) (after : List Nat) :
    Moves s (s.openProposal p after t terms).1 := by
  unfold State.openProposal
  dsimp only
  refine Moves.trans (Quiet.moves (t := { s with proposalCounter := nextNumber s.proposalCounter })
    Quiet.device) (Moves.trans (Move.proposal _ t (some _) ?_ ?_).moves (quiet_offer ..).moves)
  · rintro - _ ⟨⟩
    exact hg
  · rintro - _ ⟨⟩
    refine ⟨has_only_self p, fun e => hmore e.symm, fun k => ⟨fun hk => ?_, fun hk => ?_⟩⟩
    · by_cases hkp : k = p
      · subst hkp
        simp only [State.requiredSet, has_of, hparty, hm]
        rfl
      · simp [has_only_ne hkp] at hk
    · simp only [State.requiredSet, has_of, Bool.and_eq_true, decide_eq_true_eq] at hk
      exact hk.2

theorem propose_moves (s : State) (p : Port) (after : List Nat) (trunk : Octet) {charter : Option CharterTerms}
    (hc : ∀ terms ∈ charter, terms.Law) : Moves s (s.propose p after trunk charter).1 := by
  unfold State.propose
  refine ifAttached_moves fun hm => ?_
  split
  · exact .refl s
  · exact .refl s
  · next t terms _ =>
    split
    · exact .refl s
    · next hparty =>
      split
      · exact .refl s
      · split
        · exact .refl s
        · next htaken =>
          split
          · exact .refl s
          · next hcontested =>
            have hg : s.Grants t terms := grants_of_free (hc terms rfl) htaken hcontested
            split
            · exact (Move.install s t terms 0 p after fun _ => hg).moves
            · next hmore => exact openProposal_moves hm (by simpa using hparty) hg hmore after

/-- A proposal quoted is an open one. -/
theorem quoted_ok {s : State} {trunk : Octet} {n : Pair} {t : Trunk} {q : Proposal} (h : s.quoted trunk n = .ok (t, q)) :
    (s.trunk t).proposal = some q := by
  unfold State.quoted at h
  split at h
  · cases h
  · split at h
    · cases h
    · next hq =>
      split at h
      · cases h
        exact hq
      · cases h

/-- The terms of an open proposal may be granted (R48, R111). -/
theorem grants_of_open {s : State} {t : Trunk} {q : Proposal} (hq : (s.trunk t).proposal = some q) (h : s.MembershipLaw) :
    s.Grants t q.terms :=
  ⟨(h.1 t).2 q hq, fun u hu l hl hn => h.2 t u hu.symm l
    (List.mem_append_right _ (by simpa [State.proposedMembers, hq] using hl)) hn⟩

theorem has_add (ps : PortSet) (p k : Port) : PortSet.has (PortSet.add ps p) k = if k = p then true else PortSet.has ps k := by
  simp only [PortSet.has, PortSet.add, Vector.getElem_set, Fin.ext_iff, eq_comm]

theorem concur_moves (s : State) (p : Port) (after : List Nat) (trunk : Octet) (n : Pair) :
    Moves s (s.concur p after trunk n).1 := by
  unfold State.concur
  refine ifAttached_moves fun _ => ?_
  split
  · exact .refl s
  · next t q hquoted =>
    have hq := quoted_ok hquoted
    split
    · exact .refl s
    · next hreq =>
      split
      · exact .refl s
      · split
        · exact (Move.install s t q.terms q.number p after (grants_of_open hq)).moves
        · next hshort =>
          refine (Move.proposal s t (some { q with concurred := PortSet.add q.concurred p }) ?_ ?_).moves
          · rintro h _ ⟨⟩
            show s.Grants t q.terms
            exact grants_of_open hq h
          · rintro h _ ⟨⟩
            obtain ⟨h1, -, h3⟩ := h t q hq
            refine ⟨?_, hshort, fun k => ⟨fun hk => ?_, (h3 k).2⟩⟩
            · simp only [has_add, h1, ite_self]
            · rw [has_add] at hk
              split at hk
              · next hkp => simpa [hkp] using hreq
              · exact (h3 k).1 hk

theorem closeHere_moves (s : State) (t : Trunk) (outcome : Closing) (port : Option Port) (reason : Reason) (after : List Nat) :
    Moves s (s.closeHere t outcome port reason after) := by
  unfold State.closeHere
  split
  · exact .refl s
  · exact (Move.proposal s t none (by simp) (by simp)).moves.trans
      (Quiet.device).moves

theorem close_moves (s : State) (t : Trunk) (outcome : Closing) (port : Option Port) (reason : Reason) (after : List Nat) :
    Moves s (s.close t outcome port reason after) :=
  (closeHere_moves ..).trans (Quiet.device).moves

theorem dissent_moves (s : State) (p : Port) (after : List Nat) (trunk : Octet) (n : Pair) :
    Moves s (s.dissent p after trunk n).1 := by
  unfold State.dissent
  refine ifAttached_moves fun _ => ?_
  split
  · exact .refl s
  · split
    · exact .refl s
    · split <;> exact close_moves ..

theorem withdrawProposal_moves (s : State) (p : Port) (after : List Nat) (trunk : Octet) (n : Pair) :
    Moves s (s.withdrawProposal p after trunk n).1 := by
  unfold State.withdrawProposal
  refine ifAttached_moves fun _ => ?_
  split
  · exact .refl s
  · split
    · exact close_moves ..
    · exact .refl s

/-- Carrying out a command is a chain of moves. -/
theorem perform_moves (s : State) (p : Port) (after : List Nat) (c : Command) : Moves s (s.perform p after c).1 := by
  cases c with
  | attach lease => exact attach_moves ..
  | detach => exact detach_moves ..
  | subscribe cls mode => exact subscribe_moves ..
  | setDegrade lane set clear => exact setDegrade_moves ..
  | clearLaneCounters lane => exact clearLaneCounters_moves ..
  | ballot t l => exact ballot_moves ..
  | hold t l => exact placeHold_moves ..
  | release t => exact releaseHold_moves ..
  | bar l => exact placeBar_moves ..
  | lift l => exact liftBar_moves ..
  | liftStale l j => exact liftStaleBar_moves ..
  | propose t n m1 m2 m3 m4 v m h w => exact propose_moves _ _ _ _ fun terms hterms => charterOperand_law hterms
  | concur t n => exact concur_moves ..
  | dissent t n => exact dissent_moves ..
  | withdraw t n => exact withdrawProposal_moves ..
  | renew => exact .refl s
  | queryDevice => exact .refl s
  | queryPorts => exact .refl s
  | queryLane l => exact .refl s
  | queryTrunk t => exact .refl s
  | queryHistory t => exact .refl s

/-! ## Transactions -/

theorem finish_moves (s : State) (p : Port) (tag code : Octet) (r : Reply) : Moves s (s.finish p tag code r) :=
  (quiet_modPort ..).moves

theorem heard_moves (s : State) (p : Port) : Moves s (s.heard p) := by
  rw [heard_eq]
  exact (quiet_setPort (leaseRestarted_quiet _)).moves

theorem carryOut_moves (s : State) (p : Port) (tag : Octet) (c : Command) (after : List Nat) :
    Moves s (s.carryOut p tag c after) := (perform_moves ..).trans (finish_moves ..)

theorem dispatch_moves (s : State) (p : Port) (tag : Octet) (c : Command) (part : Part) :
    Moves s (s.dispatch p tag c part) := by
  unfold State.dispatch
  refine (heard_moves s p).trans ?_
  dsimp only
  split
  · exact finish_moves ..
  · split
    · exact (quiet_modPort ..).moves
    · exact carryOut_moves ..

theorem takeFrame_moves (s : State) (p : Port) (j : Judgement) (part : Part) : Moves s (s.takeFrame p j part) := by
  unfold State.takeFrame
  split
  · refine Moves.trans ?_ (finish_moves ..)
    split
    · exact heard_moves ..
    · exact .refl s
  · exact dispatch_moves ..

theorem quiet_endTransaction (s : State) (p : Port) (n : Nat) : Quiet s (s.endTransaction p n) := by
  unfold State.endTransaction
  dsimp only
  split
  · exact Quiet.trans (t := { s with freeCount := _ }) Quiet.device
      (quiet_modPort ..)
  · exact quiet_modPort ..

theorem endFrame_moves (s : State) (p : Port) (n : Nat) (j : Judgement) (part : Part) : Moves s (s.endFrame p n j part) := by
  unfold State.endFrame
  dsimp only
  split
  · exact .refl s
  · refine (quiet_endTransaction s p n).moves.trans ?_
    split
    · exact .refl _
    · split
      · exact (quiet_modPort ..).moves
      · exact (quiet_modPort ..).moves.trans (takeFrame_moves ..)

theorem ownerTakes_moves (s : State) (p : Port) (tag : Octet) (c : Command) : Moves s (s.ownerTakes p tag c) := by
  unfold State.ownerTakes
  split
  · exact Moves.trans (Quiet.device (t := { s with orphans := _ })).moves (perform_moves ..)
  · split
    · split
      · exact carryOut_moves ..
      · exact .refl s
    · split
      · exact finish_moves ..
      · exact .refl s
    · exact .refl s
    · exact .refl s

theorem readRecord_moves (s : State) (p : Port) (tag : Octet) (c : Command) (i : Nat) : Moves s (s.readRecord p tag c i) := by
  unfold State.readRecord
  repeat' split
  all_goals first
    | with_reducible exact .refl s
    | exact (quiet_modPort ..).moves

theorem command_moves (s : State) (p : Port) (tag : Octet) (part : Part) (c : Command) : Moves s (s.command p tag part c) := by
  cases part with
  | whole => exact endFrame_moves ..
  | handOver => exact endFrame_moves ..
  | read i =>
    simp only [State.command]
    split
    · exact .refl s
    · exact readRecord_moves ..
  | atOwner =>
    simp only [State.command]
    split
    · exact .refl s
    · exact ownerTakes_moves ..

/-! ## FETCH -/

theorem quiet_startTransaction (s : State) (p : Port) : Quiet s (s.startTransaction p) := by
  unfold State.startTransaction
  split
  · exact .refl s
  · exact quiet_modPort ..

theorem quiet_clockTransaction (s : State) (p : Port) (f : Transaction) : Quiet s (s.clockTransaction p f) := by
  unfold State.clockTransaction
  dsimp only
  split
  · exact Quiet.trans (t := { s with freeCount := _ }) Quiet.device
      (quiet_modPort ..)
  · exact quiet_setPort ((clockOctet_quiet _ f).trans (.of_eq rfl rfl rfl rfl rfl))

theorem quiet_clockOctets (p : Port) (isFetch : Bool) : ∀ (n : Nat) (s : State), Quiet s (s.clockOctets p isFetch n)
  | 0, s => .refl s
  | n + 1, s => by
    refine Quiet.trans ?_ (quiet_clockOctets p isFetch n _)
    unfold State.clockOne
    split
    · exact .refl s
    · split
      · exact .refl s
      · exact quiet_clockTransaction ..

theorem quiet_stopFetch (s : State) (p : Port) : Quiet s (s.stopFetch p) := by
  unfold State.stopFetch
  split
  · exact .refl s
  · split
    · exact .refl s
    · exact quiet_modPort ..

theorem quiet_wholeFetch (s : State) (p : Port) (n : Nat) : Quiet s (s.wholeFetch p n) := by
  unfold State.wholeFetch
  split
  · exact .refl s
  · exact ((quiet_startTransaction ..).trans (quiet_clockOctets ..)).trans (quiet_stopFetch ..)

theorem endOctets_moves (s : State) (p : Port) (octets : List Octet) : Moves s (s.endOctets p octets) := by
  unfold State.endOctets
  split
  · exact endFrame_moves ..
  · split
    · exact (quiet_wholeFetch ..).moves
    · unfold State.ignore
      split
      · exact .refl s
      · exact (quiet_endTransaction ..).moves

theorem quiet_placeResponse (s : State) (p : Port) : Quiet s (s.placeResponse p) := by
  unfold State.placeResponse
  split
  · exact quiet_modPort ..
  all_goals exact .refl s

/-! ## Events of ports, deadlines and trunks -/

theorem quiet_takeOffer (s : State) (p : Port) (o : Offer) : Quiet s (s.takeOffer p o) := by
  unfold State.takeOffer
  refine Quiet.trans (t := s.dropOffer p o) Quiet.device ?_
  dsimp only
  split
  · next h =>
    refine quiet_setPort (enqueue_quiet ?_ _ _)
    simp only [PortState.takesEvent, Bool.and_eq_true, bne_iff_ne] at h
    exact h.1
  · exact .refl _

theorem expireLease_moves (s : State) (p : Port) : Moves s (s.expireLease p) := by
  unfold State.expireLease
  dsimp only
  split
  · refine (Move.leave s p (s.port p).lapsed _ _ (by simp [PortState.lapsed]) ?_ ?_
      ((quiet_offer ..).trans (quiet_offer ..))).moves
    · exact fun ⟨h1, h2, _⟩ => ⟨h1, h2, by simp [PortState.lapsed]⟩
    · exact fun _ => ⟨fun _ => rfl, Nat.zero_le _, by simp [PortState.lapsed]⟩
  · exact .refl s

theorem resetPort_moves (s : State) (p : Port) : Moves s (s.resetPort p) := by
  unfold State.resetPort
  dsimp only
  refine Moves.trans (Quiet.device (t := { s with orphans := s.orphans ++ orphansAfter p (s.port p).slot })).moves ?_
  split
  · refine (Move.leave _ p (s.port p).resetByPin _ _ (by simp [PortState.resetByPin]) ?_ ?_ (quiet_offer ..)).moves
    · exact fun _ => ⟨Nat.zero_le _, fun h => by simp [PortState.resetByPin, queueLimit] at h, fun _ => rfl⟩
    · exact fun _ => ⟨fun _ => rfl, Nat.zero_le _, by simp [PortState.resetByPin]⟩
  · next hm =>
    generalize hu : ({ s with orphans := s.orphans ++ orphansAfter p (s.port p).slot } : State) = u
    have hport : u.port p = s.port p := by rw [← hu]; rfl
    rw [← hport] at hm
    exact (Quiet.trans (quiet_setPort (resetByPin_quiet hm)) (quiet_offer ..)).moves

theorem expireProposal_moves (s : State) (t : Trunk) : Moves s (s.expireProposal t) := by
  unfold State.expireProposal
  split
  · exact .refl s
  · split
    · exact close_moves ..
    · exact .refl s

theorem settleTrunk_moves (s : State) (t : Trunk) : Moves s (s.settleTrunk t) := (Move.settle s t).moves

theorem takeTrigger_moves (s : State) (g : Trigger) : Moves s (s.takeTrigger g) :=
  (settleTrunk_moves s g.trunk).trans (Move.trigger _ g).moves

theorem holdOffExpires_moves (s : State) (t : Trunk) : Moves s (s.holdOffExpires t) := by
  unfold State.holdOffExpires
  dsimp only
  split
  · refine (settleTrunk_moves s t).trans (Moves.trans (quiet_setTrunk ?_).moves (Move.expiry _ t _ _ (by simp)).moves)
    exact ⟨rfl, fun _ => rfl, id⟩
  · exact .refl s

theorem restoreExpires_moves (s : State) (t : Trunk) : Moves s (s.restoreExpires t) := by
  unfold State.restoreExpires
  dsimp only
  split
  · next c hc =>
    refine (settleTrunk_moves s t).trans (Moves.trans (quiet_setTrunk ?_).moves
      (Moves.trans (Move.expiry _ t .restoreExpiry [] (by simp)).moves (Quiet.device).moves))
    exact ⟨rfl, id, fun h => by simp [hc] at h⟩
  · exact .refl s

theorem emissionInstant_moves (s : State) (t : Trunk) : Moves s (s.emissionInstant t) := by
  unfold State.emissionInstant
  refine (settleTrunk_moves s t).trans ?_
  dsimp only
  refine Moves.trans (Quiet.device (t := { s.settleTrunk t with
    instantTaken := (s.settleTrunk t).instantTaken.set t.val true })).moves ?_
  split
  · refine (quiet_setTrunk ?_).moves
    exact ⟨rfl, id, id⟩
  · next hd => exact (Move.instant _ t hd (settleTrunk_keeps s t).1).moves

/-! ## The timebase -/

theorem settleTrunks_moves (s : State) : Moves s s.settleTrunks := Moves.foldl settleTrunk_moves allTrunks s

theorem lane_map (s : State) (f : LaneState → LaneState) (l : Lane) :
    ({ s with lanes := s.lanes.map f } : State).lane l = f (s.lane l) := by
  simp [State.lane]

theorem trunk_map (s : State) (f : TrunkState → TrunkState) (t : Trunk) :
    ({ s with trunks := s.trunks.map f } : State).trunk t = f (s.trunk t) := by
  simp [State.trunk]

theorem port_map (s : State) (f : PortState → PortState) (p : Port) :
    ({ s with ports := s.ports.map f } : State).port p = f (s.port p) := by
  simp [State.port]

/-- Each record is replaced quietly, and the timebase, the monitor and the orphans take new values. -/
theorem quiet_map {s t : State} {f : LaneState → LaneState} {g : TrunkState → TrunkState} {h : PortState → PortState}
    (hl : t.lanes = s.lanes.map f) (ht : t.trunks = s.trunks.map g) (hp : t.ports = s.ports.map h)
    (hs : t.triggers = s.triggers) (hq : t.pending = s.pending) (hf : ∀ m x, LaneState.Quiet m x (f x))
    (hg : ∀ x : TrunkState, x.Quiet (g x)) (hh : ∀ x : PortState, x.Quiet (h x)) : Quiet s t := by
  refine ⟨fun l => ?_, fun p => ?_, fun u => ?_, ⟨[], by simp [hs]⟩, hq⟩
  · simpa [State.lane, hl] using hf _ (s.lane l)
  · simpa [State.port, hp] using hh (s.port p)
  · simpa [State.trunk, ht] using hg (s.trunk u)

theorem count_trunk_quiet (x : TrunkState) : x.Quiet x.count := by
  refine ⟨rfl, fun h => ?_, fun h => ?_⟩
  · show x.sel.holdOff.count = .idle
    rw [h]
    rfl
  · show x.sel.restore.count = .idle
    rw [h]
    rfl

theorem quiet_advance (s : State) : Quiet s s.advance :=
  quiet_map (f := id) (by simp [State.advance]) rfl rfl rfl rfl (fun _ _ => .refl ..) count_trunk_quiet count_quiet

theorem stop_quiet (member : Prop) (x : LaneState) : x.Quiet member x.stop := by
  refine ⟨rfl, fun ⟨hs, hs', hm, hm', ha, hp, hc, hw, h1, h2, h3, hn, _⟩ => ?_, fun _ hg => hg, id, fun _ => id⟩
  exact ⟨hs, hs', hm, hm', ha, hp, hc, hw, h1, h2, h3, hn, by simp [LaneState.stop]⟩

theorem declareHalt_moves (s : State) : Moves s s.declareHalt := by
  have declared : ∀ u : State, Quiet u { u with
      monitor := { u.monitor with state := .absent, haltNs := 0 }
      lanes := u.lanes.map LaneState.stop
      trunks := u.trunks.map TrunkState.quiet
      ports := u.ports.map PortState.cutFetch
      scano := none } := fun u =>
    quiet_map rfl rfl rfl rfl rfl stop_quiet (fun _ => ⟨rfl, id, id⟩) fun _ => .of_eq rfl rfl rfl rfl rfl
  have settled : Moves s s.settleLanes := (quiet_foldl quiet_settleLane allLanes s).moves
  unfold State.declareHalt
  exact settled.trans ((settleTrunks_moves s.settleLanes).trans (declared s.settleLanes.settleTrunks).moves)

theorem capture_moves (s : State) : Moves s s.capture := by
  have captured : ∀ (u : State) (o : Option (List Octet)), Quiet u { u with scano := o, scanCaptured := true } :=
    fun _ _ => Quiet.device
  unfold State.capture
  exact (settleTrunks_moves s).trans (captured _ _).moves

theorem completeCommands_moves (s : State) : Moves s s.completeCommands := by
  unfold State.completeCommands
  refine (Moves.foldl (fun s o => ?_) s.orphans s).trans (Moves.foldl (fun s p => ?_) allPorts _)
  · exact Moves.trans (Quiet.device (t := { s with orphans := _ })).moves (perform_moves ..)
  · refine Moves.trans ?_ (quiet_placeResponse _ p).moves
    unfold State.completeExecution
    split
    · exact carryOut_moves ..
    · exact finish_moves ..
    · exact .refl s
    · exact .refl s

theorem completeHalt_moves (s : State) : Moves s s.completeHalt :=
  (completeCommands_moves s).trans (Moves.foldl takeTrigger_moves _ _)

theorem quiet_flush (s : State) (l : Lane) : Quiet s (s.flush l) :=
  quiet_setLane ⟨rfl, id, fun _ => id, fun _ => Nat.zero_le _, fun _ _ => rfl⟩

theorem quiet_endHalt (s : State) : Quiet s s.endHalt := by
  unfold State.endHalt
  split
  · exact Quiet.trans (t := { s with haltCount := s.haltCount + 1 }) Quiet.device (quiet_offer ..)
  · exact .refl s

theorem resume_moves (s : State) : Moves s s.resume := by
  have monitored : ∀ m, Moves s { s with monitor := m } := fun _ => (Quiet.device).moves
  have restarted : ∀ (u : State) (after : List Nat), Moves u (allLanes.foldl (fun s l => s.loseLock l .hunt after)
      (allLanes.foldl State.flush (allTrunks.foldl (fun s t => s.resumeTrunk after t) u))) := fun u after =>
    (Moves.foldl (fun s t => (Move.resume s t after).moves) allTrunks u).trans
      ((quiet_foldl quiet_flush allLanes _).trans
        (quiet_foldl (fun s l => quiet_loseLock s l (.inl rfl) after) allLanes _)).moves
  have begun : ∀ u : State, Moves u
      { u with started := true, instantTaken := Vector.replicate 8 false, scanCaptured := false } :=
    fun _ => (Quiet.device).moves
  unfold State.resume
  exact (monitored _).trans ((quiet_endHalt _).moves.trans ((restarted _ _).trans (begun _)))

/-! ## Every step -/

/-- What a row does when a condition holds, and nothing otherwise, it does by moves when it does so under the condition. -/
theorem exec_moves_if {s r u : State} {b : Bool} (hu : Moves s u)
    (h : Host.Outcome.next (if b then u else s) = (.next r : Host.Outcome State Fault Refusal)) : Moves s r := by
  cases h
  split
  · exact hu
  · exact .refl s

theorem exec_moves_unless {s r u : State} {b : Bool} (hu : Moves s u)
    (h : Host.Outcome.next (if b then s else u) = (.next r : Host.Outcome State Fault Refusal)) : Moves s r := by
  cases h
  split
  · exact .refl s
  · exact hu

/-- Every command but the release of RSTn is answered by a chain of moves. -/
theorem exec_moves {s r : State} {i : Instr} (hi : i ≠ .deviceReset) (h : exec i s = .next r) : Moves s r := by
  cases i with
  | attach p tag lease => cases h; exact command_moves ..
  | renew p tag => cases h; exact command_moves ..
  | detach p tag => cases h; exact command_moves ..
  | queryDevice p tag part => cases h; exact command_moves ..
  | queryPorts p tag part => cases h; exact command_moves ..
  | queryLane p tag part lane => cases h; exact command_moves ..
  | queryTrunk p tag part trunk => cases h; exact command_moves ..
  | queryHistory p tag part trunk => cases h; exact command_moves ..
  | subscribe p tag cls mode => cases h; exact command_moves ..
  | setDegrade p tag part lane set clear => cases h; exact command_moves ..
  | clearLaneCounters p tag part lane => cases h; exact command_moves ..
  | ballot p tag part trunk lane => cases h; exact command_moves ..
  | hold p tag part trunk lane => cases h; exact command_moves ..
  | release p tag part trunk => cases h; exact command_moves ..
  | bar p tag part lane => cases h; exact command_moves ..
  | lift p tag part lane => cases h; exact command_moves ..
  | liftStale p tag part lane port => cases h; exact command_moves ..
  | propose p tag part trunk n m1 m2 m3 m4 v m ho w => cases h; exact command_moves ..
  | concur p tag part trunk n => cases h; exact command_moves ..
  | dissent p tag part trunk n => cases h; exact command_moves ..
  | withdraw p tag part trunk n => cases h; exact command_moves ..
  | unknownCommand p octets => cases h; exact endOctets_moves ..
  | busyDrop p octets => cases h; exact endOctets_moves ..
  | commandDiscarded p octets => cases h; exact endOctets_moves ..
  | ignoredTransaction p octets => cases h; exact endOctets_moves ..
  | responsePlaced p => exact exec_moves_unless (quiet_placeResponse s p).moves h
  | fetch p part =>
    cases part with
    | whole n => cases h; exact (quiet_wholeFetch ..).moves
    | start => cases h; exact (quiet_startTransaction ..).moves
    | clock n => exact exec_moves_unless (quiet_clockOctets p true n s).moves h
    | pass n => exact exec_moves_unless (quiet_clockOctets p false n s).moves h
    | stop => exact exec_moves_unless (quiet_stopFetch s p).moves h
  | portReset p =>
    cases h
    split
    · exact .refl s
    · split
      · exact (quiet_modPort ..).moves
      · exact resetPort_moves ..
  | portResetRelease p => cases h; exact (quiet_modPort ..).moves
  | leaseExpiry p => exact exec_moves_if (expireLease_moves s p) h
  | deadlineExpiry t => exact exec_moves_if (expireProposal_moves s t) h
  | holdOffExpiry t => exact exec_moves_if (holdOffExpires_moves s t) h
  | restoreWaitExpiry t => exact exec_moves_if (restoreExpires_moves s t) h
  | alignWaitExpiry t =>
    cases h
    split
    · exact .refl s
    · split
      · exact settleTrunk_moves ..
      · exact .refl s
  | alignmentLoss t =>
    cases h
    split
    · exact .refl s
    · split
      · next a st after rest hr => exact (Move.loss s t a st after rest hr).moves
      · exact .refl s
  | blockPeriod => exact exec_moves_if ((settleTrunks_moves s).trans (quiet_advance _).moves) h
  | emissionInstant t => exact exec_moves_if (emissionInstant_moves s t) h
  | scanCapture => exact exec_moves_if (capture_moves s) h
  | triggerEvaluation t choice =>
    cases h
    split
    · exact .refl s
    · split
      · exact .refl s
      · exact takeTrigger_moves ..
  | clockLoss l => exact (exec_lane_quiet (l := l) (by simp) h).moves
  | stuckData l => exact (exec_lane_quiet (l := l) (by simp) h).moves
  | dataTransition l c => exact (exec_lane_quiet (l := l) (by simp) h).moves
  | syncMatch l w => exact (exec_lane_quiet (l := l) (by simp) h).moves
  | expectedPosition l w => exact (exec_lane_quiet (l := l) (by simp) h).moves
  | blockPosition l hd d c => exact (exec_lane_quiet (l := l) (by simp) h).moves
  | fillAlarm l => exact (exec_lane_quiet (l := l) (by simp) h).moves
  | degradeDeclared l => exact (exec_lane_quiet (l := l) (by simp) h).moves
  | degradeWindowEnd l => exact (exec_lane_quiet (l := l) (by simp) h).moves
  | halt => exact exec_moves_if (declareHalt_moves s) h
  | qualifying n => exact exec_moves_unless (Quiet.device).moves h
  | qualificationAbandoned n => exact exec_moves_unless (Quiet.device).moves h
  | haltResume => exact exec_moves_unless ((completeHalt_moves s).trans (resume_moves _)) h
  | deviceResetAsserted =>
    refine exec_moves_unless (Quiet.moves ?_) h
    exact quiet_map (f := id) (by simp) rfl rfl rfl rfl (fun _ _ => .refl ..) (fun _ => ⟨rfl, id, id⟩) hold_quiet
  | deviceReset => exact absurd rfl hi
  | notificationOffer p choice =>
    cases h
    split
    · exact .refl s
    · split
      · exact .refl s
      · exact (quiet_takeOffer ..).moves

end Sys2Proof.Machine
end

