-- ==== Sys2Proof/Proofs/PortAndClaimLaws.lean ====
section
/-! SUPPORT. Every step keeps the laws of the ports, and those of charters, claims and proposals: each move does, and so does the
release of RSTn, after which every record has its reset value. -/

namespace Sys2Proof.Machine

/-! ## Steps are moves -/

/-- What every move keeps, and device reset establishes, every step keeps. -/
theorem step_keeps {P : State → Prop} (pend : ∀ (s : State) rest, P s → P { s with pending := rest })
    (move : ∀ {s t}, Move s t → P s → P t) (reset : ∀ {s r}, exec .deviceReset s = .next r → P r) {s r : State} (hp : P s)
    (h : step s = .next r) : P r := by
  have moves : ∀ {s t}, Moves s t → P s → P t := by
    intro s t h hs
    induction h with
    | refl => exact hs
    | tail _ hm ih => exact move hm ih
  unfold step at h
  split at h
  · cases h
    exact hp
  · next c rest _ =>
    by_cases hc : c = .deviceReset
    · subst hc
      exact reset h
    · exact moves (exec_moves hc h) (pend s rest hp)

/-- The records after a device reset (R172): every lane and trunk has its reset value, and every port but for the level of its pin. -/
structure IsReset (r : State) : Prop where
  lane : ∀ l : Lane, r.lane l = LaneState.reset
  trunk : ∀ t : Trunk, r.trunk t = TrunkState.reset
  port : ∀ p : Port, ∃ b, r.port p = { PortState.reset with prstnLow := b }
  triggers : r.triggers = []

theorem isReset_reset : IsReset State.reset where
  lane l := by simp [State.lane, State.reset]
  trunk t := by simp [State.trunk, State.reset]
  port p := ⟨false, by simp [State.port, State.reset, PortState.reset]⟩
  triggers := rfl

theorem deviceReset_isReset {s r : State} (h : exec .deviceReset s = .next r) : IsReset r := by
  cases h
  exact ⟨isReset_reset.lane, isReset_reset.trunk, fun p => ⟨(s.port p).prstnLow, by simp [State.port, PortState.resetByDevice]⟩, rfl⟩

theorem IsReset.members {r : State} (h : IsReset r) (t : Trunk) : r.members t = [] := by
  rw [State.members, h.trunk]
  rfl

theorem IsReset.named {r : State} (h : IsReset r) (t : Trunk) : r.named t = [] := by
  simp [State.named, h.members, State.proposedMembers, h.trunk, TrunkState.reset]

/-! ## What a resume does to its trunk -/

theorem resumeTrunk_frame (s : State) (t : Trunk) (after : List Nat) : SelFrame t s (s.resumeTrunk after t) := by
  unfold State.resumeTrunk
  dsimp only
  split
  · exact .refl ..
  · have h : SelFrame t s ((s.writeRecord t .resume (s.trunk t).sel.fromLane none .nil
        ((s.trunk t).sel.pendingStamps after)).modTrunk t TrunkState.resumed) :=
      (writeRecord_frame ..).trans (modTrunk_frame ..)
    split
    · exact h
    · exact h.trans (SelFrame.offer ..)

theorem resumeTrunk_turns (s : State) (t : Trunk) (after : List Nat) : Turns t s (s.resumeTrunk after t) := by
  unfold State.resumeTrunk
  dsimp only
  split
  · exact .refl ..
  · have resumed : ∀ u, Turns t u (u.modTrunk t TrunkState.resumed) := fun u =>
      modTrunk_turns u t _ (.inl rfl) (fun _ => ⟨by simp [Selection.Shape, TrunkState.resumed], by simp [TrunkState.resumed]⟩) rfl
        fun ⟨hb, _, hl⟩ => ⟨hb, by simp [TrunkState.resumed, misalignLimit], hl⟩
    have h := (writeRecord_turns s t .resume (s.trunk t).sel.fromLane none .nil
      ((s.trunk t).sel.pendingStamps after)).trans (resumed _)
    split
    · exact h
    · exact h.trans (Turns.offer ..)

/-! ## The queue of commands (log entry 1) -/

theorem refavour_books (s : State) (t : Trunk) (after : List Nat) : Bookkeeping after s (s.refavour t after) :=
  (refavourHere_books ..).trans (tick_books ..)

/-- The registry's and the concurrence unit's part of leaving ATTACHED. -/
theorem depart_own (u : State) (p : Port) (cause : Reason) :
    Departs p cause [] u (u.depart p cause (u.handOn (.portController p) [])) :=
  depart_departs cause (fun _ _ => rfl) rfl rfl rfl rfl rfl (by simp)

theorem Move.pending {s t : State} (h : Move s t) : t.pending = s.pending := by
  cases h with
  | quiet h => exact h.pending
  | attach p lease => rfl
  | leave p x u cause hm hq hl hu => exact (depart_books ..).pending.trans hu.pending
  | bars l b after => exact (quiet_sendForLane ..).pending
  | ballot p t choice after after' => exact (refavour_books ..).pending
  | hold t h => rfl
  | install t terms number p after => exact (install_spec ..).books.pending
  | proposal t o => rfl
  | trigger g => exact (evaluate_frame ..).device.pending
  | expiry t k after => exact (evaluate_frame ..).device.pending
  | settle t => exact (settleTrunk_frame ..).device.pending
  | loss t a st after rest => exact (takeReport_frame ..).device.pending
  | instant t => exact (instant_emission ..).device.pending
  | resume t after => exact (resumeTrunk_frame ..).device.pending

/-- Settles O2: each row is answered `next`, by moves that leave the queue alone or by device reset, which does too. -/
theorem everyCommandIsAnsweredOffTheQueue : Obligations.EveryCommandIsAnsweredOffTheQueue := by
  intro c s
  have hnext : ∃ t, exec c s = .next t := by cases c <;> exact ⟨_, rfl⟩
  obtain ⟨t, ht⟩ := hnext
  refine ⟨t, ht, ?_⟩
  by_cases hc : c = .deviceReset
  · subst hc
    cases ht
    rfl
  · have h := exec_moves hc ht
    clear ht
    induction h with
    | refl => rfl
    | tail _ hm ih => exact hm.pending.trans ih

/-! ## The laws of the ports (R127, R154, R160) -/

/-- The ports after a move: those of a quiet change, of a session that opens, or of one that ends. -/
theorem Move.port {s t : State} (h : Move s t) (p : Port) :
    ((s.port p).QueueLaw → (t.port p).QueueLaw) ∧ ((s.port p).LeaseLaw → (t.port p).LeaseLaw) := by
  have same : ∀ {r : State}, r.ports = s.ports →
      ((s.port p).QueueLaw → (r.port p).QueueLaw) ∧ ((s.port p).LeaseLaw → (r.port p).LeaseLaw) := by
    intro r hr
    rw [port_of_ports hr]
    exact ⟨id, id⟩
  have set : ∀ {q : Port} {x : PortState}, ((s.port q).QueueLaw → x.QueueLaw) → ((s.port q).LeaseLaw → x.LeaseLaw) →
      ((s.port p).QueueLaw → ((s.setPort q x).port p).QueueLaw) ∧
        ((s.port p).LeaseLaw → ((s.setPort q x).port p).LeaseLaw) := by
    intro q x hq hl
    rw [port_setPort]
    split
    · next e => exact e ▸ ⟨hq, hl⟩
    · exact ⟨id, id⟩
  cases h with
  | quiet h => exact ⟨(h.ports p).queue, (h.ports p).lease⟩
  | attach q lease hm hl =>
    refine set (fun ⟨h1, h2, _⟩ => ⟨h1, h2, by simp [PortState.attached]⟩) fun _ =>
      ⟨by simp [PortState.attached], le_rfl, fun _ => ⟨hl, ?_⟩⟩
    simp only [PortState.attached, nextSession]
    split
    · decide
    · next hne => exact fun e => hne (by rw [← BitVec.add_sub_cancel (s.port q).session 1, e]; decide)
  | leave q x u cause hm hq hl hu =>
    rw [port_of_ports (depart_books ..).ports]
    obtain ⟨h1, h2⟩ := set hq hl
    exact ⟨(hu.ports p).queue ∘ h1, (hu.ports p).lease ∘ h2⟩
  | bars l b after =>
    have h := (quiet_sendForLane (s.setLane l { s.lane l with bars := b }) l .bar .registry after).ports p
    exact ⟨h.queue, h.lease⟩
  | ballot q t choice after after' => exact same (refavour_books ..).ports
  | hold t h => exact same rfl
  | install t terms number q after => exact same (install_spec ..).books.ports
  | proposal t o => exact same rfl
  | trigger g => exact same (evaluate_frame ..).ports
  | expiry t k after => exact same (evaluate_frame ..).ports
  | settle t => exact same (settleTrunk_frame ..).ports
  | loss t a st after rest => exact same (takeReport_frame ..).ports
  | instant t => exact same (instant_emission ..).ports
  | resume t after => exact same (resumeTrunk_frame ..).ports

theorem IsReset.queueLaw {r : State} (h : IsReset r) : r.QueueLaw := by
  intro p
  obtain ⟨b, hb⟩ := h.port p
  rw [hb]
  exact ⟨Nat.zero_le _, fun h => by simp [PortState.reset, queueLimit] at h, fun _ => rfl⟩

theorem IsReset.leaseLaw {r : State} (h : IsReset r) : r.LeaseLaw := by
  intro p
  obtain ⟨b, hb⟩ := h.port p
  rw [hb]
  exact ⟨fun _ => rfl, Nat.zero_le _, fun h => by simp [PortState.reset] at h⟩

/-- Settles O55: `Move.port`, one port at a time. -/
theorem everyStepKeepsPortLaws : Obligations.EveryStepKeepsPortLaws := by
  intro s r h hr
  refine step_keeps (P := fun s => s.QueueLaw ∧ s.LeaseLaw) (fun _ _ h => h) (fun hm ⟨hq, hl⟩ => ?_) (fun hd => ?_) h hr
  · exact ⟨fun p => (hm.port p).1 (hq p), fun p => (hm.port p).2 (hl p)⟩
  · exact ⟨(deviceReset_isReset hd).queueLaw, (deviceReset_isReset hd).leaseLaw⟩

/-! ## Charters, claims and proposals (R46, R48, R58, R59, R63, R124) -/

/-- Charters, claims and proposals stay as they are, and so does every session that is open. -/
structure SameClaims (s t : State) : Prop where
  charter : ∀ u : Trunk, (t.trunk u).charter = (s.trunk u).charter
  ballots : ∀ u : Trunk, (t.trunk u).ballots = (s.trunk u).ballots
  favoured : ∀ u : Trunk, (t.trunk u).favoured = (s.trunk u).favoured
  hold : ∀ u : Trunk, holdId (t.trunk u) = holdId (s.trunk u)
  proposal : ∀ u : Trunk, (t.trunk u).proposal = (s.trunk u).proposal
  session : ∀ p : Port, (s.port p).mode = .attached → (t.port p).mode = .attached ∧ (t.port p).session = (s.port p).session

theorem SameClaims.trans {s t u : State} (h : SameClaims s t) (h' : SameClaims t u) : SameClaims s u :=
  ⟨fun k => (h'.charter k).trans (h.charter k), fun k => (h'.ballots k).trans (h.ballots k),
    fun k => (h'.favoured k).trans (h.favoured k), fun k => (h'.hold k).trans (h.hold k),
    fun k => (h'.proposal k).trans (h.proposal k),
    fun p hm => ⟨(h'.session p (h.session p hm).1).1, (h'.session p (h.session p hm).1).2.trans (h.session p hm).2⟩⟩

theorem TrunkOnly.sameClaims {k : Trunk} {s t : State} (h : TrunkOnly k s t) : SameClaims s t := by
  have other : ∀ {β : Type} (f : TrunkState → β), f (t.trunk k) = f (s.trunk k) → ∀ u, f (t.trunk u) = f (s.trunk u) := by
    intro β f hf u
    by_cases hu : u = k
    · rw [hu, hf]
    · rw [h.trunks u hu]
  exact ⟨other _ h.charter, other _ h.ballots, other _ h.favoured, other holdId h.hold, other _ h.proposal,
    fun p hm => by rw [port_of_ports h.ports]; exact ⟨hm, rfl⟩⟩

theorem Quiet.sameClaims {s t : State} (h : Quiet s t) : SameClaims s t := by
  have field : ∀ {β : Type} (f : TrunkState → β) (_ : ∀ x td ho r, f { x with
      em := { x.em with td := td }, sel := { x.sel with holdOff := ho, restore := r } } = f x) (u : Trunk),
      f (t.trunk u) = f (s.trunk u) := by
    intro β f hf u
    rw [(h.trunks u).1, hf]
  exact ⟨field _ fun _ _ _ _ => rfl, field _ fun _ _ _ _ => rfl, field _ fun _ _ _ _ => rfl, field holdId fun _ _ _ _ => rfl,
    field _ fun _ _ _ _ => rfl, fun p hm => ⟨(h.ports p).mode.mpr hm, (h.ports p).session hm⟩⟩

theorem SameClaims.members {s t : State} (h : SameClaims s t) (u : Trunk) : t.members u = s.members u :=
  members_of_charter (h.charter u)

theorem SameClaims.named {s t : State} (h : SameClaims s t) (u : Trunk) : t.named u = s.named u := by
  simp only [State.named, h.members, State.proposedMembers, h.proposal]

section
variable {s t : State} (h : SameClaims s t)
include h

theorem SameClaims.membershipLaw (hs : s.MembershipLaw) : t.MembershipLaw := by
  obtain ⟨h1, h2⟩ := hs
  refine ⟨fun u => ?_, fun u v huv l hl => ?_⟩
  · rw [h.charter, h.proposal]
    exact h1 u
  · rw [h.named] at hl ⊢
    exact h2 u v huv l hl

theorem SameClaims.ballotLaw (hs : s.BallotLaw) : t.BallotLaw := by
  intro u p l hl
  rw [h.ballots] at hl
  rw [h.members]
  exact ⟨(hs u p l hl).1, (h.session p (hs u p l hl).2).1⟩

/-- A hold and what names it are there together. -/
theorem SameClaims.mem_hold {u : Trunk} {g : Hold} (hg : g ∈ (t.trunk u).hold) :
    ∃ g' ∈ (s.trunk u).hold, g'.owner = g.owner ∧ g'.session = g.session ∧ g'.lane = g.lane := by
  have hid := h.hold u
  rw [holdId, holdId, hg] at hid
  obtain ⟨g', hg', e⟩ := Option.map_eq_some_iff.mp hid.symm
  simp only [Prod.mk.injEq] at e
  exact ⟨g', hg', e.1, e.2.1, e.2.2⟩

theorem SameClaims.holdLaw (hs : s.HoldLaw) : t.HoldLaw := by
  intro u g hg
  obtain ⟨g', hg', eo, es, el⟩ := h.mem_hold hg
  obtain ⟨h1, h2, h3⟩ := hs u g' hg'
  rw [eo] at h2 h3
  obtain ⟨h4, h5⟩ := h.session _ h2
  exact ⟨by rw [h.members, ← el]; exact h1, h4, by rw [h5, ← es]; exact h3⟩

theorem SameClaims.favouredLaw (hs : s.FavouredLaw) : t.FavouredLaw := by
  intro u
  rw [h.favoured, hs u, favouredNow_congr (h.members u) (h.ballots u)]

theorem SameClaims.proposalLaw (hs : s.ProposalLaw) : t.ProposalLaw := by
  intro u q hq
  rw [h.proposal] at hq
  obtain ⟨h1, h2, h3⟩ := hs u q hq
  exact ⟨h1, h2, fun p => ⟨(h3 p).1, fun hr => (h.session p ((h3 p).2 hr)).1⟩⟩

end

/-- How a move changes the claims, the charter or the proposal of one trunk. -/
inductive ClaimChange (s t : State) (k : Trunk) : Prop
  /-- A ballot slot of an ATTACHED port names a member or none, and the favoured lane is that of the ballots (R57, R58). -/
  | ballot (p : Port) (choice : Option Lane) (hp : (s.port p).mode = .attached) (hc : ∀ l ∈ choice, l ∈ s.members k)
      (trunk : t.trunk k = { s.trunk k with ballots := (s.trunk k).ballots.set p.val choice, favoured := t.favouredNow k })
  /-- The hold is placed, replaced or released (R60, R61). -/
  | hold (g : Option Hold)
      (hg : ∀ h ∈ g, h.lane ∈ s.members k ∧ (s.port h.owner).mode = .attached ∧ h.session = (s.port h.owner).session)
      (trunk : t.trunk k = { s.trunk k with hold := g })
  /-- A charter is installed (R117). -/
  | install (terms : CharterTerms) (version : Pair) (hg : s.MembershipLaw → s.Grants k terms)
      (trunk : t.trunk k = { (s.trunk k).discarded terms.members with
        charter := { terms := terms, version := version }, favoured := t.favouredNow k, proposal := none })
  /-- The proposal is opened, joined or closed (R116, R118, R119). -/
  | proposal (o : Option Proposal) (hm : s.MembershipLaw → ∀ q ∈ o, s.Grants k q.terms)
      (hp : s.ProposalLaw → ∀ q ∈ o, s.Pursues q) (trunk : t.trunk k = { s.trunk k with proposal := o })

/-- What a move does to charters, claims and proposals: it leaves them, takes a departure, or changes those of one trunk. -/
inductive ClaimMove (s t : State) : Prop
  | same (h : SameClaims s t)
  | leave (p : Port) (x : PortState) (u : State) (cause : Reason) (hm : x.mode ≠ .attached) (hu : Quiet (s.setPort p x) u)
      (hd : Departs p cause [] u t)
  | one (k : Trunk) (others : ∀ u ≠ k, t.trunk u = s.trunk u) (ports : t.ports = s.ports) (change : ClaimChange s t k)

theorem SameClaims.of_eq {s t : State} (ht : t.trunks = s.trunks) (hp : t.ports = s.ports) : SameClaims s t :=
  ⟨fun u => by rw [trunk_of_trunks ht], fun u => by rw [trunk_of_trunks ht], fun u => by rw [trunk_of_trunks ht],
    fun u => by rw [trunk_of_trunks ht], fun u => by rw [trunk_of_trunks ht],
    fun p hm => by rw [port_of_ports hp]; exact ⟨hm, rfl⟩⟩

theorem ballot_claims {s : State} {k : Trunk} {p : Port} {choice : Option Lane} {after after' : List Nat}
    (hp : (s.port p).mode = .attached) (hc : ∀ l ∈ choice, l ∈ s.members k) :
    ClaimMove s (((s.setTrunk k { s.trunk k with ballots := (s.trunk k).ballots.set p.val choice }).send k .ballot .registry
      after).refavour k after') := by
  generalize hv : (s.setTrunk k { s.trunk k with ballots := (s.trunk k).ballots.set p.val choice }).send k .ballot .registry
    after = v
  have hvt : ∀ u, v.trunk u = if u = k then { s.trunk k with ballots := (s.trunk k).ballots.set p.val choice } else s.trunk u :=
    fun u => by rw [← hv, send_trunk, trunk_setTrunk]
  have ht : ∀ u, (v.refavour k after').trunk u = if u = k then { v.trunk k with favoured := v.favouredNow k } else v.trunk u :=
    fun u => by rw [State.refavour, tick_trunk, refavourHere_trunk]
  have hvk := hvt k
  have htk := ht k
  rw [if_pos rfl] at hvk htk
  have hnow : (v.refavour k after').favouredNow k = v.favouredNow k :=
    favouredNow_congr (by simp [State.members, htk]) (by rw [htk])
  refine .one k (fun u hu => by rw [ht, if_neg hu, hvt, if_neg hu]) ?_ (.ballot p choice hp hc ?_)
  · exact (refavour_books ..).ports.trans (by rw [← hv]; rfl)
  · rw [hnow, htk, hvk]

theorem Move.claims {s t : State} (h : Move s t) : ClaimMove s t := by
  cases h with
  | quiet h => exact .same h.sameClaims
  | attach p lease hm hl =>
    refine .same ⟨fun _ => rfl, fun _ => rfl, fun _ => rfl, fun _ => rfl, fun _ => rfl, fun q hq => ?_⟩
    have hne : q ≠ p := fun e => hm (e ▸ hq)
    rw [port_setPort_ne s _ hne]
    exact ⟨hq, rfl⟩
  | leave p x u cause hm hq hl hu => exact .leave p x u cause hm hu (depart_own ..)
  | bars l b after =>
    exact .same (SameClaims.trans (t := s.setLane l { s.lane l with bars := b }) (.of_eq rfl rfl) (quiet_sendForLane ..).sameClaims)
  | ballot p k choice after after' hp hc => exact ballot_claims hp hc
  | hold k g hg => exact .one k (fun u hu => trunk_setTrunk_ne s _ hu) rfl (.hold g hg (trunk_setTrunk_self ..))
  | install k terms number p after hg =>
    have h := install_spec s k terms number p after
    exact .one k h.trunks h.books.ports (.install terms _ hg h.trunk)
  | proposal k o hm hp => exact .one k (fun u hu => trunk_setTrunk_ne s _ hu) rfl (.proposal o hm hp (trunk_setTrunk_self ..))
  | trigger g =>
    exact .same (SameClaims.trans (t := { s with triggers := s.triggers.erase g }) (.of_eq rfl rfl)
      (evaluate_frame ..).trunkOnly.sameClaims)
  | expiry k kind after => exact .same (evaluate_frame ..).trunkOnly.sameClaims
  | settle k => exact .same (settleTrunk_frame ..).trunkOnly.sameClaims
  | loss k a st after rest => exact .same ((modTrunk_frame ..).trans (takeReport_frame ..)).trunkOnly.sameClaims
  | instant k => exact .same (instant_only ..).sameClaims
  | resume k after => exact .same (resumeTrunk_frame ..).trunkOnly.sameClaims

/-! ### A departure -/

section
variable {s u t : State} {p : Port} {x : PortState} {cause : Reason} (hu : Quiet (s.setPort p x) u)
  (hd : Departs p cause [] u t)
include hu hd

theorem leave_charter (k : Trunk) : (t.trunk k).charter = (s.trunk k).charter := (hd.charter k).trans (hu.sameClaims.charter k)

theorem leave_session {q : Port} (hq : q ≠ p) (hm : (s.port q).mode = .attached) :
    (t.port q).mode = .attached ∧ (t.port q).session = (s.port q).session := by
  rw [hd.ports q hq]
  have h := hu.sameClaims.session q
  rw [port_setPort_ne s x hq] at h
  exact h hm

theorem leave_proposal {k : Trunk} {q : Proposal} (hq : q ∈ (t.trunk k).proposal) :
    q ∈ (s.trunk k).proposal ∧ PortSet.has q.required p = false := by
  rw [hd.proposal, hu.sameClaims.proposal] at hq
  obtain ⟨h1, h2⟩ := Option.filter_eq_some_iff.mp hq
  exact ⟨h1, by simpa using h2⟩

theorem leave_hold {k : Trunk} {h : Hold} (hh : h ∈ (t.trunk k).hold) :
    h.owner ≠ p ∧ ∃ g ∈ (s.trunk k).hold, g.owner = h.owner ∧ g.session = h.session ∧ g.lane = h.lane := by
  rw [hd.hold] at hh
  obtain ⟨h1, h2⟩ := Option.filter_eq_some_iff.mp hh
  exact ⟨by simpa using h2, hu.sameClaims.mem_hold h1⟩

theorem leave_ballot {k : Trunk} {q : Port} {l : Lane} (hl : l ∈ (t.trunk k).ballots[q.val]) :
    q ≠ p ∧ l ∈ (s.trunk k).ballots[q.val] := by
  have hb : (t.trunk k).ballots[q.val] = if p.val = q.val then none else (s.trunk k).ballots[q.val] := by
    simp only [hd.ballots, Vector.getElem_set, hu.sameClaims.ballots, setPort_trunk]
  rw [hb] at hl
  split at hl
  · simp at hl
  · next hne => exact ⟨fun e => hne (by rw [e]), hl⟩

theorem leave_members (k : Trunk) : t.members k = s.members k := members_of_charter (leave_charter hu hd k)

theorem leave_named {k : Trunk} {l : Lane} (hl : l ∈ t.named k) : l ∈ s.named k := by
  unfold State.named at *
  rw [leave_members hu hd] at hl
  refine List.mem_append.mpr ((List.mem_append.mp hl).imp_right fun h => ?_)
  unfold State.proposedMembers at h
  split at h
  · next q hq =>
    have hq' := (leave_proposal hu hd hq).1
    simpa [State.proposedMembers, show (s.trunk k).proposal = some q from hq'] using h
  · simp at h

end

/-! ### Each law -/

/-- A trunk that is granted what it names keeps the lanes of different trunks apart. -/
theorem membershipLaw_of_grant {s t : State} {k : Trunk} (hs : s.MembershipLaw)
    (hlaw : (t.trunk k).charter.terms.Law ∧ ∀ q ∈ (t.trunk k).proposal, q.terms.Law)
    (hnamed : ∀ l ∈ t.named k, l ∈ s.named k ∨ ∀ u ≠ k, l ∉ s.named u) (hother : ∀ u ≠ k, t.trunk u = s.trunk u) :
    t.MembershipLaw := by
  obtain ⟨h1, h2⟩ := hs
  have hn : ∀ u ≠ k, t.named u = s.named u := fun u hu => by
    simp [State.named, State.members, State.proposedMembers, hother u hu]
  have apart : ∀ u ≠ k, ∀ l ∈ t.named k, l ∉ s.named u := by
    intro u hu l hl hm
    rcases hnamed l hl with h | h
    · exact h2 u k hu l hm h
    · exact h u hu hm
  refine ⟨fun u => ?_, fun u v huv l hl hm => ?_⟩
  · by_cases hu : u = k
    · rw [hu]; exact hlaw
    · rw [hother u hu]; exact h1 u
  · by_cases hu : u = k
    · subst hu
      rw [hn v huv.symm] at hm
      exact apart v huv.symm l hl hm
    · rw [hn u hu] at hl
      by_cases hv : v = k
      · subst hv
        exact apart u hu l hm hl
      · rw [hn v hv] at hm
        exact h2 u v huv l hl hm

theorem members_of_trunk {s t : State} {k : Trunk} (h : t.trunk k = s.trunk k) : t.members k = s.members k := by
  rw [State.members, h, State.members]

theorem ClaimChange.membershipLaw {s t : State} {k : Trunk} (h : ClaimChange s t k)
    (others : ∀ u ≠ k, t.trunk u = s.trunk u) (hs : s.MembershipLaw) : t.MembershipLaw := by
  cases h with
  | ballot p choice hp hc trunk =>
    refine membershipLaw_of_grant hs ?_ (fun l hl => .inl ?_) others
    · rw [trunk]
      exact hs.1 k
    · simpa [State.named, State.members, State.proposedMembers, trunk] using hl
  | hold g hg trunk =>
    refine membershipLaw_of_grant hs ?_ (fun l hl => .inl ?_) others
    · rw [trunk]
      exact hs.1 k
    · simpa [State.named, State.members, State.proposedMembers, trunk] using hl
  | install terms version hg trunk =>
    obtain ⟨hlaw, hfree⟩ := hg hs
    refine membershipLaw_of_grant hs ?_ (fun l hl => .inr fun u hu => hfree u hu l ?_) others
    · rw [trunk]
      exact ⟨hlaw, by simp⟩
    · simpa [State.named, State.members, State.proposedMembers, trunk] using hl
  | proposal o hm hp trunk =>
    refine membershipLaw_of_grant hs ?_ (fun l hl => ?_) others
    · rw [trunk]
      exact ⟨(hs.1 k).1, fun q hq => (hm hs q hq).1⟩
    · have hmem : t.members k = s.members k := by rw [State.members, trunk]; rfl
      rcases List.mem_append.mp hl with hl | hl
      · exact .inl (List.mem_append_left _ (hmem ▸ hl))
      · cases o with
        | none => simp [State.proposedMembers, trunk] at hl
        | some q => exact .inr fun u hu => (hm hs q rfl).2 u hu l (by simpa [State.proposedMembers, trunk] using hl)

theorem Move.membershipLaw {s t : State} (h : Move s t) (hs : s.MembershipLaw) : t.MembershipLaw := by
  cases h.claims with
  | same h => exact h.membershipLaw hs
  | leave p x u cause hm hu hd =>
    obtain ⟨h1, h2⟩ := hs
    refine ⟨fun k => ?_, fun k k' hk l hl hl' => h2 k k' hk l (leave_named hu hd hl) (leave_named hu hd hl')⟩
    rw [leave_charter hu hd]
    exact ⟨(h1 k).1, fun q hq => (h1 k).2 q (leave_proposal hu hd hq).1⟩
  | one k others ports change => exact change.membershipLaw others hs

theorem Move.ballotLaw {s t : State} (h : Move s t) (hs : s.BallotLaw) : t.BallotLaw := by
  cases h.claims with
  | same h => exact h.ballotLaw hs
  | leave p x u cause hm hu hd =>
    intro k q l hl
    obtain ⟨hq, hl'⟩ := leave_ballot hu hd hl
    rw [leave_members hu hd]
    exact ⟨(hs k q l hl').1, (leave_session hu hd hq (hs k q l hl').2).1⟩
  | one k others ports change =>
    intro u q l hl
    rw [port_of_ports ports]
    by_cases hk : u = k
    · subst hk
      cases change with
      | ballot p choice hp hc trunk =>
        rw [State.members, trunk]
        simp only [trunk, Vector.getElem_set] at hl
        split at hl
        · next e => exact ⟨hc l hl, Fin.ext e ▸ hp⟩
        · exact hs u q l hl
      | hold g hg trunk =>
        rw [trunk] at hl
        rw [State.members, trunk]
        exact hs u q l hl
      | install terms version hg trunk =>
        simp only [trunk, TrunkState.discarded, Vector.getElem_map, Option.mem_def, Option.filter_eq_some_iff] at hl
        rw [State.members, trunk]
        exact ⟨by simpa using hl.2, (hs u q l hl.1).2⟩
      | proposal o hm hp trunk =>
        rw [trunk] at hl
        rw [State.members, trunk]
        exact hs u q l hl
    · rw [others u hk] at hl
      rw [members_of_trunk (others u hk)]
      exact hs u q l hl

theorem Move.holdLaw {s t : State} (h : Move s t) (hs : s.HoldLaw) : t.HoldLaw := by
  cases h.claims with
  | same h => exact h.holdLaw hs
  | leave p x u cause hm hu hd =>
    intro k g hg
    obtain ⟨ho, g', hg', eo, es, el⟩ := leave_hold hu hd hg
    obtain ⟨h1, h2, h3⟩ := hs k g' hg'
    rw [eo] at h2 h3
    obtain ⟨h4, h5⟩ := leave_session hu hd ho h2
    rw [leave_members hu hd, ← el, ← es, h5]
    exact ⟨h1, h4, h3⟩
  | one k others ports change =>
    intro u g hg
    rw [port_of_ports ports]
    by_cases hk : u = k
    · subst hk
      cases change with
      | ballot p choice hp hc trunk =>
        rw [trunk] at hg
        rw [State.members, trunk]
        exact hs u g hg
      | hold g' hg' trunk =>
        rw [trunk] at hg
        rw [State.members, trunk]
        exact hg' g hg
      | install terms version hg' trunk =>
        simp only [trunk, TrunkState.discarded, Option.mem_def, Option.filter_eq_some_iff] at hg
        rw [State.members, trunk]
        exact ⟨by simpa using hg.2, (hs u g hg.1).2⟩
      | proposal o hm hp trunk =>
        rw [trunk] at hg
        rw [State.members, trunk]
        exact hs u g hg
    · rw [others u hk] at hg
      rw [members_of_trunk (others u hk)]
      exact hs u g hg

theorem Move.favouredLaw {s t : State} (h : Move s t) (hs : s.FavouredLaw) : t.FavouredLaw := by
  cases h.claims with
  | same h => exact h.favouredLaw hs
  | leave p x u cause hm hu hd =>
    intro k
    rw [hd.favoured]
    split
    · rfl
    · next hb =>
      have hbk : (t.trunk k).ballots = (s.trunk k).ballots := by
        rw [hd.ballots, hu.sameClaims.ballots, setPort_trunk]
        rw [hu.sameClaims.ballots, setPort_trunk, Option.not_isSome_iff_eq_none] at hb
        rw [← hb, Vector.set_getElem_self]
      rw [hu.sameClaims.favoured, favouredNow_congr (leave_members hu hd k) hbk]
      exact hs k
  | one k others ports change =>
    intro u
    by_cases hk : u = k
    · subst hk
      cases change with
      | ballot p choice hp hc trunk => exact congrArg TrunkState.favoured trunk
      | hold g hg trunk =>
        have hnow : t.favouredNow u = s.favouredNow u := favouredNow_congr (by simp [State.members, trunk]) (by rw [trunk])
        rw [hnow, trunk]
        exact hs u
      | install terms version hg trunk => exact congrArg TrunkState.favoured trunk
      | proposal o hm hp trunk =>
        have hnow : t.favouredNow u = s.favouredNow u := favouredNow_congr (by simp [State.members, trunk]) (by rw [trunk])
        rw [hnow, trunk]
        exact hs u
    · rw [favouredNow_congr (members_of_trunk (others u hk)) (by rw [others u hk]), others u hk]
      exact hs u

theorem Move.proposalLaw {s t : State} (h : Move s t) (hs : s.ProposalLaw) : t.ProposalLaw := by
  cases h.claims with
  | same h => exact h.proposalLaw hs
  | leave p x u cause hm hu hd =>
    intro k q hq
    obtain ⟨hq', hfree⟩ := leave_proposal hu hd hq
    obtain ⟨h1, h2, h3⟩ := hs k q hq'
    refine ⟨h1, h2, fun j => ⟨(h3 j).1, fun hr => ?_⟩⟩
    have hj : j ≠ p := by
      rintro rfl
      rw [hfree] at hr
      cases hr
    exact (leave_session hu hd hj ((h3 j).2 hr)).1
  | one k others ports change =>
    have pursued : ∀ {q}, s.Pursues q → t.Pursues q := fun ⟨h1, h2, h3⟩ =>
      ⟨h1, h2, fun j => ⟨(h3 j).1, fun hr => by rw [port_of_ports ports]; exact (h3 j).2 hr⟩⟩
    intro u q hq
    refine pursued ?_
    by_cases hk : u = k
    · subst hk
      cases change with
      | ballot p choice hp hc trunk => rw [trunk] at hq; exact hs u q hq
      | hold g hg trunk => rw [trunk] at hq; exact hs u q hq
      | install terms version hg trunk => rw [trunk] at hq; cases hq
      | proposal o hm hp trunk => rw [trunk] at hq; exact hp hs q hq
    · rw [others u hk] at hq
      exact hs u q hq

/-! ### After device reset -/

theorem IsReset.membershipLaw {r : State} (h : IsReset r) : r.MembershipLaw := by
  refine ⟨fun t => ?_, fun t u _ l hl => ?_⟩
  · rw [h.trunk]
    exact ⟨by simp [TrunkState.reset, CharterTerms.reset, CharterTerms.Law], by simp [TrunkState.reset]⟩
  · simp [h.named] at hl

theorem IsReset.ballotLaw {r : State} (h : IsReset r) : r.BallotLaw := by
  intro t p l hl
  simp [h.trunk, TrunkState.reset] at hl

theorem IsReset.holdLaw {r : State} (h : IsReset r) : r.HoldLaw := by
  intro t g hg
  simp [h.trunk, TrunkState.reset] at hg

theorem IsReset.favouredLaw {r : State} (h : IsReset r) : r.FavouredLaw := by
  intro t
  simp [State.favouredNow, h.members, State.pickFavoured, h.trunk, TrunkState.reset]

theorem IsReset.proposalLaw {r : State} (h : IsReset r) : r.ProposalLaw := by
  intro t q hq
  simp [h.trunk, TrunkState.reset] at hq

/-- Settles O56: each law is kept by each move. -/
theorem everyStepKeepsClaimAndProposalLaws : Obligations.EveryStepKeepsClaimAndProposalLaws := by
  intro s r h hr
  refine step_keeps (P := fun s => s.MembershipLaw ∧ s.BallotLaw ∧ s.HoldLaw ∧ s.FavouredLaw ∧ s.ProposalLaw)
    (fun u rest ⟨h1, h2, h3, h4, h5⟩ => ?_) (fun hm ⟨h1, h2, h3, h4, h5⟩ => ?_) (fun hd => ?_) h hr
  · have same : SameClaims u { u with pending := rest } := SameClaims.of_eq rfl rfl
    exact ⟨same.membershipLaw h1, same.ballotLaw h2, same.holdLaw h3, same.favouredLaw h4, same.proposalLaw h5⟩
  · exact ⟨hm.membershipLaw h1, hm.ballotLaw h2, hm.holdLaw h3, hm.favouredLaw h4, hm.proposalLaw h5⟩
  · have h := deviceReset_isReset hd
    exact ⟨h.membershipLaw, h.ballotLaw, h.holdLaw, h.favouredLaw, h.proposalLaw⟩

end Sys2Proof.Machine
end

