-- ==== Sys2Proof/Proofs/RecordLaws.lean ====
section
/-! SUPPORT. Every step keeps the laws of selection records, emitters, histories and lanes: a move changes those of one trunk at most,
but for TD and the timers. -/

namespace Sys2Proof.Machine

/-! ## Align wait -/

/-- The align-wait count is at most 16, and at 16 its expiry is among the reports rs (R38). -/
def TrunkState.Waits (x : TrunkState) (rs : List Report) : Prop :=
  x.sel.alignWait ≤ alignWaitLimit ∧ (x.sel.alignWait = alignWaitLimit → ∃ r ∈ rs, r.kind = .alignWaitExpiry)

theorem TrunkState.Waits.mono {x y : TrunkState} {rs : List Report} (h : x.Waits rs)
    (e : y.sel.alignWait = 0 ∨ y.sel.alignWait = x.sel.alignWait) : y.Waits rs := by
  rcases e with e | e
  · exact ⟨by rw [e]; exact Nat.zero_le _, fun h16 => by rw [e] at h16; cases h16⟩
  · exact ⟨e ▸ h.1, fun h16 => h.2 (e ▸ h16)⟩

theorem TrunkState.selectionLaw_iff (x : TrunkState) :
    x.SelectionLaw ↔ x.SelFit ∧ x.Waits x.reports ∧ ∀ r ∈ x.reports, r.kind.within = false :=
  ⟨fun ⟨h1, h2, h3, h4, h5⟩ => ⟨⟨h1, h4⟩, ⟨h2, h3⟩, h5⟩, fun ⟨⟨h1, h4⟩, ⟨h2, h3⟩, h5⟩ => ⟨h1, h2, h3, h4, h5⟩⟩

/-! ## Reports taken -/

/-- The handling of an align-wait expiry leaves no count at 16 (R98). -/
theorem handleAlignWait_wait {s : State} {t : Trunk} (hs : (s.trunk t).sel.Shape) (after : List Nat) :
    ((s.handleAlignWait t after).trunk t).sel.alignWait = 0 ∨
      ((s.handleAlignWait t after).trunk t).sel.alignWait = (s.trunk t).sel.alignWait ∧
        (s.trunk t).sel.alignWait ≠ alignWaitLimit := by
  obtain ⟨-, h2, -, h4, -⟩ := hs
  unfold State.handleAlignWait
  dsimp only
  split
  · split
    · simp [State.complete]
    · next h16 => exact .inr ⟨rfl, h16⟩
  · next hne =>
    refine .inl (h4 fun hm => ?_)
    obtain ⟨b, hb⟩ := Option.ne_none_iff_exists'.mp (mt h2.mp (fun h => h hm))
    exact hne b hm hb

/-- What taking a report does to its trunk's selection record, once the handling of the report has been done: as an action of the
selector. -/
theorem takeReport_turns (s : State) (t : Trunk) (r : Report) : Turns t (s.handleReport t r.kind r.after) (s.takeReport t r) := by
  unfold State.takeReport
  dsimp only
  split
  · exact idle_turns ..
  · exact evaluate_turns ..

/-- A judgement is handled when the judging of it has cleared the flag, any other report when the flag is the pending record's. -/
def TrunkState.Ready (x : TrunkState) (k : ReportKind) : Prop :=
  x.sel.Shape ∧ (match k with
    | .judgement _ _ => x.em.immediatePending = false
    | _ => x.SelFit)

theorem TrunkState.ready_of_selFit {x : TrunkState} {k : ReportKind} (h : x.SelFit) (hk : ∀ l d, k ≠ .judgement l d) : x.Ready k := by
  cases k with
  | judgement l d => exact absurd rfl (hk l d)
  | completion b => exact ⟨h.1, h⟩
  | alignmentLoss a st => exact ⟨h.1, h⟩
  | alignWaitExpiry => exact ⟨h.1, h⟩

theorem handleReport_fit {s : State} {t : Trunk} {k : ReportKind} (h : (s.trunk t).Ready k) (after : List Nat) :
    ((s.handleReport t k after).trunk t).SelFit := by
  obtain ⟨hs, hk⟩ := h
  cases k with
  | judgement l d => exact handleJudgement_fit hs hk l d after
  | completion b => exact (handleReport_turns s t (k := .completion b) (by simp) after).sel hk
  | alignmentLoss a st => exact (handleReport_turns s t (k := .alignmentLoss a st) (by simp) after).sel hk
  | alignWaitExpiry => exact (handleReport_turns s t (k := .alignWaitExpiry) (by simp) after).sel hk

theorem takeReport_selFit {s : State} {t : Trunk} {r : Report} (h : (s.trunk t).Ready r.kind) :
    ((s.takeReport t r).trunk t).SelFit := (takeReport_turns s t r).sel (handleReport_fit h r.after)

theorem handleReport_wait {s : State} {t : Trunk} {k : ReportKind} (h : (s.trunk t).Ready k) (after : List Nat) :
    ((s.handleReport t k after).trunk t).sel.alignWait = 0 ∨
      ((s.handleReport t k after).trunk t).sel.alignWait = (s.trunk t).sel.alignWait ∧
        (k = .alignWaitExpiry → (s.trunk t).sel.alignWait ≠ alignWaitLimit) := by
  cases k with
  | judgement l d =>
    refine .inr ⟨?_, by simp⟩
    show ((s.handleJudgement t l d after).trunk t).sel.alignWait = _
    rw [handleJudgement_sel]
  | completion b =>
    exact (handleReport_turns s t (k := .completion b) (by simp) after).wait.imp_right fun e => ⟨e, by simp⟩
  | alignmentLoss a st =>
    exact (handleReport_turns s t (k := .alignmentLoss a st) (by simp) after).wait.imp_right fun e => ⟨e, by simp⟩
  | alignWaitExpiry => exact (handleAlignWait_wait h.1 after).imp_right fun ⟨e, h16⟩ => ⟨e, fun _ => h16⟩

/-- A report taken is outstanding no more, and the law of align wait holds of those left. -/
theorem takeReport_waits {s : State} {t : Trunk} {r : Report} {rs : List Report} (h : (s.trunk t).Ready r.kind)
    (hw : (s.trunk t).Waits (r :: rs)) : ((s.takeReport t r).trunk t).Waits rs := by
  suffices hh : ((s.handleReport t r.kind r.after).trunk t).Waits rs from hh.mono (takeReport_turns s t r).wait
  rcases handleReport_wait h r.after with e | ⟨e, h16⟩
  · exact ⟨by rw [e]; exact Nat.zero_le _, fun h => by rw [e] at h; cases h⟩
  · refine ⟨e ▸ hw.1, fun hcount => ?_⟩
    rw [e] at hcount
    obtain ⟨r', hr', hk⟩ := hw.2 hcount
    rcases List.mem_cons.mp hr' with rfl | hr'
    · exact absurd hcount (h16 hk)
    · exact ⟨r', hr', hk⟩

/-- Reports of which none is a judgement are taken one after another. -/
theorem takeReports_fit {t : Trunk} (rs out : List Report) (hk : ∀ r ∈ rs, ∀ l d, r.kind ≠ .judgement l d) : ∀ {s : State},
    (s.trunk t).SelFit → (s.trunk t).Waits (rs ++ out) →
      ((s.takeReports t rs).trunk t).SelFit ∧ ((s.takeReports t rs).trunk t).Waits out := by
  induction rs with
  | nil => exact fun h hw => ⟨h, hw⟩
  | cons r rs ih =>
    intro s h hw
    have hr := TrunkState.ready_of_selFit h (hk r (by simp))
    exact ih (fun r' h' => hk r' (by simp [h'])) (takeReport_selFit hr) (takeReport_waits hr hw)

theorem not_judgement_of_within {k : ReportKind} (h : k.within = false) (l : Option Lane) (d : SwitchKind) : k ≠ .judgement l d := by
  rintro rfl
  cases h

theorem settleTrunk_selectionLaw {s : State} {t : Trunk} (h : (s.trunk t).SelectionLaw) :
    ((s.settleTrunk t).trunk t).SelectionLaw := by
  obtain ⟨hf, hw, hr⟩ := (TrunkState.selectionLaw_iff _).mp h
  have hout := (settleTrunk_keeps s t).1
  unfold State.settleTrunk at hout ⊢
  generalize hu : (s.modTrunk t fun x => { x with reports := [] }) = u at hout ⊢
  have hut : u.trunk t = { s.trunk t with reports := [] } := by rw [← hu]; simp
  obtain ⟨h1, h2⟩ := takeReports_fit (s.trunk t).reports [] (fun r h => not_judgement_of_within (hr r h)) (s := u) (t := t)
    (by rw [hut]; exact hf) (by rw [hut, List.append_nil]; exact hw)
  refine (TrunkState.selectionLaw_iff _).mpr ⟨h1, ?_, ?_⟩
  · rw [hout]; exact h2
  · rw [hout]; simp

/-! ## An emission instant -/

/-- The reports of an emission, with the stamps that they are handed on with. -/
def handedReports (before after : List Nat) (ks : List ReportKind) : List Report :=
  ks.map fun k => { kind := k, after := if k.beforeEmission then before else after }

theorem instant_eq (s : State) (t : Trunk) : s.instant t =
    (((s.emissionSteps t).1.modTrunk t fun x => { x with
        reports := (handedReports (s.handOn (.emitter t) []) ((s.emissionSteps t).1.handOn (.emitter t) []) (s.emissionSteps t).2).filter
          fun k => !k.kind.within }).takeReports t
      ((handedReports (s.handOn (.emitter t) []) ((s.emissionSteps t).1.handOn (.emitter t) []) (s.emissionSteps t).2).filter
        fun k => k.kind.within)) := by
  have e : ((s.emissionSteps t).2.map fun k =>
      ({ kind := k, after := (if k.beforeEmission then s else (s.emissionSteps t).1).handOn (.emitter t) [] } : Report)) =
      handedReports (s.handOn (.emitter t) []) ((s.emissionSteps t).1.handOn (.emitter t) []) (s.emissionSteps t).2 := by
    refine List.map_congr_left fun k _ => ?_
    split <;> rfl
  rw [State.instant, ← e]

theorem mem_handedReports {before after : List Nat} {ks : List ReportKind} {r : Report} (h : r ∈ handedReports before after ks) :
    r.kind ∈ ks := by
  obtain ⟨k, hk, rfl⟩ := List.mem_map.mp h
  exact hk

theorem expiry_mem_handedReports {before after : List Nat} {ks : List ReportKind} (h : .alignWaitExpiry ∈ ks) :
    ∃ r ∈ (handedReports before after ks).filter fun k => !k.kind.within, r.kind = .alignWaitExpiry :=
  ⟨_, List.mem_filter.mpr ⟨List.mem_map.mpr ⟨_, h, rfl⟩, rfl⟩, rfl⟩

/-- The emission keeps the selection record's shape: only the align-wait count advances, in SWITCHING. -/
theorem Steps.shape {t : Trunk} {s : State} {r : State × List ReportKind} (h : Steps t s r) (hs : (s.trunk t).sel.Shape) :
    (r.1.trunk t).sel.Shape := by
  obtain ⟨e, w, htrunk⟩ := h.trunk
  have hwait := h.wait
  rw [htrunk] at hwait ⊢
  obtain ⟨h1, h2, h3, h4, h5, h6⟩ := hs
  refine ⟨h1, h2, h3, fun hm => ?_, h5, h6⟩
  rcases hwait with hw | ⟨hsw, -⟩
  · exact hw.trans (h4 hm)
  · exact absurd hsw hm

/-- Before the instant no count stands at 16, so one that does after the emission has its expiry reported. -/
theorem Steps.waits {t : Trunk} {s : State} {r : State × List ReportKind} (h : Steps t s r) (hw : (s.trunk t).Waits []) :
    (r.1.trunk t).sel.alignWait ≤ alignWaitLimit ∧
      ((r.1.trunk t).sel.alignWait = alignWaitLimit → .alignWaitExpiry ∈ r.2) := by
  obtain ⟨hle, h16⟩ := hw
  have hne : (s.trunk t).sel.alignWait ≠ alignWaitLimit := fun h => by simpa using h16 h
  rcases h.wait with e | ⟨-, e, hr⟩
  · exact ⟨e ▸ hle, fun h => absurd (e ▸ h) hne⟩
  · exact ⟨by omega, hr⟩

/-- What the taking of the reports of an emission needs: a judgement comes first, once its flag is cleared. -/
def TrunkState.ReadyFor (x : TrunkState) (rs : List Report) : Prop :=
  x.SelFit ∧ (∀ r ∈ rs, ∀ l d, r.kind ≠ .judgement l d) ∨
    ∃ r rest, rs = r :: rest ∧ x.Ready r.kind ∧ ∀ r ∈ rest, ∀ l d, r.kind ≠ .judgement l d

theorem takeReports_readyFor {s : State} {t : Trunk} {rs out : List Report} (h : (s.trunk t).ReadyFor rs)
    (hw : (s.trunk t).Waits (rs ++ out)) :
    ((s.takeReports t rs).trunk t).SelFit ∧ ((s.takeReports t rs).trunk t).Waits out := by
  rcases h with ⟨hf, hk⟩ | ⟨r, rest, rfl, hr, hk⟩
  · exact takeReports_fit rs out hk hf hw
  · exact takeReports_fit rest out hk (s := s.takeReport t r) (takeReport_selFit hr) (takeReport_waits hr hw)

theorem Steps.readyFor {t : Trunk} {s : State} {r : State × List ReportKind} (h : Steps t s r) (hs : (s.trunk t).SelFit)
    {before after : List Nat} {out : List Report} :
    ({ r.1.trunk t with reports := out } : TrunkState).ReadyFor ((handedReports before after r.2).filter fun k => k.kind.within) := by
  have hshape := h.shape hs.1
  obtain ⟨e, w, htrunk⟩ := h.trunk
  rcases h.judged with ⟨a, d, rest, hr, hrest, hclear⟩ | ⟨hnone, hsame⟩
  · refine .inr ⟨_, (handedReports before after rest).filter fun k => k.kind.within, by rw [hr]; rfl, ⟨hshape, hclear⟩, ?_⟩
    intro r' hr' l d hk
    exact hrest l d (hk ▸ mem_handedReports (List.mem_of_mem_filter hr'))
  · refine .inl ⟨⟨hshape, ?_⟩, fun r' hr' l d hk => hnone l d (hk ▸ mem_handedReports (List.mem_of_mem_filter hr'))⟩
    show (r.1.trunk t).em.immediatePending = true ↔ (r.1.trunk t).sel.pendingSwitch ≠ none
    rw [hsame, htrunk]
    exact hs.2

theorem instant_selectionLaw {s : State} {t : Trunk} (hr : (s.trunk t).reports = []) (h : (s.trunk t).SelectionLaw) :
    ((s.instant t).trunk t).SelectionLaw := by
  obtain ⟨hf, hw, -⟩ := (TrunkState.selectionLaw_iff _).mp h
  rw [hr] at hw
  have hsteps := emissionSteps_steps s t
  rw [instant_eq]
  generalize s.emissionSteps t = e at hsteps ⊢
  generalize s.handOn (.emitter t) [] = before
  generalize e.1.handOn (.emitter t) [] = after
  obtain ⟨hle, h16⟩ := hsteps.waits hw
  have hready := hsteps.readyFor hf (before := before) (after := after)
    (out := (handedReports before after e.2).filter fun k => !k.kind.within)
  generalize hu : (e.1.modTrunk t fun x => { x with reports := (handedReports before after e.2).filter fun k => !k.kind.within }) = u
  have hut : u.trunk t = { e.1.trunk t with reports := (handedReports before after e.2).filter fun k => !k.kind.within } := by
    rw [← hu]; simp
  rw [← hut] at hready
  have hwu : (u.trunk t).Waits ((handedReports before after e.2).filter (fun k => k.kind.within) ++
      (handedReports before after e.2).filter fun k => !k.kind.within) := by
    rw [hut]
    refine ⟨hle, fun h => ?_⟩
    obtain ⟨r, hr, hk⟩ := expiry_mem_handedReports (before := before) (after := after) (h16 h)
    exact ⟨r, List.mem_append_right _ hr, hk⟩
  obtain ⟨h1, h2⟩ := takeReports_readyFor hready hwu
  have hout := (takeReports_keeps t ((handedReports before after e.2).filter fun k => k.kind.within) u).1
  rw [hut] at hout
  refine (TrunkState.selectionLaw_iff _).mpr ⟨h1, by rw [hout]; exact h2, ?_⟩
  rw [hout]
  intro r hr
  simpa using (List.mem_filter.mp hr).2

theorem instant_fit (s : State) (t : Trunk) (h : (s.trunk t).EmitterFit) : ((s.instant t).trunk t).EmitterFit := by
  have hfit := (emissionSteps_steps s t).fit h
  rw [instant_eq]
  refine (takeReports_keeps ..).2 ?_
  rw [modTrunk_eq, trunk_setTrunk_self]
  generalize s.emissionSteps t = e at hfit ⊢
  obtain ⟨hbalanced, hmisalign, hhistory⟩ := hfit
  exact ⟨hbalanced, hmisalign, hhistory⟩

/-! ## The moves on selection records and emitters -/

/-- Selection record, emitter, history and reports stay, but for TD and the timers, of which an IDLE one stays IDLE. -/
structure TrunkState.Kept (x y : TrunkState) : Prop where
  sel : y.sel = { x.sel with holdOff := y.sel.holdOff, restore := y.sel.restore }
  em : y.em = { x.em with td := y.em.td }
  history : y.history = x.history
  reports : y.reports = x.reports
  holdOff : x.sel.holdOff = .idle → y.sel.holdOff = .idle
  restore : x.sel.restore = .idle → y.sel.restore = .idle

theorem TrunkState.Kept.of_eq {x y : TrunkState} (hs : y.sel = x.sel) (he : y.em = x.em) (hh : y.history = x.history)
    (hr : y.reports = x.reports) : x.Kept y := ⟨by rw [hs], by rw [he], hh, hr, by rw [hs]; exact id, by rw [hs]; exact id⟩

theorem TrunkState.Quiet.kept {x y : TrunkState} (h : x.Quiet y) : x.Kept y := by
  obtain ⟨he, h1, h2⟩ := h
  exact ⟨by rw [he], by rw [he], by rw [he], by rw [he], h1, h2⟩

theorem TrunkState.Kept.trans {x y z : TrunkState} (h : x.Kept y) (h' : y.Kept z) : x.Kept z :=
  ⟨by rw [h'.sel, h.sel], by rw [h'.em, h.em], h'.history.trans h.history, h'.reports.trans h.reports,
    h'.holdOff ∘ h.holdOff, h'.restore ∘ h.restore⟩

theorem TrunkState.Kept.emitterFit {x y : TrunkState} (h : x.Kept y) (hx : x.EmitterFit) : y.EmitterFit := by
  obtain ⟨h1, h2, h3⟩ := hx
  refine ⟨?_, ?_, by rw [h.history]; exact h3⟩
  · rw [h.em]; exact h1
  · rw [h.em]; exact h2

theorem TrunkState.Kept.selectionLaw {x y : TrunkState} (h : x.Kept y) (hx : x.SelectionLaw) : y.SelectionLaw := by
  obtain ⟨⟨h1, h2, h3, h4, h5, h6⟩, hle, h16, hp, hr⟩ := hx
  have hi := h.holdOff
  have hj := h.restore
  have hsel := h.sel
  have hem := h.em
  refine ⟨?_, ?_, ?_, ?_, by rw [h.reports]; exact hr⟩
  · rw [hsel]
    exact ⟨h1, h2, h3, h4, fun hd => ⟨hi (h5 hd).1, hj (h5 hd).2⟩, h6⟩
  · rw [hsel]; exact hle
  · rw [hsel, h.reports]; exact h16
  · rw [hsel, hem]; exact hp

/-- What a move does to selection records and emitters: it keeps them, or takes one trunk's selector or emitter further. -/
inductive SelectorMove (s t : State) : Prop
  | kept (h : ∀ u : Trunk, (s.trunk u).Kept (t.trunk u))
  | one (k : Trunk) (others : ∀ u ≠ k, t.trunk u = s.trunk u) (fit : (s.trunk k).EmitterFit → (t.trunk k).EmitterFit)
      (law : (s.trunk k).SelectionLaw → (t.trunk k).SelectionLaw)

theorem Quiet.selector {s t : State} (h : Quiet s t) : SelectorMove s t := .kept fun u => (h.trunks u).kept

theorem Bookkeeping.kept {s t : State} {after : List Nat} (h : Bookkeeping after s t) (u : Trunk) : (s.trunk u).Kept (t.trunk u) :=
  .of_eq (h.sel u) (h.em u) (h.history u) (h.reports u)

theorem kept_setTrunk {s : State} {k : Trunk} {x : TrunkState} (h : (s.trunk k).Kept x) (u : Trunk) :
    (s.trunk u).Kept ((s.setTrunk k x).trunk u) := by
  rw [trunk_setTrunk]
  split
  · next e => exact e ▸ h
  · exact .of_eq rfl rfl rfl rfl

theorem charter_setTrunk (s : State) (k : Trunk) (x : TrunkState) (u : Trunk)
    (h : x.charter = (s.trunk k).charter := by rfl) : ((s.setTrunk k x).trunk u).charter = (s.trunk u).charter := by
  rw [trunk_setTrunk]
  split
  · next e => rw [h, e]
  · rfl

/-- What setting a ballot slot leaves as it is, or but adds to (R57). -/
theorem ballot_kept (s : State) (p : Port) (k : Trunk) (choice : Option Lane) (after after' : List Nat) :
    let t := ((s.setTrunk k { s.trunk k with ballots := (s.trunk k).ballots.set p.val choice }).send k .ballot .registry
      after).refavour k after'
    t.lanes = s.lanes ∧ s.triggers ⊆ t.triggers ∧ ∀ u, (t.trunk u).charter = (s.trunk u).charter ∧ (s.trunk u).Kept (t.trunk u) := by
  generalize hv : (s.setTrunk k { s.trunk k with ballots := (s.trunk k).ballots.set p.val choice }).send k .ballot .registry
    after = v
  dsimp only
  have hvt : ∀ u, v.trunk u =
      (s.setTrunk k { s.trunk k with ballots := (s.trunk k).ballots.set p.val choice }).trunk u := fun u => by rw [← hv]; rfl
  have hd := refavourHere_only v k after'
  refine ⟨hd.lanes.trans (by rw [← hv]; rfl), ?_, fun u => ⟨?_, ?_⟩⟩
  · show s.triggers ⊆ (v.refavourHere k after').triggers
    rw [refavourHere_triggers, ← hv]
    exact List.subset_append_left ..
  · refine Eq.trans ?_ (charter_setTrunk s k { s.trunk k with ballots := (s.trunk k).ballots.set p.val choice } u)
    rw [← hvt, ← hd.trunks u]
    rfl
  · refine TrunkState.Kept.trans ?_ ((refavour_books v k after').kept u)
    rw [hvt]
    exact kept_setTrunk (by exact .of_eq rfl rfl rfl rfl) u

theorem Turns.selectionLaw {t : Trunk} {s r : State} (h : Turns t s r) (hs : (s.trunk t).SelectionLaw) : (r.trunk t).SelectionLaw := by
  obtain ⟨hf, hw, hr⟩ := (TrunkState.selectionLaw_iff _).mp hs
  exact (TrunkState.selectionLaw_iff _).mpr ⟨h.sel hf, by rw [h.reports]; exact hw.mono h.wait, by rw [h.reports]; exact hr⟩

theorem Turns.selector {t : Trunk} {s r : State} (h : Turns t s r) (hf : SelFrame t s r) : SelectorMove s r :=
  .one t hf.trunks h.fit h.selectionLaw

theorem loss_selector {s : State} {t : Trunk} {a : Option Lane} {st : List (Lane × AlignStatus)} {after : List Nat}
    {rest : List Report} (h : (s.trunk t).reports = ⟨.alignmentLoss a st, after⟩ :: rest) :
    SelectorMove s ((s.modTrunk t fun x => { x with reports := rest }).takeReport t ⟨.alignmentLoss a st, after⟩) := by
  generalize hu : (s.modTrunk t fun x => { x with reports := rest }) = u
  have hut : u.trunk t = { s.trunk t with reports := rest } := by rw [← hu]; simp
  have htake := takeReport_keeps u t ⟨.alignmentLoss a st, after⟩
  rw [hut] at htake
  refine .one t (fun k hk => ?_) htake.2 fun hlaw => ?_
  · rw [(takeReport_frame ..).trunks k hk, ← hu]
    simp [hk]
  · obtain ⟨hf, hw, hr⟩ := (TrunkState.selectionLaw_iff _).mp hlaw
    rw [h] at hw hr
    have hready : (u.trunk t).Ready (.alignmentLoss a st) := by rw [hut]; exact ⟨hf.1, hf⟩
    refine (TrunkState.selectionLaw_iff _).mpr ⟨takeReport_selFit hready, ?_, ?_⟩
    · rw [htake.1]
      exact takeReport_waits hready (by rw [hut]; exact hw)
    · rw [htake.1]
      exact fun r hr' => hr r (List.mem_cons_of_mem _ hr')

theorem Move.selector {s t : State} (h : Move s t) : SelectorMove s t := by
  cases h with
  | quiet h => exact h.selector
  | attach p lease => exact .kept fun u => .of_eq rfl rfl rfl rfl
  | leave p x u cause hm hq hl hu => exact .kept fun k => (hu.trunks k).kept.trans ((depart_books ..).kept k)
  | bars l b after =>
    exact .kept fun u => ((quiet_sendForLane (s.setLane l { s.lane l with bars := b }) l .bar .registry after).trunks u).kept
  | ballot p k choice after after' =>
    exact .kept fun u => ((ballot_kept s p k choice after after').2.2 u).2
  | hold k g => exact .kept (kept_setTrunk (.of_eq rfl rfl rfl rfl))
  | install k terms number p after => exact .kept (install_spec ..).books.kept
  | proposal k o => exact .kept (kept_setTrunk (.of_eq rfl rfl rfl rfl))
  | trigger g =>
    have h := (evaluate_turns { s with triggers := s.triggers.erase g } g.trunk g.kind g.after).selector (evaluate_frame ..)
    cases h with
    | kept h => exact .kept h
    | one k others fit law => exact .one k others fit law
  | expiry k kind after => exact (evaluate_turns ..).selector (evaluate_frame ..)
  | settle k => exact .one k (settleTrunk_frame ..).trunks (settleTrunk_keeps s k).2 settleTrunk_selectionLaw
  | loss k a st after rest h => exact loss_selector h
  | instant k hd hr => exact .one k (instant_only s k).trunks (instant_fit s k) (instant_selectionLaw hr)
  | resume k after => exact (resumeTrunk_turns ..).selector (resumeTrunk_frame ..)

theorem SelectorMove.emitterFit {s t : State} (h : SelectorMove s t) (u : Trunk) (hu : (s.trunk u).EmitterFit) :
    (t.trunk u).EmitterFit := by
  cases h with
  | kept h => exact (h u).emitterFit hu
  | one k others fit law =>
    by_cases e : u = k
    · subst e; exact fit hu
    · rw [others u e]; exact hu

theorem SelectorMove.selectionLaw {s t : State} (h : SelectorMove s t) (hs : s.SelectionLaw) : t.SelectionLaw := by
  intro u
  cases h with
  | kept h => exact (h u).selectionLaw (hs u)
  | one k others fit law =>
    by_cases e : u = k
    · subst e; exact law (hs u)
    · rw [others u e]; exact hs u

/-! ## Emitters and histories -/

theorem emitterLaws_iff (s : State) : s.CounterLaw ∧ s.MisalignLaw ∧ s.HistoryLaw ↔ ∀ u : Trunk, (s.trunk u).EmitterFit :=
  ⟨fun ⟨h1, h2, h3⟩ u => ⟨h1 u, h2 u, h3 u⟩, fun h => ⟨fun u => (h u).1, fun u => (h u).2.1, fun u => (h u).2.2⟩⟩

theorem IsReset.emitterFit {r : State} (h : IsReset r) (u : Trunk) : (r.trunk u).EmitterFit := by
  rw [h.trunk]
  exact ⟨by decide, by decide, by decide⟩

/-- Settles O58: a trunk's emitter and history stay, or are taken further by work of its emitter and selector that keeps their law. -/
theorem everyStepKeepsEmitterLaws : Obligations.EveryStepKeepsEmitterLaws := by
  intro s r h hr
  rw [emitterLaws_iff] at h ⊢
  exact step_keeps (P := fun s => ∀ u : Trunk, (s.trunk u).EmitterFit) (fun _ _ h => h)
    (fun hm h u => hm.selector.emitterFit u (h u)) (fun hd u => (deviceReset_isReset hd).emitterFit u) h hr

/-! ## Lanes -/

/-- A lane's record after a move: a quiet change of the one before; or the receiver is kept, and no block came into the buffer, which is
empty where the lane has left its trunk. -/
inductive LaneMove (s t : State) (l : Lane) : Prop
  | quiet (h : (s.lane l).Quiet (s.trunkOf l ≠ none) (t.lane l)) (member : t.trunkOf l = s.trunkOf l)
  | kept (rx : (t.lane l).rx = (s.lane l).rx) (buffer : (t.lane l).buffer.Sublist (s.lane l).buffer)
      (member : t.trunkOf l = none → s.trunkOf l = none ∨ (t.lane l).buffer = [])

/-- Lane l's law (R4, R18, R24). -/
def State.LaneFit (s : State) (l : Lane) : Prop :=
  (s.lane l).rx.Law ∧ (s.lane l).rx.GradeLaw ∧ (s.lane l).buffer.length ≤ bufferLimit ∧
    (s.trunkOf l = none → (s.lane l).buffer = [])

theorem LaneMove.laneFit {s t : State} {l : Lane} (h : LaneMove s t l) (hs : s.LaneFit l) : t.LaneFit l := by
  obtain ⟨hlaw, hgrade, hlen, hempty⟩ := hs
  cases h with
  | quiet h member =>
    refine ⟨h.law hlaw, h.grade hlaw hgrade, h.length hlen, fun hn => ?_⟩
    rw [member] at hn
    exact h.empty (not_not.mpr hn) (hempty hn)
  | kept rx buffer member =>
    refine ⟨rx ▸ hlaw, rx ▸ hgrade, buffer.length_le.trans hlen, fun hn => ?_⟩
    rcases member hn with e | e
    · exact List.sublist_nil.mp (hempty e ▸ buffer)
    · exact e

theorem LaneMove.of_lanes {s t : State} (hl : t.lanes = s.lanes) (hc : ∀ u : Trunk, (t.trunk u).charter = (s.trunk u).charter)
    (l : Lane) : LaneMove s t l :=
  .quiet (by rw [lane_of_lanes hl]; exact .refl ..) (trunkOf_congr hc l)

theorem setTrunk_laneMove (s : State) (k : Trunk) (x : TrunkState) (l : Lane)
    (h : x.charter = (s.trunk k).charter := by rfl) : LaneMove s (s.setTrunk k x) l :=
  LaneMove.of_lanes (s := s) (t := s.setTrunk k x) rfl (fun u => charter_setTrunk s k x u h) l

theorem SelFrame.laneMove {k : Trunk} {s t : State} (h : SelFrame k s t) (l : Lane) : LaneMove s t l :=
  .of_lanes h.lanes h.trunkOnly.sameClaims.charter l

/-- An install empties the buffers of the lanes that leave the charter (R109). -/
theorem Installs.laneMove {k : Trunk} {terms : CharterTerms} {number : Pair} {p : Port} {after : List Nat} {s r : State}
    (h : Installs k terms number p after s r) (l : Lane) : LaneMove s r l := by
  refine .kept (h.books.rx l) ?_ fun hn => ?_
  · rw [h.lane]
    split
    · exact List.nil_sublist _
    · exact List.Sublist.refl _
  · by_cases hl : l ∈ s.members k
    · right
      have hout : l ∉ terms.members := fun hm => trunkOf_eq_none_iff.mp hn k (by rw [State.members, h.trunk]; exact hm)
      rw [h.lane, if_pos ⟨hl, hout⟩]
    · refine .inl (trunkOf_eq_none_iff.mpr fun u hu => ?_)
      by_cases e : u = k
      · exact hl (e ▸ hu)
      · refine trunkOf_eq_none_iff.mp hn u ?_
        rw [State.members, h.trunks u e]
        exact hu

theorem Move.lane {s t : State} (h : Move s t) (l : Lane) : LaneMove s t l := by
  cases h with
  | quiet h => exact .quiet (h.lanes l) (trunkOf_congr h.sameClaims.charter l)
  | attach p lease => exact LaneMove.of_lanes (s := s) (t := s.setPort p _) rfl (fun _ => rfl) l
  | leave p x u cause hm hq hl hu =>
    have hd := depart_own u p cause
    refine .quiet ?_ (trunkOf_congr (fun k => (hd.charter k).trans (hu.sameClaims.charter k)) l)
    rw [lane_of_lanes hd.lanes]
    exact hu.lanes l
  | bars m b after =>
    have hq := quiet_sendForLane (s.setLane m { s.lane m with bars := b }) m .bar .registry after
    have hlane := hq.lanes l
    rw [setLane_trunkOf] at hlane
    have e : ((s.setLane m { s.lane m with bars := b }).lane l).rx = (s.lane l).rx ∧
        ((s.setLane m { s.lane m with bars := b }).lane l).buffer = (s.lane l).buffer := by
      rw [lane_setLane]
      split
      · next e => exact e ▸ ⟨rfl, rfl⟩
      · exact ⟨rfl, rfl⟩
    refine .kept ?_ ?_ fun hn => ?_
    · rw [sendForLane_lane, e.1]
    · rw [sendForLane_lane, e.2]
    · rw [sendForLane_trunkOf, setLane_trunkOf] at hn
      exact .inl hn
  | ballot p k choice after after' hp hc =>
    obtain ⟨hl, -, ht⟩ := ballot_kept s p k choice after after'
    exact .of_lanes hl (fun u => (ht u).1) l
  | hold k g => exact setTrunk_laneMove s k _ l
  | install k terms number p after => exact (install_spec ..).laneMove l
  | proposal k o => exact setTrunk_laneMove s k _ l
  | trigger g =>
    have h := evaluate_frame { s with triggers := s.triggers.erase g } g.trunk g.kind g.after
    exact LaneMove.of_lanes (s := s) h.lanes h.trunkOnly.sameClaims.charter l
  | expiry k kind after => exact (evaluate_frame ..).laneMove l
  | settle k => exact (settleTrunk_frame ..).laneMove l
  | loss k a st after rest h => exact ((modTrunk_frame ..).trans (takeReport_frame ..)).laneMove l
  | instant k hd hr =>
    have h := instant_only s k
    refine .kept (h.rx l) ((instant_emission s k).buffers l) fun hn => .inl ?_
    rw [trunkOf_congr h.sameClaims.charter] at hn
    exact hn
  | resume k after => exact (resumeTrunk_frame ..).laneMove l

theorem laneLaws_iff (s : State) : s.ReceiverLaw ∧ s.GradeLaw ∧ s.BufferLaw ↔ ∀ l : Lane, s.LaneFit l :=
  ⟨fun ⟨h1, h2, h3⟩ l => ⟨h1 l, h2 l, h3 l⟩, fun h => ⟨fun l => (h l).1, fun l => (h l).2.1, fun l => (h l).2.2⟩⟩

theorem IsReset.laneFit {r : State} (h : IsReset r) (l : Lane) : r.LaneFit l := by
  rw [State.LaneFit, h.lane]
  exact ⟨by decide, by decide, by decide, fun _ => rfl⟩

/-- Settles O59: a lane's receiver changes quietly, and a buffer loses blocks but for the block that a receiver event appends. -/
theorem everyStepKeepsLaneLaws : Obligations.EveryStepKeepsLaneLaws := by
  intro s r h hr
  rw [laneLaws_iff] at h ⊢
  exact step_keeps (P := fun s => ∀ l : Lane, s.LaneFit l) (fun _ _ h => h)
    (fun hm h l => (hm.lane l).laneFit (h l)) (fun hd l => (deviceReset_isReset hd).laneFit l) h hr

end Sys2Proof.Machine
end

