-- ==== Sys2Proof/Proofs/TrunkLaws.lean ====
section
/-! SUPPORT. Every step keeps the law of the trunks (R89), with the laws it rests on, and all the laws hold after device reset. -/

namespace Sys2Proof.Machine

/-! ## The law of R89, one trunk at a time -/

/-- What TrunkLaw says of one trunk (R89). -/
def State.TrunkFits (s : State) (t : Trunk) : Prop :=
  (s.triggersAt t = [] → s.CarriesWell t) ∧
    ((∀ g ∈ s.triggersAt t, g.kind ≠ .install) → ((s.trunk t).sel.mode = .disabled ↔ s.members t = [])) ∧
    ∀ b ∈ (s.trunk t).sel.target, (s.trunk t).sel.active ≠ some b

theorem State.trunkFits_of_suits {s : State} {t : Trunk}
    (mode : (∀ g ∈ s.triggersAt t, g.kind ≠ .install) → ((s.trunk t).sel.mode = .disabled ↔ s.members t = [])) (suits : s.Suits t) :
    s.TrunkFits t :=
  ⟨fun hn => ⟨mode (by simp [hn]), suits.1, suits.2⟩, mode, fun b hb => (suits.2 b hb).2.2⟩

/-- Trunk u's lanes of the selection record, charter and bars are those before, and none of its triggers has been taken. -/
structure SameFit (u : Trunk) (s t : State) : Prop where
  mode : (t.trunk u).sel.mode = (s.trunk u).sel.mode
  active : (t.trunk u).sel.active = (s.trunk u).sel.active
  target : (t.trunk u).sel.target = (s.trunk u).sel.target
  members : t.members u = s.members u
  barred : ∀ l ∈ s.members u, t.barred l = s.barred l
  sent : s.triggersAt u ⊆ t.triggersAt u

theorem SameFit.trunkFits {u : Trunk} {s t : State} (h : SameFit u s t) (hs : s.TrunkFits u) : t.TrunkFits u := by
  obtain ⟨mode, active, target, members, barred, sent⟩ := h
  obtain ⟨h1, h2, h3⟩ := hs
  refine ⟨fun hn => ?_, fun hi => ?_, ?_⟩
  · obtain ⟨hm, ha, hb⟩ := h1 (List.subset_nil.mp (hn ▸ sent))
    refine ⟨by rw [mode, members]; exact hm, fun a h => ?_, fun b h => ?_⟩
    · rw [active] at h
      obtain ⟨hmem, hbar⟩ := ha a h
      exact ⟨members ▸ hmem, by rw [barred a hmem]; exact hbar⟩
    · rw [target] at h
      obtain ⟨hmem, hbar, hne⟩ := hb b h
      exact ⟨members ▸ hmem, by rw [barred b hmem]; exact hbar, active ▸ hne⟩
  · rw [mode, members]
    exact h2 fun g hg => hi g (sent hg)
  · rw [target, active]
    exact h3

theorem mem_triggersAt {s : State} {u : Trunk} {g : Trigger} : g ∈ s.triggersAt u ↔ g ∈ s.triggers ∧ g.trunk = u := by
  simp [State.triggersAt]

theorem triggersAt_subset {s t : State} (h : s.triggers ⊆ t.triggers) (u : Trunk) : s.triggersAt u ⊆ t.triggersAt u :=
  fun _ hg => mem_triggersAt.mpr ⟨h (mem_triggersAt.mp hg).1, (mem_triggersAt.mp hg).2⟩

theorem barred_congr {s t : State} {l : Lane} (h : (t.lane l).bars = (s.lane l).bars) : t.barred l = s.barred l := by
  rw [State.barred, State.barred, h]

theorem SameFit.of_kept {u : Trunk} {s t : State} (h : (s.trunk u).Kept (t.trunk u)) (hc : (t.trunk u).charter = (s.trunk u).charter)
    (hb : ∀ l : Lane, (t.lane l).bars = (s.lane l).bars) (hs : s.triggers ⊆ t.triggers) : SameFit u s t :=
  ⟨by rw [h.sel], by rw [h.sel], by rw [h.sel], members_of_charter hc, fun l _ => barred_congr (hb l), triggersAt_subset hs u⟩

theorem SameFit.of_trunk {u : Trunk} {s t : State} (h : t.trunk u = s.trunk u) (hb : ∀ l : Lane, (t.lane l).bars = (s.lane l).bars)
    (hs : s.triggersAt u ⊆ t.triggersAt u) : SameFit u s t :=
  ⟨by rw [h], by rw [h], by rw [h], by rw [State.members, h]; rfl, fun l _ => barred_congr (hb l), hs⟩

theorem SelFrame.sameFit_of_ne {k u : Trunk} {s t : State} (h : SelFrame k s t) (hu : u ≠ k) : SameFit u s t :=
  .of_trunk (h.trunks u hu) (fun l => by rw [lane_of_lanes h.lanes]) (triggersAt_subset (by rw [h.triggers]; exact fun _ => id) u)

/-- Trunk k's selector has acted: it leaves the trunk's law for all others. -/
theorem SelFrame.trunkFits {k : Trunk} {s t : State} (h : SelFrame k s t) (hk : t.TrunkFits k) (hs : ∀ u, s.TrunkFits u) (u : Trunk) :
    t.TrunkFits u := by
  by_cases hu : u = k
  · exact hu ▸ hk
  · exact (h.sameFit_of_ne hu).trunkFits (hs u)

/-! ## Evaluations and reports -/

theorem evaluate_trunkFits {s : State} {t : Trunk} {k : TriggerKind} (hs : (s.trunk t).SelFit) (hh : s.HoldsMember t)
    (hm : k ≠ .install → (∀ g ∈ s.triggersAt t, g.kind ≠ .install) → ((s.trunk t).sel.mode = .disabled ↔ s.members t = []))
    (after : List Nat) : (s.evaluate t k after).TrunkFits t := by
  have hframe := evaluate_frame s t k after
  refine State.trunkFits_of_suits (fun hi => ?_) (evaluate_suits hs hh k after)
  rw [evaluate_mode hs hh, members_of_charter hframe.charter]
  split
  · rfl
  · next hk => exact hm hk (by simpa [State.triggersAt, hframe.triggers] using hi)

/-- The handling of a report takes no trunk into DISABLED or out of it. -/
theorem handleReport_mode (s : State) (t : Trunk) (k : ReportKind) (after : List Nat) :
    ((s.handleReport t k after).trunk t).sel.mode = .disabled ↔ (s.trunk t).sel.mode = .disabled := by
  refine ⟨fun h => ?_, fun h => handleReport_disabled h k after⟩
  cases k with
  | judgement l d =>
    have hsel := handleJudgement_sel s t l d after
    rw [State.handleReport, hsel] at h
    exact h
  | completion b =>
    simp only [State.handleReport, State.handleCompletion] at h
    split at h
    · simp [State.complete] at h
    · exact h
  | alignmentLoss a st =>
    simp only [State.handleReport, State.handleLoss] at h
    split at h
    · exact h
    · split at h
      · split at h
        · simp [State.immediateSwitch] at h
        · simpa [State.slip, State.writeRecord] using h
      · exact h
  | alignWaitExpiry =>
    simp only [State.handleReport, State.handleAlignWait] at h
    split at h
    · split at h
      · simp [State.complete] at h
      · exact h
    · exact h

theorem handleReport_trunkFits {s : State} {t : Trunk} {k : ReportKind} (hr : (s.trunk t).Ready k) (hh : s.HoldsMember t)
    (hf : s.TrunkFits t) (after : List Nat) : ((s.handleReport t k after).evaluate t .report after).TrunkFits t := by
  have hframe := handleReport_frame s t k after
  refine evaluate_trunkFits (handleReport_fit hr after) (hframe.holdsMember hh) (fun _ hi => ?_) after
  rw [handleReport_mode, members_of_charter hframe.charter]
  exact hf.2.1 (by simpa [State.triggersAt, hframe.triggers] using hi)

/-- A report taken leaves the trunk as R89 has it: evaluated; or, after the judgement of R110's last row, as it was. -/
theorem takeReport_trunkFits {s : State} {t : Trunk} {r : Report} (hr : (s.trunk t).Ready r.kind) (hh : s.HoldsMember t)
    (hf : s.TrunkFits t) : (s.takeReport t r).TrunkFits t := by
  by_cases hleft : s.leftToInstall t r.kind = true
  · obtain ⟨l, d, hk⟩ : ∃ l d, r.kind = .judgement l d := by
      cases hk : r.kind <;> simp_all [State.leftToInstall]
    have e : s.takeReport t r = (s.handleJudgement t l d r.after).modSel t fun x => { x with holdOff := .idle, restore := .idle } := by
      rw [hk] at hleft
      simp only [State.takeReport, hk, hleft, if_true, State.handleReport]
    have hframe := takeReport_frame s t r
    have hsel : ((s.takeReport t r).trunk t).sel =
        { (s.trunk t).sel with pendingSwitch := none, holdOff := .idle, restore := .idle } := by
      rw [e, modSel_eq, trunk_setTrunk_self, handleJudgement_sel]
    refine SameFit.trunkFits ⟨by rw [hsel], by rw [hsel], by rw [hsel], members_of_charter hframe.charter, fun l _ => ?_, ?_⟩ hf
    · exact barred_congr (by rw [lane_of_lanes hframe.lanes])
    · exact triggersAt_subset (by rw [hframe.triggers]; exact fun _ => id) t
  · have e : s.takeReport t r = (s.handleReport t r.kind r.after).evaluate t .report r.after := by
      simp [State.takeReport, hleft]
    rw [e]
    exact handleReport_trunkFits hr hh hf r.after

theorem takeReports_trunkFits {t : Trunk} (rs : List Report) (hk : ∀ r ∈ rs, ∀ l d, r.kind ≠ .judgement l d) : ∀ {s : State},
    (s.trunk t).SelFit → s.HoldsMember t → s.TrunkFits t → (s.takeReports t rs).TrunkFits t := by
  induction rs with
  | nil => exact fun _ _ h => h
  | cons r rs ih =>
    intro s h hh hf
    have hr := TrunkState.ready_of_selFit h (hk r (by simp))
    exact ih (fun r' h' => hk r' (by simp [h'])) (takeReport_selFit hr) ((takeReport_frame s t r).holdsMember hh)
      (takeReport_trunkFits hr hh hf)

theorem takeReports_readyFor_trunkFits {s : State} {t : Trunk} {rs : List Report} (h : (s.trunk t).ReadyFor rs) (hh : s.HoldsMember t)
    (hf : s.TrunkFits t) : (s.takeReports t rs).TrunkFits t := by
  rcases h with ⟨hs, hk⟩ | ⟨r, rest, rfl, hr, hk⟩
  · exact takeReports_trunkFits rs hk hs hh hf
  · exact takeReports_trunkFits rest hk (s := s.takeReport t r) (takeReport_selFit hr) ((takeReport_frame s t r).holdsMember hh)
      (takeReport_trunkFits hr hh hf)

theorem instant_trunkFits {s : State} {t : Trunk} (hs : (s.trunk t).SelFit) (hh : s.HoldsMember t) (hf : s.TrunkFits t) :
    (s.instant t).TrunkFits t := by
  have hsteps := emissionSteps_steps s t
  have honly := emissionSteps_only s t
  have hsent := (emission_frame.emissionSteps s t).triggers
  rw [instant_eq]
  generalize s.emissionSteps t = e at hsteps honly hsent ⊢
  generalize s.handOn (.emitter t) [] = before
  generalize e.1.handOn (.emitter t) [] = after
  have hready := hsteps.readyFor hs (before := before) (after := after)
    (out := (handedReports before after e.2).filter fun k => !k.kind.within)
  obtain ⟨em, w, htrunk⟩ := hsteps.trunk
  generalize hu : (e.1.modTrunk t fun x => { x with reports := (handedReports before after e.2).filter fun k => !k.kind.within }) = u
  have hut : u.trunk t = { e.1.trunk t with reports := (handedReports before after e.2).filter fun k => !k.kind.within } := by
    rw [← hu]; simp
  have hc : u.members t = s.members t := by rw [State.members, hut, htrunk]; rfl
  refine takeReports_readyFor_trunkFits (hut ▸ hready) ?_ (SameFit.trunkFits ⟨?_, ?_, ?_, hc, fun l _ => ?_, ?_⟩ hf)
  · intro g hg
    rw [hut, htrunk] at hg
    exact hc ▸ hh g hg
  · rw [hut, htrunk]
  · rw [hut, htrunk]
  · rw [hut, htrunk]
  · exact barred_congr (by rw [← hu]; exact honly.bars l)
  · exact triggersAt_subset (by rw [← hu]; exact fun _ h => by simpa [hsent] using h) t

theorem resumeTrunk_trunkFits {s : State} {t : Trunk} (after : List Nat) (hf : s.TrunkFits t) : (s.resumeTrunk after t).TrunkFits t := by
  have hframe := resumeTrunk_frame s t after
  by_cases hd : (s.trunk t).sel.mode = .disabled
  · have e : s.resumeTrunk after t = s := by simp [State.resumeTrunk, hd]
    rw [e]
    exact hf
  · have hsel : ((s.resumeTrunk after t).trunk t).sel.mode = .starved ∧ ((s.resumeTrunk after t).trunk t).sel.active = none ∧
        ((s.resumeTrunk after t).trunk t).sel.target = none := by
      unfold State.resumeTrunk
      dsimp only
      rw [if_neg hd]
      split <;> simp [TrunkState.resumed]
    refine State.trunkFits_of_suits (fun hi => ?_) (suits_idle hsel.2.1 hsel.2.2)
    rw [hsel.1, members_of_charter hframe.charter, ← hf.2.1 (by simpa [State.triggersAt, hframe.triggers] using hi)]
    simp [hd]

/-! ## The moves -/

theorem holdsMember_of_holdLaw {s : State} (h : s.HoldLaw) (t : Trunk) : s.HoldsMember t := fun g hg => (h t g hg).1

/-- While a trigger of the trunk is outstanding, and a change of its charter has the install's among them, its lanes need not be carried
well. -/
theorem State.trunkFits_of_sent {s : State} {t : Trunk} {g : Trigger} (hg : g ∈ s.triggersAt t)
    (mode : (∀ g ∈ s.triggersAt t, g.kind ≠ .install) → ((s.trunk t).sel.mode = .disabled ↔ s.members t = []))
    (target : ∀ b ∈ (s.trunk t).sel.target, (s.trunk t).sel.active ≠ some b) : s.TrunkFits t :=
  ⟨fun hn => (List.not_mem_nil (hn ▸ hg)).elim, mode, target⟩

/-- A bar change sends its trigger to the trunk whose charter has the lane; no other trunk's charter has it (R48, R73). -/
theorem bars_trunkFits {s : State} (hm : s.MembershipLaw) (hf : ∀ u, s.TrunkFits u) (l : Lane) (b : PortSet) (after : List Nat)
    (u : Trunk) : ((s.setLane l { s.lane l with bars := b }).sendForLane l .bar .registry after).TrunkFits u := by
  generalize hv : s.setLane l { s.lane l with bars := b } = v
  have hvt : ∀ k, v.trunk k = s.trunk k := fun k => by rw [← hv]; rfl
  have hvo : v.trunkOf l = s.trunkOf l := by rw [← hv, setLane_trunkOf]
  have hvg : v.triggers = s.triggers := by rw [← hv]; rfl
  by_cases hl : l ∈ s.members u
  · have hu : s.trunkOf l = some u := by
      obtain ⟨k, hk⟩ := Option.ne_none_iff_exists'.mp (fun h => trunkOf_eq_none_iff.mp h u hl)
      by_cases e : k = u
      · exact e ▸ hk
      · exact absurd (List.mem_append_left _ hl) (hm.2 k u e l (List.mem_append_left _ (trunkOf_some hk)))
    rw [sendForLane_some (hvo.trans hu)]
    obtain ⟨g, hgu, hsent⟩ : ∃ g : Trigger, g.trunk = u ∧ (v.send u .bar .registry after).triggers = s.triggers ++ [g] :=
      ⟨_, rfl, by rw [← hvg]; rfl⟩
    refine State.trunkFits_of_sent (mem_triggersAt.mpr ⟨hsent ▸ List.mem_append_right _ (List.mem_singleton_self _), hgu⟩)
      (fun hi => ?_) ?_
    · rw [State.members, send_trunk, hvt]
      exact (hf u).2.1 fun g hg => hi g (triggersAt_subset (by rw [hsent]; exact List.subset_append_left ..) u hg)
    · rw [send_trunk, hvt]
      exact (hf u).2.2
  · have hq := quiet_sendForLane v l .bar .registry after
    obtain ⟨more, hmore⟩ := hq.sent
    have hk := (hq.trunks u).kept
    rw [hvt] at hk
    refine SameFit.trunkFits ⟨by rw [hk.sel], by rw [hk.sel], by rw [hk.sel], ?_, fun l' h => ?_, ?_⟩ (hf u)
    · exact members_of_charter (by rw [(hq.trunks u).charter, hvt])
    · have hne : l' ≠ l := fun e => hl (e ▸ h)
      exact barred_congr (by rw [sendForLane_lane, ← hv, lane_setLane_ne s _ hne])
    · exact triggersAt_subset (by rw [hmore, hvg]; exact List.subset_append_left ..) u

theorem install_trunkFits {k : Trunk} {terms : CharterTerms} {number : Pair} {p : Port} {after : List Nat} {s r : State}
    (h : Installs k terms number p after s r) (hf : ∀ u, s.TrunkFits u) (u : Trunk) : r.TrunkFits u := by
  obtain ⟨stamp, stamps, hg, -⟩ := h.triggers
  by_cases hu : u = k
  · subst hu
    have hin : _ ∈ r.triggersAt u := mem_triggersAt.mpr ⟨hg ▸ List.mem_append_right _ (List.mem_singleton_self _), rfl⟩
    refine State.trunkFits_of_sent hin (fun hi => absurd rfl (hi _ hin)) ?_
    rw [h.books.sel]
    exact (hf u).2.2
  · refine (SameFit.of_trunk (h.trunks u hu) h.books.bars (triggersAt_subset ?_ u)).trunkFits (hf u)
    rw [hg]
    exact List.subset_append_left ..

theorem trigger_trunkFits {s : State} (hh : s.HoldLaw) (hs : s.SelectionLaw) (hf : ∀ u, s.TrunkFits u) (g : Trigger) (u : Trunk) :
    (({ s with triggers := s.triggers.erase g } : State).evaluate g.trunk g.kind g.after).TrunkFits u := by
  generalize hv : ({ s with triggers := s.triggers.erase g } : State) = v
  have hvt : ∀ k, v.trunk k = s.trunk k := fun k => by rw [← hv]; rfl
  have hvm : ∀ k, v.members k = s.members k := fun k => by rw [← hv]; rfl
  have hvl : ∀ l, v.lane l = s.lane l := fun l => by rw [← hv]; rfl
  have kept : ∀ {g' k}, g' ∈ s.triggersAt k → g' ≠ g → g' ∈ v.triggersAt k := by
    intro g' k h hne
    rw [← hv]
    exact mem_triggersAt.mpr ⟨(List.mem_erase_of_ne hne).mpr (mem_triggersAt.mp h).1, (mem_triggersAt.mp h).2⟩
  by_cases hu : u = g.trunk
  · subst hu
    refine evaluate_trunkFits (by rw [hvt]; exact ((TrunkState.selectionLaw_iff _).mp (hs _)).1) ?_ (fun hk hi => ?_) g.after
    · intro h hm
      rw [hvm]
      rw [hvt] at hm
      exact (hh _ h hm).1
    · rw [hvt, hvm]
      refine (hf _).2.1 fun g' hg' => ?_
      by_cases e : g' = g
      · exact e ▸ hk
      · exact hi g' (kept hg' e)
  · have hframe := evaluate_frame v g.trunk g.kind g.after
    refine (hframe.sameFit_of_ne hu).trunkFits (SameFit.trunkFits (SameFit.of_trunk (hvt u) (fun l => by rw [hvl]) ?_) (hf u))
    exact fun g' hg' => kept hg' fun e => hu (e ▸ (mem_triggersAt.mp hg').2).symm

/-- One trunk's record changes, but neither charter nor the lanes of the selection record. -/
theorem setTrunk_trunkFits {s : State} (hf : ∀ u, s.TrunkFits u) (k : Trunk) (x : TrunkState) (u : Trunk)
    (hs : x.sel = (s.trunk k).sel := by rfl) (hc : x.charter = (s.trunk k).charter := by rfl) : (s.setTrunk k x).TrunkFits u := by
  have hsel : ((s.setTrunk k x).trunk u).sel = (s.trunk u).sel := by
    rw [trunk_setTrunk]
    split
    · next e => rw [hs, e]
    · rfl
  exact SameFit.trunkFits (s := s) ⟨by rw [hsel], by rw [hsel], by rw [hsel], members_of_charter (charter_setTrunk s k x u hc),
    fun _ _ => rfl, fun _ h => h⟩ (hf u)

/-- Reports, of which none is a judgement, are taken off the trunk's list. -/
theorem takenReports_trunkFits {s : State} {k : Trunk} {rs rest : List Report} (hs : (s.trunk k).SelFit) (hh : s.HoldsMember k)
    (hf : ∀ u, s.TrunkFits u) (hk : ∀ r ∈ rs, ∀ l d, r.kind ≠ .judgement l d) (u : Trunk) :
    ((s.modTrunk k fun x => { x with reports := rest }).takeReports k rs).TrunkFits u := by
  have hv := setTrunk_trunkFits hf k { s.trunk k with reports := rest }
  rw [modTrunk_eq]
  refine (takeReports_frame ..).trunkFits (takeReports_trunkFits rs hk ?_ ?_ (hv k)) hv u
  · rw [trunk_setTrunk_self]
    exact hs
  · intro g hg
    rw [trunk_setTrunk_self] at hg
    rw [members_of_charter (charter_setTrunk s k _ k)]
    exact hh g hg

/-- A move keeps the law of R89, given the laws of charters, holds and selection records. -/
theorem Move.trunkFits {s t : State} (h : Move s t) (hm : s.MembershipLaw) (hh : s.HoldLaw) (hs : s.SelectionLaw)
    (hf : ∀ u, s.TrunkFits u) (u : Trunk) : t.TrunkFits u := by
  have selFit := fun k => ((TrunkState.selectionLaw_iff _).mp (hs k)).1
  cases h with
  | quiet h =>
    obtain ⟨more, hmore⟩ := h.sent
    refine (SameFit.of_kept (h.trunks u).kept (h.trunks u).charter (fun l => (h.lanes l).bars) ?_).trunkFits (hf u)
    rw [hmore]
    exact List.subset_append_left ..
  | attach p lease hm' hl => exact (SameFit.of_trunk (t := s.setPort p _) rfl (fun _ => rfl) (fun _ h => h)).trunkFits (hf u)
  | leave p x v cause hm' hq hl hu =>
    have hd := depart_own v p cause
    obtain ⟨more, hmore⟩ := hu.sent
    obtain ⟨more', hmore', -⟩ := hd.sent
    refine (SameFit.of_kept ((hu.trunks u).kept.trans ((depart_books ..).kept u)) ((hd.charter u).trans (hu.trunks u).charter)
      (fun l => by rw [lane_of_lanes hd.lanes]; exact (hu.lanes l).bars) ?_).trunkFits (hf u)
    rw [hmore', hmore]
    exact List.Subset.trans (List.subset_append_left ..) (List.subset_append_left ..)
  | bars l b after => exact bars_trunkFits hm hf l b after u
  | ballot p k choice after after' hp hc =>
    obtain ⟨hl, ht, hk⟩ := ballot_kept s p k choice after after'
    exact (SameFit.of_kept (hk u).2 (hk u).1 (fun l => by rw [lane_of_lanes hl]) ht).trunkFits (hf u)
  | hold k g hg => exact setTrunk_trunkFits hf k _ u
  | install k terms number p after hg => exact install_trunkFits (install_spec ..) hf u
  | proposal k o ho hp => exact setTrunk_trunkFits hf k _ u
  | trigger g => exact trigger_trunkFits hh hs hf g u
  | expiry k kind after hk =>
    exact (evaluate_frame ..).trunkFits (evaluate_trunkFits (selFit k) (holdsMember_of_holdLaw hh k) (fun _ => (hf k).2.1) after) hf u
  | settle k =>
    exact takenReports_trunkFits (selFit k) (holdsMember_of_holdLaw hh k) hf (fun r hr => not_judgement_of_within ((hs k).2.2.2.2 r hr)) u
  | loss k a st after rest hr =>
    exact takenReports_trunkFits (rs := [⟨.alignmentLoss a st, after⟩]) (selFit k) (holdsMember_of_holdLaw hh k) hf (by simp) u
  | instant k hd hr =>
    by_cases hu : u = k
    · subst hu
      exact instant_trunkFits (selFit u) (holdsMember_of_holdLaw hh u) (hf u)
    · have h := instant_only s k
      have he := instant_emission s k
      exact (SameFit.of_trunk (h.trunks u hu) h.bars (triggersAt_subset (by rw [he.triggers]; exact fun _ => id) u)).trunkFits (hf u)
  | resume k after => exact (resumeTrunk_frame ..).trunkFits (resumeTrunk_trunkFits after (hf k)) hf u

/-! ## The laws -/

theorem trunkLaw_iff (s : State) : s.TrunkLaw ↔ ∀ u, s.TrunkFits u := Iff.rfl

theorem IsReset.selectionLaw {r : State} (h : IsReset r) : r.SelectionLaw := by
  intro u
  rw [h.trunk]
  exact ⟨by decide, by decide, by decide, by decide, by simp [TrunkState.reset]⟩

theorem IsReset.trunkLaw {r : State} (h : IsReset r) : r.TrunkLaw := by
  intro u
  refine State.trunkFits_of_suits (fun _ => ?_) (suits_idle ?_ ?_)
  · rw [h.members, h.trunk]
    simp [TrunkState.reset, Selection.reset]
  · rw [h.trunk]; rfl
  · rw [h.trunk]; rfl

/-- Settles O57: each move keeps the four laws together, R89's by the evaluation that follows whatever may break it. -/
theorem everyStepKeepsTrunkLaws : Obligations.EveryStepKeepsTrunkLaws := by
  intro s r h hr
  refine step_keeps (P := fun s => s.MembershipLaw ∧ s.HoldLaw ∧ s.SelectionLaw ∧ s.TrunkLaw)
    (fun u rest ⟨h1, h2, h3, h4⟩ => ?_) (fun hm ⟨h1, h2, h3, h4⟩ => ?_) (fun hd => ?_) h hr
  · have same : SameClaims u { u with pending := rest } := SameClaims.of_eq rfl rfl
    exact ⟨same.membershipLaw h1, same.holdLaw h2, h3, h4⟩
  · exact ⟨hm.membershipLaw h1, hm.holdLaw h2, hm.selector.selectionLaw h3, hm.trunkFits h1 h2 h3 h4⟩
  · have h := deviceReset_isReset hd
    exact ⟨h.membershipLaw, h.holdLaw, h.selectionLaw, h.trunkLaw⟩

/-- Settles O60: the records have their reset values. -/
theorem lawsHoldAtReset : Obligations.LawsHoldAtReset := by
  have h := isReset_reset
  have hem := (emitterLaws_iff State.reset).mpr h.emitterFit
  have hlane := (laneLaws_iff State.reset).mpr h.laneFit
  exact ⟨h.queueLaw, h.leaseLaw, h.membershipLaw, h.ballotLaw, h.holdLaw, h.favouredLaw, h.proposalLaw, h.selectionLaw,
    h.trunkLaw, hem.1, hem.2.1, hem.2.2, hlane.1, hlane.2.1, hlane.2.2⟩

end Sys2Proof.Machine
end

