-- ==== Sys2Proof/Proofs/CommandFrames.lean ====
section
/-! SUPPORT. The queue's step, and COMMAND frames: their check, how they are judged and answered (R130), and the transactions that are
not taken (R128, R131, R141). -/

namespace Sys2Proof.Machine

/-- Settles O1: both are the two cases of `step`. -/
theorem stepRunsTheFrontCommand : Obligations.StepRunsTheFrontCommand := by
  refine ⟨fun s c rest => rfl, fun s h => ?_⟩
  rw [step, h]

/-! ## Frames (R130, 11.3) -/

/-- The frame check reads its octets bit by bit (R130). -/
theorem crc8_serial (octets : List Octet) : crc8 octets = serialCrc 0x07 0x00 octets := foldl_flatMap_of crc8Octet_serial octets 0

theorem operandCount_code (c : Command) : operandCount c.code = some c.operands.length := by cases c <;> rfl

theorem joinOctets_high_low (w : Pair) : joinOctets (highOctet w) (lowOctet w) = w := by
  refine BitVec.eq_of_getLsbD_eq fun i hi => ?_
  simp only [joinOctets, highOctet, lowOctet, BitVec.getLsbD_append, BitVec.getLsbD_extractLsb']
  split
  · next h => simp [h]
  · next h => simp [show i - 8 < 8 by omega, show 8 + (i - 8) = i by omega]

/-- A command is read back from its code and its operands (11.3). -/
theorem parseCommand_operands (c : Command) : parseCommand c.code c.operands = some c := by
  cases c <;> simp [parseCommand, Command.code, Command.operands, joinOctets_high_low]

theorem operandCount_of_parse {code : Octet} {ops : List Octet} (h : operandCount code = none) : parseCommand code ops = none := by
  unfold parseCommand
  split <;> first | rfl | simp_all [operandCount]

theorem commandFrame_length (tag : Octet) (c : Command) : (commandFrame tag c).length = 4 + c.operands.length := by
  simp [commandFrame]
  omega

/-- The octets of a frame before its check. -/
def frameBody (tag : Octet) (c : Command) : List Octet := [kindCommand, tag, c.code] ++ c.operands

theorem commandFrame_eq (tag : Octet) (c : Command) : commandFrame tag c = frameBody tag c ++ [crc8 (frameBody tag c)] := rfl

theorem frameBody_length (tag : Octet) (c : Command) : (frameBody tag c).length = 3 + c.operands.length := by
  simp [frameBody]
  omega

/-- A controller's frame is judged valid, whatever octets follow it (R130). -/
theorem judgeFrame_commandFrame (tag : Octet) (c : Command) (more : List Octet) :
    judgeFrame (commandFrame tag c ++ more) = .valid tag c := by
  have hn : frameLength (commandFrame tag c ++ more) - 1 = (frameBody tag c).length := by
    rw [frameBody_length]
    simp [frameLength, commandFrame, operandCount_code]
  have hlen : ¬ (commandFrame tag c ++ more).length < frameLength (commandFrame tag c ++ more) := by
    simp [frameLength, commandFrame, operandCount_code]
    omega
  have htake : (commandFrame tag c ++ more).take (frameBody tag c).length = frameBody tag c := by
    rw [commandFrame_eq, List.append_assoc, List.take_left']
    rfl
  have hcheck : (commandFrame tag c ++ more)[(frameBody tag c).length]? = some (crc8 (frameBody tag c)) := by
    simp [commandFrame_eq]
  have htag : (commandFrame tag c ++ more)[1]?.getD 0 = tag := rfl
  have hcode : (commandFrame tag c ++ more)[2]?.getD 0 = c.code := rfl
  have hops : (frameBody tag c).drop 3 = c.operands := rfl
  unfold judgeFrame
  simp only [hn, hlen, htake, hcheck, htag, hcode, hops, parseCommand_operands, if_false, ne_eq, not_true_eq_false]

/-- Settles O3: the check is that of R130, the frame of each command is laid out as 11.3 has it, and it is read back. -/
theorem commandFrameReadsBack : Obligations.CommandFrameReadsBack := by
  refine ⟨crc8_serial, fun tag c more => ⟨judgeFrame_commandFrame tag c more, commandFrame_length tag c, ?_⟩, by decide +kernel⟩
  have laid : ∀ (code : Octet) (operands : List Octet), c.code = code → c.operands = operands →
      operandCount code = some operands.length ∧ c.operands = operands ∧
        commandFrame tag c = [0xA5, tag, code] ++ operands ++ [serialCrc 0x07 0x00 ([0xA5, tag, code] ++ operands)] := by
    rintro _ _ rfl rfl
    exact ⟨operandCount_code c, rfl, by rw [← crc8_serial]; rfl⟩
  cases c <;> exact laid _ _ rfl rfl

/-! ## The rows given by octets -/

theorem endOctets_command {octets : List Octet} (h : octets.head? = some 0xA5) (s : State) (p : Port) :
    s.endOctets p octets = s.endFrame p octets.length (judgeFrame octets) .whole := by
  rw [State.endOctets, if_pos (by simpa [kindCommand] using h)]

theorem endOctets_ignored {octets : List Octet} (h : octets.head? ≠ some 0xA5) (h' : octets.head? ≠ some 0x5A) (s : State) (p : Port) :
    s.endOctets p octets = s.ignore p octets.length := by
  rw [State.endOctets, if_neg (by simpa [kindCommand] using h), if_neg (by simpa [kindFetch] using h')]

/-- The octets of a command's frame make the command's transaction. -/
theorem endOctets_commandFrame (s : State) (p : Port) (tag : Octet) (c : Command) :
    s.endOctets p (commandFrame tag c) = s.command p tag .whole c := by
  have hj := judgeFrame_commandFrame tag c []
  rw [List.append_nil] at hj
  rw [endOctets_command rfl, hj, commandFrame_length]
  rfl

/-- Settles O4: the four rows are the transaction of their octets, which are the command's frame. -/
theorem frameOctetsActAsTheCommand : Obligations.FrameOctetsActAsTheCommand := by
  intro s p tag c
  have whole : exec (c.row p tag .whole) s = .next (s.endOctets p (commandFrame tag c)) := by
    rw [exec_row, Command.partOf, ite_self, endOctets_commandFrame]
  exact ⟨whole.symm, whole.symm, whole.symm, whole.symm⟩

/-! ## Frames refused (R130) -/

theorem judgeFrame_short {octets : List Octet} (h : octets.length < frameLength octets) :
    judgeFrame octets = .bad .short (octets[1]?.getD 0) (octets[2]?.getD 0) := if_pos h

theorem judgeFrame_error {octets : List Octet} (h : frameLength octets ≤ octets.length)
    (hc : octets[frameLength octets - 1]? ≠ some (crc8 (octets.take (frameLength octets - 1)))) :
    judgeFrame octets = .bad .frameError (octets[1]?.getD 0) (octets[2]?.getD 0) := by
  rw [judgeFrame, if_neg (not_lt.mpr h), if_pos hc]

theorem judgeFrame_unknown {octets : List Octet} (h : frameLength octets ≤ octets.length)
    (hc : octets[frameLength octets - 1]? = some (crc8 (octets.take (frameLength octets - 1))))
    (hu : operandCount (octets[2]?.getD 0) = none) :
    judgeFrame octets = .bad .unknownCommand (octets[1]?.getD 0) (octets[2]?.getD 0) := by
  rw [judgeFrame, if_neg (not_lt.mpr h), if_neg (not_not.mpr hc)]
  simp only [operandCount_of_parse hu]

/-- A frame that is taken and judged bad is answered on the record it left, whose lease an unknown code has restarted. -/
theorem exec_bad {s : State} {p : Port} {octets : List Octet} (ht : s.CanTake p octets.length) (hk : octets.head? = some 0xA5)
    {o : Code} {tag code : Octet} (hj : judgeFrame octets = .bad o tag code) :
    exec (.unknownCommand p octets) s = .next (s.setPort p { (if o = .unknownCommand then
        (s.takenPort p octets.length).leaseRestarted else s.takenPort p octets.length) with
      slot := .done { tag := tag, code := code, outcome := o, result := [] } }) := by
  have e : exec (.unknownCommand p octets) s = .next (s.endOctets p octets) := rfl
  rw [e, endOctets_command hk, endFrame_taken ht, hj, State.takeFrame]
  split <;> simp [State.finish, refuse, received_eq, State.received]

/-- Settles O5: the three judgements, each answered on the record the frame left. -/
theorem refusedFramesAreAnswered : Obligations.RefusedFramesAreAnswered := by
  intro s p octets ht hk
  exact ⟨fun h => exec_bad ht hk (judgeFrame_short h), fun h hc => exec_bad ht hk (judgeFrame_error h hc),
    fun h hc hu => exec_bad ht hk (judgeFrame_unknown h hc hu)⟩

/-! ## Transactions that are not taken (R128, R131, R141) -/

/-- An abandoned transaction ends: PSDO has carried ones while PRSTn was low, and free values once it is high (R141; log entry 15). -/
theorem endTransaction_abandoned {s : State} {p : Port} {n : Nat} (h : (s.ending p).phase = .abandoned) :
    ∃ (sent : List Octet) (count : Nat),
      ((s.port p).prstnLow = true →
        count = s.freeCount ∧ sent = (s.port p).carried ++ List.replicate (n - (s.port p).carried.length) 0xFF) ∧
      s.endTransaction p n =
        ({ s with freeCount := count } : State).setPort p { s.port p with transaction := none, psdo := sent } := by
  unfold State.endTransaction
  dsimp only
  by_cases hl : (s.port p).prstnLow = true
  · rw [if_neg (by simp [hl])]
    refine ⟨_, s.freeCount, fun _ => ⟨rfl, rfl⟩, ?_⟩
    simp [PortState.onPin, hl]
  · rw [if_pos ⟨h, by simpa using hl⟩]
    exact ⟨_, _, fun e => absurd e hl, rfl⟩

section
variable {s : State} {p : Port} {n : Nat} (hr : s.rstnLow = false) (hc : (s.port p).canEnd n = true)
include hr hc

theorem ignore_ends : s.ignore p n = s.endTransaction p n := by simp [State.ignore, hr, hc]

/-- A frame that is unheard, or comes in HALT, is discarded unjudged. -/
theorem endFrame_discarded (h : (s.ending p).unheard = true ∨ s.monitor.state ≠ .present) (j : Judgement) (part : Part) :
    s.endFrame p n j part = s.endTransaction p n := by
  have hor : ((s.ending p).unheard || s.halted) = true := by
    rcases h with h | h
    · simp [h]
    · simp [halted_of_absent h]
  simp [State.endFrame, hr, hc, hor]

/-- A frame that finds the command slot occupied is dropped unjudged. -/
theorem endFrame_busy (hu : (s.ending p).unheard = false) (hm : s.monitor.state = .present) (hs : (s.port p).slot ≠ .empty)
    (j : Judgement) (part : Part) :
    s.endFrame p n j part = s.setPort p { s.endedPort p n with busyDrop := true } := by
  have hend := endTransaction_eq (n := n) ((unheard_eq_false _).mp hu).2
  simp [State.endFrame, hr, hc, hu, halted_of_present hm, hs, hend]

end

/-- Settles O6: the slot occupied, HALT or PRSTn, another kind octet, and a transaction that a port reset has abandoned. -/
theorem untakenTransactionsHaveNoEffect : Obligations.UntakenTransactionsHaveNoEffect := by
  intro s p octets hr hc n x command ignored
  refine ⟨fun ha => ?_, fun ha => ?_⟩
  · intro ended
    have hend : s.endTransaction p n = s.setPort p ended := endTransaction_eq ha
    refine ⟨fun hk hi hm hs => ?_, fun hk h => ?_, fun hk => ?_⟩
    · exact congrArg _ ((endOctets_command hk s p).trans
        (endFrame_busy hr hc ((unheard_eq_false _).mpr ⟨hi, ha⟩) hm hs _ _))
    · have hd : (s.ending p).unheard = true ∨ s.monitor.state ≠ .present := h.imp_left fun h => by simp [Transaction.unheard, h]
      exact congrArg _ ((endOctets_command hk s p).trans ((endFrame_discarded hr hc hd _ _).trans hend))
    · exact congrArg _ ((endOctets_ignored hk.1 hk.2 s p).trans ((ignore_ends hr hc).trans hend))
  · obtain ⟨sent, count, hlow, hend⟩ := endTransaction_abandoned (s := s) (p := p) (n := n) ha
    have hd : (s.ending p).unheard = true ∨ s.monitor.state ≠ .present := .inl (by simp [Transaction.unheard, ha])
    refine ⟨sent, count, hlow, fun hk => ?_, fun hk => ?_⟩
    · exact congrArg _ ((endOctets_command hk s p).trans ((endFrame_discarded hr hc hd _ _).trans hend))
    · exact congrArg _ ((endOctets_ignored hk.1 hk.2 s p).trans ((ignore_ends hr hc).trans hend))

end Sys2Proof.Machine
end

