-- ==== Sys2Proof/Proofs/CommandParts.lean ====
section
/-! SUPPORT. Commands on their way: refused from a port that is not ATTACHED (R135, R56, R113), handed over and then taken (R132, R148),
and answered (R132, R133). -/

namespace Sys2Proof.Machine

/-! ## Commands refused (R135) -/

/-- Claim and concurrence commands are refused by their owner when the port is not ATTACHED (R56, R113). -/
theorem perform_unattached {s : State} {p : Port} {c : Command} (hm : (s.port p).mode ≠ .attached) (after : List Nat)
    (hc : c.inParts = true) (ha : c.allowedAlways = false) (hd : ∀ l set clear, c ≠ .setDegrade l set clear)
    (hl : ∀ l, c ≠ .clearLaneCounters l) : s.perform p after c = (s, refuse .notAttached) := by
  have refused : ∀ f, s.ifAttached p f = (s, refuse .notAttached) := fun f => if_neg hm
  cases c with
  | setDegrade l set clear => exact absurd rfl (hd l set clear)
  | clearLaneCounters l => exact absurd rfl (hl l)
  | ballot | hold | release | bar | lift | liftStale | propose | concur | dissent | withdraw => exact refused _
  | attach | renew | detach | subscribe => cases hc
  | queryDevice | queryPorts | queryLane | queryTrunk | queryHistory => cases ha

/-- ATTACH and the queries alone are taken from every port (R135). -/
theorem allowedAlways_eq_false {c : Command} (h1 : ∀ lease, c ≠ .attach lease) (h2 : c ≠ .queryDevice) (h3 : c ≠ .queryPorts)
    (h4 : ∀ l, c ≠ .queryLane l) (h5 : ∀ t, c ≠ .queryTrunk t) (h6 : ∀ t, c ≠ .queryHistory t) : c.allowedAlways = false := by
  cases c <;> simp_all [Command.allowedAlways]

/-- The owner takes a command whose port was reset meanwhile (R141, R148). -/
theorem command_orphan {s : State} {p : Port} {tag : Octet} {c : Command} {o : Orphan} (hr : s.rstnLow = false)
    (ho : s.orphan p tag c = some o) : s.command p tag .atOwner c = s.takeOrphan o := by
  rw [State.command, if_neg (by simp [hr]), State.ownerTakes, ho]

/-- Settles O7: a frame is refused at its dispatch, and a command on its way by its owner. -/
theorem unattachedPortIsRefused : Obligations.UnattachedPortIsRefused := by
  intro s p tag c part hm
  refine ⟨fun ht hpart h1 h2 h3 h4 h5 h6 => ?_, fun hr hc ha hd hl => ⟨fun o ho => ?_, fun after hn hs => ?_⟩⟩
  · have hp : c.partOf part = .whole ∨ c.partOf part = .handOver := by
      unfold Command.partOf
      split
      · exact hpart
      · exact .inl rfl
    rw [exec_row, command_unattached tag ht hm (allowedAlways_eq_false h1 h2 h3 h4 h5 h6) hp]
    simp [State.answered]
  · have hperf := perform_unattached (s := { s with orphans := s.orphans.erase o }) (p := p) hm o.after hc ha hd hl
    rw [exec_row, Command.partOf, if_pos hc, command_orphan hr ho, State.takeOrphan]
    obtain ⟨hp, -, hco⟩ := orphan_some ho
    rw [hp, hco, hperf]
  · have harr : s.Arrives p tag c .atOwner s after := .inr ⟨rfl, hr, hn, hs, rfl⟩
    exact exec_answers hc harr (perform_unattached hm after hc ha hd hl)

/-! ## Responses (R132, R133) -/

theorem pattn_iff (s : State) (p : Port) : s.pattn p = true ↔
    s.rstnLow = false ∧ (s.port p).prstnLow = false ∧ ((s.port p).response ≠ none ∨ (s.port p).queue ≠ []) := by
  simp [State.pattn, Option.isSome_iff_ne_none, and_assoc]

/-- Settles O9: RESPONSE-PLACED moves the response, which asserts PATTN. -/
theorem responseIsPlaced : Obligations.ResponseIsPlaced := by
  refine ⟨pattn_iff, fun s p r hr hs => ?_⟩
  intro t
  refine ⟨?_, ?_⟩
  · have e : exec (.responsePlaced p) s = .next (if s.rstnLow then s else s.placeResponse p) := rfl
    rw [e, if_neg (by simp [hr]), State.placeResponse, hs]
    rfl
  · rw [pattn_iff]
    simp [t, hr]

/-! ## The owner's work reads no command slot -/

/-- The state with other port records. -/
def State.withPorts (v : Vector PortState 4) (s : State) : State := { s with ports := v }

section
variable (s : State) (v : Vector PortState 4) (t : Trunk) (l : Lane) (after : List Nat)

@[simp] theorem withPorts_trunk : (s.withPorts v).trunk t = s.trunk t := rfl
@[simp] theorem withPorts_lane : (s.withPorts v).lane l = s.lane l := rfl
@[simp] theorem withPorts_members : (s.withPorts v).members t = s.members t := rfl
@[simp] theorem withPorts_trunkOf : (s.withPorts v).trunkOf l = s.trunkOf l := rfl
@[simp] theorem withPorts_handOn (b : Block) : (s.withPorts v).handOn b after = s.handOn b after := rfl
@[simp] theorem withPorts_tick : (s.withPorts v).tick = s.tick.withPorts v := rfl
@[simp] theorem withPorts_modTrunk (f : TrunkState → TrunkState) : (s.withPorts v).modTrunk t f = (s.modTrunk t f).withPorts v := rfl
@[simp] theorem withPorts_modLane (f : LaneState → LaneState) : (s.withPorts v).modLane l f = (s.modLane l f).withPorts v := rfl
@[simp] theorem withPorts_modRx (f : Receiver → Receiver) : (s.withPorts v).modRx l f = (s.modRx l f).withPorts v := rfl
@[simp] theorem withPorts_send (k : TriggerKind) (b : Block) :
    (s.withPorts v).send t k b after = (s.send t k b after).withPorts v := rfl
@[simp] theorem withPorts_offer (d : List Port) (b : Block) (e : Event) :
    (s.withPorts v).offer d b after e = (s.offer d b after e).withPorts v := rfl

@[simp] theorem withPorts_offerHere (d : List Port) (b : Block) (e : Event) :
    (s.withPorts v).offerHere d b after e = (s.offerHere d b after e).withPorts v := rfl
@[simp] theorem withPorts_favouredNow : (s.withPorts v).favouredNow t = s.favouredNow t :=
  favouredNow_congr rfl rfl
@[simp] theorem withPorts_barred : (s.withPorts v).barred l = s.barred l := rfl
@[simp] theorem withPorts_parties (ls : List Lane) : (s.withPorts v).parties t ls = s.parties t ls := rfl
@[simp] theorem withPorts_laneTaken (ls : List Lane) : (s.withPorts v).laneTaken t ls = s.laneTaken t ls := rfl
@[simp] theorem withPorts_laneContested (ls : List Lane) : (s.withPorts v).laneContested t ls = s.laneContested t ls := rfl
@[simp] theorem withPorts_quoted (o : Octet) (n : Pair) : (s.withPorts v).quoted o n = s.quoted o n := rfl
@[simp] theorem withPorts_ballotsFor : (s.withPorts v).ballotsFor t l = s.ballotsFor t l := rfl

theorem withPorts_ite (c : Prop) [Decidable c] (s u : State) :
    (if c then s.withPorts v else u.withPorts v) = (if c then s else u).withPorts v := (apply_ite (State.withPorts v) c s u).symm

/-- Work that reads no port's record, done one after another. -/
theorem withPorts_foldl {α : Type} {f : State → α → State} (h : ∀ s a, f (s.withPorts v) a = (f s a).withPorts v) :
    ∀ (as : List α) (s : State), as.foldl f (s.withPorts v) = (as.foldl f s).withPorts v
  | [], s => rfl
  | a :: as, s => by rw [List.foldl_cons, h, withPorts_foldl h as, List.foldl_cons]

@[simp] theorem withPorts_sendForLane (k : TriggerKind) (b : Block) :
    (s.withPorts v).sendForLane l k b after = (s.sendForLane l k b after).withPorts v := by
  unfold State.sendForLane
  rw [withPorts_trunkOf]
  cases s.trunkOf l <;> rfl

@[simp] theorem withPorts_regrade : (s.withPorts v).regrade l after = (s.regrade l after).withPorts v := by
  unfold State.regrade
  simp only [withPorts_lane, withPorts_modRx, withPorts_handOn, withPorts_sendForLane, withPorts_offer, withPorts_ite]

@[simp] theorem withPorts_takeStep (d : LaneStep) : (s.withPorts v).takeStep l d = (s.takeStep l d).withPorts v := by
  unfold State.takeStep
  simp only [withPorts_lane, withPorts_modRx, withPorts_regrade, withPorts_ite]

@[simp] theorem withPorts_settleLane : (s.withPorts v).settleLane l = (s.settleLane l).withPorts v := by
  simp only [State.settleLane, withPorts_takeStep]

@[simp] theorem withPorts_removeBar (i j : Port) : (s.withPorts v).removeBar i j after l = (s.removeBar i j after l).withPorts v := by
  simp only [State.removeBar, withPorts_modLane, withPorts_handOn, withPorts_sendForLane, withPorts_offer, withPorts_lane,
    withPorts_trunkOf]

@[simp] theorem withPorts_refavour : (s.withPorts v).refavour t after = (s.refavour t after).withPorts v := by
  simp only [State.refavour, State.refavourHere, withPorts_trunk, withPorts_favouredNow, withPorts_ballotsFor, withPorts_modTrunk,
    withPorts_offerHere, withPorts_ite, withPorts_tick]

@[simp] theorem withPorts_discardBallots : (s.withPorts v).discardBallots t after = (s.discardBallots t after).withPorts v := by
  refine withPorts_foldl v (fun u p => ?_) _ s
  simp only [withPorts_trunk, withPorts_members, withPorts_modTrunk, withPorts_offerHere]
  cases (u.trunk t).ballots[p.val] with
  | none => rfl
  | some l => exact withPorts_ite ..

@[simp] theorem withPorts_discardHold : (s.withPorts v).discardHold t after = (s.discardHold t after).withPorts v := by
  simp only [State.discardHold, withPorts_trunk, withPorts_members, withPorts_modTrunk, withPorts_offerHere]
  cases (s.trunk t).hold with
  | none => rfl
  | some h => exact withPorts_ite ..

@[simp] theorem withPorts_install (terms : CharterTerms) (n : Pair) (p : Port) :
    (s.withPorts v).install t terms n p after = (s.install t terms n p after).withPorts v := by
  have flushed : ∀ (old new : List Lane) (u : State), (u.withPorts v).flushLeaving old new = (u.flushLeaving old new).withPorts v :=
    fun old new u => withPorts_foldl v (fun _ _ => rfl) _ u
  simp only [State.install, State.storeInstall, State.registryInstall, withPorts_trunk, withPorts_modTrunk, withPorts_offer,
    withPorts_handOn, withPorts_members, flushed, withPorts_discardBallots, withPorts_discardHold, withPorts_tick,
    withPorts_refavour, withPorts_send]

@[simp] theorem withPorts_close (o : Closing) (q : Option Port) (r : Reason) :
    (s.withPorts v).close t o q r after = (s.close t o q r after).withPorts v := by
  unfold State.close State.closeHere
  simp only [withPorts_trunk]
  split <;> rfl

end

/-- Port records in the same sessions. -/
def State.SameSessions (s : State) (v : Vector PortState 4) : Prop :=
  ∀ p : Port, ((s.withPorts v).port p).mode = (s.port p).mode ∧ ((s.withPorts v).port p).session = (s.port p).session

section
variable {s : State} {v : Vector PortState 4} (h : s.SameSessions v) (p : Port) (after : List Nat)
include h

theorem withPorts_ifAttached {f g : State × Reply} (hf : f = (g.1.withPorts v, g.2)) :
    (s.withPorts v).ifAttached p f = ((s.ifAttached p g).1.withPorts v, (s.ifAttached p g).2) := by
  unfold State.ifAttached
  rw [(h p).1]
  split
  · exact hf
  · rfl

theorem withPorts_requiredSet (t : Trunk) (ls : List Lane) : (s.withPorts v).requiredSet t ls = s.requiredSet t ls := by
  unfold State.requiredSet
  congr 1
  funext q
  rw [(h q).1]
  rfl

/-- A command's owner reads the modes and the sessions of ports alone, and changes no port (R132). -/
theorem withPorts_perform {c : Command} (hc : c.inParts = true) (hq : c.isQuery = false) :
    (s.withPorts v).perform p after c = ((s.perform p after c).1.withPorts v, (s.perform p after c).2) := by
  cases c with
  | setDegrade l set clear =>
    simp only [State.perform, State.setDegrade, withPorts_settleLane, withPorts_modRx]
    repeat' split
    all_goals rfl
  | clearLaneCounters l =>
    simp only [State.perform, State.clearLaneCounters, withPorts_modRx]
    repeat' split
    all_goals rfl
  | ballot t l =>
    refine withPorts_ifAttached h p ?_
    simp only [withPorts_members, withPorts_trunk, withPorts_modTrunk, withPorts_handOn, withPorts_send, withPorts_refavour]
    repeat' split
    all_goals rfl
  | hold t l =>
    refine withPorts_ifAttached h p ?_
    simp only [withPorts_members, withPorts_barred, withPorts_trunk, (h p).2, withPorts_modTrunk, withPorts_handOn, withPorts_send]
    repeat' split
    all_goals rfl
  | release t =>
    refine withPorts_ifAttached h p ?_
    simp only [withPorts_trunk, withPorts_modTrunk, withPorts_handOn, withPorts_send]
    cases trunkOperand t with
    | none => rfl
    | some t => by_cases hown : (s.trunk t).hold.any (fun h => h.owner = p) = true <;> simp [hown]
  | bar l =>
    refine withPorts_ifAttached h p ?_
    simp only [withPorts_lane, withPorts_modLane, withPorts_handOn, withPorts_sendForLane, withPorts_trunkOf, withPorts_offer]
    repeat' split
    all_goals rfl
  | lift l =>
    refine withPorts_ifAttached h p ?_
    simp only [withPorts_lane, withPorts_removeBar]
    repeat' split
    all_goals rfl
  | liftStale l j =>
    refine withPorts_ifAttached h p ?_
    simp only [withPorts_lane, withPorts_removeBar, fun q => (h q).1]
    repeat' split
    all_goals rfl
  | propose t count m1 m2 m3 m4 revertive mend holdOff wait =>
    refine withPorts_ifAttached h p ?_
    simp only [withPorts_trunk, withPorts_parties, withPorts_laneTaken, withPorts_laneContested, withPorts_requiredSet h,
      State.installAtOnce, State.openProposal, withPorts_install, (h p).2]
    repeat' split
    all_goals rfl
  | concur t n =>
    refine withPorts_ifAttached h p ?_
    simp only [withPorts_quoted, withPorts_trunk, withPorts_install, withPorts_modTrunk]
    repeat' split
    all_goals rfl
  | dissent t n =>
    refine withPorts_ifAttached h p ?_
    simp only [withPorts_quoted, withPorts_close]
    repeat' split
    all_goals rfl
  | withdraw t n =>
    refine withPorts_ifAttached h p ?_
    simp only [withPorts_quoted, withPorts_close]
    repeat' split
    all_goals rfl
  | attach | renew | detach | subscribe => cases hc
  | queryDevice | queryPorts | queryLane | queryTrunk | queryHistory => cases hq

end

/-! ## Handed over and taken (R132, R148) -/

theorem isQuery_of_allowedAlways {c : Command} (hc : c.inParts = true) : c.allowedAlways = c.isQuery := by
  cases c <;> first | rfl | cases hc

/-- The port records with another command slot on port p. -/
def State.reslot (s : State) (p : Port) (slot : CommandSlot) : State := s.setPort p { s.port p with slot := slot }

theorem reslot_eq (s : State) (p : Port) (slot : CommandSlot) : s.reslot p slot = s.withPorts (s.reslot p slot).ports := rfl

theorem reslot_sameSessions (s : State) (p : Port) (slot : CommandSlot) : s.SameSessions (s.reslot p slot).ports := by
  intro q
  show ((s.reslot p slot).port q).mode = _ ∧ ((s.reslot p slot).port q).session = _
  unfold State.reslot
  rw [port_setPort]
  split
  · next e => rw [e]; exact ⟨rfl, rfl⟩
  · exact ⟨rfl, rfl⟩

/-- A query's records show no command slot. -/
theorem reslot_queryRecords (s : State) (p : Port) (slot : CommandSlot) (c : Command) :
    (s.reslot p slot).queryRecords c = s.queryRecords c := by
  have hq : ∀ q, ((s.reslot p slot).port q).queryOctets = (s.port q).queryOctets := by
    intro q
    unfold State.reslot
    rw [port_setPort]
    split
    · next e => rw [e]; rfl
    · rfl
  have hl : ∀ l, ((s.reslot p slot).settleLane l).lane l = (s.settleLane l).lane l := by
    intro l
    rw [reslot_eq, withPorts_settleLane, withPorts_lane]
  cases c <;> simp only [State.queryRecords]
  case queryPorts =>
    simp only [State.portsRecords, hq]
    rfl
  case queryLane l =>
    simp only [State.laneRecords, hl]
    rfl
  all_goals rfl

/-- The owner of a command on its way changes no port (R132). -/
theorem perform_ports (s : State) (p : Port) (after : List Nat) {c : Command} (hc : c.inParts = true) (hq : c.isQuery = false) :
    (s.perform p after c).1.ports = s.ports := by
  have h := withPorts_perform (s := s) (v := s.ports) (fun _ => ⟨rfl, rfl⟩) p after hc hq
  exact congrArg (fun r : State × Reply => r.1.ports) h

theorem reslot_answered (s : State) (p : Port) (slot : CommandSlot) (tag : Octet) (c : Command) (o : Code) (r : List Octet) :
    (s.reslot p slot).answered p tag c o r = s.answered p tag c o r := by
  simp [State.answered, State.reslot]

theorem reslot_answerQuery (s : State) (p : Port) (slot : CommandSlot) (c : Command) (got : List (Nat × List Octet)) :
    (s.reslot p slot).answerQuery c got = s.answerQuery c got := by
  unfold State.answerQuery
  rw [reslot_queryRecords]

/-- What a command does once it is under way does not depend on what the slot holds. -/
theorem reslot_carryOut (s : State) (p : Port) (slot : CommandSlot) (tag : Octet) {c : Command} (after : List Nat)
    (hc : c.inParts = true) : (s.reslot p slot).carryOut p tag c after = s.carryOut p tag c after := by
  rw [carryOut_eq, carryOut_eq]
  cases hq : c.isQuery with
  | true => rw [perform_query hq, perform_query hq, reslot_answerQuery, reslot_answered]
  | false =>
    have hperf := withPorts_perform (reslot_sameSessions s p slot) p after hc hq
    rw [← reslot_eq] at hperf
    have hports := perform_ports s p after hc hq
    rw [hperf]
    generalize s.perform p after c = r at hports ⊢
    have e : r.1.withPorts (s.reslot p slot).ports = r.1.reslot p slot := by
      simp only [State.withPorts, State.reslot, State.setPort, State.port, hports]
    rw [e, reslot_answered]

/-- A command on its way from port p, or a query begun there, is taken as if its frame had just been. -/
theorem exec_atOwner {s : State} {p : Port} {tag : Octet} {c : Command} {after : List Nat} (hc : c.inParts = true)
    (hr : s.rstnLow = false) (hn : s.orphan p tag c = none)
    (hs : (s.port p).slot = if c.allowedAlways then .reading tag c [] else .handed tag c after) :
    exec (c.row p tag .atOwner) s = .next (s.carryOut p tag c after) := by
  rw [isQuery_of_allowedAlways hc] at hs
  cases hq : c.isQuery with
  | true =>
    rw [hq, if_pos rfl] at hs
    have hcomp : s.Completes p tag c .atOwner s [] := .inr ⟨rfl, hr, hn, hs, rfl⟩
    rw [exec_completes hq hcomp, carryOut_eq, perform_query hq]
  | false =>
    rw [hq, if_neg Bool.false_ne_true] at hs
    exact exec_arrives hc (.inr ⟨rfl, hr, hn, hs, rfl⟩)

/-- Settles O8: the owner takes from the slot what its hand-over put there, and no owner reads the slot. -/
theorem handOverThenTakingIsTheWhole : Obligations.HandOverThenTakingIsTheWhole := by
  intro s p tag c ht ha hc onItsWay handed
  have hway : s.underWay p tag c = onItsWay := by rw [State.underWay, ← isQuery_of_allowedAlways hc]
  have hhanded : handed = (s.received p (4 + c.operands.length)).reslot p onItsWay := by simp [handed, State.reslot, State.received]
  refine ⟨?_, fun hn => ?_⟩
  · rw [exec_row, Command.partOf, if_pos hc, command_handOver tag ht ha, hway]
  · have hslot : (handed.port p).slot = onItsWay := by simp [handed]
    rw [exec_atOwner (s := handed) (after := s.handOn (.portController p) []) hc ht.1 hn hslot, exec_row, Command.partOf, if_pos hc,
      command_whole tag ht ha, hhanded, reslot_carryOut _ _ _ _ _ hc]
    rfl

end Sys2Proof.Machine
end

