-- ==== Sys2Proof/Proofs/FetchOctets.lean ====
section
/-! SUPPORT. The octets of responses and entries (11.3, 11.5), and a FETCH octet by octet: what it delivers and removes (R134, R157,
R158), and how a transaction that delivers nothing goes on (R128, R129, R141). -/

namespace Sys2Proof.Machine

/-! ## Layouts -/

theorem statusOctets_eq (s : State) (p : Port) : s.statusOctets p =
    [oct ((match (s.port p).mode with
        | .offline => 0
        | .attached => 64
        | .lapsed => 128) + (if (s.port p).response = none then 0 else 32) + (if (s.port p).busyDrop then 16 else 0) +
        (if s.monitor.state = .present then 0 else 8)),
      oct (s.port p).queue.length] := by
  have hm : (s.port p).mode.code * 64 = (match (s.port p).mode with
      | .offline => 0
      | .attached => 64
      | .lapsed => 128) := by cases (s.port p).mode <;> rfl
  have hr : (if (s.port p).response.isSome then 32 else 0) = if (s.port p).response = none then 0 else 32 := by
    cases (s.port p).response <;> simp
  have hh : (if s.halted then 8 else 0) = if s.monitor.state = .present then 0 else 8 := by
    by_cases h : s.monitor.state = .present
    · simp [halted_of_present h, h]
    · simp [halted_of_absent h, h]
  simp only [State.statusOctets, hm, hr, hh]

@[simp] theorem statusOctets_length (s : State) (p : Port) : (s.statusOctets p).length = 2 := rfl

@[simp] theorem be_length (n v : Nat) : (be n v).length = n := by
  induction n with
  | zero => rfl
  | succ n ih => rw [be, List.length_cons, ih]

@[simp] theorem seqOctets_length (q : Option SeqNo) : (seqOctets q).length = 2 := by
  cases q <;> simp [seqOctets]

theorem seqOctets_eq (q : Option SeqNo) : seqOctets q = be 2 (match q with
    | some n => n.toNat
    | none => 0xFFFF) := by
  cases q <;> rfl

theorem detail_length (e : Event) : e.detail.length ≤ 7 := by
  cases e <;> simp [Event.detail, countOctets]

/-- Entries have 16 octets (11.5). -/
theorem entry_length (e : Entry) : e.octets.length = 16 := by
  cases e with
  | note n e time =>
    have := detail_length e
    simp [Entry.octets, padZeros, countOctets]
    omega
  | lost n count time latest => simp [Entry.octets, countOctets]

/-- How the fields of an event's entry are laid out (11.5). -/
theorem entry_laid {e : Event} {cls : EventClass} {code kind : Octet} {clear : Bool} {subject : Nat} {detail : List Octet}
    (hcls : e.cls = cls) (hcode : oct cls.code = code) (hclear : e.isClear = clear) (hkind : oct e.kindCode = kind)
    (hsubject : e.subject = oct subject) (hdetail : e.detail = detail) :
    e.cls = cls ∧ e.isClear = clear ∧ ∀ (number : Pair) (time : Count), (Entry.note number e time).octets =
      be 2 number.toNat ++ [code, kind, oct subject] ++ detail ++ List.replicate (7 - detail.length) 0x00 ++ be 4 time.toNat := by
  subst hcls hcode hclear hkind hdetail
  refine ⟨rfl, rfl, fun number time => ?_⟩
  simp [Entry.octets, padZeros, countOctets, hsubject]

/-! ## Octets sent one after another -/

/-- The first n octets of a list followed by 0x00. -/
def padded (os : List Octet) (n : Nat) : List Octet := (os ++ List.replicate n 0).take n

@[simp] theorem padded_length (os : List Octet) (n : Nat) : (padded os n).length = n := by
  simp [padded]

@[simp] theorem padded_zero (os : List Octet) : padded os 0 = [] := by simp [padded]

theorem padded_nil (n : Nat) : padded [] n = List.replicate n 0 := by simp [padded]

theorem padded_succ (os : List Octet) (n : Nat) : padded os (n + 1) = os.headD 0 :: padded os.tail n := by
  cases os with
  | nil => simp [padded, List.replicate_succ]
  | cons o os =>
    simp only [padded, List.cons_append, List.take_succ_cons, List.headD_cons, List.tail_cons, List.cons.injEq, true_and]
    rw [List.take_append, List.take_append]
    simp [List.take_replicate]
    omega

theorem padded_add (m k : Nat) : ∀ os : List Octet, padded os (m + k) = padded os m ++ padded (os.drop m) k := by
  induction m with
  | zero => simp
  | succ m ih =>
    intro os
    rw [show m + 1 + k = m + k + 1 by omega, padded_succ, padded_succ, ih, List.cons_append, List.drop_tail]

theorem drop_padded (m k : Nat) (os : List Octet) : (padded os (m + k)).drop m = padded (os.drop m) k := by
  rw [padded_add, List.drop_left' (padded_length os m)]

theorem onPin_append (x : PortState) (a b : List Octet) : x.onPin (a ++ b) = x.onPin a ++ x.onPin b := by
  unfold PortState.onPin
  split <;> simp

theorem clockOctets_add (p : Port) (b : Bool) (m n : Nat) : ∀ s : State,
    s.clockOctets p b (m + n) = (s.clockOctets p b m).clockOctets p b n := by
  induction m with
  | zero => simp [State.clockOctets]
  | succ m ih =>
    intro s
    rw [show m + 1 + n = m + n + 1 by omega, State.clockOctets, State.clockOctets, ih]

/-- One octet of a transaction in progress, of its kind, that no port reset has abandoned. -/
theorem clockOne_eq {s : State} {p : Port} {b : Bool} {f : Transaction} (hf : (s.port p).transaction = some f)
    (hk : f.isFetch ≠ some !b) (ha : f.phase ≠ .abandoned) {o : Octet} {x : PortState}
    (hc : (s.port p).clockOctet { f with isFetch := some b } = (o, x)) :
    s.clockOne p b = s.setPort p { x with psdo := x.psdo ++ (s.port p).onPin [o] } := by
  simp only [State.clockOne, hf, if_neg hk, State.clockTransaction, hc]
  rw [if_neg (by simp [ha])]

/-! ## A transaction that delivers nothing (R128, R129) -/

/-- The phase in which the status octets left are sent, then 0x00. -/
def plainPhase (left : List Octet) : Phase := if left = [] then .zeros else .status left

theorem plainPhase_ne_abandoned (left : List Octet) : plainPhase left ≠ .abandoned := by
  unfold plainPhase
  split <;> simp

theorem plainOctets_plainPhase {f : Transaction} {left : List Octet} (h : f.phase = plainPhase left) (n : Nat) :
    f.plainOctets n = padded left n := by
  cases left with
  | nil =>
    have hz : f.phase = .zeros := h
    simp only [Transaction.plainOctets, hz, padded_nil]
  | cons o rest =>
    have hz : f.phase = .status (o :: rest) := h
    simp only [Transaction.plainOctets, hz, padded]
    rw [List.take_append, List.take_append]
    simp [List.take_replicate]

theorem clockOctet_plain {x : PortState} {f : Transaction} {left : List Octet} (h : f.phase = plainPhase left)
    (hd : f.halted = true ∨ f.ignored = true ∨ f.isFetch ≠ some true) :
    x.clockOctet f = (left.headD 0, { x with transaction := some { f with phase := plainPhase left.tail } }) := by
  have hafter : f.afterStatus x.queue = .zeros := by
    unfold Transaction.afterStatus
    rw [if_pos]
    rcases hd with h | h | h <;> simp [h]
  unfold PortState.clockOctet
  cases left with
  | nil =>
    have hz : f.phase = .zeros := h
    simp [hz, plainPhase]
    rw [← hz]
  | cons o rest =>
    have hz : f.phase = .status (o :: rest) := h
    simp only [hz, hafter]
    cases rest <;> simp [plainPhase]

/-- n octets of a transaction that is no FETCH, or is ignored, or began in HALT. -/
theorem clockOctets_plain {p : Port} {b : Bool} (n : Nat) : ∀ {s : State} {f : Transaction} {left : List Octet},
    (s.port p).transaction = some f → f.isFetch ≠ some !b → f.phase = plainPhase left →
    (f.halted = true ∨ f.ignored = true ∨ b = false) →
    s.clockOctets p b n = s.setPort p { s.port p with
      transaction := some { f with phase := plainPhase (left.drop n), isFetch := if n = 0 then f.isFetch else some b }
      psdo := (s.port p).psdo ++ (s.port p).onPin (padded left n) } := by
  induction n with
  | zero =>
    intro s f left hf hk hp _
    have e : ({ f with phase := plainPhase (left.drop 0), isFetch := if 0 = 0 then f.isFetch else some b } : Transaction) = f := by
      rw [List.drop_zero, ← hp]
      rfl
    rw [e, ← hf, padded_zero]
    simp only [State.clockOctets, PortState.onPin, List.length_nil, List.replicate_zero, ite_self, List.append_nil]
    exact (setPort_port_self s p).symm
  | succ n ih =>
    intro s f left hf hk hp hd
    have hclock := clockOctet_plain (x := s.port p) (f := { f with isFetch := some b }) hp (by
      rcases hd with h | h | h
      · exact .inl h
      · exact .inr (.inl h)
      · exact .inr (.inr (by simp [h])))
    have hone := clockOne_eq hf hk (hp ▸ plainPhase_ne_abandoned left) hclock
    rw [State.clockOctets, hone, ih (f := { f with isFetch := some b, phase := plainPhase left.tail }) (left := left.tail) (by simp)
      (by simp) rfl hd]
    have hpin : (s.port p).onPin (padded left (n + 1)) = (s.port p).onPin [left.headD 0] ++ (s.port p).onPin (padded left.tail n) := by
      rw [padded_succ, ← onPin_append]
      rfl
    rw [hpin, ← List.drop_one, List.drop_drop, Nat.add_comm 1 n]
    simp only [setPort_setPort, port_setPort_self, List.append_assoc, ite_self, Nat.add_eq_zero_iff, Nat.one_ne_zero, and_false,
      if_false]
    rfl

/-! ## A FETCH that delivers (R134, R157, R158) -/

/-- A FETCH is at a place of the octets it delivers, the queue being q: octets of the place are left, and no response has been sent while
status or response octets are. -/
def Transaction.Delivers (f : Transaction) (q : List Entry) : Prop :=
  f.halted = false ∧ f.ignored = false ∧ (match f.phase with
    | .status left => left ≠ [] ∧ f.response ≠ some [] ∧ f.responseSent = false
    | .response left => left ≠ [] ∧ f.responseSent = false
    | .entry _ left => left ≠ [] ∧ left.length ≤ 16 ∧ q ≠ []
    | .zeros => q = []
    | .abandoned => False)

/-- The octets left to deliver, before 0x00. -/
def Transaction.toSend (f : Transaction) (q : List Entry) : List Octet :=
  match f.phase with
  | .status left => left ++ f.response.getD [] ++ q.flatMap Entry.octets
  | .response left => left ++ q.flatMap Entry.octets
  | .entry _ left => left ++ (q.drop 1).flatMap Entry.octets
  | .zeros => []
  | .abandoned => []

/-- How many entries leave the queue in the next n octets. -/
def Transaction.takes (f : Transaction) (n : Nat) : Nat :=
  match f.phase with
  | .status left => (n - (left.length + (f.response.getD []).length)) / 16
  | .response left => (n - left.length) / 16
  | .entry _ left => (n + 16 - left.length) / 16
  | .zeros => 0
  | .abandoned => 0

/-- Whether the response has been sent after the next n octets. -/
def Transaction.sentAfter (f : Transaction) (n : Nat) : Bool :=
  match f.phase with
  | .status left => f.response.any fun os => left.length + os.length ≤ n
  | .response left => left.length ≤ n
  | .entry _ _ => f.responseSent
  | .zeros => f.responseSent
  | .abandoned => f.responseSent

/-- What a transaction is at the beginning of an entry position (R157). -/
theorem entryPhase_delivers {f : Transaction} {q : List Entry} (h : f.phase = entryPhase q) (hh : f.halted = false)
    (hi : f.ignored = false) : f.Delivers q ∧ f.toSend q = q.flatMap Entry.octets ∧
      (∀ n, q.drop (f.takes n) = q.drop (n / 16)) ∧ ∀ n, f.sentAfter n = f.responseSent := by
  cases q with
  | nil =>
    have hp : f.phase = .zeros := h
    simp [Transaction.Delivers, Transaction.toSend, Transaction.sentAfter, hp, hh, hi]
  | cons e q =>
    have hp : f.phase = .entry e e.octets := h
    have hlen := entry_length e
    have hne : e.octets ≠ [] := List.ne_nil_of_length_eq_add_one hlen
    simp [Transaction.Delivers, Transaction.toSend, Transaction.takes, Transaction.sentAfter, hp, hh, hi, hlen, hne]

/-- One octet of a FETCH: the first of those left to deliver; what is left after it. -/
structure Delivered (f : Transaction) (x : PortState) (f' : Transaction) (q : List Entry) : Prop where
  octet : x.clockOctet f = ((f.toSend x.queue).headD 0, { x with queue := q, transaction := some f' })
  isFetch : f'.isFetch = f.isFetch
  delivers : f'.Delivers q
  toSend : f'.toSend q = (f.toSend x.queue).tail
  takes : ∀ n, q.drop (f'.takes n) = x.queue.drop (f.takes (n + 1))
  sent : ∀ n, f'.sentAfter n = f.sentAfter (n + 1)

theorem clockOctet_delivers {f : Transaction} {x : PortState} (hk : f.isFetch = some true) (h : f.Delivers x.queue) :
    ∃ f' q, Delivered f x f' q := by
  obtain ⟨hh, hi, hp⟩ := h
  have hafter : f.afterStatus x.queue = match f.response with
      | some os => .response os
      | none => entryPhase x.queue := by
    simp only [Transaction.afterStatus, hh, hi, hk]
    cases f.response <;> rfl
  cases hphase : f.phase with
  | status left =>
    rw [hphase] at hp
    obtain ⟨hne, hr, hs⟩ := hp
    obtain ⟨o, rest, rfl⟩ := List.exists_cons_of_ne_nil hne
    by_cases hrest : rest = []
    · subst hrest
      cases hresp : f.response with
      | some os =>
        have hos : os ≠ [] := fun e => hr (by rw [hresp, e])
        refine ⟨{ f with phase := .response os }, x.queue, ?_, rfl, ⟨hh, hi, hos, hs⟩, ?_, ?_, ?_⟩
        · simp [PortState.clockOctet, hphase, hafter, hresp, Transaction.toSend]
        · simp [Transaction.toSend, hphase, hresp]
        · intro n
          simp only [Transaction.takes, hphase, hresp, List.length_singleton, Option.getD_some]
          congr 2
          omega
        · intro n
          simp [Transaction.sentAfter, hphase, hresp]
          omega
      | none =>
        obtain ⟨h1, h2, h3, h4⟩ := entryPhase_delivers (f := { f with phase := entryPhase x.queue }) rfl hh hi
        refine ⟨{ f with phase := entryPhase x.queue }, x.queue, ?_, rfl, h1, ?_, ?_, ?_⟩
        · simp [PortState.clockOctet, hphase, hafter, hresp, Transaction.toSend]
        · rw [h2]
          simp [Transaction.toSend, hphase, hresp]
        · intro n
          rw [h3]
          simp [Transaction.takes, hphase, hresp]
        · intro n
          rw [h4]
          simp [Transaction.sentAfter, hphase, hresp, hs]
    · refine ⟨{ f with phase := .status rest }, x.queue, ?_, rfl, ⟨hh, hi, hrest, hr, hs⟩, ?_, ?_, ?_⟩
      · simp [PortState.clockOctet, hphase, hrest, Transaction.toSend]
      · simp [Transaction.toSend, hphase]
      · intro n
        simp only [Transaction.takes, hphase, List.length_cons]
        congr 2
        omega
      · intro n
        simp only [Transaction.sentAfter, hphase, List.length_cons]
        congr 1
        funext os
        exact decide_eq_decide.mpr (by omega)
  | response left =>
    rw [hphase] at hp
    obtain ⟨hne, hs⟩ := hp
    obtain ⟨o, rest, rfl⟩ := List.exists_cons_of_ne_nil hne
    by_cases hrest : rest = []
    · subst hrest
      obtain ⟨h1, h2, h3, h4⟩ := entryPhase_delivers (f := { f with phase := entryPhase x.queue, responseSent := true }) rfl hh hi
      refine ⟨{ f with phase := entryPhase x.queue, responseSent := true }, x.queue, ?_, rfl, h1, ?_, ?_, ?_⟩
      · simp [PortState.clockOctet, hphase, Transaction.toSend]
      · rw [h2]
        simp [Transaction.toSend, hphase]
      · intro n
        rw [h3]
        simp [Transaction.takes, hphase]
      · intro n
        rw [h4]
        simp [Transaction.sentAfter, hphase]
    · refine ⟨{ f with phase := .response rest }, x.queue, ?_, rfl, ⟨hh, hi, hrest, hs⟩, ?_, ?_, ?_⟩
      · simp [PortState.clockOctet, hphase, hrest, Transaction.toSend]
      · simp [Transaction.toSend, hphase]
      · intro n
        simp [Transaction.takes, hphase]
      · intro n
        simp [Transaction.sentAfter, hphase]
  | entry e left =>
    rw [hphase] at hp
    obtain ⟨hne, hlen, hq⟩ := hp
    obtain ⟨o, rest, rfl⟩ := List.exists_cons_of_ne_nil hne
    by_cases hrest : rest = []
    · subst hrest
      obtain ⟨h1, h2, h3, h4⟩ := entryPhase_delivers (f := { f with phase := entryPhase (x.queue.drop 1) }) rfl hh hi
      refine ⟨{ f with phase := entryPhase (x.queue.drop 1) }, x.queue.drop 1, ?_, rfl, h1, ?_, ?_, ?_⟩
      · simp [PortState.clockOctet, hphase, Transaction.toSend]
      · rw [h2]
        simp [Transaction.toSend, hphase]
      · intro n
        rw [h3, List.drop_drop]
        simp only [Transaction.takes, hphase, List.length_singleton]
        congr 1
        omega
      · intro n
        rw [h4]
        simp [Transaction.sentAfter, hphase]
    · refine ⟨{ f with phase := .entry e rest }, x.queue, ?_, rfl, ⟨hh, hi, hrest, ?_, hq⟩, ?_, ?_, ?_⟩
      · simp [PortState.clockOctet, hphase, hrest, Transaction.toSend]
      · simp at hlen ⊢
        omega
      · simp [Transaction.toSend, hphase]
      · intro n
        simp only [Transaction.takes, hphase, List.length_cons]
        congr 2
        omega
      · intro n
        simp [Transaction.sentAfter, hphase]
  | zeros =>
    rw [hphase] at hp
    refine ⟨f, x.queue, ?_, rfl, ⟨hh, hi, by rw [hphase]; exact hp⟩, ?_, ?_, ?_⟩
    · simp [PortState.clockOctet, hphase, Transaction.toSend]
    · simp [Transaction.toSend, hphase]
    · intro n
      simp [Transaction.takes, hphase]
    · intro n
      simp [Transaction.sentAfter, hphase]
  | abandoned =>
    rw [hphase] at hp
    exact hp.elim

theorem takes_zero {f : Transaction} {q : List Entry} (h : f.Delivers q) : f.takes 0 = 0 ∧ f.sentAfter 0 = f.responseSent := by
  obtain ⟨-, -, hp⟩ := h
  cases hphase : f.phase <;> rw [hphase] at hp <;> simp only [Transaction.takes, Transaction.sentAfter, hphase]
  case status left =>
    have := List.length_pos_iff.mpr hp.1
    rw [hp.2.2]
    refine ⟨by omega, ?_⟩
    cases f.response with
    | none => rfl
    | some os => exact decide_eq_false (by omega)
  case response left =>
    have := List.length_pos_iff.mpr hp.1
    rw [hp.2]
    exact ⟨by omega, decide_eq_false (by omega)⟩
  case entry e left =>
    have := List.length_pos_iff.mpr hp.1
    exact ⟨by omega, trivial⟩
  case zeros => exact ⟨trivial, trivial⟩
  case abandoned => exact hp.elim

/-- n octets of a FETCH on a port whose PRSTn is high. -/
theorem clockOctets_delivers {p : Port} (n : Nat) : ∀ {s : State} {f : Transaction}, (s.port p).transaction = some f →
    f.isFetch ≠ some false → f.Delivers (s.port p).queue → (s.port p).prstnLow = false →
    ∃ f', s.clockOctets p true n = s.setPort p { s.port p with
        transaction := some f'
        queue := (s.port p).queue.drop (f.takes n)
        psdo := (s.port p).psdo ++ padded (f.toSend (s.port p).queue) n } ∧
      f'.isFetch ≠ some false ∧ f'.responseSent = f.sentAfter n := by
  induction n with
  | zero =>
    intro s f hf hk hd _
    obtain ⟨h1, h2⟩ := takes_zero hd
    refine ⟨f, ?_, hk, h2.symm⟩
    rw [h1, List.drop_zero, padded_zero, List.append_nil, ← hf]
    exact (setPort_port_self s p).symm
  | succ n ih =>
    intro s f hf hk hd hpin
    obtain ⟨f₁, q, h⟩ := clockOctet_delivers (f := { f with isFetch := some true }) (x := s.port p) rfl hd
    have hna : f.phase ≠ .abandoned := fun e => by
      have hp := hd.2.2
      rw [e] at hp
      exact hp
    have hone := clockOne_eq hf (by simpa using hk) hna h.octet
    have hsend : ∀ o, (s.port p).onPin [o] = [o] := by simp [PortState.onPin, hpin]
    rw [hsend] at hone
    obtain ⟨f₂, h2, hk2, hs2⟩ := ih (s := s.clockOne p true) (f := f₁) (by rw [hone, port_setPort_self]) (by rw [h.isFetch]; simp)
      (by rw [hone, port_setPort_self]; exact h.delivers) (by rw [hone, port_setPort_self]; exact hpin)
    refine ⟨f₂, ?_, hk2, hs2.trans (h.sent n)⟩
    have htakes := h.takes n
    have htoSend := h.toSend
    rw [State.clockOctets, h2, hone]
    simp only [port_setPort_self, setPort_setPort, htakes, htoSend, padded_succ, List.append_assoc, List.singleton_append]
    rfl

/-! ## FETCH, whole (R134) -/

section
variable {s : State} {p : Port} (n : Nat) (hr : s.rstnLow = false) (ht : (s.port p).transaction = none)
include hr ht

theorem startTransaction_eq : s.startTransaction p =
    s.setPort p { s.port p with transaction := some (s.openTransaction p), psdo := [] } := by
  simp [State.startTransaction, hr, ht]

/-- A FETCH given whole in HALT, or while PRSTn is low, delivers nothing. -/
theorem wholeFetch_plain (h : s.halted = true ∨ (s.port p).prstnLow = true) :
    s.wholeFetch p n = s.setPort p { s.port p with psdo := (s.port p).onPin (padded (s.statusOctets p) n) } := by
  have hclock := clockOctets_plain (p := p) (b := true) n (s := s.startTransaction p) (f := s.openTransaction p)
    (left := s.statusOctets p) (by simp [startTransaction_eq hr ht]) (by simp [State.openTransaction]) rfl
    (h.imp_right fun h => .inl h)
  rw [State.wholeFetch, if_neg (by simp [hr, ht]), hclock, startTransaction_eq hr ht]
  have hk : (if n = 0 then (s.openTransaction p).isFetch else some true) ≠ some false := by
    split <;> simp [State.openTransaction]
  simp only [State.stopFetch, port_setPort_self, hk, if_false, modPort_eq, setPort_setPort, List.nil_append]
  simp only [PortState.onPin, State.openTransaction, Bool.false_eq_true, if_false, ← ht]

/-- A FETCH given whole while the part runs and PRSTn is high. -/
theorem wholeFetch_delivers (hh : s.halted = false) (hpin : (s.port p).prstnLow = false) :
    s.wholeFetch p n = s.setPort p { s.port p with
      psdo := padded (s.statusOctets p ++ ((s.port p).response.map Response.octets).getD [] ++ (s.port p).queue.flatMap Entry.octets) n
      response := if 2 + (((s.port p).response.map Response.octets).getD []).length ≤ n then none else (s.port p).response
      queue := (s.port p).queue.drop ((n - (2 + (((s.port p).response.map Response.octets).getD []).length)) / 16) } := by
  have hresp : (s.openTransaction p).response = (s.port p).response.map Response.octets := by simp [State.openTransaction, hh]
  have hne : (s.openTransaction p).response ≠ some [] := by
    rw [hresp]
    cases (s.port p).response <;> simp [Response.octets]
  obtain ⟨f, hclock, hk, hs⟩ := clockOctets_delivers (p := p) n (s := s.startTransaction p) (f := s.openTransaction p)
    (by simp [startTransaction_eq hr ht]) (by simp [State.openTransaction]) ⟨hh, hpin, by simp [State.statusOctets], hne, rfl⟩
    (by simpa [startTransaction_eq hr ht] using hpin)
  have htakes : (s.openTransaction p).takes n = (n - (2 + (((s.port p).response.map Response.octets).getD []).length)) / 16 := by
    rw [← hresp]
    rfl
  have hsend : ∀ q, (s.openTransaction p).toSend q =
      s.statusOctets p ++ ((s.port p).response.map Response.octets).getD [] ++ q.flatMap Entry.octets := by
    intro q
    rw [← hresp]
    rfl
  have hsent : (if f.responseSent then none else (s.port p).response) =
      if 2 + (((s.port p).response.map Response.octets).getD []).length ≤ n then none else (s.port p).response := by
    have hafter : (s.openTransaction p).sentAfter n = (s.openTransaction p).response.any fun os => 2 + os.length ≤ n := rfl
    rw [hs, hafter, hresp]
    cases (s.port p).response <;> simp
  rw [State.wholeFetch, if_neg (by simp [hr, ht]), hclock, startTransaction_eq hr ht]
  simp only [State.stopFetch, port_setPort_self, hk, if_false, modPort_eq, setPort_setPort, List.nil_append, htakes, hsend, hsent]
  rw [ht]

end

theorem pattn_setPort {s : State} {p : Port} (hr : s.rstnLow = false) (x : PortState) :
    (s.setPort p x).pattn p = true ↔ x.prstnLow = false ∧ (x.response ≠ none ∨ x.queue ≠ []) := by
  rw [pattn_iff, port_setPort_self]
  exact ⟨fun h => h.2, fun h => ⟨hr, h⟩⟩

/-- Settles O10: the layouts field by field, and a FETCH delivering, in HALT, and while PRSTn is low. -/
theorem fetchDeliversAndRemoves : Obligations.FetchDeliversAndRemoves := by
  refine ⟨statusOctets_eq, fun r => rfl, by decide, fun number count time latest => rfl, fun e => ?_, fun s p n hr ht => ?_⟩
  · cases e with
    | gapRunBegin t q a | gapRunEnd t q a => exact entry_laid rfl rfl rfl rfl rfl (congrArg (· ++ _) (seqOctets_eq q))
    | closed t m outcome q reason concurred =>
      refine entry_laid rfl rfl rfl rfl rfl ?_
      cases q <;> rfl
    | gradeWorse | gradeBetter | switched | starved | fed | holdDormant | barPlaced | claimDropped | claimDiscarded | favouredChanged
    | holdActive | barLifted | proposed | installed | peerLapsed | peerDetached | peerReset | selfLapsed | peerAttached | haltEnded =>
      exact entry_laid rfl rfl rfl rfl rfl rfl
  · have fetches : exec (.fetch p (.whole n)) s = .next (s.wholeFetch p n) := rfl
    refine ⟨fun hpin hm => ⟨?_, ?_⟩, fun hpin hm => ⟨?_, ?_⟩, fun hpin => ⟨?_, ?_⟩⟩
    · rw [fetches, wholeFetch_delivers n hr ht (halted_of_present hm) hpin]
      rfl
    · rw [pattn_setPort hr, ← List.length_pos_iff, List.length_drop, Nat.sub_pos_iff_lt]
      by_cases hn : 2 + (((s.port p).response.map Response.octets).getD []).length ≤ n
      · simp [hpin, hn, not_lt.mpr hn]
      · simp [hpin, hn, not_le.mp hn]
    · rw [fetches, wholeFetch_plain n hr ht (.inl (halted_of_absent hm))]
      simp only [PortState.onPin, hpin, Bool.false_eq_true, if_false]
      rfl
    · rw [pattn_setPort hr]
      simp [hpin]
    · rw [fetches, wholeFetch_plain n hr ht (.inr hpin)]
      simp only [PortState.onPin, hpin, if_true, padded_length]
    · rw [pattn_setPort hr]
      simp [hpin]

/-! ## A transaction in parts (R129; log entries 11, 14 and 15) -/

theorem clockOctets_rstnLow (p : Port) (b : Bool) (n : Nat) : ∀ s : State, (s.clockOctets p b n).rstnLow = s.rstnLow := by
  have one : ∀ s : State, (s.clockOne p b).rstnLow = s.rstnLow := by
    intro s
    unfold State.clockOne State.clockTransaction
    repeat' split
    all_goals rfl
  induction n with
  | zero => exact fun s => rfl
  | succ n ih => exact fun s => (ih _).trans (one s)

/-- The transaction that ends on a port carries in its last octets the status octets left, then 0x00. -/
theorem endedPort_plain {s : State} {p : Port} {f : Transaction} {left : List Octet} (hf : (s.port p).transaction = some f)
    (hp : f.phase = plainPhase left) (hpin : (s.port p).prstnLow = false) (n : Nat) :
    (s.endedPort p n).psdo = (s.port p).psdo ++ padded left (n - (s.port p).psdo.length) := by
  have hend : s.ending p = f := by simp [State.ending, hf]
  simp [State.endedPort, PortState.carried, hf, hpin, hend, plainOctets_plainPhase hp]

theorem canEnd_of_isFetch {x : PortState} {f : Transaction} (hf : x.transaction = some f) (hk : f.isFetch ≠ some true) {n : Nat}
    (hn : x.psdo.length ≤ n) : x.canEnd n = true := by
  simp [PortState.canEnd, hf, hk, hn]

/-- A FETCH given whole is its parts. -/
theorem fetch_parts {s t u v : State} {p : Port} {m n : Nat} (htr : (s.port p).transaction = none)
    (ht : exec (.fetch p .start) s = .next t) (hu : exec (.fetch p (.clock m)) t = .next u)
    (hv : exec (.fetch p (.clock n)) u = .next v) : exec (.fetch p (.whole (m + n))) s = exec (.fetch p .stop) v := by
  have et : s.startTransaction p = t := by injection ht
  have eu : (if t.rstnLow then t else t.clockOctets p true m) = u := by injection hu
  have ev : (if u.rstnLow then u else u.clockOctets p true n) = v := by injection hv
  have hlow : t.rstnLow = s.rstnLow := by
    rw [← et]
    unfold State.startTransaction
    split <;> rfl
  have hwhole : exec (.fetch p (.whole (m + n))) s = .next (s.wholeFetch p (m + n)) := rfl
  have hstop : exec (.fetch p .stop) v = .next (if v.rstnLow then v else v.stopFetch p) := rfl
  rw [hwhole, hstop]
  cases hr : s.rstnLow with
  | true =>
    have e : s.startTransaction p = s := by simp [State.startTransaction, hr]
    rw [e] at et
    subst et
    rw [if_pos hr] at eu
    subst eu
    rw [if_pos hr] at ev
    subst ev
    simp [State.wholeFetch, hr]
  | false =>
    rw [hr] at hlow
    have hlu : u.rstnLow = false := by rw [← eu, if_neg (by simp [hlow]), clockOctets_rstnLow, hlow]
    have hlv : v.rstnLow = false := by rw [← ev, if_neg (by simp [hlu]), clockOctets_rstnLow, hlu]
    rw [if_neg (by simp [hlow])] at eu
    rw [if_neg (by simp [hlu])] at ev
    rw [State.wholeFetch, if_neg (by simp [hr, htr]), if_neg (by simp [hlv]), clockOctets_add, et, eu, ev]

/-- The octets of a transaction in one of the two ways of clocking it. -/
theorem exec_clocks {clock : Nat → FetchPart} (h : clock = .clock ∨ clock = .pass) : ∃ b : Bool,
    (∀ (s : State) (p : Port) (m : Nat), s.rstnLow = false → exec (.fetch p (clock m)) s = .next (s.clockOctets p b m)) ∧
      (clock = .clock → b = true) ∧ (clock = .pass → b = false) := by
  have pass_ne : FetchPart.clock ≠ FetchPart.pass := fun e => by simpa using congrFun e 0
  rcases h with rfl | rfl
  · refine ⟨true, fun s p m hr => ?_, fun _ => rfl, fun e => absurd e pass_ne⟩
    exact congrArg _ (if_neg (by simp [hr]))
  · refine ⟨false, fun s p m hr => ?_, fun e => absurd e.symm pass_ne, fun _ => rfl⟩
    exact congrArg _ (if_neg (by simp [hr]))

/-- m octets of a transaction that has just begun, and is no FETCH or is ignored. -/
theorem start_clockOctets {s : State} {p : Port} {b : Bool} (hr : s.rstnLow = false) (ht : (s.port p).transaction = none)
    (h : (s.port p).prstnLow = true ∨ b = false) (m : Nat) :
    ((s.startTransaction p).clockOctets p b m) = s.setPort p { s.port p with
      transaction := some { s.openTransaction p with
        phase := plainPhase ((s.statusOctets p).drop m), isFetch := if m = 0 then none else some b }
      psdo := (s.port p).onPin (padded (s.statusOctets p) m) } := by
  have hclock := clockOctets_plain (p := p) (b := b) m (s := s.startTransaction p) (f := s.openTransaction p)
    (left := s.statusOctets p) (by simp [startTransaction_eq hr ht]) (by simp [State.openTransaction]) rfl (.inr h)
  rw [hclock, startTransaction_eq hr ht]
  simp only [port_setPort_self, setPort_setPort, List.nil_append]
  rfl

/-- A transaction that begins while PRSTn is low and goes on after it has risen: ones, then the octets of any ignored transaction. -/
theorem ignored_goesOn {s : State} {p : Port} {b : Bool} (hr : s.rstnLow = false) (hpin : (s.port p).prstnLow = true)
    (htr : (s.port p).transaction = none) (m k : Nat) :
    ∃ f : Transaction, f.phase = plainPhase ((s.statusOctets p).drop (m + k)) ∧ f.isFetch ≠ some !b ∧ f.ignored = true ∧
      f.responseSent = false ∧
      ((((s.startTransaction p).clockOctets p b m).modPort p fun x => { x with prstnLow := false }).clockOctets p b k) =
        s.setPort p { s.port p with
          prstnLow := false, transaction := some f
          psdo := List.replicate m 0xFF ++ (padded (s.statusOctets p) (m + k)).drop m } := by
  generalize hv : (((s.startTransaction p).clockOctets p b m).modPort p fun x => { x with prstnLow := false }) = v
  obtain ⟨f, hphase, hk, hi, hs, hvx⟩ : ∃ f : Transaction, f.phase = plainPhase ((s.statusOctets p).drop m) ∧ f.isFetch ≠ some !b ∧
      f.ignored = true ∧ f.responseSent = false ∧
      v = s.setPort p { s.port p with prstnLow := false, transaction := some f, psdo := List.replicate m 0xFF } := by
    rw [start_clockOctets hr htr (.inl hpin), modPort_eq, port_setPort_self, setPort_setPort] at hv
    refine ⟨{ s.openTransaction p with phase := plainPhase ((s.statusOctets p).drop m), isFetch := if m = 0 then none else some b },
      rfl, ?_, ?_, ?_, hv.symm.trans ?_⟩
    · dsimp only
      split <;> simp
    · exact hpin
    · rfl
    · simp only [PortState.onPin, hpin, if_true, padded_length]
  have hclock := clockOctets_plain (p := p) (b := b) k (s := v) (f := f) (by rw [hvx, port_setPort_self]) hk hphase (.inr (.inl hi))
  refine ⟨{ f with phase := plainPhase (((s.statusOctets p).drop m).drop k), isFetch := if k = 0 then f.isFetch else some b }, ?_, ?_,
    hi, hs, hclock.trans ?_⟩
  · rw [List.drop_drop]
  · dsimp only
    split
    · exact hk
    · simp
  · rw [hvx, drop_padded]
    simp only [port_setPort_self, setPort_setPort]
    rfl

/-- Settles O11: a FETCH octet by octet, and the transactions that deliver nothing. -/
theorem fetchIsItsParts : Obligations.FetchIsItsParts := by
  refine ⟨fun s t u v p m n htr ht hu hv => fetch_parts htr ht hu hv, ?_, ?_⟩
  · intro s t u v w p m k clock hclock hr hpin htr ht hu hv hw carries
    obtain ⟨b, hexec, hclocked, hpassed⟩ := exec_clocks hclock
    have et : s.startTransaction p = t := by injection ht
    have hlt : t.rstnLow = false := by rw [← et, startTransaction_eq hr htr]; exact hr
    have eu : t.clockOctets p b m = u := by injection (hexec t p m hlt).symm.trans hu
    have ev : (u.modPort p fun x => { x with prstnLow := false }) = v := by injection hv
    have hlv : v.rstnLow = false := by rw [← ev, ← eu]; exact (clockOctets_rstnLow ..).trans hlt
    have ew : v.clockOctets p b k = w := by injection (hexec v p k hlv).symm.trans hw
    obtain ⟨f, hphase, hk, hi, hs, hgo⟩ := ignored_goesOn (b := b) hr hpin htr m k
    rw [et, eu, ev, ew] at hgo
    clear hw hv hu ht ew ev eu et
    have htrans : (w.port p).transaction = some f := by rw [hgo, port_setPort_self]
    have hpsdo : (w.port p).psdo = carries (m + k) := by rw [hgo, port_setPort_self]; rfl
    have hlen : (carries (m + k)).length = m + k := by simp [carries]
    have hend : w.ending p = f := by simp [State.ending, htrans]
    refine ⟨?_, by rw [hend]; exact hi, by rw [hend, hphase]; exact plainPhase_ne_abandoned _, fun hp n hn => ⟨?_, ?_⟩, fun hc => ?_⟩
    · rw [htrans]
      exact hgo
    · exact canEnd_of_isFetch htrans (by simpa [hpassed hp] using hk) (by rw [hpsdo, hlen]; exact hn)
    · rw [endedPort_plain htrans hphase (by rw [hgo, port_setPort_self]), hpsdo, hlen]
      obtain ⟨d, rfl⟩ := Nat.exists_eq_add_of_le hn
      have e : ∀ j, carries (m + j) = List.replicate m 0xFF ++ padded ((s.statusOctets p).drop m) j := fun j => by
        rw [← drop_padded]
        rfl
      rw [Nat.add_sub_cancel_left, e, Nat.add_assoc, e, padded_add, List.drop_drop, List.append_assoc]
    · have hlw : w.rstnLow = false := by rw [hgo]; exact hr
      have hstop : exec (.fetch p .stop) w = .next (if w.rstnLow then w else w.stopFetch p) := rfl
      rw [hstop, if_neg (by simp [hlw]), State.stopFetch, htrans]
      simp only [show f.isFetch ≠ some false by simpa [hclocked hc] using hk, if_false, modPort_eq, hs, Bool.false_eq_true]
  · intro s t u p m hr hpin htr ht hu
    have et : s.startTransaction p = t := by injection ht
    have hlt : t.rstnLow = false := by rw [← et, startTransaction_eq hr htr]; exact hr
    have eu : (if t.rstnLow then t else t.clockOctets p false m) = u := by injection hu
    rw [if_neg (by simp [hlt]), ← et, start_clockOctets hr htr (.inr rfl)] at eu
    subst eu
    have hpsdo : (s.port p).onPin (padded (s.statusOctets p) m) = padded (s.statusOctets p) m := by
      simp [PortState.onPin, hpin]
    simp only [port_setPort_self, hpsdo]
    refine ⟨rfl, fun v n hn hv hvo hvp => ?_⟩
    obtain ⟨halted, hv⟩ := hv
    have hend := Option.map_some .. ▸ hv
    have hlen : (v.port p).psdo.length = m := by rw [hvo, padded_length]
    refine ⟨?_, canEnd_of_isFetch hend ?_ (by rw [hlen]; exact hn), ?_⟩
    · rw [endedPort_plain hend rfl hvp, hlen, hvo]
      obtain ⟨d, rfl⟩ := Nat.exists_eq_add_of_le hn
      rw [Nat.add_sub_cancel_left, ← padded_add]
      rfl
    · dsimp only
      split <;> simp
    · rw [unheard_eq_false, State.ending, hend]
      exact ⟨hpin, plainPhase_ne_abandoned _⟩

end Sys2Proof.Machine
end

