-- ==== Sys2Proof/Proofs/SessionCommands.lean ====
section
/-! SUPPORT. The commands of the port controller: ATTACH, RENEW, DETACH (R136, R137, R139) and SUBSCRIBE (R151). -/

namespace Sys2Proof.Machine

/-- The row of a command that its port controller carries out itself answers what its work answers. -/
theorem exec_ownWork {s v : State} {p : Port} (tag : Octet) {c : Command} (part : Part) {r : Reply} (ho : c.inParts = false)
    (h : s.CanTake p (4 + c.operands.length)) (ha : c.allowedAlways = true ∨ (s.port p).mode = .attached)
    (hr : (s.received p (4 + c.operands.length)).perform p ((s.received p (4 + c.operands.length)).handOn (.portController p) []) c =
      (v, r)) : exec (c.row p tag part) s = .next (v.answered p tag c r.1 r.2) := by
  rw [exec_here tag part ho h ha, carryOut_eq, hr]

theorem port_of_offer (s : State) (d : List Port) (b : Block) (after : List Nat) (e : Event) (q : Port) :
    (s.offer d b after e).port q = s.port q := rfl

theorem setPort_of_offer (s : State) (d : List Port) (b : Block) (after : List Nat) (e : Event) (p : Port) (x : PortState) :
    (s.offer d b after e).setPort p x = (s.setPort p x).offer d b after e := rfl

theorem received_unattached {s : State} {p : Port} {n : Nat} (h : (s.port p).mode ≠ .attached) :
    s.received p n = s.setPort p (s.takenPort p n) := by
  rw [State.received, leaseRestarted_of_not (x := s.takenPort p n) h]

/-! ## ATTACH (R136) -/

theorem nextSession_eq (x : Octet) : nextSession x = if x = 255 then 1 else x + 1 := rfl

theorem attach_opens {s : State} {p : Port} {lease : Octet} (hm : (s.port p).mode ≠ .attached) (hl : lease ≠ 0) :
    s.attach p lease = ((s.setPort p ((s.port p).attached lease)).offer (otherPorts p) (.portController p) []
      (.peerAttached p (nextSession (s.port p).session) (s.port p).mode), (.accepted, [nextSession (s.port p).session])) := by
  simp only [State.attach, if_neg hm, if_neg hl, modPort_eq]

/-- Settles O12: the controller opens the session, and the response says which. -/
theorem attachOpensASession : Obligations.AttachOpensASession := by
  intro s p tag lease ht hm hl x session
  have hatt := attach_opens (s := s.received p 5) (p := p) (lease := lease) (by rw [received_mode]; exact hm) hl
  have hrow := exec_ownWork (c := .attach lease) tag .whole rfl ht (.inl rfl) hatt
  refine hrow.trans ?_
  rw [received_unattached hm]
  simp only [State.answered, port_of_offer, setPort_of_offer, port_setPort_self, setPort_setPort]
  rfl

/-- Settles O13: the checks that refuse, and RENEW, which does no more than its frame. -/
theorem renewAndRefusedSessionCommands : Obligations.RenewAndRefusedSessionCommands := by
  intro s p tag lease
  refine ⟨fun ht hm => ?_, fun ht hm => ⟨?_, fun ⟨l, hl⟩ => ?_⟩, fun ht hm => ?_⟩
  · have hr : (s.received p 5).attach p lease = (s.received p 5, refuse .alreadyAttached) := by
      rw [State.attach]
      exact if_pos (by rw [received_mode]; exact hm)
    exact exec_ownWork (c := .attach lease) tag .whole rfl ht (.inl rfl) hr
  · exact exec_ownWork (c := .renew) tag .whole rfl ht (.inr hm) rfl
  · have hb : (s.received p 4).barCount p ≠ 0 := by
      have hmem : l ∈ allLanes.filter fun l => PortSet.has (s.lane l).bars p := List.mem_filter.mpr ⟨mem_allLanes l, hl⟩
      exact (List.length_pos_of_mem hmem).ne'
    have hr : (s.received p 4).detach p = (s.received p 4, refuse .barsHeld) := by
      rw [State.detach]
      exact if_pos hb
    exact exec_ownWork (c := .detach) tag .whole rfl ht (.inr hm) hr
  · have hr : (s.received p 5).attach p 0 = (s.received p 5, refuse .badLease) := by
      simp only [State.attach, received_mode, if_neg hm, if_true]
    exact exec_ownWork (c := .attach 0) tag .whole rfl ht (.inl rfl) hr

/-! ## SUBSCRIBE (R151) -/

theorem classOperand_eq {o : Octet} {c : EventClass} (h : o.toNat = (match c with
    | .lane => 1
    | .trunk => 2
    | .claim => 3
    | .charter => 4
    | .port => 5
    | .device => 6)) : classOperand o = some c := by
  unfold classOperand
  rw [h]
  cases c <;> rfl

theorem modeOperand_eq {o : Octet} {m : SubMode} (h : o.toNat = (match m with
    | .off => 0
    | .onset => 1
    | .both => 2)) : modeOperand o = some m := by
  unfold modeOperand
  rw [h]
  cases m <;> rfl

theorem classOperand_none {o : Octet} (h : o = 0 ∨ 6 < o.toNat) : classOperand o = none := by
  unfold classOperand
  split <;> first | rfl | (rcases h with rfl | h <;> simp_all)

theorem modeOperand_none {o : Octet} (h : 2 < o.toNat) : modeOperand o = none := by
  unfold modeOperand
  split <;> first | rfl | simp_all

theorem mode_set_self (x : Subscriptions) (c : EventClass) (m : SubMode) : (x.set c m).mode c = m := by cases c <;> rfl

theorem mode_set_ne (x : Subscriptions) {c c' : EventClass} (m : SubMode) (h : c' ≠ c) : (x.set c m).mode c' = x.mode c' := by
  cases c <;> cases c' <;> first | rfl | exact absurd rfl h

/-- Settles O15: the codes name a class and a mode or not. -/
theorem subscribeSetsOneClass : Obligations.SubscribeSetsOneClass := by
  intro s p tag cls mode ht hm
  refine ⟨fun c m hc hmode => ⟨(s.port p).subs.set c m, mode_set_self .., fun c' h => mode_set_ne _ m h, ?_⟩, fun h => ?_⟩
  · have hr : (s.received p 6).subscribe p cls mode =
        ((s.received p 6).modPort p fun x => { x with subs := x.subs.set c m }, accepted) := by
      rw [State.subscribe, classOperand_eq hc, modeOperand_eq hmode]
    have hrow := exec_ownWork (c := .subscribe cls mode) tag .whole rfl ht (.inr hm) hr
    refine hrow.trans ?_
    simp only [State.answered, State.received, modPort_eq, port_setPort_self, setPort_setPort]
    rfl
  · have hr : (s.received p 6).subscribe p cls mode = (s.received p 6, refuse .badValue) := by
      rw [State.subscribe]
      rcases h with h | h | h
      · rw [classOperand_none (.inl h)]
      · rw [classOperand_none (.inr h)]
      · rw [modeOperand_none h]
        cases classOperand cls <;> rfl
    exact exec_ownWork (c := .subscribe cls mode) tag .whole rfl ht (.inr hm) hr

/-! ## DETACH (R139) -/

/-- The port controller's part of a DETACH: the record, and PEER-DETACHED. -/
def State.detaching (s : State) (p : Port) : State :=
  (s.setPort p (s.port p).detached).offer (otherPorts p) (.portController p) [] (.peerDetached p (s.port p).session)

theorem detach_departs {s : State} {p : Port} (hb : s.barCount p = 0) :
    s.detach p = ((s.detaching p).depart p .detach ((s.detaching p).handOn (.portController p) []), accepted) := by
  simp only [State.detach, hb, ne_eq, not_true_eq_false, if_false, modPort_eq, port_setPort_self, State.detaching]
  rfl

/-- Settles O14: the controller's record and offer, then the departure (`depart_departs`), then the response. -/
theorem detachDepartsFromClaimsAndProposals : Obligations.DetachDepartsFromClaimsAndProposals := by
  intro s p tag ht hm hb
  generalize hu : (s.received p 4).detaching p = u
  have hrow := exec_ownWork (c := .detach) tag .whole rfl ht (.inr hm) (detach_departs (s := s.received p 4) hb)
  rw [hu] at hrow
  have hup : u.port p = { s.takenPort p 4 with
      mode := .offline, leaseRemaining := 0, queue := [], subs := Subscriptions.all .off } := by
    rw [← hu]
    simp only [State.detaching, port_of_offer, port_setPort_self, State.received]
    rfl
  have hd := depart_departs (s := s) (u := u) (p := p) .detach
    (own := [{ event := .peerDetached p (s.port p).session, time := s.blockCounter, block := .portController p, stamp := s.stamp,
               after := [], dest := otherPorts p }])
    (fun q hq => by rw [← hu]; simp [State.detaching, State.received, hq]) (by rw [hup]; rfl) (by rw [← hu]; rfl)
    (by rw [← hu]; rfl) (by rw [← hu]; rfl) (by rw [← hu]; rfl)
    (by rw [← hu]; simp only [State.detaching, State.received, port_setPort_self]; rfl)
  refine ⟨_, hrow, ?_, hd.setPort _⟩
  rw [State.answered, port_setPort_self, port_of_ports (depart_books ..).ports, hup]
  rfl

end Sys2Proof.Machine
end

