-- ==== Sys2Proof/Proofs/QueryAnswers.lean ====
section
/-! SUPPORT. The queries (R142 to R146) and the layouts of their results (11.4, 11.6). -/

namespace Sys2Proof.Machine

/-! ## A query that completes, or reads on (R142) -/

section
variable {s u : State} {p : Port} {tag : Octet} {part : Part} {got : List (Nat × List Octet)} {c : Command}

/-- A query that completes answers its records as they were read, or as they stand. -/
theorem exec_query {now : List (List Octet)} (hq : c.isQuery = true) (hn : u.queryRecords c = .ok now)
    (h : s.Completes p tag c part u got) :
    exec (c.row p tag part) s = .next (u.answered p tag c .accepted (c.layOut (completeRecords got now))) := by
  rw [exec_completes hq h, State.answerQuery, hn]

/-- A query whose operand is out of range is refused. -/
theorem exec_queryRefused {code : Code} (hq : c.isQuery = true) (hn : u.queryRecords c = .error code)
    (h : s.Completes p tag c part u got) : exec (c.row p tag part) s = .next (u.answered p tag c code []) := by
  rw [exec_completes hq h, State.answerQuery, hn]
  rfl

end

theorem halted_octet (s : State) : flagOctet s.halted = if s.monitor.state = .present then (0x00 : Octet) else 0x01 := by
  by_cases h : s.monitor.state = .present
  · simp [flagOctet, halted_of_present h, h]
  · simp [flagOctet, halted_of_absent h, h]

/-- Settles O16: each query answers its records, and the two parts of a port's record stand about its bar count. -/
theorem deviceAndPortsAreQueried : Obligations.DeviceAndPortsAreQueried := by
  intro s u p tag part got shown timebase halt record bars reads
  have hdevice : ∀ v : State, v.queryRecords .queryDevice = .ok [timebase v, halt v] := by
    intro v
    simp only [State.queryRecords, State.deviceRecords, halted_octet]
    rfl
  have hports : ∀ v : State, v.queryRecords .queryPorts =
      .ok [record v 0, record v 1, record v 2, record v 3, bars v 0, bars v 1, bars v 2, bars v 3] := fun v => rfl
  refine ⟨fun h => ?_, fun h => ?_, fun hr hs hl => ?_, fun hr hs hl => ?_, fun q => ⟨fun hr hs hl => ?_, fun hr hs hl => ?_⟩⟩
  · have hrow := exec_query rfl (hdevice u) h
    refine hrow.trans ?_
    simp [completeRecords, Command.layOut, shown]
  · have hrow := exec_query rfl (hports u) h
    refine hrow.trans ?_
    simp [completeRecords, Command.layOut, shown, portGroup, allPorts]
  · exact exec_read (c := .queryDevice) rfl hr hs (hdevice s) rfl hl
  · exact exec_read (c := .queryDevice) rfl hr hs (hdevice s) rfl hl
  · have hi : [record s 0, record s 1, record s 2, record s 3, bars s 0, bars s 1, bars s 2, bars s 3][q.val]? = some (record s q) := by
      fin_cases q <;> rfl
    exact exec_read (c := .queryPorts) rfl hr hs (hports s) hi hl
  · have hi : [record s 0, record s 1, record s 2, record s 3, bars s 0, bars s 1, bars s 2, bars s 3][4 + q.val]? = some (bars s q) := by
      fin_cases q <;> rfl
    exact exec_read (c := .queryPorts) rfl hr hs (hports s) hi hl

/-! ## Layouts (11.4, 11.6) -/

theorem be_two (v : Nat) : be 2 v = [oct (v / 256), oct v] := by simp [be, oct]

theorem be_three (v : Nat) : be 3 v = [oct (v / 65536), oct (v / 256), oct v] := by simp [be, oct]

theorem be_four (v : Nat) : be 4 v = [oct (v / 16777216), oct (v / 65536), oct (v / 256), oct v] := by simp [be, oct]

theorem vector_four {α : Type} (v : Vector α 4) : v = #v[v[0], v[1], v[2], v[3]] := by
  ext i hi
  interval_cases i <;> rfl

/-- Bit k of a set of ports stands for Pk (R175). -/
theorem octet_bits (ps : PortSet) : (PortSet.octet ps).toNat < 16 ∧ ∀ p : Port, (PortSet.octet ps).getLsbD p.val = ps[p.val] := by
  have bits : ∀ a b c d : Bool, (PortSet.octet #v[a, b, c, d]).toNat < 16 ∧
      ∀ p : Port, (PortSet.octet #v[a, b, c, d]).getLsbD p.val = (#v[a, b, c, d])[p.val] := by decide
  rw [vector_four ps]
  exact bits ..

theorem remainingTo_eq (s : State) (d : Count) :
    s.remainingTo d = if (d - s.blockCounter).toNat ≤ 32000 then (d - s.blockCounter).toNat else 0 := by
  unfold State.remainingTo State.deadlineReached State.periodsTo deadlinePeriods
  generalize (d - s.blockCounter).toNat = n
  by_cases h0 : n = 0
  · simp [h0]
  · by_cases h : n ≤ 32000
    · simp [h0, h, not_lt.mpr h]
    · simp [h, not_le.mp h]

theorem bufferOctets_eq (y : LaneState) : y.bufferOctets =
    [oct y.buffer.length] ++ (match y.buffer.head?, y.buffer.getLast? with
      | some oldest, some newest => be 2 oldest.seq.toNat ++ be 2 newest.seq.toNat
      | _, _ => [0xFF, 0xFF, 0xFF, 0xFF]) ++ [oct y.status.code] := by
  unfold LaneState.bufferOctets
  cases hb : y.buffer with
  | nil => rfl
  | cons b bs =>
    simp [List.getLast?_cons, seqOctets]

@[simp] theorem memberOctets_length {ls : List Lane} (h : ls.length ≤ 4) : (memberOctets ls).length = 4 := by
  simp [memberOctets]
  omega

theorem selectionOctets_length (x : Selection) : x.octets.length = 10 := by simp [Selection.octets]

theorem emitterOctets_length (e : Emitter) : e.octets.length = 31 := by simp [Emitter.octets, countOctets]

theorem claimOctets_length (x : TrunkState) : x.claimOctets.length = 9 := by
  unfold TrunkState.claimOctets
  cases x.hold <;> simp

theorem charterOctets_length {c : Charter} (h : c.terms.members.length ≤ 4) : c.octets.length = 11 := by
  simp [Charter.octets, memberOctets_length h]

theorem proposalOctets_length (s : State) (t : Trunk) : (s.proposalOctets t).length = 11 := by
  unfold State.proposalOctets
  cases (s.trunk t).proposal with
  | none => rfl
  | some q =>
    simp [memberOctets]
    omega

theorem receiverOctets_length (x : Receiver) : x.octets.length = 29 := by simp [Receiver.octets, countOctets]

theorem bufferOctets_length (y : LaneState) : y.bufferOctets.length = 6 := by simp [LaneState.bufferOctets]

theorem queryRecords_lane {s : State} {o : Octet} {l : Lane} (ho : o.toNat = l.val) :
    s.queryRecords (.queryLane o) = .ok (s.laneRecords l) := by
  simp only [State.queryRecords, laneOperand_eq_some ho]

theorem queryRecords_trunk {s : State} {o : Octet} {t : Trunk} (ho : o.toNat = t.val) :
    s.queryRecords (.queryTrunk o) = .ok (s.trunkRecords t) := by
  simp only [State.queryRecords, trunkOperand_eq_some ho]

theorem queryRecords_history {s : State} {o : Octet} {t : Trunk} (ho : o.toNat = t.val) :
    s.queryRecords (.queryHistory o) = .ok (s.historyRecords t) := by
  simp only [State.queryRecords, trunkOperand_eq_some ho]

/-- Settles O17: the codes and fields, then each query with its records. -/
theorem laneTrunkAndHistoryAreQueried : Obligations.LaneTrunkAndHistoryAreQueried := by
  refine ⟨fun v => ⟨be_two v, be_three v, be_four v⟩, ⟨rfl, fun _ => rfl⟩, ⟨rfl, fun _ => rfl⟩, octet_bits, rfl, rfl, rfl, rfl, rfl,
    rfl, rfl, rfl, rfl, remainingTo_eq, ?_⟩
  intro s u p tag o part got shown answers reads flag members receiver buffer selection emitter claims charter proposal history
  have hreceiver : ∀ (v : State) (l : Lane), (v.lane l).rx.octets = receiver v l := fun v l => rfl
  have hbuffer : ∀ (v : State) (l : Lane), (v.lane l).bufferOctets = buffer v l := fun v l => bufferOctets_eq _
  have hselection : ∀ (v : State) (t : Trunk), (v.trunk t).sel.octets = selection v t := by
    intro v t
    simp only [selection, Selection.octets]
    cases (v.trunk t).sel.holdOff <;> cases (v.trunk t).sel.restore <;>
      simp [HoldOffTimer.remaining, RestoreTimer.remaining, RestoreTimer.candidate, be, laneOctet]
  have hemitter : ∀ (v : State) (t : Trunk), (v.trunk t).em.octets = emitter v t := fun v t => rfl
  have hclaims : ∀ (v : State) (t : Trunk), (v.trunk t).claimOctets = claims v t := by
    intro v t
    simp only [claims, TrunkState.claimOctets]
    rw [vector_four (v.trunk t).ballots]
    cases (v.trunk t).hold <;> rfl
  have hcharter : ∀ (v : State) (t : Trunk), (v.trunk t).charter.octets = charter v t := fun v t => rfl
  have hproposal : ∀ (v : State) (t : Trunk), v.proposalOctets t = proposal v t := by
    intro v t
    simp only [proposal, State.proposalOctets]
    cases (v.trunk t).proposal <;> rfl
  have hlane : ∀ (v : State) (l : Lane), (v.lane l).rx.due = [] →
      v.laneRecords l = [receiver v l, [trunkOctet (v.trunkOf l)], [PortSet.octet (v.lane l).bars], buffer v l] := by
    intro v l hd
    rw [State.laneRecords, settleLane_nil hd, hreceiver, hbuffer]
  have htrunk : ∀ (v : State) (t : Trunk),
      v.trunkRecords t = [selection v t, emitter v t, claims v t, charter v t, proposal v t] := by
    intro v t
    rw [← hselection, ← hemitter, ← hclaims, ← hcharter, ← hproposal]
    rfl
  refine ⟨fun ho h => ?_, fun ho => ⟨fun h => ?_, fun h => ?_⟩,
    fun l ho => ⟨fun hd h => ?_, fun hd hr hs hg => ?_, fun hr hs hg => ?_, fun hr hs hg => ?_, fun hr hs hg => ?_⟩,
    fun t ho => ?_, fun l => ?_⟩
  · have hn : u.queryRecords (.queryLane o) = .error .noSuchLane := by simp only [State.queryRecords, laneOperand_eq_none ho]
    exact exec_queryRefused rfl hn h
  · have hn : u.queryRecords (.queryTrunk o) = .error .noSuchTrunk := by simp only [State.queryRecords, trunkOperand_eq_none ho]
    exact exec_queryRefused rfl hn h
  · have hn : u.queryRecords (.queryHistory o) = .error .noSuchTrunk := by simp only [State.queryRecords, trunkOperand_eq_none ho]
    exact exec_queryRefused rfl hn h
  · have hrow := exec_query rfl (hlane u l hd ▸ queryRecords_lane ho) h
    refine hrow.trans ?_
    simp [completeRecords, Command.layOut, shown]
  · exact exec_read (c := .queryLane o) rfl hr hs (hlane s l hd ▸ queryRecords_lane ho) rfl hg
  · exact exec_read (c := .queryLane o) rfl hr hs (queryRecords_lane ho) rfl hg
  · exact exec_read (c := .queryLane o) rfl hr hs (queryRecords_lane ho) rfl hg
  · have hi : (s.laneRecords l)[3]? = some (buffer s l) := congrArg some (hbuffer s l)
    exact exec_read (c := .queryLane o) rfl hr hs (queryRecords_lane ho) hi hg
  · have hq : ∀ v : State, v.queryRecords (.queryTrunk o) =
        .ok [selection v t, emitter v t, claims v t, charter v t, proposal v t] := fun v => htrunk v t ▸ queryRecords_trunk ho
    have read := fun (i : Nat) (r : List Octet) hi hr hs hg =>
      exec_read (c := .queryTrunk o) (p := p) (tag := tag) (i := i) (r := r) (got := got) rfl hr hs (hq s) hi hg
    refine ⟨fun h => ?_, read 0 _ rfl, read 1 _ rfl, read 2 _ rfl, read 3 _ rfl, read 4 _ rfl,
      fun h => ?_, fun hr hs hg => ?_, fun hm => ?_⟩
    · have hrow := exec_query rfl (hq u) h
      refine hrow.trans ?_
      simp [completeRecords, Command.layOut, shown]
    · have hrow := exec_query rfl (queryRecords_history ho) h
      refine hrow.trans ?_
      simp [completeRecords, Command.layOut, shown, State.historyRecords]
      rfl
    · exact exec_read (c := .queryHistory o) rfl hr hs (queryRecords_history ho) rfl hg
    · simp only [List.length_append, ← hselection, ← hemitter, ← hclaims, ← hcharter, ← hproposal, selectionOctets_length,
        emitterOctets_length, claimOctets_length, charterOctets_length hm, proposalOctets_length]
  · simp only [List.length_append, ← hreceiver, ← hbuffer, receiverOctets_length, bufferOctets_length, List.length_singleton]

end Sys2Proof.Machine
end

