-- ==== Sys2Proof/Proofs/PortEvents.lean ====
section
/-! SUPPORT. Events of the ports: lease expiry and port reset with the departures they cause (R138, R141), and offers taken
(R150 to R156). -/

namespace Sys2Proof.Machine

theorem running_of_present {s : State} (hr : s.rstnLow = false) (hm : s.monitor.state = .present) : s.running = true := by
  simp [State.running, hr, halted_of_present hm]

/-! ## Lease expiry (R138) -/

/-- The port controller's part of a lease expiry: the record, SELF-LAPSED and PEER-LAPSED. -/
def State.lapsing (s : State) (p : Port) : State :=
  ((s.setPort p (s.port p).lapsed).offer [p] (.portController p) [] (.selfLapsed p (s.port p).session (s.port p).leaseLength)).offer
    (otherPorts p) (.portController p) [] (.peerLapsed p (s.port p).session (s.port p).leaseLength)

theorem lapsing_port (s : State) (p : Port) : (s.lapsing p).port p = (s.port p).lapsed := port_setPort_self ..

theorem lapsing_port_ne (s : State) {p q : Port} (h : q ≠ p) : (s.lapsing p).port q = s.port q := port_setPort_ne s _ h

theorem lapsing_trunks (s : State) (p : Port) : (s.lapsing p).trunks = s.trunks := by
  simp [State.lapsing, offer_eq]

theorem lapsing_lanes (s : State) (p : Port) : (s.lapsing p).lanes = s.lanes := by
  simp [State.lapsing, offer_eq]

theorem lapsing_triggers (s : State) (p : Port) : (s.lapsing p).triggers = s.triggers := by
  simp [State.lapsing, offer_eq]

theorem lapsing_blockCounter (s : State) (p : Port) : (s.lapsing p).blockCounter = s.blockCounter := by
  simp [State.lapsing, offer_eq]

theorem lapsing_offers (s : State) (p : Port) : (s.lapsing p).offers = s.offers ++
    [{ event := .selfLapsed p (s.port p).session (s.port p).leaseLength, time := s.blockCounter
       block := .portController p, stamp := s.stamp, after := [], dest := [p] },
     { event := .peerLapsed p (s.port p).session (s.port p).leaseLength, time := s.blockCounter
       block := .portController p, stamp := s.stamp + 1, after := [], dest := otherPorts p }] := by
  show s.offers ++ [_] ++ [_] = _
  rw [List.append_assoc]
  rfl

theorem exec_leaseExpiry {s : State} {p : Port} (hr : s.rstnLow = false) (hm : s.monitor.state = .present)
    (ha : (s.port p).mode = .attached) (hl : (s.port p).leaseRemaining = 0) : exec (.leaseExpiry p) s =
      .next ((s.lapsing p).depart p .lapse ((s.lapsing p).handOn (.portController p) [])) := by
  show Host.Outcome.next (if s.running then s.expireLease p else s) = _
  rw [if_pos (running_of_present hr hm), State.expireLease]
  simp only [ha, hl, and_self, if_true, modPort_eq, State.lapsing]

/-- Settles O34: the controller's record and offers, then the departure (`depart_departs`). -/
theorem leaseExpiryLapsesThePort : Obligations.LeaseExpiryLapsesThePort := by
  intro s p hr hm ha hl
  have hd := depart_departs (s := s) (u := s.lapsing p) .lapse (fun q hq => lapsing_port_ne s hq) (by rw [lapsing_port]; rfl)
    (lapsing_trunks s p) (lapsing_lanes s p) (lapsing_triggers s p) (lapsing_blockCounter s p) (lapsing_offers s p)
  refine ⟨_, exec_leaseExpiry hr hm ha hl, ?_, hd⟩
  rw [port_of_ports (depart_books ..).ports, lapsing_port, PortState.lapsed, ← hl]

/-! ## Port reset (R141) -/

/-- The port controller's part of a port reset: the command on its way, the record, and PEER-RESET. -/
def State.resetting (s : State) (p : Port) : State :=
  ((({ s with orphans := s.orphans ++ orphansAfter p (s.port p).slot } : State).setPort p (s.port p).resetByPin).offer (otherPorts p)
    (.portController p) [] (.peerReset p (s.port p).mode (s.port p).session))

theorem resetPort_eq (s : State) (p : Port) : s.resetPort p = if (s.port p).mode = .attached then
    (s.resetting p).depart p .portReset ((s.resetting p).handOn (.portController p) []) else s.resetting p := rfl

/-- Settles O35: the controller's record and offer, and from ATTACHED the departure (`depart_departs`). -/
theorem portResetAndRelease : Obligations.PortResetAndRelease := by
  intro s p own
  refine ⟨fun hr hp => ?_, rfl⟩
  have e : exec (.portReset p) s = .next (s.resetPort p) := by
    show Host.Outcome.next (if (s.port p).prstnLow then s else if s.rstnLow then _ else s.resetPort p) = _
    rw [if_neg (by simp [hp]), if_neg (by simp [hr])]
  have hrecord : (s.resetting p).port p = (s.port p).resetByPin := by
    simp only [State.resetting, port_of_offer, port_setPort_self]
  have hothers : ∀ q : Port, q ≠ p → (s.resetting p).port q = s.port q := fun q hq => port_setPort_ne _ _ hq
  refine ⟨_, e, ?_⟩
  rw [resetPort_eq]
  by_cases ha : (s.port p).mode = .attached
  · rw [if_pos ha]
    have hd : Departs p .portReset own s _ :=
      depart_departs (s := s) (u := s.resetting p) .portReset hothers (by rw [hrecord]; rfl) rfl rfl rfl rfl rfl
    refine ⟨?_, fun _ => hd, fun h => absurd ha h, fun tag c after hs => ?_, hd.lanes, hd.ports⟩
    · rw [port_of_ports (depart_books ..).ports, hrecord]
      rfl
    · rw [depart_orphans]
      show s.orphans ++ orphansAfter p (s.port p).slot = _
      rw [hs]
      rfl
  · rw [if_neg ha]
    refine ⟨hrecord.trans rfl, fun h => absurd h ha, fun _ => ⟨rfl, rfl, rfl⟩, fun tag c after hs => ?_, rfl, hothers⟩
    show s.orphans ++ orphansAfter p (s.port p).slot = _
    rw [hs]
    rfl

/-! ## Offers taken (R150 to R156) -/

theorem mem_readyOffers (s : State) (p : Port) (o : Offer) : o ∈ s.readyOffers p ↔ o ∈ s.offers ∧ p ∈ o.dest ∧
    ∀ o' ∈ s.offers, p ∈ o'.dest → ¬ (o'.block = o.block ∧ o'.stamp < o.stamp) ∧ o'.stamp ∉ o.after := by
  simp only [State.readyOffers, State.offersAt, List.mem_filter, List.all_eq_true, List.contains_iff_mem, and_assoc, and_imp,
    Offer.precedes]
  refine and_congr_right fun _ => and_congr_right fun _ => forall_congr' fun o' => forall_congr' fun _ => forall_congr' fun _ => ?_
  simp only [Bool.not_eq_true', Bool.or_eq_false_iff, Bool.and_eq_false_iff, beq_eq_false_iff_ne, decide_eq_false_iff_not,
    List.contains_eq_mem, not_and_or, ne_eq]

/-- A port takes an event when it is not OFFLINE and the mode of the class lets the kind in (R150, R153). -/
theorem takesEvent_iff (x : PortState) (e : Event) : x.takesEvent e = true ↔
    x.mode ≠ .offline ∧ (x.subs.mode e.cls = .both ∨ (x.subs.mode e.cls = .onset ∧ e.isClear = false)) := by
  unfold PortState.takesEvent
  cases x.subs.mode e.cls <;> simp [SubMode.takes]

section
variable (x : PortState) (e : Event) (time : Count)

theorem enqueue_note (h : x.queue.length ≤ 30) : x.enqueue e time =
    { x with queue := x.queue ++ [.note (x.entryNumber + 1) e time], entryNumber := x.entryNumber + 1 } := by
  rw [PortState.enqueue, if_pos (by unfold queueLimit; omega)]

theorem enqueue_lost {older : List Entry} {m : Pair} {e' : Event} {time' : Count} (h : x.queue = older ++ [.note m e' time'])
    (hl : x.queue.length = 31) : x.enqueue e time =
      { x with queue := x.queue ++ [.lost (x.entryNumber + 1) 1 time time], entryNumber := x.entryNumber + 1 } := by
  have hlast : ¬ x.queue.getLast?.any Entry.isLost = true := by simp [h, Entry.isLost]
  rw [PortState.enqueue, if_neg (by unfold queueLimit; omega), if_neg hlast, if_pos (by unfold queueLimit; omega)]

theorem enqueue_another {older : List Entry} {m : Pair} {count : Nat} {first latest : Count}
    (h : x.queue = older ++ [.lost m count first latest]) (hl : x.queue.length = 31 ∨ x.queue.length = 32) : x.enqueue e time =
      { x with queue := older ++ [.lost m (min 65535 (count + 1)) first time] } := by
  have hlast : x.queue.getLast?.any Entry.isLost = true := by simp [h, Entry.isLost]
  rw [PortState.enqueue, if_neg (by unfold queueLimit; omega), if_pos hlast]
  simp [h, Entry.loseAnother, lostLimit]

end

/-- Settles O37: what is left of the offers (`dropOffer`), and the port's record, which the queue's three cases give. -/
theorem offerIsAdmittedOrDeclined : Obligations.OfferIsAdmittedOrDeclined := by
  refine ⟨mem_readyOffers, fun s p choice o hr ho => ?_⟩
  intro x mode admits waiting becomes n
  have e : exec (.notificationOffer p choice) s = .next (s.takeOffer p o) := by
    show Host.Outcome.next (if s.rstnLow then s else match (s.readyOffers p)[choice]? with
      | none => s
      | some o => s.takeOffer p o) = _
    rw [if_neg (by simp [hr]), ho]
  have left : ∀ y : PortState, s.takeOffer p o = (s.dropOffer p o).setPort p y → becomes y := by
    intro y h
    refine ⟨(s.dropOffer p o).offers, by rw [e, h]; rfl, ?_, fun q hq => ?_, fun b hb hne => mem_dropOffer.mpr (.inl ⟨hb, hne⟩),
      fun b hb => ?_⟩
    · exact congrArg (List.map _) (dropOffer_offersAt_self s p o |>.trans (by simp))
    · exact dropOffer_offersAt_other _ (fun _ _ => rfl) s o hq
    · rcases mem_dropOffer.mp hb with h | ⟨-, h⟩
      · exact .inl h
      · right
        rw [(mem_takenAt.mp h).1]
        congr 1
        refine List.filter_congr fun q _ => ?_
        by_cases h : q = p <;> simp [h]
  have taken : admits → s.takeOffer p o = (s.dropOffer p o).setPort p (x.enqueue o.event o.time) := by
    intro h
    show (if x.takesEvent o.event then _ else _) = _
    rw [if_pos ((takesEvent_iff x o.event).mpr h)]
    rfl
  refine ⟨fun h => left _ ?_, fun h => ⟨fun hl => ?_, fun older m e' time hq hl => ?_, fun older m count first latest hq hl => ?_⟩⟩
  · show (if x.takesEvent o.event then _ else _) = _
    rw [if_neg (mt (takesEvent_iff x o.event).mp h)]
    exact (setPort_port_self (s.dropOffer p o) p).symm
  · exact left _ ((taken h).trans (by rw [enqueue_note x o.event o.time hl]))
  · exact left _ ((taken h).trans (by rw [enqueue_lost x o.event o.time hq hl]))
  · exact left _ ((taken h).trans (by rw [enqueue_another x o.event o.time hq hl]))

end Sys2Proof.Machine
end

