-- ==== Sys2Proof/Proofs/Evaluations.lean ====
section
/-! SUPPORT. One evaluation at a trunk that is not DISABLED (R80): what it decides, of what the trunk's lanes, charter, hold and timers
are, and what it does then, the open cause being read before the timer's expiry is counted (log entry 29). -/

namespace Sys2Proof.Machine

/-! ## The cause (R80, step 7) -/

/-- The cause by the trigger's kind, the open one given. -/
def TriggerKind.causeOf (free : Cause) : TriggerKind → Cause
  | .grade _ => .health
  | .holdOffExpiry => .health
  | .bar => .bar
  | .hold => .hold
  | .ballot => .ballot
  | .install => .membership
  | .report => .health
  | .restoreExpiry => free

theorem switchCause_eq (r : RestoreTimer) (k : TriggerKind) (free : Cause) (d : Lane) :
    switchCause r k free d = if r = .due d then .revert else k.causeOf free := by
  cases k <;> rfl

theorem switchCause_idle (k : TriggerKind) (free : Cause) (d : Lane) : switchCause .idle k free d = k.causeOf free := by
  rw [switchCause_eq, if_neg (by simp)]

theorem freeCause_mem (s : State) : s.freeCause ∈ [Cause.revert, .health, .bar, .hold, .ballot, .membership] := by
  unfold State.freeCause
  split <;> decide

theorem causeOf_mem (s : State) (k : TriggerKind) : k.causeOf s.freeCause ∈ k.causes := by
  cases k with
  | restoreExpiry => exact freeCause_mem s
  | grade | bar | hold | ballot | install | holdOffExpiry | report => exact List.mem_singleton_self _

/-! ## The action, with the open cause given -/

/-- Step 7 of R80 with the open cause given. -/
def State.actBy (s : State) (t : Trunk) (k : TriggerKind) (free : Cause) (d : Decision) (after : List Nat) : State :=
  let x := (s.trunk t).sel
  match x.mode, x.active with
  | .disabled, _ => s
  | .starved, _ =>
    match d.desired with
    | some l => s.start t l after
    | none => s
  | .carrying, some a =>
    if d.desired = some a then s
    else if d.gateOpen then
      match d.desired with
      | none => s.drop t after
      | some l =>
        if s.eligible t a then s.aim t l (switchCause d.restore k free l) after
        else s.immediateSwitch t a l (switchCause d.restore k free l) after
    else s
  | .switching, some a =>
    match d.desired with
    | none => s.drop t after
    | some l =>
      if l = a then s.cancel t
      else if s.eligible t a then
        if x.target = some l then s else s.aim t l (switchCause d.restore k free l) after
      else s.immediateSwitch t a l (switchCause d.restore k free l) after
  | .carrying, none => s
  | .switching, none => s

/-- The state with another count of free values. -/
def State.withFree (s : State) (n : Nat) : State := { s with freeCount := n }

/-- Writing a count of free values and then the one there was leaves a state as it is. -/
theorem withFree_back (s : State) (n : Nat) : (s.withFree n).withFree s.freeCount = s := rfl

theorem start_withFree (s : State) (n : Nat) (t : Trunk) (l : Lane) (after : List Nat) :
    ((s.withFree n).start t l after).withFree s.freeCount = s.start t l after := rfl

theorem drop_withFree (s : State) (n : Nat) (t : Trunk) (after : List Nat) :
    ((s.withFree n).drop t after).withFree s.freeCount = s.drop t after := rfl

theorem aim_withFree (s : State) (n : Nat) (t : Trunk) (l : Lane) (c : Cause) (after : List Nat) :
    ((s.withFree n).aim t l c after).withFree s.freeCount = s.aim t l c after := rfl

theorem cancel_withFree (s : State) (n : Nat) (t : Trunk) :
    ((s.withFree n).cancel t).withFree s.freeCount = s.cancel t := rfl

theorem immediateSwitch_withFree (s : State) (n : Nat) (t : Trunk) (a l : Lane) (c : Cause) (after : List Nat) :
    ((s.withFree n).immediateSwitch t a l c after).withFree s.freeCount = s.immediateSwitch t a l c after := rfl

/-- The count of free values bears on step 7 through the open cause alone. -/
theorem act_withFree (s : State) (n : Nat) (t : Trunk) (k : TriggerKind) (d : Decision) (after : List Nat) :
    ((s.withFree n).act t k d after).withFree s.freeCount = s.actBy t k (s.withFree n).freeCause d after := by
  have htrunk : (s.withFree n).trunk t = s.trunk t := rfl
  have heligible : ∀ a, (s.withFree n).eligible t a = s.eligible t a := fun _ => rfl
  unfold State.act State.actBy
  simp only [htrunk, heligible]
  cases (s.trunk t).sel.mode with
  | disabled => rfl
  | starved =>
    cases d.desired with
    | none => rfl
    | some l => exact start_withFree ..
  | carrying =>
    cases (s.trunk t).sel.active with
    | none => rfl
    | some a =>
      cases d.desired with
      | none => simp only [apply_ite (fun v : State => v.withFree s.freeCount), withFree_back, drop_withFree]
      | some l =>
        simp only [apply_ite (fun v : State => v.withFree s.freeCount), withFree_back, aim_withFree, immediateSwitch_withFree]
  | switching =>
    cases (s.trunk t).sel.active with
    | none => rfl
    | some a =>
      cases d.desired with
      | none => exact drop_withFree ..
      | some l =>
        simp only [apply_ite (fun v : State => v.withFree s.freeCount), withFree_back, cancel_withFree, aim_withFree,
          immediateSwitch_withFree]

/-! ## The decision, with the timers given (R76 to R78) -/

/-- The hold-off gate of R78, of a hold-off timer. -/
def State.gateWith (s : State) (t : Trunk) (k : TriggerKind) (before : HoldOffTimer) : Bool × HoldOffTimer :=
  holdOffGate (s.holdOffApplies t) (k = .holdOffExpiry) (s.trunk t).charter.terms.holdOff before

/-- Steps 4 to 6 of R80, of the timers an evaluation finds. -/
def State.decideWith (s : State) (t : Trunk) (k : TriggerKind) (holdOff : HoldOffTimer) (restore : RestoreTimer) : Decision :=
  let c := s.decisionCase t
  let r := restoreAfter (s.trunk t).charter.terms.restoreWait restore c
  { desired := desiredLane r c, restore := r, gateOpen := (s.gateWith t k holdOff).1, holdOff := (s.gateWith t k holdOff).2 }

/-- A trunk's record with the timers given. -/
def TrunkState.timed (x : TrunkState) (holdOff : HoldOffTimer) (restore : RestoreTimer) : TrunkState :=
  { x with sel := { x.sel with holdOff := holdOff, restore := restore } }

/-- The decision reads the lanes, the trunk's charter, favoured lane, state, active lane and active hold, and the timers it finds. -/
theorem decideWith_congr {s v : State} {t : Trunk} (hl : v.lanes = s.lanes) (hc : (v.trunk t).charter = (s.trunk t).charter)
    (hf : (v.trunk t).favoured = (s.trunk t).favoured) (hh : (v.trunk t).activeHold = (s.trunk t).activeHold)
    (hmode : (v.trunk t).sel.mode = (s.trunk t).sel.mode) (ha : (v.trunk t).sel.active = (s.trunk t).sel.active)
    (k : TriggerKind) (ho : HoldOffTimer) (r : RestoreTimer) : v.decideWith t k ho r = s.decideWith t k ho r := by
  have hcase : v.decisionCase t = s.decisionCase t := by
    simp only [State.decisionCase, State.restoreCandidate, hh, hc, ha, bestGrade_congr hl hc, eligible_congr hl hc,
      top_congr hl hc hf, lane_of_lanes hl]
  have happlies : v.holdOffApplies t = s.holdOffApplies t := by
    simp only [State.holdOffApplies, State.barred, hh, hmode, ha, bestGrade_congr hl hc, members_of_charter hc, lane_of_lanes hl]
  simp only [State.decideWith, State.gateWith, hcase, happlies, hc]

/-- Steps 4 to 6 of R80 on timers written to a trunk. -/
theorem decide_eq_decideWith {s v : State} {t : Trunk} {ho : HoldOffTimer} {r : RestoreTimer} (hl : v.lanes = s.lanes)
    (ht : v.trunk t = (s.trunk t).timed ho r) (k : TriggerKind) : v.decide t k = s.decideWith t k ho r := by
  have hown : v.decide t k = v.decideWith t k (v.trunk t).sel.holdOff (v.trunk t).sel.restore := rfl
  rw [hown, decideWith_congr (s := s) hl (by rw [ht]; rfl) (by rw [ht]; rfl) (by rw [ht]; rfl) (by rw [ht]; rfl) (by rw [ht]; rfl),
    ht]
  rfl

section
variable {s : State} {t : Trunk}

theorem activeHold_of_unheld (h : (s.trunk t).hold = none) : (s.trunk t).activeHold = none := by
  simp [TrunkState.activeHold, h]

theorem decisionCase_noneEligible (h : (s.trunk t).hold = none) (hn : ∀ l, s.eligible t l = false) :
    s.decisionCase t = .noneEligible := by
  simp only [State.decisionCase, activeHold_of_unheld h, bestGrade_none hn]

theorem decisionCase_stay {a : Lane} (h : (s.trunk t).hold = none) (ha : (s.trunk t).sel.active = some a)
    (he : s.eligible t a = true) (hg : s.bestGrade t = some (s.lane a).rx.grade) :
    s.decisionCase t = .stay a (s.restoreCandidate t a) := by
  simp only [State.decisionCase, activeHold_of_unheld h, hg, ha]
  simp [he]

theorem decisionCase_best {d : Lane} (h : (s.trunk t).hold = none) (hd : s.top t = some d)
    (ha : ∀ a, (s.trunk t).sel.active = some a → s.eligible t a = true → some (s.lane a).rx.grade ≠ s.bestGrade t) :
    s.decisionCase t = .best (some d) := by
  obtain ⟨-, hbest⟩ := top_eligible hd
  simp only [State.decisionCase, activeHold_of_unheld h, hbest, hd]
  split
  next a heq =>
    rw [if_neg fun hstay => ha a heq hstay.1 (by rw [hbest, hstay.2])]
  next => rfl

theorem restoreCandidate_none {a : Lane} (h : (s.trunk t).charter.terms.revertive = false ∨ s.top t = some a) :
    s.restoreCandidate t a = none := by
  rcases h with h | h <;> simp [State.restoreCandidate, h]

theorem restoreCandidate_some {a c : Lane} (hr : (s.trunk t).charter.terms.revertive = true) (ht : s.top t = some c) (hc : c ≠ a) :
    s.restoreCandidate t a = some c := by
  simp [State.restoreCandidate, hr, ht, hc]

/-! ## The hold-off gate (R78) -/

theorem gateWith_of_not_applies (h : s.holdOffApplies t = false) (k : TriggerKind) (ho : HoldOffTimer) :
    s.gateWith t k ho = (true, .idle) := by
  simp [State.gateWith, holdOffGate, h]

/-- An IDLE timer opens the gate at an expiry, and where there is no hold-off. -/
theorem gateWith_idle {k : TriggerKind} (h : k = .holdOffExpiry ∨ (s.trunk t).charter.terms.holdOff = 0) :
    s.gateWith t k .idle = (true, .idle) := by
  unfold State.gateWith holdOffGate
  rcases h with h | h <;> simp [h]

theorem holdOffApplies_of_mode (h : (s.trunk t).sel.mode ≠ .carrying) : s.holdOffApplies t = false := by
  cases hm : (s.trunk t).sel.mode <;> simp_all [State.holdOffApplies]

theorem holdOffApplies_of_outside {a : Lane} (ha : (s.trunk t).sel.active = some a)
    (h : s.barred a = true ∨ a ∉ s.members t) : s.holdOffApplies t = false := by
  unfold State.holdOffApplies
  rw [ha]
  split
  next b heq =>
    cases heq
    rcases h with h | h <;> simp [h]
  next => rfl

theorem holdOffApplies_of_best {a : Lane} (ha : (s.trunk t).sel.active = some a)
    (hg : s.bestGrade t = some (s.lane a).rx.grade) : s.holdOffApplies t = false := by
  have hnotFailed : (s.lane a).rx.grade ≠ .failed := fun h => bestGrade_ne_failed s t (by rw [hg, h])
  unfold State.holdOffApplies
  rw [ha]
  split
  next b heq =>
    cases heq
    cases h : (s.lane a).rx.grade <;> simp_all
  next => rfl

theorem gateWith_of_mode (h : (s.trunk t).sel.mode ≠ .carrying) (k : TriggerKind) (ho : HoldOffTimer) :
    s.gateWith t k ho = (true, .idle) := gateWith_of_not_applies (holdOffApplies_of_mode h) k ho

/-- Hold-off applies to an active member that is unbarred, FAILED, or DEGRADED with G* GOOD. -/
theorem holdOffApplies_of_bad {a : Lane} (hm : (s.trunk t).sel.mode = .carrying) (hh : (s.trunk t).hold = none)
    (ha : (s.trunk t).sel.active = some a) (hmem : a ∈ s.members t) (hb : s.barred a = false)
    (hbad : (s.lane a).rx.grade = .failed ∨ ((s.lane a).rx.grade = .degraded ∧ s.bestGrade t = some .good)) :
    s.holdOffApplies t = true := by
  simp only [State.holdOffApplies, hm, activeHold_of_unheld hh, ha]
  rcases hbad with hf | ⟨hdeg, hgood⟩
  · simp [hmem, hb, hf]
  · simp [hmem, hb, hdeg, hgood]

/-! ## What is decided -/

variable (k : TriggerKind) (ho : HoldOffTimer) (r : RestoreTimer)

theorem decideWith_noneEligible (h : (s.trunk t).hold = none) (hn : ∀ l, s.eligible t l = false) :
    s.decideWith t k ho r = ⟨none, .idle, (s.gateWith t k ho).1, (s.gateWith t k ho).2⟩ := by
  simp [State.decideWith, decisionCase_noneEligible h hn, restoreAfter, desiredLane]

theorem decideWith_best {d : Lane} (h : (s.trunk t).hold = none) (hd : s.top t = some d)
    (ha : ∀ a, (s.trunk t).sel.active = some a → s.eligible t a = true → some (s.lane a).rx.grade ≠ s.bestGrade t) :
    s.decideWith t k ho r = ⟨some d, .idle, (s.gateWith t k ho).1, (s.gateWith t k ho).2⟩ := by
  simp [State.decideWith, decisionCase_best h hd ha, restoreAfter, desiredLane]

/-- On an active lane of grade G* with no restore candidate the trunk stays, and both timers become IDLE. -/
theorem decideWith_stay {a : Lane} (h : (s.trunk t).hold = none) (ha : (s.trunk t).sel.active = some a)
    (he : s.eligible t a = true) (hg : s.bestGrade t = some (s.lane a).rx.grade)
    (hc : (s.trunk t).charter.terms.revertive = false ∨ s.top t = some a) :
    s.decideWith t k ho r = ⟨some a, .idle, true, .idle⟩ := by
  simp [State.decideWith, decisionCase_stay h ha he hg, restoreCandidate_none hc, restoreAfter, desiredLane,
    gateWith_of_not_applies (holdOffApplies_of_best ha hg)]

end

/-! ## Step 7, on a record written to a trunk (R81 to R86) -/

section
variable (u : State) (t : Trunk) (x : TrunkState) (after : List Nat)

/-- The record of a switch, as it is written at a block (R93). -/
def TrunkState.record (x : TrunkState) (time : Count) (cause : Cause) (src dst : Option Lane) (kind : SwitchKind) : HistoryRecord :=
  { time := time, cause := cause, src := src, dst := dst, kind := kind, version := x.charter.version }

theorem start_setTrunk (d : Lane) :
    (u.setTrunk t x).start t d after =
      ((u.setTrunk t { x with
          sel := { x.sel with
            mode := .carrying, active := some d, target := none, alignWait := 0, cause := none, causeAfter := [] }
          em := { x.em with centring := true }
          history := pushRecord x.history (x.record u.blockCounter .start none (some d) .hit) }).offer allPorts (.selector t) after
            (.switched t .start none (some d) .hit x.charter.version)).offer allPorts (.selector t) after (.fed t d) := by
  simp [State.start, State.writeRecord, TrunkCounters.count, TrunkState.record]

theorem drop_setTrunk :
    (u.setTrunk t x).drop t after =
      ((u.setTrunk t { x with
          sel := { x.sel with
            mode := .starved, active := none, target := none, alignWait := 0, cause := none, causeAfter := []
            holdOff := .idle, restore := .idle, pendingSwitch := none }
          em := { x.em with immediatePending := false }
          history := pushRecord x.history (x.record u.blockCounter .starve x.sel.fromLane none .nil) }).offer allPorts (.selector t)
            (x.sel.pendingStamps after) (.switched t .starve x.sel.fromLane none .nil x.charter.version)).offer allPorts
              (.selector t) after (.starved t .starve x.sel.fromLane) := by
  simp [State.drop, State.writeRecord, TrunkCounters.count, TrunkState.record]

theorem aim_setTrunk (d : Lane) (c : Cause) :
    (u.setTrunk t x).aim t d c after = u.setTrunk t { x with sel := { x.sel with
      mode := .switching, target := some d, alignWait := 0, cause := some c, causeAfter := after } } := by
  simp [State.aim]

theorem cancel_setTrunk :
    (u.setTrunk t x).cancel t = u.setTrunk t { x with sel := { x.sel with
      mode := .carrying, target := none, alignWait := 0, cause := none, causeAfter := [] } } := by
  simp [State.cancel]

theorem immediateSwitch_setTrunk (a d : Lane) (c : Cause) :
    (u.setTrunk t x).immediateSwitch t a d c after = u.setTrunk t { x with
      sel := { x.sel with
        mode := .carrying, active := some d, target := none, alignWait := 0, cause := none, causeAfter := []
        holdOff := .idle, restore := .idle
        pendingSwitch := some (pendingAfter x.sel.pendingSwitch a c after) }
      em := { x.em with immediatePending := true } } := by
  simp [State.immediateSwitch]

end

/-! ## Step 7, by the trunk's state and the decision (R85, R86) -/

section
variable {s : State} {t : Trunk} (k : TriggerKind) (free : Cause) {d : Decision} (after : List Nat)

theorem actBy_starts {l : Lane} (hm : (s.trunk t).sel.mode = .starved) (hd : d.desired = some l) :
    s.actBy t k free d after = s.start t l after := by
  simp [State.actBy, hm, hd]

theorem actBy_waits (hm : (s.trunk t).sel.mode = .starved) (hd : d.desired = none) : s.actBy t k free d after = s := by
  simp [State.actBy, hm, hd]

variable {a : Lane}

theorem actBy_stays (hm : (s.trunk t).sel.mode = .carrying) (ha : (s.trunk t).sel.active = some a) (hd : d.desired = some a) :
    s.actBy t k free d after = s := by
  simp [State.actBy, hm, ha, hd]

theorem actBy_closed (hm : (s.trunk t).sel.mode = .carrying) (ha : (s.trunk t).sel.active = some a) (hg : d.gateOpen = false) :
    s.actBy t k free d after = s := by
  simp [State.actBy, hm, ha, hg]

/-- The active lane is given up at once from SWITCHING, and through an open gate from CARRYING. -/
def State.Leaves (s : State) (t : Trunk) (a : Lane) (d : Decision) : Prop :=
  (s.trunk t).sel.active = some a ∧
    ((s.trunk t).sel.mode = .switching ∨ ((s.trunk t).sel.mode = .carrying ∧ d.gateOpen = true))

theorem actBy_drops (h : s.Leaves t a d) (hd : d.desired = none) : s.actBy t k free d after = s.drop t after := by
  obtain ⟨ha, hm | ⟨hm, hg⟩⟩ := h
  · simp [State.actBy, hm, ha, hd]
  · simp [State.actBy, hm, ha, hd, hg]

theorem actBy_switches {l : Lane} (h : s.Leaves t a d) (hd : d.desired = some l) (hl : l ≠ a) (he : s.eligible t a = false) :
    s.actBy t k free d after = s.immediateSwitch t a l (switchCause d.restore k free l) after := by
  obtain ⟨ha, hm | ⟨hm, hg⟩⟩ := h
  · simp [State.actBy, hm, ha, hd, hl, he]
  · simp [State.actBy, hm, ha, hd, hl, he, hg]

theorem actBy_aims {l : Lane} (h : s.Leaves t a d) (hd : d.desired = some l) (hl : l ≠ a) (he : s.eligible t a = true)
    (ht : (s.trunk t).sel.mode = .switching → (s.trunk t).sel.target ≠ some l) :
    s.actBy t k free d after = s.aim t l (switchCause d.restore k free l) after := by
  obtain ⟨ha, hm | ⟨hm, hg⟩⟩ := h
  · simp [State.actBy, hm, ha, hd, hl, he, ht hm]
  · simp [State.actBy, hm, ha, hd, hl, he, hg]

theorem actBy_goesOn {l : Lane} (hm : (s.trunk t).sel.mode = .switching) (ha : (s.trunk t).sel.active = some a)
    (hd : d.desired = some l) (hl : l ≠ a) (he : s.eligible t a = true) (ht : (s.trunk t).sel.target = some l) :
    s.actBy t k free d after = s := by
  simp [State.actBy, hm, ha, hd, hl, he, ht]

theorem actBy_cancels (hm : (s.trunk t).sel.mode = .switching) (ha : (s.trunk t).sel.active = some a) (hd : d.desired = some a) :
    s.actBy t k free d after = s.cancel t := by
  simp [State.actBy, hm, ha, hd]

end

/-! ## One evaluation at a trunk without a hold -/

section
variable {s u : State} {t : Trunk} {i : Instr} {k : TriggerKind} {after : List Nat}

/-- The hold-off timer that the decision of an evaluation reads: an install has made it IDLE (R87 step 1). -/
def foundHoldOff (k : TriggerKind) (u : State) (t : Trunk) : HoldOffTimer :=
  if k = .install then .idle else (u.trunk t).sel.holdOff

/-- The restore timer that the decision of an evaluation reads: an install has made it IDLE (R87 step 1). -/
def foundRestore (k : TriggerKind) (u : State) (t : Trunk) : RestoreTimer :=
  if k = .install then .idle else (u.trunk t).sel.restore

/-- Marking the hold and the decision do not read the count of free values. -/
theorem markHold_withFree (v : State) (n : Nat) (t : Trunk) (after : List Nat) :
    (v.withFree n).markHold t after = (v.markHold t after).withFree n := by
  have htrunk : (v.withFree n).trunk t = v.trunk t := rfl
  unfold State.markHold
  rw [htrunk]
  cases (v.trunk t).hold with
  | none => rfl
  | some h =>
    simp only [apply_ite (fun w : State => w.withFree n)]
    rfl

theorem markHold_freeCount (v : State) (t : Trunk) (after : List Nat) : (v.markHold t after).freeCount = v.freeCount := by
  unfold State.markHold
  cases (v.trunk t).hold with
  | none => rfl
  | some h => exact (apply_ite State.freeCount ..).trans (ite_self _)

/-- A row that makes an evaluation answers steps 2 to 7 of R80: the hold is marked on the timers found, and the decision is taken and
acted on; the open cause is that of the count of free values before (log entry 29). -/
theorem evaluates_judged (h : s.Evaluates t i k u after) (hm : k = .install → s.members t ≠ [])
    (hd : (s.trunk t).sel.mode ≠ .disabled) {w : State} {d : Decision}
    (hw : (u.setTrunk t ((s.trunk t).timed (foundHoldOff k u t) (foundRestore k u t))).markHold t after = w)
    (hdec : w.decide t k = d) :
    exec i s = .next ((w.setTrunk t ((w.trunk t).timed d.holdOff d.restore)).actBy t k s.freeCause d after) := by
  rw [evaluates_judge h hm hd]
  congr 1
  let v : State := u.setTrunk t ((s.trunk t).timed (foundHoldOff k u t) (foundRestore k u t))
  have hvd : ((v.withFree s.freeCount).trunk t).sel.mode ≠ .disabled := by
    have hvt : (v.withFree s.freeCount).trunk t = (s.trunk t).timed (foundHoldOff k u t) (foundRestore k u t) :=
      trunk_setTrunk_self ..
    rw [hvt]
    exact hd
  have hmark : (v.withFree s.freeCount).markHold t after = w.withFree s.freeCount := by rw [markHold_withFree, hw]
  have hdecide : (w.withFree s.freeCount).decide t k = d := hdec
  have hfree : w.freeCount = u.freeCount := by rw [← hw, markHold_freeCount]; rfl
  have hjudge : (v.withFree s.freeCount).judge t k after =
      ((w.setTrunk t ((w.trunk t).timed d.holdOff d.restore)).withFree s.freeCount).act t k d after := by
    unfold State.judge
    rw [if_neg hvd, hmark]
    dsimp only
    rw [hdecide]
    rfl
  have hact := act_withFree (w.setTrunk t ((w.trunk t).timed d.holdOff d.restore)) s.freeCount t k d after
  rw [setTrunk_freeCount, hfree] at hact
  exact (congrArg (fun r : State => r.withFree u.freeCount) hjudge).trans hact

/-- Without a hold nothing is marked, and the decision is that of the lanes and the trunk before. -/
theorem evaluates_actBy (h : s.Evaluates t i k u after) (hm : k = .install → s.members t ≠ [])
    (hd : (s.trunk t).sel.mode ≠ .disabled) (hh : (s.trunk t).hold = none) {d : Decision}
    (hdec : s.decideWith t k (foundHoldOff k u t) (foundRestore k u t) = d) :
    exec i s = .next ((u.setTrunk t ((s.trunk t).timed d.holdOff d.restore)).actBy t k s.freeCause d after) := by
  obtain ⟨-, hlanes, -⟩ := evaluates_trunk h
  generalize hv : u.setTrunk t ((s.trunk t).timed (foundHoldOff k u t) (foundRestore k u t)) = v
  have hvt : v.trunk t = (s.trunk t).timed (foundHoldOff k u t) (foundRestore k u t) := by rw [← hv, trunk_setTrunk_self]
  have hvl : v.lanes = s.lanes := by rw [← hv, setTrunk_lanes, hlanes]
  have hvh : (v.trunk t).hold = none := by rw [hvt]; exact hh
  have hmark : v.markHold t after = v := by simp [State.markHold, hvh]
  have hrow := evaluates_judged h hm hd (hv ▸ hmark) ((decide_eq_decideWith hvl hvt k).trans hdec)
  rw [hrow, ← hv, setTrunk_setTrunk, trunk_setTrunk_self]
  rfl

/-- A hold-off timer that was IDLE is IDLE still when it is read. -/
theorem foundHoldOff_idle (h : s.Evaluates t i k u after) (hi : (s.trunk t).sel.holdOff = .idle ∨ k = .install) :
    foundHoldOff k u t = .idle := by
  unfold foundHoldOff
  split
  next => rfl
  next hk =>
    have hidle := hi.resolve_right hk
    rcases h with ⟨choice, g, rfl, -, rfl, rfl, rfl⟩ | ⟨-, -, -, -, ⟨rfl, rfl, -, rfl⟩ | ⟨c, rfl, rfl, -, rfl⟩⟩
    · exact hidle
    · simp
    · exact (congrArg (fun x : TrunkState => x.sel.holdOff) (trunk_setTrunk_self s t _)).trans hidle

/-- Where the gate is open a decision without a restore candidate leaves both timers IDLE: with no member eligible the desired lane is
none, and Top is desired where the active lane is not eligible or not of grade G*. -/
theorem evaluates_noneEligible (h : s.Evaluates t i k u after) (hm : k = .install → s.members t ≠ [])
    (hd : (s.trunk t).sel.mode ≠ .disabled) (hh : (s.trunk t).hold = none) (hn : ∀ l, s.eligible t l = false)
    (hgate : s.gateWith t k (foundHoldOff k u t) = (true, .idle)) :
    exec i s =
      .next ((u.setTrunk t ((s.trunk t).timed .idle .idle)).actBy t k s.freeCause ⟨none, .idle, true, .idle⟩ after) := by
  rw [evaluates_actBy h hm hd hh (decideWith_noneEligible k _ _ hh hn), hgate]

theorem evaluates_best (h : s.Evaluates t i k u after) (hm : k = .install → s.members t ≠ [])
    (hd : (s.trunk t).sel.mode ≠ .disabled) (hh : (s.trunk t).hold = none) {d : Lane} (htop : s.top t = some d)
    (ha : ∀ a, (s.trunk t).sel.active = some a → s.eligible t a = true → some (s.lane a).rx.grade ≠ s.bestGrade t)
    (hgate : s.gateWith t k (foundHoldOff k u t) = (true, .idle)) :
    exec i s =
      .next ((u.setTrunk t ((s.trunk t).timed .idle .idle)).actBy t k s.freeCause ⟨some d, .idle, true, .idle⟩ after) := by
  rw [evaluates_actBy h hm hd hh (decideWith_best k _ _ hh htop ha), hgate]

/-- From SWITCHING, and through an open gate from CARRYING, the active lane is given up. -/
theorem leaves_timed {x : TrunkState} {a : Lane} {ho : HoldOffTimer} {r : RestoreTimer} {d : Decision}
    (hmode : x.sel.mode = .carrying ∨ x.sel.mode = .switching) (ha : x.sel.active = some a) (hd : d.gateOpen = true := by rfl) :
    (u.setTrunk t (x.timed ho r)).Leaves t a d := by
  unfold State.Leaves
  rw [trunk_setTrunk_self]
  exact ⟨ha, hmode.symm.imp_right fun hc => ⟨hc, hd⟩⟩

/-- Hold-off is open at an expiry that found its timer run out, and where there is no hold-off and the timer is IDLE. -/
theorem gateWith_open (h : s.Evaluates t i k u after)
    (ho : (k = .holdOffExpiry ∧ (u.trunk t).sel.holdOff = .idle) ∨
      ((s.trunk t).charter.terms.holdOff = 0 ∧ ((s.trunk t).sel.holdOff = .idle ∨ k = .install))) :
    s.gateWith t k (foundHoldOff k u t) = (true, .idle) := by
  rcases ho with ⟨hk, hidle⟩ | ⟨hzero, hidle⟩
  · rw [foundHoldOff, if_neg (by simp [hk]), hidle]
    exact gateWith_idle (.inl hk)
  · rw [foundHoldOff_idle h hidle]
    exact gateWith_idle (.inr hzero)

end

end Sys2Proof.Machine
end

