-- ==== Sys2Proof/Proofs/TriggerDecisions.lean ====
section
/-! SUPPORT. What a trunk without a hold does at an evaluation: the start, the drop, the immediate switch, the switch begun, retargeted,
left standing or cancelled (O43). -/

namespace Sys2Proof.Machine

/-! ## Triggers that may be taken next (R73) -/

theorem mem_readyTriggers (s : State) (t : Trunk) (g : Trigger) :
    g ∈ s.readyTriggers t ↔ g ∈ s.triggers ∧ g.trunk = t ∧
      ∀ g' ∈ s.triggers, g'.trunk = t → g'.sender = g.sender → g.stamp ≤ g'.stamp := by
  simp only [State.readyTriggers, State.triggersAt, List.mem_filter, List.all_eq_true, decide_eq_true_eq, and_assoc, Bool.or_eq_true,
    bne_iff_ne, and_imp]
  refine and_congr_right fun _ => and_congr_right fun _ => forall₃_congr fun g' _ _ => ?_
  exact Decidable.imp_iff_not_or.symm

/-! ## The records that step 7 leaves -/

theorem fromLane_eq {x : Selection} {a : Lane} (h : x.active = some a) :
    x.fromLane = match x.pendingSwitch with
      | some q => q.src
      | none => some a := by
  unfold Selection.fromLane
  cases x.pendingSwitch with
  | none => exact h
  | some q => rfl

theorem pendingStamps_eq (x : Selection) (after : List Nat) :
    x.pendingStamps after = (x.pendingSwitch.map PendingSwitch.after).getD [] ++ after := by
  unfold Selection.pendingStamps
  cases x.pendingSwitch <;> rfl

theorem pendingAfter_eq (before : Option PendingSwitch) (a : Lane) (c : Cause) (after : List Nat) :
    pendingAfter before a c after =
      { src := (before.map PendingSwitch.src).getD (some a), cause := c
        after := (before.map PendingSwitch.after).getD [] ++ after } := by
  cases before <;> rfl

/-- A start, written out (R81, R104). -/
theorem start_timed {u : State} {n : Count} (hn : u.blockCounter = n) (t : Trunk) (x : TrunkState) (d : Lane) (after : List Nat) :
    (u.setTrunk t (x.timed .idle .idle)).start t d after =
      ((u.setTrunk t { x with
          sel := { x.sel with
            holdOff := .idle, restore := .idle
            mode := .carrying, active := some d, target := none, alignWait := 0, cause := none, causeAfter := [] }
          em := { x.em with centring := true }
          history := pushRecord x.history (x.record n .start none (some d) .hit) }).offer allPorts (.selector t) after
            (.switched t .start none (some d) .hit x.charter.version)).offer allPorts (.selector t) after (.fed t d) := by
  rw [start_setTrunk, hn]
  rfl

/-- A drop from a lane, written out (R82, R105). -/
theorem drop_timed {u : State} {n : Count} (hn : u.blockCounter = n) (t : Trunk) {x : TrunkState} {a : Lane}
    (ha : x.sel.active = some a) (after : List Nat) :
    let src := match x.sel.pendingSwitch with
      | some q => q.src
      | none => some a
    (u.setTrunk t (x.timed .idle .idle)).drop t after =
      ((u.setTrunk t { x with
          sel := { x.sel with
            holdOff := .idle, restore := .idle
            mode := .starved, active := none, target := none, alignWait := 0, cause := none, causeAfter := []
            pendingSwitch := none }
          em := { x.em with immediatePending := false }
          history := pushRecord x.history (x.record n .starve src none .nil) }).offer allPorts (.selector t)
            ((x.sel.pendingSwitch.map PendingSwitch.after).getD [] ++ after)
            (.switched t .starve src none .nil x.charter.version)).offer allPorts (.selector t) after
              (.starved t .starve src) := by
  intro src
  have hsrc : (x.timed .idle .idle).sel.fromLane = src := fromLane_eq (x := (x.timed .idle .idle).sel) ha
  have hstamps : (x.timed .idle .idle).sel.pendingStamps after = (x.sel.pendingSwitch.map PendingSwitch.after).getD [] ++ after :=
    pendingStamps_eq ..
  rw [drop_setTrunk, hsrc, hstamps, hn]
  rfl

/-- An immediate switch from a lane, written out (R83). -/
theorem immediateSwitch_timed (u : State) (t : Trunk) (x : TrunkState) (a d : Lane) (c : Cause) (after : List Nat) :
    (u.setTrunk t (x.timed .idle .idle)).immediateSwitch t a d c after = u.setTrunk t { x with
      sel := { x.sel with
        holdOff := .idle, restore := .idle
        mode := .carrying, active := some d, target := none, alignWait := 0, cause := none, causeAfter := []
        pendingSwitch := some
          { src := (x.sel.pendingSwitch.map PendingSwitch.src).getD (some a), cause := c
            after := (x.sel.pendingSwitch.map PendingSwitch.after).getD [] ++ after } }
      em := { x.em with immediatePending := true } } := by
  rw [immediateSwitch_setTrunk, pendingAfter_eq]
  rfl

/-! ## What the evaluation does -/

section
variable {s u : State} {t : Trunk} {i : Instr} {k : TriggerKind} {after : List Nat}

/-- A DISABLED trunk's evaluation changes nothing, but at an install (R80 step 1). -/
theorem evaluates_disabled (h : s.Evaluates t i k u after) (hk : k ≠ .install) (hd : (s.trunk t).sel.mode = .disabled) :
    exec i s = .next u := by
  obtain ⟨hu, -⟩ := evaluates_trunk h
  have hud : (u.trunk t).sel.mode = .disabled := by rw [hu]; exact hd
  rw [evaluates_exec h]
  congr 1
  have hjudge : ({ u with freeCount := s.freeCount } : State).evaluate t k after = { u with freeCount := s.freeCount } := by
    rw [State.evaluate, if_neg hk, State.judge]
    exact if_pos hud
  rw [hjudge]

theorem eligible_timed (h : s.Evaluates t i k u after) (ho : HoldOffTimer) (r : RestoreTimer) (l : Lane) :
    (u.setTrunk t ((s.trunk t).timed ho r)).eligible t l = s.eligible t l := by
  obtain ⟨-, hlanes, -⟩ := evaluates_trunk h
  exact eligible_congr (t := u.setTrunk t ((s.trunk t).timed ho r)) hlanes (by rw [trunk_setTrunk_self]; rfl) l

variable (h : s.Evaluates t i k u after) (hm : k = .install → s.members t ≠ []) (hd : (s.trunk t).sel.mode ≠ .disabled)
  (hh : (s.trunk t).hold = none)
include h hm hd hh

theorem evaluates_starved_waits (hs : (s.trunk t).sel.mode = .starved) (hn : ∀ l, s.eligible t l = false) :
    exec i s = .next (u.setTrunk t ((s.trunk t).timed .idle .idle)) := by
  rw [evaluates_noneEligible h hm hd hh hn (gateWith_of_mode (by rw [hs]; decide) ..)]
  rw [actBy_waits _ _ _ (by rw [trunk_setTrunk_self]; exact hs) rfl]

theorem evaluates_starved_starts {d : Lane} (hs : (s.trunk t).sel.mode = .starved) (ha : (s.trunk t).sel.active = none)
    (htop : s.top t = some d) :
    exec i s = .next ((u.setTrunk t ((s.trunk t).timed .idle .idle)).start t d after) := by
  rw [evaluates_best h hm hd hh htop (by simp [ha]) (gateWith_of_mode (by rw [hs]; decide) ..)]
  rw [actBy_starts _ _ _ (by rw [trunk_setTrunk_self]; exact hs) rfl]

variable {a : Lane} (ha : (s.trunk t).sel.active = some a)
include ha

theorem evaluates_drops (hmode : (s.trunk t).sel.mode = .carrying ∨ (s.trunk t).sel.mode = .switching)
    (hn : ∀ l, s.eligible t l = false) (hgate : s.gateWith t k (foundHoldOff k u t) = (true, .idle)) :
    exec i s = .next ((u.setTrunk t ((s.trunk t).timed .idle .idle)).drop t after) := by
  rw [evaluates_noneEligible h hm hd hh hn hgate, actBy_drops k _ after (leaves_timed hmode ha) rfl]

theorem evaluates_switches {d : Lane} (hmode : (s.trunk t).sel.mode = .carrying ∨ (s.trunk t).sel.mode = .switching)
    (he : s.eligible t a = false) (htop : s.top t = some d) (hgate : s.gateWith t k (foundHoldOff k u t) = (true, .idle)) :
    exec i s =
      .next ((u.setTrunk t ((s.trunk t).timed .idle .idle)).immediateSwitch t a d (k.causeOf s.freeCause) after) := by
  have hne : d ≠ a := fun e => by simp [← e, (top_eligible htop).1] at he
  rw [evaluates_best h hm hd hh htop (fun b hb => by cases ha.symm.trans hb; simp [he]) hgate,
    actBy_switches k _ after (leaves_timed hmode ha) rfl hne ((eligible_timed h ..).trans he), switchCause_idle]

theorem evaluates_aims {d : Lane} (hmode : (s.trunk t).sel.mode = .carrying ∨ (s.trunk t).sel.mode = .switching)
    (he : s.eligible t a = true) (hg : some (s.lane a).rx.grade ≠ s.bestGrade t) (htop : s.top t = some d)
    (htarget : (s.trunk t).sel.mode = .switching → (s.trunk t).sel.target ≠ some d)
    (hgate : s.gateWith t k (foundHoldOff k u t) = (true, .idle)) :
    exec i s = .next ((u.setTrunk t ((s.trunk t).timed .idle .idle)).aim t d (k.causeOf s.freeCause) after) := by
  have hne : d ≠ a := fun e => hg (by rw [(top_eligible htop).2, e])
  rw [evaluates_best h hm hd hh htop (fun b hb _ => by cases ha.symm.trans hb; exact hg) hgate,
    actBy_aims k _ after (leaves_timed hmode ha) rfl hne ((eligible_timed h ..).trans he)
      (by rw [trunk_setTrunk_self]; exact htarget), switchCause_idle]

theorem evaluates_goesOn {d : Lane} (hmode : (s.trunk t).sel.mode = .switching)
    (he : s.eligible t a = true) (hg : some (s.lane a).rx.grade ≠ s.bestGrade t) (htop : s.top t = some d)
    (htarget : (s.trunk t).sel.target = some d) :
    exec i s = .next (u.setTrunk t ((s.trunk t).timed .idle .idle)) := by
  have hne : d ≠ a := fun e => hg (by rw [(top_eligible htop).2, e])
  rw [evaluates_best h hm hd hh htop (fun b hb _ => by cases ha.symm.trans hb; exact hg) (gateWith_of_mode (by rw [hmode]; decide) ..)]
  rw [actBy_goesOn k _ after (by rw [trunk_setTrunk_self]; exact hmode) (by rw [trunk_setTrunk_self]; exact ha) rfl hne
    ((eligible_timed h ..).trans he) (by rw [trunk_setTrunk_self]; exact htarget)]

section
variable (he : s.eligible t a = true) (hg : some (s.lane a).rx.grade = s.bestGrade t)
  (hc : (s.trunk t).charter.terms.revertive = false ∨ s.top t = some a)
include he hg hc

theorem evaluates_stays (hmode : (s.trunk t).sel.mode = .carrying) :
    exec i s = .next (u.setTrunk t ((s.trunk t).timed .idle .idle)) := by
  rw [evaluates_actBy h hm hd hh (decideWith_stay k _ _ hh ha he hg.symm hc)]
  rw [actBy_stays k _ after (by rw [trunk_setTrunk_self]; exact hmode) (by rw [trunk_setTrunk_self]; exact ha) rfl]

theorem evaluates_cancels (hmode : (s.trunk t).sel.mode = .switching) :
    exec i s = .next ((u.setTrunk t ((s.trunk t).timed .idle .idle)).cancel t) := by
  rw [evaluates_actBy h hm hd hh (decideWith_stay k _ _ hh ha he hg.symm hc)]
  rw [actBy_cancels k _ after (by rw [trunk_setTrunk_self]; exact hmode) (by rw [trunk_setTrunk_self]; exact ha) rfl]

end

end

/-- Settles O43: the decision of each case (R76) with the gate open (R78), and step 7 of R80 by the trunk's state; the cause is the
one of the trigger's kind. -/
theorem triggersStartAndDrop : Obligations.TriggersStartAndDrop := by
  unfold Obligations.TriggersStartAndDrop
  refine ⟨mem_readyTriggers, fun s u t i k after h hi => ?_⟩
  intro x gateOpen record joins idle pendingStamps
  have hm : k = .install → s.members t ≠ [] := fun hk => (hi hk).1
  obtain ⟨-, -, hblock, -⟩ := evaluates_trunk h
  have hgate : ∀ a, x.sel.active = some a → x.sel.mode = .switching ∨ s.barred a = true ∨ a ∉ s.members t ∨ gateOpen →
      s.gateWith t k (foundHoldOff k u t) = (true, .idle) := by
    rintro a ha (hmode | hbar | hmem | hopen)
    · exact gateWith_of_mode (by rw [hmode]; decide) ..
    · exact gateWith_of_not_applies (holdOffApplies_of_outside ha (.inl hbar)) ..
    · exact gateWith_of_not_applies (holdOffApplies_of_outside ha (.inr hmem)) ..
    · exact gateWith_open h hopen
  refine ⟨fun hd => evaluates_disabled h (fun hk => (hi hk).2 hd) hd, fun hs _ hh hn => ?_, fun d hs ha hh htop => ?_,
    fun a hmode ha hh hn hopen => ?_, k.causeOf s.freeCause, causeOf_mem s k, fun a d ha hh htop => ?_⟩
  · exact evaluates_starved_waits h hm (by rw [hs]; decide) hh hs hn
  · exact (evaluates_starved_starts h hm (by rw [hs]; decide) hh hs ha htop).trans
      (congrArg Host.Outcome.next (start_timed hblock ..))
  · have hd : x.sel.mode ≠ .disabled := fun e => by simp [e] at hmode
    exact (evaluates_drops h hm hd hh ha hmode hn (hgate a ha hopen)).trans (congrArg Host.Outcome.next (drop_timed hblock t ha _))
  intro becomes
  refine ⟨fun he hmode => ?_, fun hmode he => ⟨fun hg hc => ?_, fun hdeg hgood hopen => ?_⟩, fun hmode he =>
    ⟨fun hg hc => ?_, fun hg => ⟨fun htarget => ?_, fun htarget => ?_⟩⟩⟩
  · have hmode' : x.sel.mode = .carrying ∨ x.sel.mode = .switching := by tauto
    have hd : x.sel.mode ≠ .disabled := fun e => by simp [e] at hmode'
    exact (evaluates_switches h hm hd hh ha hmode' he htop (hgate a ha (hmode.imp_right And.right))).trans
      (congrArg Host.Outcome.next (immediateSwitch_timed ..))
  · have hc' : x.charter.terms.revertive = false ∨ s.top t = some a := hc.imp_right fun e : d = a => by rw [← e]; exact htop
    exact evaluates_stays h hm (by rw [hmode]; decide) hh ha he hg hc' hmode
  · have hg : some (s.lane a).rx.grade ≠ s.bestGrade t := by simp [hdeg, hgood]
    exact (evaluates_aims h hm (by rw [hmode]; decide) hh ha (.inl hmode) he hg htop (fun e => by cases hmode.symm.trans e)
      (gateWith_open h hopen)).trans (congrArg Host.Outcome.next (aim_setTrunk ..))
  · have hc' : x.charter.terms.revertive = false ∨ s.top t = some a := hc.imp_right fun e : d = a => by rw [← e]; exact htop
    exact (evaluates_cancels h hm (by rw [hmode]; decide) hh ha he hg hc' hmode).trans
      (congrArg Host.Outcome.next (cancel_setTrunk ..))
  · exact evaluates_goesOn h hm (by rw [hmode]; decide) hh ha hmode he hg htop htarget
  · refine (evaluates_aims h hm (by rw [hmode]; decide) hh ha (.inr hmode) he hg htop (fun _ => htarget)
      (gateWith_of_mode (by rw [hmode]; decide) ..)).trans (congrArg Host.Outcome.next ?_)
    rw [aim_setTrunk]
    simp only [TrunkState.timed, idle, ← hmode]
    rfl

end Sys2Proof.Machine
end

