-- ==== Sys2Proof/Proofs/HeldDecisions.lean ====
section
/-! SUPPORT. What a trunk with a hold does at an evaluation (O45): the hold is marked, dormant or active; an active hold's lane is
desired, and a dormant hold bears on nothing else. -/

namespace Sys2Proof.Machine

/-! ## The mark (R62) -/

/-- A hold is dormant while its lane is barred or FAILED. -/
def State.dormantNow (s : State) (h : Hold) : Bool := s.barred h.lane || (s.lane h.lane).rx.grade = .failed

/-- What marking a hold offers, on a state. -/
def State.markOffer (s : State) (t : Trunk) (h : Hold) (after : List Nat) (v : State) : State :=
  if s.dormantNow h = h.dormant then v
  else v.offer allPorts (.selector t) after
    (if s.dormantNow h then .holdDormant t h.lane h.owner h.session (s.lane h.lane).rx.grade (s.barred h.lane)
     else .holdActive t h.lane h.owner h.session (s.lane h.lane).rx.grade (s.barred h.lane))

/-- A trunk's record with another hold. -/
def TrunkState.holding (x : TrunkState) (hold : Option Hold) : TrunkState := { x with hold := hold }

/-- A hold, marked. -/
def State.marked (s : State) (h : Hold) : Hold := { h with dormant := s.dormantNow h }

theorem markHold_held {s v : State} {t : Trunk} {h : Hold} (hl : v.lanes = s.lanes) (hh : (v.trunk t).hold = some h)
    (after : List Nat) :
    v.markHold t after = (s.markOffer t h after v).setTrunk t ((v.trunk t).holding (some (s.marked h))) := by
  have hlane : ∀ l, v.lane l = s.lane l := lane_of_lanes hl
  have hbar : v.barred h.lane = s.barred h.lane := by simp only [State.barred, hlane]
  unfold State.markHold State.markOffer
  rw [hh]
  dsimp only
  rw [hbar, hlane]
  by_cases hsame : s.dormantNow h = h.dormant
  · have hmarked : s.marked h = h := by rw [State.marked, hsame]
    rw [if_pos hsame, hmarked, ← hh]
    exact (if_pos hsame).trans (setTrunk_trunk_self v t).symm
  · rw [if_neg hsame]
    exact if_neg hsame

theorem markOffer_blockCounter (s : State) (t : Trunk) (h : Hold) (after : List Nat) (v : State) :
    (s.markOffer t h after v).blockCounter = v.blockCounter := by
  unfold State.markOffer
  exact (apply_ite State.blockCounter ..).trans (ite_self _)

theorem markOffer_lanes (s : State) (t : Trunk) (h : Hold) (after : List Nat) (v : State) :
    (s.markOffer t h after v).lanes = v.lanes := by
  unfold State.markOffer
  exact (apply_ite State.lanes ..).trans (ite_self _)

theorem markOffer_setTrunk (s : State) (t : Trunk) (h : Hold) (after : List Nat) (v : State) (x : TrunkState) :
    s.markOffer t h after (v.setTrunk t x) = (s.markOffer t h after v).setTrunk t x := by
  unfold State.markOffer
  simp only [apply_ite (fun w : State => w.setTrunk t x)]
  rfl

/-! ## One evaluation at a trunk with a hold -/

section
variable {s u : State} {t : Trunk} {i : Instr} {k : TriggerKind} {after : List Nat} {held : Hold}

/-- A row that makes an evaluation at a trunk with a hold answers step 7 of R80 on the hold as marked. -/
theorem evaluates_held (h : s.Evaluates t i k u after) (hm : k = .install → s.members t ≠ [])
    (hd : (s.trunk t).sel.mode ≠ .disabled) (hh : (s.trunk t).hold = some held) {x : TrunkState} {d : Decision}
    (hx : (s.trunk t).holding (some (s.marked held)) = x)
    (hdec : (s.setTrunk t x).decideWith t k (foundHoldOff k u t) (foundRestore k u t) = d) :
    exec i s = .next (((s.markOffer t held after u).setTrunk t (x.timed d.holdOff d.restore)).actBy t k s.freeCause d after) := by
  obtain ⟨-, hlanes, -⟩ := evaluates_trunk h
  generalize hho : foundHoldOff k u t = ho at hdec
  generalize hr : foundRestore k u t = r at hdec
  have hmark : (u.setTrunk t ((s.trunk t).timed ho r)).markHold t after =
      (s.markOffer t held after u).setTrunk t (x.timed ho r) := by
    have hvl : (u.setTrunk t ((s.trunk t).timed ho r)).lanes = s.lanes := hlanes
    rw [markHold_held hvl (by rw [trunk_setTrunk_self]; exact hh), trunk_setTrunk_self, markOffer_setTrunk, setTrunk_setTrunk, ← hx]
    rfl
  have hdecide : ((s.markOffer t held after u).setTrunk t (x.timed ho r)).decide t k = d := by
    refine (decide_eq_decideWith (s := s.setTrunk t x) ?_ ?_ k).trans hdec
    · rw [setTrunk_lanes, markOffer_lanes, hlanes, setTrunk_lanes]
    · rw [trunk_setTrunk_self, trunk_setTrunk_self]
  have hrow := evaluates_judged h hm hd (by rw [hho, hr]; exact hmark) hdecide
  rw [hrow, setTrunk_setTrunk, trunk_setTrunk_self]
  rfl

/-! ## The hold active -/

theorem dormantNow_of_eligible (he : s.eligible t held.lane = true) : s.dormantNow held = false := by
  obtain ⟨-, hbar, hgrade⟩ := (eligible_iff ..).mp he
  simp [State.dormantNow, hbar, hgrade]

/-- An active hold's lane is desired, both timers become IDLE, and hold-off does not apply. -/
theorem decideWith_held {x : TrunkState} {l : Lane} (hx : x.activeHold = some l) (ho : HoldOffTimer) (r : RestoreTimer) :
    (s.setTrunk t x).decideWith t k ho r = ⟨some l, .idle, true, .idle⟩ := by
  have hcase : (s.setTrunk t x).decisionCase t = .held l := by simp [State.decisionCase, hx]
  have happlies : (s.setTrunk t x).holdOffApplies t = false := by
    unfold State.holdOffApplies
    rw [trunk_setTrunk_self, hx]
    split
    next heq _ => cases heq
    next => rfl
  simp only [State.decideWith, hcase, gateWith_of_not_applies happlies]
  rfl

/-- While the hold on an eligible member is active, step 7 acts on its lane, after the hold has been marked active. -/
theorem evaluates_active (h : s.Evaluates t i k u after) (hm : k = .install → s.members t ≠ [])
    (hd : (s.trunk t).sel.mode ≠ .disabled) (hh : (s.trunk t).hold = some held) (he : s.eligible t held.lane = true) :
    exec i s = .next
      (((if held.dormant then u.offer allPorts (.selector t) after
            (.holdActive t held.lane held.owner held.session (s.lane held.lane).rx.grade (s.barred held.lane))
          else u).setTrunk t (((s.trunk t).holding (some { held with dormant := false })).timed .idle .idle)).actBy t k
        s.freeCause ⟨some held.lane, .idle, true, .idle⟩ after) := by
  have hdormant := dormantNow_of_eligible he
  have hmarked : s.marked held = { held with dormant := false } := by rw [State.marked, hdormant]
  have hoffer : s.markOffer t held after u = if held.dormant then u.offer allPorts (.selector t) after
      (.holdActive t held.lane held.owner held.session (s.lane held.lane).rx.grade (s.barred held.lane)) else u := by
    unfold State.markOffer
    rw [hdormant]
    cases held.dormant <;> rfl
  have hactive : ((s.trunk t).holding (some { held with dormant := false })).activeHold = some held.lane := by
    simp [TrunkState.activeHold, TrunkState.holding]
  rw [← hoffer]
  exact evaluates_held h hm hd hh (by rw [hmarked]) (decideWith_held hactive ..)

/-! ## What is offered -/

/-- Step 7 offers events of class TRUNK alone, and leaves the hold as it is. -/
theorem actBy_acts (s : State) (t : Trunk) (k : TriggerKind) (free : Cause) (d : Decision) (after : List Nat) :
    ActsOn t s (s.actBy t k free d after) := by
  unfold State.actBy
  dsimp only
  repeat' split
  all_goals first
    | with_reducible exact ActsOn.refl ..
    | with_reducible exact start_acts ..
    | with_reducible exact drop_acts ..
    | with_reducible exact aim_acts ..
    | with_reducible exact cancel_acts ..
    | with_reducible exact immediateSwitch_acts ..

theorem markOffer_offers {v : State} (hb : v.blockCounter = s.blockCounter) (ho : v.offers = s.offers) (hs : v.stamp = s.stamp) :
    (s.markOffer t held after v).offers = s.offers ++ (if s.dormantNow held = held.dormant then [] else
      [{ event := if s.dormantNow held then
             .holdDormant t held.lane held.owner held.session (s.lane held.lane).rx.grade (s.barred held.lane)
           else .holdActive t held.lane held.owner held.session (s.lane held.lane).rx.grade (s.barred held.lane)
         time := s.blockCounter, block := .selector t, stamp := s.stamp, after := after, dest := allPorts }]) := by
  unfold State.markOffer
  by_cases hsame : s.dormantNow held = held.dormant
  · rw [if_pos hsame, if_pos hsame, ho, List.append_nil]
  · rw [if_neg hsame, if_neg hsame, ← ho, ← hb, ← hs]
    rfl

/-- The evaluation marks the hold and offers the change first; what it offers then is no event of class CLAIM. -/
theorem evaluates_marks (h : s.Evaluates t i k u after) (hm : k = .install → s.members t ≠ [])
    (hd : (s.trunk t).sel.mode ≠ .disabled) (hh : (s.trunk t).hold = some held) :
    ∃ r more, exec i s = .next r ∧ (r.trunk t).hold = some (s.marked held) ∧
      r.offers = (s.markOffer t held after u).offers ++ more ∧ ∀ o ∈ more, o.event.cls ≠ .claim := by
  rw [evaluates_held h hm hd hh rfl rfl]
  generalize (s.setTrunk t ((s.trunk t).holding (some (s.marked held)))).decideWith t k (foundHoldOff k u t) (foundRestore k u t) = d
  obtain ⟨hhold, more, hoffers, hcls⟩ := actBy_acts ((s.markOffer t held after u).setTrunk t
    (((s.trunk t).holding (some (s.marked held))).timed d.holdOff d.restore)) t k s.freeCause d after
  refine ⟨_, more, rfl, hhold.trans ?_, hoffers, fun o ho hclaim => ?_⟩
  · rw [trunk_setTrunk_self]
    rfl
  · cases (hcls o ho).symm.trans hclaim

/-! ## The hold dormant -/

/-- The state with another hold at a trunk. -/
def State.withHold (s : State) (t : Trunk) (hold : Option Hold) : State := s.setTrunk t ((s.trunk t).holding hold)

theorem withHold_setTrunk (v : State) (x : TrunkState) (hold : Option Hold) :
    (v.setTrunk t x).withHold t hold = v.setTrunk t (x.holding hold) := by
  rw [State.withHold, trunk_setTrunk_self, setTrunk_setTrunk]

theorem withHold_offer (v : State) (hold : Option Hold) (dest : List Port) (b : Block) (a : List Nat) (e : Event) :
    (v.withHold t hold).offer dest b a e = (v.offer dest b a e).withHold t hold := rfl

section
variable (v : State) (hold : Option Hold) (stamps : List Nat)

theorem start_withHold (l : Lane) : (v.withHold t hold).start t l stamps = (v.start t l stamps).withHold t hold := by
  rw [← setTrunk_trunk_self v t, withHold_setTrunk, start_setTrunk, start_setTrunk]
  simp [State.withHold, TrunkState.holding, TrunkState.record]

theorem drop_withHold : (v.withHold t hold).drop t stamps = (v.drop t stamps).withHold t hold := by
  rw [← setTrunk_trunk_self v t, withHold_setTrunk, drop_setTrunk, drop_setTrunk]
  simp [State.withHold, TrunkState.holding, TrunkState.record]

theorem aim_withHold (l : Lane) (c : Cause) : (v.withHold t hold).aim t l c stamps = (v.aim t l c stamps).withHold t hold := by
  rw [← setTrunk_trunk_self v t, withHold_setTrunk, aim_setTrunk, aim_setTrunk, withHold_setTrunk]
  rfl

theorem cancel_withHold : (v.withHold t hold).cancel t = (v.cancel t).withHold t hold := by
  rw [← setTrunk_trunk_self v t, withHold_setTrunk, cancel_setTrunk, cancel_setTrunk, withHold_setTrunk]
  rfl

theorem immediateSwitch_withHold (a l : Lane) (c : Cause) :
    (v.withHold t hold).immediateSwitch t a l c stamps = (v.immediateSwitch t a l c stamps).withHold t hold := by
  rw [← setTrunk_trunk_self v t, withHold_setTrunk, immediateSwitch_setTrunk, immediateSwitch_setTrunk, withHold_setTrunk]
  rfl

/-- Step 7 does not read the hold. -/
theorem actBy_withHold (free : Cause) (d : Decision) :
    (v.withHold t hold).actBy t k free d stamps = (v.actBy t k free d stamps).withHold t hold := by
  have hsel : ((v.withHold t hold).trunk t).sel = (v.trunk t).sel := by
    rw [State.withHold, trunk_setTrunk_self]
    rfl
  have heligible : ∀ a, (v.withHold t hold).eligible t a = v.eligible t a :=
    eligible_congr (t := v.withHold t hold) rfl (by rw [State.withHold, trunk_setTrunk_self]; rfl)
  unfold State.actBy
  simp only [hsel, heligible, start_withHold, drop_withHold, aim_withHold, cancel_withHold, immediateSwitch_withHold]
  cases (v.trunk t).sel.mode with
  | disabled => rfl
  | starved => cases d.desired <;> rfl
  | carrying =>
    cases (v.trunk t).sel.active with
    | none => rfl
    | some a => cases d.desired <;> simp only [apply_ite (fun w : State => w.withHold t hold)]
  | switching =>
    cases (v.trunk t).sel.active with
    | none => rfl
    | some a =>
      cases d.desired with
      | none => rfl
      | some l => simp only [apply_ite (fun w : State => w.withHold t hold)]

end

/-- The row makes its evaluation whatever the trunk's hold. -/
theorem evaluates_withHold (h : s.Evaluates t i k u after) (hold : Option Hold) :
    (s.withHold t hold).Evaluates t i k (u.withHold t hold) after := by
  have hx : (s.withHold t hold).trunk t = (s.trunk t).holding hold := by rw [State.withHold, trunk_setTrunk_self]
  rcases h with ⟨choice, g, rfl, ⟨hrst, hreports, hready⟩, rfl, rfl, rfl⟩ | ⟨hrst, hpresent, hreports, rfl, hrow⟩
  · exact .inl ⟨choice, g, rfl, ⟨hrst, by rw [hx]; exact hreports, hready⟩, rfl, rfl, rfl⟩
  · refine .inr ⟨hrst, hpresent, by rw [hx]; exact hreports, rfl, ?_⟩
    rw [hx]
    rcases hrow with ⟨rfl, rfl, hrun, rfl⟩ | ⟨c, rfl, rfl, hrun, rfl⟩
    · refine .inl ⟨rfl, rfl, hrun, ?_⟩
      rw [withHold_setTrunk, State.withHold, setTrunk_setTrunk]
      rfl
    · refine .inr ⟨c, rfl, rfl, hrun, ?_⟩
      have hset := withHold_setTrunk (t := t) s { s.trunk t with sel := { (s.trunk t).sel with restore := .due c } } hold
      rw [State.withHold, State.withHold, setTrunk_setTrunk]
      exact congrArg (fun w : State => w.withFree (s.freeCount + 1)) hset

/-- The row makes its evaluation whatever has been offered. -/
theorem evaluates_offer (h : s.Evaluates t i k u after) (dest : List Port) (b : Block) (stamps : List Nat) (e : Event) :
    (s.offer dest b stamps e).Evaluates t i k (u.offer dest b stamps e) after := by
  rcases h with ⟨choice, g, rfl, hg, rfl, rfl, rfl⟩ | ⟨hrst, hpresent, hreports, rfl, ⟨rfl, rfl, hrun, rfl⟩ | ⟨c, rfl, rfl, hrun, rfl⟩⟩
  · exact .inl ⟨choice, g, rfl, hg, rfl, rfl, rfl⟩
  · exact .inr ⟨hrst, hpresent, hreports, rfl, .inl ⟨rfl, rfl, hrun, rfl⟩⟩
  · exact .inr ⟨hrst, hpresent, hreports, rfl, .inr ⟨c, rfl, rfl, hrun, rfl⟩⟩

theorem evaluates_markOffer {v w : State} (h : v.Evaluates t i k w after) (stamps : List Nat) :
    (s.markOffer t held stamps v).Evaluates t i k (s.markOffer t held stamps w) after := by
  unfold State.markOffer
  split
  · exact h
  · exact evaluates_offer h ..

theorem markOffer_trunk (v : State) (stamps : List Nat) (t' : Trunk) : (s.markOffer t held stamps v).trunk t' = v.trunk t' := by
  unfold State.markOffer
  split <;> rfl

theorem markOffer_freeCount (v : State) (stamps : List Nat) : (s.markOffer t held stamps v).freeCount = v.freeCount := by
  unfold State.markOffer
  split <;> rfl

/-- While the hold is dormant the evaluation is that at the trunk without a hold, the mark having been offered. -/
theorem evaluates_dormant (h : s.Evaluates t i k u after) (hm : k = .install → s.members t ≠ [])
    (hd : (s.trunk t).sel.mode ≠ .disabled) (hh : (s.trunk t).hold = some held) (hdormant : s.dormantNow held = true) :
    ∃ r, exec i (s.markOffer t held after (s.withHold t none)) = .next r ∧
      exec i s = .next (r.withHold t (some { held with dormant := true })) := by
  have hmarked : s.marked held = { held with dormant := true } := by rw [State.marked, hdormant]
  generalize hv : s.markOffer t held after (s.withHold t none) = v
  have hvt : v.trunk t = (s.trunk t).holding none := by rw [← hv, markOffer_trunk, State.withHold, trunk_setTrunk_self]
  have hvl : v.lanes = s.lanes := by rw [← hv, markOffer_lanes]; rfl
  have hfree : v.freeCause = s.freeCause := by
    unfold State.freeCause
    rw [← hv, markOffer_freeCount]
    rfl
  have hfound : (s.markOffer t held after (u.withHold t none)).trunk t = (u.trunk t).holding none := by
    rw [markOffer_trunk, State.withHold, trunk_setTrunk_self]
  have hv' : v.Evaluates t i k (s.markOffer t held after (u.withHold t none)) after := by
    rw [← hv]
    exact evaluates_markOffer (evaluates_withHold h none) after
  have hho : foundHoldOff k (s.markOffer t held after (u.withHold t none)) t = foundHoldOff k u t := by
    rw [foundHoldOff, hfound]
    rfl
  have hr : foundRestore k (s.markOffer t held after (u.withHold t none)) t = foundRestore k u t := by
    rw [foundRestore, hfound]
    rfl
  have hdec : v.decideWith t k (foundHoldOff k u t) (foundRestore k u t) =
      (s.setTrunk t ((s.trunk t).holding (some (s.marked held)))).decideWith t k (foundHoldOff k u t) (foundRestore k u t) := by
    have hl : v.lanes = (s.setTrunk t ((s.trunk t).holding (some (s.marked held)))).lanes := hvl
    refine decideWith_congr hl ?_ ?_ ?_ ?_ ?_ .. <;> rw [hvt, trunk_setTrunk_self]
    · rfl
    · rfl
    · simp [TrunkState.activeHold, TrunkState.holding, hmarked]
    · rfl
    · rfl
  have hheld := evaluates_held h hm hd hh rfl rfl
  generalize (s.setTrunk t ((s.trunk t).holding (some (s.marked held)))).decideWith t k (foundHoldOff k u t)
    (foundRestore k u t) = d at hdec hheld
  have hrow := evaluates_actBy hv' (fun hk => by rw [members_of_charter (s := s) (by rw [hvt]; rfl)]; exact hm hk)
    (by rw [hvt]; exact hd) (by rw [hvt]; rfl) (d := d)
    (by rw [hho, hr]; exact hdec)
  refine ⟨_, hrow, hheld.trans (congrArg Host.Outcome.next ?_)⟩
  rw [← actBy_withHold, withHold_setTrunk, hfree, hvt, State.withHold, markOffer_setTrunk, setTrunk_setTrunk, hmarked]
  rfl

end

/-- Settles O45: the mark first; a dormant hold leaves the evaluation of the trunk without one; an active hold's lane is desired, and step 7
of R80 acts on it by the trunk's state. -/
theorem activeHoldSettlesTheLane : Obligations.ActiveHoldSettlesTheLane := by
  unfold Obligations.ActiveHoldSettlesTheLane
  intro s u t i k after h hev hh hd hm x grade barred dormant active held idle
  obtain ⟨-, hlanes, hblock, hoffers, hstamp, -⟩ := evaluates_trunk hev
  have hactive := evaluates_active hev hm hd hh
  have hheldBlock : active.blockCounter = s.blockCounter := by
    refine Eq.trans ?_ hblock
    exact (apply_ite State.blockCounter ..).trans (ite_self _)
  have heligible : ∀ y : TrunkState, y.charter = x.charter → ∀ l, (active.setTrunk t y).eligible t l = s.eligible t l := by
    intro y hy
    refine eligible_congr ?_ (by rw [trunk_setTrunk_self, hy])
    refine Eq.trans ?_ hlanes
    exact (apply_ite State.lanes ..).trans (ite_self _)
  have hat : ∀ y : TrunkState, (active.setTrunk t y).trunk t = y := fun y => trunk_setTrunk_self ..
  refine ⟨?_, fun hdormant => ?_, fun he hs => ?_, k.causeOf s.freeCause, causeOf_mem s k, fun a he hmode ha => ?_⟩
  · obtain ⟨r, more, hrow, hhold, hmore, hcls⟩ := evaluates_marks hev hm hd hh
    exact ⟨r, more, hrow, hhold, by rw [hmore, markOffer_offers hblock hoffers hstamp]; rfl, hcls⟩
  · intro free marked
    obtain ⟨r, hmarked, hrow⟩ := evaluates_dormant hev hm hd hh hdormant
    have e : s.markOffer t h after (s.withHold t none) = marked := by
      have hnow : s.dormantNow h = true := hdormant
      unfold State.markOffer
      rw [hnow]
      cases hdo : h.dormant <;> simp [marked, hdo] <;> rfl
    exact ⟨r, by rw [← e]; exact hmarked, hrow⟩
  · have hrow := hactive he
    rw [actBy_starts _ _ _ (by rw [trunk_setTrunk_self]; exact hs) rfl] at hrow
    exact hrow.trans (congrArg Host.Outcome.next (start_timed hheldBlock ..))
  intro becomes
  have hrow := hactive he
  let y : TrunkState := x.holding held
  have hleaves : (active.setTrunk t (y.timed .idle .idle)).Leaves t a ⟨some h.lane, .idle, true, .idle⟩ := leaves_timed hmode ha
  have hymode : ∀ m, x.sel.mode = m → ((active.setTrunk t (y.timed .idle .idle)).trunk t).sel.mode = m := fun m hm => by
    rw [hat]
    exact hm
  have hyactive : ((active.setTrunk t (y.timed .idle .idle)).trunk t).sel.active = some a := by
    rw [hat]
    exact ha
  have hytarget : ((active.setTrunk t (y.timed .idle .idle)).trunk t).sel.target = x.sel.target := by
    rw [hat]
    rfl
  have hyeligible := heligible (y.timed .idle .idle) rfl a
  refine ⟨fun hla => ⟨fun hc => ?_, fun hw => ?_⟩, fun hla hea => ⟨fun haims => ?_, fun hw htarget => ?_⟩, fun hla hea => ?_⟩
  · exact hrow.trans (congrArg Host.Outcome.next (actBy_stays _ _ _ (hymode _ hc) hyactive (congrArg some hla)))
  · exact hrow.trans (congrArg Host.Outcome.next
      ((actBy_cancels _ _ _ (hymode _ hw) hyactive (congrArg some hla)).trans (cancel_setTrunk ..)))
  · have htarget : ((active.setTrunk t (y.timed .idle .idle)).trunk t).sel.mode = .switching →
        ((active.setTrunk t (y.timed .idle .idle)).trunk t).sel.target ≠ some h.lane := by
      rw [hytarget, hat]
      exact fun hw => haims.resolve_left fun hc => by cases hc.symm.trans hw
    rw [actBy_aims _ _ _ hleaves rfl hla (hyeligible.trans hea) htarget, switchCause_idle, aim_setTrunk] at hrow
    exact hrow
  · exact hrow.trans (congrArg Host.Outcome.next
      (actBy_goesOn _ _ _ (hymode _ hw) hyactive rfl hla (hyeligible.trans hea) (hytarget.trans htarget)))
  · rw [actBy_switches _ _ _ hleaves rfl hla (hyeligible.trans hea), switchCause_idle] at hrow
    exact hrow.trans (congrArg Host.Outcome.next (immediateSwitch_timed ..))

end Sys2Proof.Machine
end

