-- ==== Sys2Proof/Proofs/TimedDecisions.lean ====
section
/-! SUPPORT. The hold-off and restore timers at an evaluation (O46): hold-off closes the gate, and the restore timer of a candidate is
brought up to date. -/

namespace Sys2Proof.Machine

section
variable {s u : State} {t : Trunk} {i : Instr} {k : TriggerKind} {after : List Nat} {a : Lane}

/-! ## Hold-off (R78) -/

/-- On a FAILED active lane, or a DEGRADED one with G* GOOD, there is no restore candidate: the restore timer becomes IDLE. -/
theorem decideWith_bad (hh : (s.trunk t).hold = none) (ha : (s.trunk t).sel.active = some a)
    (hbad : (s.lane a).rx.grade = .failed ∨ ((s.lane a).rx.grade = .degraded ∧ s.bestGrade t = some .good))
    (ho : HoldOffTimer) (r : RestoreTimer) :
    ∃ l, s.decideWith t k ho r = ⟨l, .idle, (s.gateWith t k ho).1, (s.gateWith t k ho).2⟩ := by
  have hcase : s.decisionCase t = .noneEligible ∨ s.decisionCase t = .best (s.top t) := by
    simp only [State.decisionCase, activeHold_of_unheld hh, ha]
    cases hg : s.bestGrade t with
    | none => exact .inl rfl
    | some g =>
      refine .inr (if_neg fun ⟨he, hgrade⟩ => ?_)
      rcases hbad with hf | ⟨hdeg, hgood⟩
      · exact ((eligible_iff ..).mp he).2.2 hf
      · rw [hg] at hgood
        cases hgood
        cases hdeg.symm.trans hgrade
  rcases hcase with hcase | hcase <;> exact ⟨_, by simp only [State.decideWith, hcase]; rfl⟩

theorem gateWith_running (happlies : s.holdOffApplies t = true) (n : Nat) : s.gateWith t k (.running n) = (false, .running n) := by
  simp [State.gateWith, holdOffGate, happlies]

theorem gateWith_starts (happlies : s.holdOffApplies t = true) (hk : k ≠ .holdOffExpiry)
    (hn : (s.trunk t).charter.terms.holdOff ≠ 0) :
    s.gateWith t k .idle = (false, .running ((s.trunk t).charter.terms.holdOff * 160)) := by
  simp [State.gateWith, holdOffGate, happlies, hk, hn, holdOffStep]

/-- A closed gate leaves a CARRYING trunk on its lane, its hold-off timer RUNNING and its restore timer IDLE. -/
theorem evaluates_heldOff (h : s.Evaluates t i k u after) (hm : k = .install → s.members t ≠ [])
    (hmode : (s.trunk t).sel.mode = .carrying) (hh : (s.trunk t).hold = none) (ha : (s.trunk t).sel.active = some a)
    (hbad : (s.lane a).rx.grade = .failed ∨ ((s.lane a).rx.grade = .degraded ∧ s.bestGrade t = some .good)) {ho : HoldOffTimer}
    (hgate : s.gateWith t k (foundHoldOff k u t) = (false, ho)) :
    exec i s = .next (u.setTrunk t ((s.trunk t).timed ho .idle)) := by
  obtain ⟨l, hdec⟩ := decideWith_bad (k := k) hh ha hbad (foundHoldOff k u t) (foundRestore k u t)
  rw [hgate] at hdec
  rw [evaluates_actBy h hm (by rw [hmode]; decide) hh hdec]
  rw [actBy_closed k _ after (by rw [trunk_setTrunk_self]; exact hmode) (by rw [trunk_setTrunk_self]; exact ha) rfl]

/-! ## The restore timer (R77) -/

/-- The restore timer brought up to date for a candidate: another lane's, or an IDLE one, starts. -/
theorem restoreAfter_eq (wait : Nat) (before : RestoreTimer) (a c : Lane) :
    restoreAfter wait before (.stay a (some c)) = match before with
      | .idle => startRestore wait c
      | .running b n => if b = c then .running c n else startRestore wait c
      | .due b => if b = c then .due c else startRestore wait c := by
  cases before with
  | idle => rfl
  | running b n => by_cases hb : b = c <;> simp [restoreAfter, hb]
  | due b => by_cases hb : b = c <;> simp [restoreAfter, hb]

/-- So it is the candidate's, DUE or RUNNING. -/
theorem restoreAfter_candidate (wait : Nat) (before : RestoreTimer) (a c : Lane) :
    restoreAfter wait before (.stay a (some c)) = .due c ∨ ∃ n, restoreAfter wait before (.stay a (some c)) = .running c n := by
  have hstart : startRestore wait c = .due c ∨ ∃ n, startRestore wait c = .running c n := by
    unfold startRestore
    split
    · exact .inl rfl
    · exact .inr ⟨_, rfl⟩
  rw [restoreAfter_eq]
  split
  · exact hstart
  · split
    · exact .inr ⟨_, rfl⟩
    · exact hstart
  · split
    · exact .inl rfl
    · exact hstart

/-- On an active lane of grade G* with a restore candidate, the candidate is desired when its timer is DUE. -/
theorem decideWith_candidate {c : Lane} (hh : (s.trunk t).hold = none) (ha : (s.trunk t).sel.active = some a)
    (he : s.eligible t a = true) (hg : s.bestGrade t = some (s.lane a).rx.grade)
    (hr : (s.trunk t).charter.terms.revertive = true) (htop : s.top t = some c) (hc : c ≠ a) (ho : HoldOffTimer)
    (before : RestoreTimer) {r : RestoreTimer}
    (hr' : restoreAfter (s.trunk t).charter.terms.restoreWait before (.stay a (some c)) = r) :
    s.decideWith t k ho before = ⟨desiredLane r (.stay a (some c)), r, true, .idle⟩ := by
  simp only [State.decideWith, decisionCase_stay hh ha he hg, restoreCandidate_some hr htop hc, hr',
    gateWith_of_not_applies (holdOffApplies_of_best ha hg)]

/-- Where the active lane is desired the trunk stays on it, or its switch is cancelled (R85, R86). -/
theorem evaluates_remains (h : s.Evaluates t i k u after) (hm : k = .install → s.members t ≠ [])
    (hmode : (s.trunk t).sel.mode = .carrying ∨ (s.trunk t).sel.mode = .switching) (hh : (s.trunk t).hold = none)
    (ha : (s.trunk t).sel.active = some a) {d : Decision}
    (hdec : s.decideWith t k (foundHoldOff k u t) (foundRestore k u t) = d) (hd : d.desired = some a) :
    let x := s.trunk t
    exec i s = .next (u.setTrunk t { x with
      sel := { x.sel with
        mode := .carrying
        target := if x.sel.mode = .switching then none else x.sel.target
        alignWait := if x.sel.mode = .switching then 0 else x.sel.alignWait
        cause := if x.sel.mode = .switching then none else x.sel.cause
        causeAfter := if x.sel.mode = .switching then [] else x.sel.causeAfter
        holdOff := d.holdOff
        restore := d.restore } }) := by
  intro x
  have hrow := evaluates_actBy h hm (fun e => by simp [e] at hmode) hh hdec
  have hactive : ((u.setTrunk t (x.timed d.holdOff d.restore)).trunk t).sel.active = some a := by
    rw [trunk_setTrunk_self]
    exact ha
  have hmodes : ((u.setTrunk t (x.timed d.holdOff d.restore)).trunk t).sel.mode = x.sel.mode := by
    rw [trunk_setTrunk_self]
    rfl
  refine hrow.trans (congrArg Host.Outcome.next ?_)
  rcases hmode with hc | hw
  · have hne : x.sel.mode ≠ .switching := fun e => by cases hc.symm.trans e
    rw [actBy_stays k _ after (hmodes.trans hc) hactive hd]
    simp only [if_neg hne, ← hc]
    rfl
  · rw [actBy_cancels k _ after (hmodes.trans hw) hactive hd, cancel_setTrunk]
    have hw' : x.sel.mode = .switching := hw
    simp only [if_pos hw']
    rfl

/-- A candidate whose timer is DUE is switched to, cause REVERT; a switch towards it stands (R76, R77). -/
theorem evaluates_reverts (h : s.Evaluates t i k u after) (hm : k = .install → s.members t ≠ [])
    (hmode : (s.trunk t).sel.mode = .carrying ∨ (s.trunk t).sel.mode = .switching) (hh : (s.trunk t).hold = none)
    (ha : (s.trunk t).sel.active = some a) (he : s.eligible t a = true) {c : Lane} (hc : c ≠ a)
    (hdec : s.decideWith t k (foundHoldOff k u t) (foundRestore k u t) = ⟨some c, .due c, true, .idle⟩) :
    let x := s.trunk t
    let timed : Selection := { x.sel with holdOff := .idle, restore := .due c }
    exec i s = .next (u.setTrunk t { x with
      sel := if x.sel.mode = .switching ∧ x.sel.target = some c then timed
        else { timed with mode := .switching, target := some c, alignWait := 0, cause := some .revert, causeAfter := after } }) := by
  intro x timed
  have hrow := evaluates_actBy h hm (fun e => by simp [e] at hmode) hh hdec
  have hat : (u.setTrunk t (x.timed .idle (.due c))).trunk t = x.timed .idle (.due c) := trunk_setTrunk_self ..
  have hea := (eligible_timed h .idle (.due c) a).trans he
  refine hrow.trans (congrArg Host.Outcome.next ?_)
  by_cases hgoes : x.sel.mode = .switching ∧ x.sel.target = some c
  · obtain ⟨hw, htarget⟩ := hgoes
    rw [if_pos ⟨hw, htarget⟩, actBy_goesOn k _ after (by rw [hat]; exact hw) (by rw [hat]; exact ha) rfl hc hea
      (by rw [hat]; exact htarget)]
    rfl
  · have htarget : x.sel.mode = .switching → x.sel.target ≠ some c := fun hw ht => hgoes ⟨hw, ht⟩
    rw [if_neg hgoes, actBy_aims k _ after (leaves_timed hmode ha) rfl hc hea (by rw [hat]; exact htarget), switchCause_eq,
      if_pos rfl, aim_setTrunk]
    rfl

end

/-- Settles O46: the gate of hold-off (R78), closed and open, and the restore timer brought up to date (R77). -/
theorem timersGateTheDecision : Obligations.TimersGateTheDecision := by
  unfold Obligations.TimersGateTheDecision
  intro s u t i k after a hev hh hmode ha hmem hbar x grade bad becomes idle stays
  have hm : k = .install → s.members t ≠ [] := fun _ e => by simp [e] at hmem
  have hd : x.sel.mode ≠ .disabled := fun e => by simp [e, x] at hmode
  have heligible : grade ≠ .failed → s.eligible t a = true := fun hg => (eligible_iff ..).mpr ⟨hmem, hbar, hg⟩
  obtain ⟨-, -, hblock, -, -, hkept⟩ := evaluates_trunk hev
  refine ⟨fun hc hk hbad => ?_, fun hc hk hidle => ?_, fun hbest hcandidate => ?_, fun c hr hbest htop hne => ?_⟩
  · have happlies := holdOffApplies_of_bad hc hh ha hmem hbar hbad
    refine ⟨fun n hi hrun => ?_, fun hi hn => ?_⟩
    · have hfound : foundHoldOff k u t = .running n := by rw [foundHoldOff, if_neg hi, hkept hk, hrun]
      have hrow := evaluates_heldOff hev hm hc hh ha hbad (by rw [hfound]; exact gateWith_running happlies n)
      rw [← hrun] at hrow
      exact hrow
    · have hfound : foundHoldOff k u t = .idle := foundHoldOff_idle hev hi.symm
      exact evaluates_heldOff hev hm hc hh ha hbad (by rw [hfound]; exact gateWith_starts happlies hk hn)
  · have hgate := gateWith_open hev (.inl ⟨hk, hidle⟩)
    subst hk
    refine ⟨fun d htop => ⟨fun hfailed => ?_, fun hdeg hgood => ?_⟩, fun hn => ?_⟩
    · have he : s.eligible t a = false := Bool.eq_false_iff.mpr fun e => ((eligible_iff ..).mp e).2.2 hfailed
      have hrow := evaluates_switches hev hm hd hh ha hmode he htop hgate
      rw [immediateSwitch_timed, ← hc] at hrow
      exact hrow
    · have hg : some (s.lane a).rx.grade ≠ s.bestGrade t := by
        rw [hgood]
        exact fun e => by cases hdeg.symm.trans (Option.some.inj e)
      exact (evaluates_aims hev hm hd hh ha hmode (heligible fun e => by cases hdeg.symm.trans e) hg htop
        (fun e => by cases hc.symm.trans e) hgate).trans (congrArg Host.Outcome.next (aim_setTrunk ..))
    · exact (evaluates_drops hev hm hd hh ha hmode hn hgate).trans (congrArg Host.Outcome.next (drop_timed hblock t ha _))
  · have he : s.eligible t a = true := heligible fun e => bestGrade_ne_failed s t (by rw [hbest]; exact congrArg some e)
    exact evaluates_remains hev hm hmode hh ha (decideWith_stay k _ _ hh ha he hbest hcandidate) rfl
  · have he : s.eligible t a = true := heligible fun e => bestGrade_ne_failed s t (by rw [hbest]; exact congrArg some e)
    intro started upToDate restore timed
    have hrestore : restoreAfter x.charter.terms.restoreWait (foundRestore k u t) (.stay a (some c)) = restore := restoreAfter_eq ..
    have hdec := decideWith_candidate (k := k) hh ha he hbest hr htop hne (foundHoldOff k u t) (foundRestore k u t) hrestore
    have hcases := restoreAfter_candidate x.charter.terms.restoreWait (foundRestore k u t) a c
    rw [hrestore] at hcases
    clear_value restore
    rcases hcases with rfl | ⟨n, rfl⟩
    · have hrow := evaluates_reverts hev hm hmode hh ha he hne hdec
      rw [if_pos rfl]
      exact hrow
    · have hrow := evaluates_remains hev hm hmode hh ha hdec rfl
      rw [if_neg (by simp)]
      exact hrow

end Sys2Proof.Machine
end

