-- ==== Sys2Proof/Proofs/InstallTriggers.lean ====
section
/-! SUPPORT. The evaluation of an install trigger (O44): the install steps written out (R87), and the rest of the evaluation as that of
any trigger. -/

namespace Sys2Proof.Machine

/-! ## The install steps (R87) -/

/-- The emitter as it enters DISABLED (R42). -/
def Emitter.quiet (e : Emitter) : Emitter :=
  { e with centring := false, immediatePending := false, misalign := 0, gapRun := false }

/-- The end of a gap run at entry into DISABLED (R42). -/
def State.gapEnds (v : State) (t : Trunk) (e : Emitter) (after : List Nat) : State :=
  if e.gapRun then v.offer allPorts (.emitter t) (v.handOn (.selector t) after) (.gapRunEnd t e.lastEmitted none) else v

/-- The selector's record as it enters DISABLED (R106). -/
def Selection.off : Selection :=
  { mode := .disabled, active := none, target := none, alignWait := 0, cause := none, causeAfter := []
    holdOff := .idle, restore := .idle, pendingSwitch := none }

section
variable (u : State) (t : Trunk) (x : TrunkState) (after : List Nat)

theorem disable_setTrunk_unfed (ha : x.sel.active = none) :
    (u.setTrunk t x).disable t after = (u.setTrunk t { x with sel := .off, em := x.em.quiet }).gapEnds t x.em after := by
  simp [State.disable, State.disableEmitter, State.gapEnds, ha, Selection.off, Emitter.quiet]

theorem disable_setTrunk_fed {a : Lane} (ha : x.sel.active = some a) :
    (u.setTrunk t x).disable t after =
      ((u.setTrunk t { x with
          sel := .off, em := x.em.quiet
          history := pushRecord x.history (x.record u.blockCounter .disable x.sel.fromLane none .nil) }).offer allPorts
            (.selector t) (x.sel.pendingStamps after)
            (.switched t .disable x.sel.fromLane none .nil x.charter.version)).gapEnds t x.em after := by
  simp [State.disable, State.disableEmitter, State.gapEnds, State.writeRecord, TrunkCounters.count, TrunkState.record, ha,
    Selection.off, Emitter.quiet]
  rfl

/-- From a lane, entry into DISABLED writes the record of its from lane (R87 step 2). -/
theorem disable_timed {n : Count} (hn : u.blockCounter = n) {x : TrunkState} {a : Lane} (ha : x.sel.active = some a) :
    let src := match x.sel.pendingSwitch with
      | some q => q.src
      | none => some a
    (u.setTrunk t (x.timed .idle .idle)).disable t after =
      ((u.setTrunk t { x with
          sel := .off, em := x.em.quiet
          history := pushRecord x.history (x.record n .disable src none .nil) }).offer allPorts (.selector t)
            ((x.sel.pendingSwitch.map PendingSwitch.after).getD [] ++ after)
            (.switched t .disable src none .nil x.charter.version)).gapEnds t x.em after := by
  intro src
  have hsrc : (x.timed .idle .idle).sel.fromLane = src := fromLane_eq (x := (x.timed .idle .idle).sel) ha
  have hstamps : (x.timed .idle .idle).sel.pendingStamps after = (x.sel.pendingSwitch.map PendingSwitch.after).getD [] ++ after :=
    pendingStamps_eq ..
  rw [disable_setTrunk_fed u t (x.timed .idle .idle) after ha, hsrc, hstamps, hn]
  rfl

theorem enable_setTrunk :
    (u.setTrunk t x).enable t after =
      (u.setTrunk t { x with
        sel := { x.sel with mode := .starved, active := none, target := none }
        em := { x.em with breakPending := true } }).offer allPorts (.selector t) after (.starved t .membership none) := by
  simp [State.enable]

end

section
variable {u : State} {t : Trunk} {after : List Nat}

theorem installSteps_disabled_empty (hm : u.members t = []) (hd : (u.trunk t).sel.mode = .disabled) :
    u.installSteps t after = u.setTrunk t ((u.trunk t).timed .idle .idle) := by
  have hm' : (u.trunk t).charter.terms.members = [] := hm
  simp [State.installSteps, State.members, hm', hd, TrunkState.timed]

theorem installSteps_enables (hm : u.members t ≠ []) (hd : (u.trunk t).sel.mode = .disabled) :
    u.installSteps t after = (u.setTrunk t ((u.trunk t).timed .idle .idle)).enable t after := by
  have hm' : (u.trunk t).charter.terms.members ≠ [] := hm
  simp [State.installSteps, State.members, hm', hd, TrunkState.timed]

theorem installSteps_disables (hm : u.members t = []) (hd : (u.trunk t).sel.mode ≠ .disabled) :
    u.installSteps t after = (u.setTrunk t ((u.trunk t).timed .idle .idle)).disable t after := by
  have hm' : (u.trunk t).charter.terms.members = [] := hm
  simp [State.installSteps, State.members, hm', hd, TrunkState.timed]

theorem judge_disabled (hd : (u.trunk t).sel.mode = .disabled) (k : TriggerKind) : u.judge t k after = u := if_pos hd

/-! ## What the trigger's evaluation is -/

variable {s : State} {choice : Nat} {g : Trigger}

/-- The state once the trigger has been taken. -/
def State.taking (s : State) (g : Trigger) : State := { s with triggers := s.triggers.erase g }

theorem takes_evaluates (h : s.Takes t choice g) (hg : g.kind = .install) :
    s.Evaluates t (.triggerEvaluation t choice) .install (s.taking g) g.after :=
  .inl ⟨choice, g, rfl, h, hg.symm, rfl, rfl⟩

theorem takes_install (h : s.Takes t choice g) (hg : g.kind = .install) :
    exec (.triggerEvaluation t choice) s = .next (((s.taking g).installSteps t g.after).judge t .install g.after) := by
  rw [takes_exec h, hg]
  rfl

theorem install_stays_disabled (h : s.Takes t choice g) (hg : g.kind = .install) (hm : s.members t = [])
    (hd : (s.trunk t).sel.mode = .disabled) :
    exec (.triggerEvaluation t choice) s = .next ((s.taking g).setTrunk t ((s.trunk t).timed .idle .idle)) := by
  have hsteps : (s.taking g).installSteps t g.after = (s.taking g).setTrunk t ((s.trunk t).timed .idle .idle) :=
    installSteps_disabled_empty hm hd
  rw [takes_install h hg, hsteps, judge_disabled (by rw [trunk_setTrunk_self]; exact hd)]

theorem install_disables (h : s.Takes t choice g) (hg : g.kind = .install) (hm : s.members t = [])
    (hd : (s.trunk t).sel.mode ≠ .disabled) :
    exec (.triggerEvaluation t choice) s =
      .next (((s.taking g).setTrunk t ((s.trunk t).timed .idle .idle)).disable t g.after) := by
  have hsteps : (s.taking g).installSteps t g.after = ((s.taking g).setTrunk t ((s.trunk t).timed .idle .idle)).disable t g.after :=
    installSteps_disables hm hd
  rw [takes_install h hg, hsteps, judge_disabled (disable_mode ..)]

/-- The trigger is there to take whatever the trunk's record without a report, and whatever has been offered. -/
theorem takes_setTrunk (h : s.Takes t choice g) {x : TrunkState} (hx : x.reports = []) : (s.setTrunk t x).Takes t choice g := by
  obtain ⟨hrst, -, hready⟩ := h
  exact ⟨hrst, by rw [trunk_setTrunk_self, hx], hready⟩

theorem takes_offer (h : s.Takes t choice g) (dest : List Port) (b : Block) (stamps : List Nat) (e : Event) :
    (s.offer dest b stamps e).Takes t choice g := h

/-- With members, the evaluation of an install trigger at a trunk that is not DISABLED finds IDLE timers. -/
theorem install_judges (h : s.Takes t choice g) (hg : g.kind = .install) {x : TrunkState} (hx : s.trunk t = x)
    (hm : x.charter.terms.members ≠ []) (hd : x.sel.mode ≠ .disabled) :
    exec (.triggerEvaluation t choice) s = .next (((s.taking g).setTrunk t (x.timed .idle .idle)).judge t .install g.after) := by
  subst hx
  rw [takes_exec h, hg]
  exact congrArg Host.Outcome.next (evaluate_install (s := s.taking g) hm hd g.after)

/-- At a trunk that is not DISABLED the timers that an install trigger finds do not matter. -/
theorem install_forgets_timers (h : s.Takes t choice g) (hg : g.kind = .install) (hm : s.members t ≠ [])
    (hd : (s.trunk t).sel.mode ≠ .disabled) :
    exec (.triggerEvaluation t choice) s =
      exec (.triggerEvaluation t choice) (s.setTrunk t ((s.trunk t).timed .idle .idle)) := by
  have hreports : ((s.trunk t).timed .idle .idle).reports = [] := h.2.1
  rw [install_judges h hg rfl hm hd, install_judges (takes_setTrunk h hreports) hg (trunk_setTrunk_self ..) hm hd]
  congr 2
  exact (setTrunk_setTrunk (s.taking g) t _ _).symm

/-- The record of a trunk that an install has brought out of DISABLED (R95). -/
def TrunkState.enabled (x : TrunkState) : TrunkState :=
  { x with
    sel := { x.sel with holdOff := .idle, restore := .idle, mode := .starved, active := none, target := none }
    em := { x.em with breakPending := true } }

/-- The state once an install has brought a trunk out of DISABLED: STARVED is offered (R95). -/
def State.enabling (s : State) (t : Trunk) (after : List Nat) : State :=
  (s.setTrunk t (s.trunk t).enabled).offer allPorts (.selector t) after (.starved t .membership none)

theorem enabling_trunk : (s.enabling t after).trunk t = (s.trunk t).enabled :=
  trunk_setTrunk_self s t (s.trunk t).enabled

theorem enabling_eligible (l : Lane) : (s.enabling t after).eligible t l = s.eligible t l :=
  eligible_congr (s := s) (t := s.enabling t after) rfl (by rw [enabling_trunk]; rfl) l

theorem enabling_top : (s.enabling t after).top t = s.top t :=
  top_congr (s := s) (t := s.enabling t after) rfl (by rw [enabling_trunk]; rfl) (by rw [enabling_trunk]; rfl)

theorem takes_enabling (h : s.Takes t choice g) : (s.enabling t after).Takes t choice g :=
  takes_setTrunk (x := (s.trunk t).enabled) h h.2.1

/-- At a DISABLED trunk the evaluation goes on as at the STARVED trunk that the install makes of it. -/
theorem install_enables (h : s.Takes t choice g) (hg : g.kind = .install) (hm : s.members t ≠ [])
    (hd : (s.trunk t).sel.mode = .disabled) :
    exec (.triggerEvaluation t choice) s = exec (.triggerEvaluation t choice) (s.enabling t g.after) := by
  have hsteps : (s.taking g).installSteps t g.after = ((s.taking g).setTrunk t ((s.trunk t).timed .idle .idle)).enable t g.after :=
    installSteps_enables hm hd
  have hmode : ((s.trunk t).enabled).sel.mode ≠ .disabled := by simp [TrunkState.enabled]
  rw [takes_install h hg, hsteps, enable_setTrunk, install_judges (takes_enabling h) hg enabling_trunk hm hmode]
  congr 2
  exact congrArg (fun v : State => v.offer allPorts (.selector t) g.after (.starved t .membership none))
    (setTrunk_setTrunk (s.taking g) t _ _).symm

end

/-- Settles O44: the install steps (R87), and then the evaluation of any trigger at the trunk they leave, its timers IDLE. -/
theorem installTriggerFollowsTheCharter : Obligations.InstallTriggerFollowsTheCharter := by
  unfold Obligations.InstallTriggerFollowsTheCharter
  intro s t choice g h hg u x record joins idle disabled quiet pendingStamps ends becomes
  have hev := takes_evaluates h hg
  refine ⟨fun hm => ⟨fun hd => install_stays_disabled h hg hm hd, fun hd ha => ?_, fun a hd ha => ?_⟩,
    fun hm => ⟨fun hd => install_enables h hg hm hd, fun hd => install_forgets_timers h hg hm hd⟩, fun hm hh => ?_⟩
  · exact (install_disables h hg hm hd).trans (congrArg Host.Outcome.next (disable_setTrunk_unfed _ _ _ _ ha))
  · exact (install_disables h hg hm hd).trans (congrArg Host.Outcome.next (disable_timed _ _ _ rfl ha))
  have hm' : TriggerKind.install = .install → s.members t ≠ [] := fun _ => hm
  have hgate : ∀ a, x.sel.active = some a → a ∉ s.members t →
      s.gateWith t .install (foundHoldOff .install u t) = (true, .idle) := fun a ha hout =>
    gateWith_of_not_applies (holdOffApplies_of_outside ha (.inr hout)) ..
  have hnot : ∀ a, a ∉ s.members t → s.eligible t a = false := fun a hout =>
    Bool.eq_false_iff.mpr fun e => hout ((eligible_iff ..).mp e).1
  have hed : x.sel.mode = .carrying ∨ x.sel.mode = .switching → x.sel.mode ≠ .disabled := fun hmode e => by simp [e] at hmode
  have hev' := takes_evaluates (takes_enabling (after := g.after) h) hg
  have hm'' : TriggerKind.install = .install → (s.enabling t g.after).members t ≠ [] := fun _ => by
    rw [members_of_charter (s := s) (by rw [enabling_trunk]; rfl)]
    exact hm
  have hx' : (s.enabling t g.after).trunk t = x.enabled := enabling_trunk
  intro starved fresh cancelled towards
  refine ⟨fun hs _ hn => ?_, fun d hs ha htop => ?_, fun a hmode ha hout hn => ?_, fun a ha he hbest hr => ⟨fun hc => ?_, fun hw => ?_⟩,
    fun a d ha he hdeg hgood htop => ?_, fun hd hn => ?_, fun d hd htop => ?_, fun a d hmode ha hout htop hne => ?_⟩
  · exact evaluates_starved_waits hev hm' (by rw [hs]; decide) hh hs hn
  · exact (evaluates_starved_starts hev hm' (by rw [hs]; decide) hh hs ha htop).trans (congrArg Host.Outcome.next (start_timed rfl ..))
  · exact (evaluates_drops hev hm' (hed hmode) hh ha hmode hn (hgate a ha hout)).trans
      (congrArg Host.Outcome.next (drop_timed rfl t ha _))
  · exact evaluates_stays hev hm' (hed (.inl hc)) hh ha he hbest (.inl hr) hc
  · exact (evaluates_cancels hev hm' (hed (.inr hw)) hh ha he hbest (.inl hr) hw).trans (congrArg Host.Outcome.next (cancel_setTrunk ..))
  · intro n
    obtain ⟨hmem, hbar, -⟩ := (eligible_iff ..).mp he
    have hg' : some (s.lane a).rx.grade ≠ s.bestGrade t := by simp [hdeg, hgood]
    refine ⟨fun hc hn => ?_, fun hc hn => ?_, fun hw htarget => ?_, fun hw htarget => ?_⟩
    · exact (evaluates_aims hev hm' (hed (.inl hc)) hh ha (.inl hc) he hg' htop (fun e => by cases hc.symm.trans e)
        (gateWith_open hev (.inr ⟨hn, .inr rfl⟩))).trans (congrArg Host.Outcome.next (aim_setTrunk ..))
    · have happlies := holdOffApplies_of_bad hc hh ha hmem hbar (.inr ⟨hdeg, hgood⟩)
      exact evaluates_heldOff hev hm' hc hh ha (.inr ⟨hdeg, hgood⟩) (gateWith_starts happlies (by decide) hn)
    · exact evaluates_goesOn hev hm' (hed (.inr hw)) hh ha hw he hg' htop htarget
    · exact (evaluates_aims hev hm' (hed (.inr hw)) hh ha (.inr hw) he hg' htop (fun _ => htarget)
        (gateWith_of_mode (by rw [hw]; decide) ..)).trans (congrArg Host.Outcome.next (aim_setTrunk ..))
  · refine (install_enables h hg hm hd).trans ((evaluates_starved_waits hev' hm'' ?_ ?_ ?_ ?_).trans (congrArg Host.Outcome.next ?_))
    · rw [hx']; simp [TrunkState.enabled]
    · rw [hx']; exact hh
    · rw [hx']; rfl
    · exact fun l => (enabling_eligible l).trans (hn l)
    · rw [hx']
      exact congrArg (fun v : State => v.offer allPorts (.selector t) g.after (.starved t .membership none))
        (setTrunk_setTrunk u t _ _)
  · refine (install_enables h hg hm hd).trans ((evaluates_starved_starts (d := d) hev' hm'' ?_ ?_ ?_ ?_ ?_).trans
      (congrArg Host.Outcome.next ?_))
    · rw [hx']; simp [TrunkState.enabled]
    · rw [hx']; exact hh
    · rw [hx']; rfl
    · rw [hx']; rfl
    · exact enabling_top.trans htop
    · rw [hx', start_timed rfl]
      exact congrArg (fun v : State => ((v.offer allPorts (.selector t) g.after (.starved t .membership none)).offer allPorts
        (.selector t) g.after (.switched t .start none (some d) .hit x.charter.version)).offer allPorts (.selector t) g.after
          (.fed t d)) (setTrunk_setTrunk u t _ _)
  · exact (evaluates_switches hev hm' (hed hmode) hh ha hmode (hnot a hout) htop (hgate a ha hout)).trans
      (congrArg Host.Outcome.next (immediateSwitch_timed ..))

end Sys2Proof.Machine
end

