-- ==== Sys2Proof/Proofs/EmissionCases.lean ====
section
/-! SUPPORT. The emission steps of an instant (R30 to R38), case by case: what the emitter reads, the judgement of an immediate switch,
and the emission of each case written out. -/

namespace Sys2Proof.Machine

/-! ## What the emitter reads -/

/-- Two states that trunk t's emitter reads alike: the lanes but for their statuses, and the trunk's record but for its emitter, whose
cursor agrees. -/
structure SeesAs (t : Trunk) (s v : State) : Prop where
  buffer : ∀ l : Lane, (v.lane l).buffer = (s.lane l).buffer
  bars : ∀ l : Lane, (v.lane l).bars = (s.lane l).bars
  rx : ∀ l : Lane, (v.lane l).rx = (s.lane l).rx
  trunk : ∃ e : Emitter, v.trunk t = { s.trunk t with em := e }
  cursor : (v.trunk t).em.cursor = (s.trunk t).em.cursor

namespace SeesAs

variable {t : Trunk} {s v : State} (h : SeesAs t s v)
include h

theorem sel : (v.trunk t).sel = (s.trunk t).sel := by
  obtain ⟨e, he⟩ := h.trunk
  rw [he]

theorem charter : (v.trunk t).charter = (s.trunk t).charter := by
  obtain ⟨e, he⟩ := h.trunk
  rw [he]

theorem favoured : (v.trunk t).favoured = (s.trunk t).favoured := by
  obtain ⟨e, he⟩ := h.trunk
  rw [he]

theorem members : v.members t = s.members t := members_of_charter h.charter

theorem bufferFor (l : Lane) : v.bufferFor t l = s.bufferFor t l := by
  simp only [State.bufferFor, h.members, h.buffer]

theorem cursorBlock (l : Lane) : v.cursorBlock t l = s.cursorBlock t l := by
  simp only [State.cursorBlock, h.bufferFor, h.cursor]

theorem eligible (l : Lane) : v.eligible t l = s.eligible t l := by
  simp only [State.eligible, State.barred, h.members, h.bars, h.rx]

theorem selectionOrder : v.selectionOrder t = s.selectionOrder t := selectionOrder_congr h.charter h.favoured

theorem mendBlock : v.mendBlock t = s.mendBlock t := by
  simp only [State.mendBlock, h.sel, h.selectionOrder, h.eligible, h.cursorBlock]

theorem trans {w : State} (h' : SeesAs t v w) : SeesAs t s w := by
  obtain ⟨e, he⟩ := h.trunk
  obtain ⟨e', he'⟩ := h'.trunk
  exact ⟨fun l => (h'.buffer l).trans (h.buffer l), fun l => (h'.bars l).trans (h.bars l), fun l => (h'.rx l).trans (h.rx l),
    ⟨e', by rw [he', he]⟩, h'.cursor.trans h.cursor⟩

end SeesAs

theorem seesAs_modEm (s : State) (t : Trunk) (f : Emitter → Emitter) (hc : ∀ e, (f e).cursor = e.cursor := by intro; rfl) :
    SeesAs t s (s.modEm t f) := by
  refine ⟨fun _ => rfl, fun _ => rfl, fun _ => rfl, ⟨_, trunk_setTrunk_self ..⟩, ?_⟩
  rw [modEm_eq, trunk_setTrunk_self]
  exact hc _

/-- The state with the members' statuses recorded (R31). -/
def State.noted (s : State) (t : Trunk) : State := s.recordStatuses (s.judged t)

theorem noted_lane (s : State) (t : Trunk) (l : Lane) : (s.noted t).lane l =
    if l ∈ s.members t then { s.lane l with status := alignStatus (s.trunk t).em.cursor (s.bufferFor t l) } else s.lane l :=
  recordStatuses_lane (fun l => alignStatus (s.trunk t).em.cursor (s.bufferFor t l)) l (s.members t) s

theorem noted_trunk (s : State) (t : Trunk) : (s.noted t).trunk t = s.trunk t := recordStatuses_trunk ..

theorem seesAs_noted (s : State) (t : Trunk) : SeesAs t s (s.noted t) := by
  refine ⟨fun l => ?_, fun l => ?_, fun l => ?_, ⟨_, noted_trunk s t⟩, by rw [noted_trunk]⟩ <;> rw [noted_lane] <;> split <;> rfl

/-- The block at the cursor, as it stands in the buffer of a member. -/
theorem cursorBlock_iff {s : State} {t : Trunk} {l : Lane} {b : LaneBlock} : s.cursorBlock t l = some b ↔
    l ∈ s.members t ∧ (s.lane l).buffer.find? (fun q => q.seq = (s.trunk t).em.cursor) = some b := by
  unfold State.cursorBlock State.bufferFor
  by_cases h : l ∈ s.members t <;> simp [h]

theorem cursorBlock_mem {s : State} {t : Trunk} {l : Lane} {b : LaneBlock} (h : s.cursorBlock t l = some b) :
    l ∈ s.members t ∧ b ∈ (s.lane l).buffer ∧ b.seq = (s.trunk t).em.cursor := by
  obtain ⟨hm, hf⟩ := cursorBlock_iff.mp h
  exact ⟨hm, List.mem_of_find?_eq_some hf, by simpa using List.find?_some hf⟩

/-- A lane is ALIGNED when it is a member whose buffer holds the cursor's block (R31). -/
def State.alignedAt (s : State) (t : Trunk) (l : Lane) : Prop :=
  l ∈ s.members t ∧ ∃ b ∈ (s.lane l).buffer, b.seq = (s.trunk t).em.cursor

theorem cursorBlock_isSome {s : State} {t : Trunk} {l : Lane} : (s.cursorBlock t l).isSome = true ↔ s.alignedAt t l := by
  unfold State.cursorBlock State.bufferFor State.alignedAt
  by_cases h : l ∈ s.members t <;> simp [h]

theorem cursorBlock_none {s : State} {t : Trunk} {l : Lane} : s.cursorBlock t l = none ↔ ¬ s.alignedAt t l := by
  rw [← cursorBlock_isSome, Option.not_isSome_iff_eq_none]

/-! ## The judgement of an immediate switch (R35) -/

/-- Whether the emitter centres once a pending immediate switch has been judged. -/
def State.centresAt (s : State) (t : Trunk) : Bool :=
  if (s.trunk t).em.immediatePending then
    !(!(s.trunk t).em.centring && ((s.trunk t).sel.active.bind (s.cursorBlock t)).isSome)
  else (s.trunk t).em.centring

/-- The state that an emission finds: the statuses noted, and a pending immediate switch judged. -/
def State.poised (s : State) (t : Trunk) : State :=
  (s.noted t).setTrunk t { s.trunk t with em := { (s.trunk t).em with immediatePending := false, centring := s.centresAt t } }

/-- The report of the judgement, when an immediate switch is pending. -/
def State.judgement (s : State) (t : Trunk) : List ReportKind :=
  if (s.trunk t).em.immediatePending then
    [.judgement (s.trunk t).sel.active
      (if !(s.trunk t).em.centring && ((s.trunk t).sel.active.bind (s.cursorBlock t)).isSome then .hitless else .hit)]
  else []

theorem poised_trunk (s : State) (t : Trunk) : (s.poised t).trunk t =
    { s.trunk t with em := { (s.trunk t).em with immediatePending := false, centring := s.centresAt t } } :=
  trunk_setTrunk_self ..

theorem judgeImmediate_noted (s : State) (t : Trunk) : (s.noted t).judgeImmediate t = (s.poised t, s.judgement t) := by
  have hcursor : ∀ a, (s.noted t).cursorBlock t a = s.cursorBlock t a := (seesAs_noted s t).cursorBlock
  unfold State.judgeImmediate State.poised State.judgement State.centresAt
  simp only [noted_trunk, hcursor]
  by_cases hi : (s.trunk t).em.immediatePending = true
  · simp [hi, noted_trunk]
  · simp only [hi, if_false, Bool.false_eq_true]
    have he : ({ s.trunk t with em := { (s.trunk t).em with immediatePending := false, centring := (s.trunk t).em.centring } } :
        TrunkState) = (s.noted t).trunk t := by
      rw [noted_trunk, ← Bool.eq_false_iff.mpr hi]
    rw [he, setTrunk_trunk_self]

theorem poised_lane (s : State) (t : Trunk) (l : Lane) : (s.poised t).lane l = (s.noted t).lane l := rfl

theorem seesAs_poised (s : State) (t : Trunk) : SeesAs t s (s.poised t) := by
  obtain ⟨hb, hbars, hrx, -, -⟩ := seesAs_noted s t
  exact ⟨hb, hbars, hrx, ⟨_, poised_trunk s t⟩, by rw [poised_trunk]⟩

/-! ## The emission, case by case -/

/-- The emitter where a misalignment run has ended. -/
def Emitter.aligned (e : Emitter) : Emitter := { e with misalign := 0 }

/-- The emitter that has centred (R36). -/
def Emitter.centred (e : Emitter) : Emitter := { e with misalign := 0, centring := false }

section
variable {s : State} {t : Trunk}

theorem emissionSteps_starved (hm : (s.trunk t).sel.mode = .starved) :
    s.emissionSteps t =
      (((s.noted t).modEm t Emitter.aligned).emit t (s.trunk t).em.fillBlock false .fill (s.members t), []) := by
  have hn : ((s.noted t).trunk t).sel.mode = .starved := by rw [noted_trunk]; exact hm
  have hsteps : s.emissionSteps t = (((s.noted t).modEm t Emitter.aligned).emit t
      ((s.noted t).trunk t).em.fillBlock false .fill (((s.noted t).modEm t Emitter.aligned).members t), []) :=
    if_pos hn
  rw [hsteps, noted_trunk, (seesAs_modEm (s.noted t) t _).members, (seesAs_noted s t).members]

theorem emissionSteps_poised (hm : (s.trunk t).sel.mode ≠ .starved) :
    s.emissionSteps t =
      ((if s.centresAt t then (s.poised t).emitCentring t else (s.poised t).emitCarrying t (s.judged t)).1,
        s.judgement t ++
          (if s.centresAt t then (s.poised t).emitCentring t else (s.poised t).emitCarrying t (s.judged t)).2) := by
  have hn : ((s.noted t).trunk t).sel.mode ≠ .starved := by rw [noted_trunk]; exact hm
  have hsteps : s.emissionSteps t =
      ((if ((((s.noted t).judgeImmediate t).1).trunk t).em.centring then ((s.noted t).judgeImmediate t).1.emitCentring t
          else ((s.noted t).judgeImmediate t).1.emitCarrying t (s.judged t)).1,
        ((s.noted t).judgeImmediate t).2 ++
          (if ((((s.noted t).judgeImmediate t).1).trunk t).em.centring then ((s.noted t).judgeImmediate t).1.emitCentring t
          else ((s.noted t).judgeImmediate t).1.emitCarrying t (s.judged t)).2) := if_neg hn
  rw [hsteps, judgeImmediate_noted, poised_trunk]

variable (u : State) (st : List (Lane × AlignStatus))

theorem emitCentring_block {b : LaneBlock} (h : (u.trunk t).sel.active.bind (fun a => centringBlock (u.bufferFor t a)) = some b) :
    u.emitCentring t =
      ((u.modEm t Emitter.centred).emit t b true .fromActive (u.members t)).advanceAlignWait
        t := by
  have hs := seesAs_modEm u t fun e => { e with misalign := 0 }
  unfold State.emitCentring
  simp only [hs.bufferFor, h]
  simp [Emitter.centred]

theorem emitCentring_gap (h : (u.trunk t).sel.active.bind (fun a => centringBlock (u.bufferFor t a)) = none) :
    u.emitCentring t =
      ((u.modEm t Emitter.aligned).emit t (u.trunk t).em.fillBlock false .fill
        ((u.members t).filter fun l => some l != (u.trunk t).sel.active)).advanceAlignWait t := by
  have hs := seesAs_modEm u t fun e => { e with misalign := 0 }
  unfold State.emitCentring
  simp only [hs.bufferFor, h]
  rfl

/-- The target's block at the cursor, of a switch in progress. -/
def State.targetBlock (u : State) (t : Trunk) : Option LaneBlock :=
  if (u.trunk t).sel.mode = .switching then (u.trunk t).sel.target.bind (u.cursorBlock t) else none

theorem targetBlock_iff {b : LaneBlock} : u.targetBlock t = some b ↔
    (u.trunk t).sel.mode = .switching ∧ ∃ d, (u.trunk t).sel.target = some d ∧ u.cursorBlock t d = some b := by
  unfold State.targetBlock
  split
  next h => simp [h, Option.bind_eq_some_iff]
  next h => simp [h]

theorem emitCarrying_target {b : LaneBlock} {d : Lane} (h : u.targetBlock t = some b) (hd : (u.trunk t).sel.target = some d) :
    u.emitCarrying t st =
      ((u.modEm t Emitter.aligned).emit t b false .fromActive (u.members t), [.completion d]) := by
  unfold State.targetBlock at h
  unfold State.emitCarrying
  simp only [h]
  simp only [hd]
  rfl

theorem emitCarrying_active {b : LaneBlock} (h : u.targetBlock t = none)
    (ha : (u.trunk t).sel.active.bind (u.cursorBlock t) = some b) :
    u.emitCarrying t st =
      ((u.modEm t Emitter.aligned).emit t b false .fromActive (u.members t)).advanceAlignWait t := by
  unfold State.targetBlock at h
  unfold State.emitCarrying
  simp only [h, ha]
  rfl

theorem emitCarrying_misaligned (h : u.targetBlock t = none) (ha : (u.trunk t).sel.active.bind (u.cursorBlock t) = none) :
    u.emitCarrying t st = u.emitMisaligned t st := by
  unfold State.targetBlock at h
  unfold State.emitCarrying
  simp only [h, ha]

/-- The run of misaligned emissions after one more (R37). -/
def Emitter.misaligned (e : Emitter) : Emitter := { e with misalign := if e.misalign + 1 = misalignLimit then 0 else e.misalign + 1 }

/-- The loss that the fourth misaligned emission in a row reports (R37). -/
def State.lossDue (u : State) (t : Trunk) (st : List (Lane × AlignStatus)) : List ReportKind :=
  if (u.trunk t).em.misalign + 1 = misalignLimit then [.alignmentLoss (u.trunk t).sel.active st] else []

theorem emitMisaligned_mend {b : LaneBlock} (hm : (u.trunk t).charter.terms.mend = true) (hb : u.mendBlock t = some b) :
    u.emitMisaligned t st =
      ((((u.modEm t Emitter.misaligned).emit t b false .mended (u.members t)).advanceAlignWait t).1,
        u.lossDue t st ++ (((u.modEm t Emitter.misaligned).emit t b false .mended (u.members t)).advanceAlignWait t).2) := by
  unfold State.emitMisaligned
  simp only [hm, if_true, hb]
  rfl

theorem emitMisaligned_fill (h : (u.trunk t).charter.terms.mend = false ∨ u.mendBlock t = none) :
    u.emitMisaligned t st =
      ((((u.modEm t Emitter.misaligned).emit t (u.trunk t).em.fillBlock false .fill (u.members t)).advanceAlignWait t).1,
        u.lossDue t st ++
          (((u.modEm t Emitter.misaligned).emit t (u.trunk t).em.fillBlock false .fill (u.members t)).advanceAlignWait t).2) := by
  have hblock : (if (u.trunk t).charter.terms.mend then u.mendBlock t else none) = none := by
    rcases h with h | h <;> simp [h]
  unfold State.emitMisaligned
  simp only [hblock]
  rfl

/-! ## The align-wait count (R38) -/

theorem advanceAlignWait_trunk : ((u.advanceAlignWait t).1.trunk t) =
    { u.trunk t with sel := if (u.trunk t).sel.mode = .switching then
      { (u.trunk t).sel with alignWait := (u.trunk t).sel.alignWait + 1 } else (u.trunk t).sel } := by
  unfold State.advanceAlignWait
  dsimp only
  split
  · simp
  · rfl

theorem advanceAlignWait_lane (l : Lane) : (u.advanceAlignWait t).1.lane l = u.lane l := by
  unfold State.advanceAlignWait
  dsimp only
  split <;> rfl

theorem advanceAlignWait_offers : (u.advanceAlignWait t).1.offers = u.offers := by
  unfold State.advanceAlignWait
  dsimp only
  split <;> rfl

theorem advanceAlignWait_reports : (u.advanceAlignWait t).2 =
    if (u.trunk t).sel.mode = .switching ∧ (u.trunk t).sel.alignWait + 1 = alignWaitLimit then [.alignWaitExpiry] else [] := by
  unfold State.advanceAlignWait
  dsimp only
  by_cases hm : (u.trunk t).sel.mode = .switching <;> simp [hm]

/-! ## The centring block (R36) -/

theorem later_sub_three (n : SeqNo) : later n (n - 3) = true := by
  have h : n - (n - 3) = 3 := by bv_omega
  unfold later
  rw [h]
  decide

/-- A buffer that is not empty has a centring block, one of its own. -/
theorem centringBlock_some {buffer : List LaneBlock} (h : buffer ≠ []) : ∃ b ∈ buffer, centringBlock buffer = some b := by
  have hlast := List.getLast?_eq_getLast_of_ne_nil h
  simp only [centringBlock, hlast]
  split
  · have hfound : (buffer.find? fun b => b.seq = (buffer.getLast h).seq - 3 || later b.seq ((buffer.getLast h).seq - 3)).isSome := by
      rw [List.find?_isSome]
      exact ⟨_, List.getLast_mem h, by rw [later_sub_three, Bool.or_true]⟩
    obtain ⟨b, hb⟩ := Option.isSome_iff_exists.mp hfound
    exact ⟨b, List.mem_of_find?_eq_some hb, hb⟩
  · exact ⟨_, List.head_mem h, List.head?_eq_some_head h⟩

theorem centringBlock_nil : centringBlock [] = none := rfl

end

end Sys2Proof.Machine
end

