-- ==== Sys2Proof/Proofs/EmissionsSend.lean ====
section
/-! SUPPORT. What goes out at an instant (O47): the block and the counter of each case, the statuses and the purge of the members, and
that handling the reports of the instant leaves what was sent. -/

namespace Sys2Proof.Machine

/-! ## What handling reports leaves of the emitter -/

/-- The emitter's record, but for what handling a report or an evaluation writes. -/
def Emitter.sent (e : Emitter) : Emitter :=
  { e with
    centring := false, misalign := 0, gapRun := false, immediatePending := false
    counters := { e.counters with hitless := 0, hit := 0, slips := 0 } }

/-- Trunk t's emitter has sent the same in both states. -/
def SentAlike (t : Trunk) (s r : State) : Prop := (r.trunk t).em.sent = (s.trunk t).em.sent

theorem SentAlike.refl (t : Trunk) (s : State) : SentAlike t s s := rfl

theorem SentAlike.trans {t : Trunk} {s u r : State} (h : SentAlike t s u) (h' : SentAlike t u r) : SentAlike t s r := Eq.trans h' h

theorem modTrunk_sent (s : State) (t : Trunk) (f : TrunkState → TrunkState)
    (h : ∀ x, (f x).em.sent = x.em.sent := by intro; rfl) : SentAlike t s (s.modTrunk t f) := by
  unfold SentAlike
  rw [modTrunk_eq, trunk_setTrunk_self]
  exact h _

theorem offer_sent (s : State) (t : Trunk) (dest : List Port) (b : Block) (after : List Nat) (e : Event) :
    SentAlike t s (s.offer dest b after e) := rfl

theorem writeRecord_sent (s : State) (t : Trunk) (c : Cause) (src dst : Option Lane) (k : SwitchKind) (after : List Nat) :
    SentAlike t s (s.writeRecord t c src dst k after) := by
  unfold State.writeRecord
  exact (modTrunk_sent ..).trans (offer_sent ..)

section
variable (s : State) (t : Trunk) (after : List Nat)

theorem start_sent (d : Lane) : SentAlike t s (s.start t d after) := by
  unfold State.start
  exact ((modTrunk_sent ..).trans (writeRecord_sent ..)).trans (offer_sent ..)

theorem drop_sent : SentAlike t s (s.drop t after) := by
  unfold State.drop
  exact ((modTrunk_sent ..).trans (writeRecord_sent ..)).trans (offer_sent ..)

theorem aim_sent (d : Lane) (c : Cause) : SentAlike t s (s.aim t d c after) := modTrunk_sent ..

theorem cancel_sent : SentAlike t s (s.cancel t) := modTrunk_sent ..

theorem immediateSwitch_sent (a d : Lane) (c : Cause) : SentAlike t s (s.immediateSwitch t a d c after) := modTrunk_sent ..

theorem act_sent (k : TriggerKind) (d : Decision) : SentAlike t s (s.act t k d after) := by
  unfold State.act
  dsimp only
  repeat' split
  all_goals first
    | with_reducible exact SentAlike.refl ..
    | with_reducible exact start_sent ..
    | with_reducible exact drop_sent ..
    | with_reducible exact aim_sent ..
    | with_reducible exact cancel_sent ..
    | with_reducible exact immediateSwitch_sent ..

theorem markHold_sent : SentAlike t s (s.markHold t after) := by
  unfold State.markHold
  dsimp only
  split
  · rfl
  · split
    · rfl
    · exact (modTrunk_sent s t _).trans (offer_sent ..)

theorem judge_sent (k : TriggerKind) : SentAlike t s (s.judge t k after) := by
  unfold State.judge
  dsimp only
  split
  · rfl
  · exact ((markHold_sent ..).trans (modTrunk_sent ..)).trans (act_sent ..)

theorem evaluate_report_sent : SentAlike t s (s.evaluate t .report after) := judge_sent s t after .report

theorem complete_sent (b : Lane) (k : SwitchKind) : SentAlike t s (s.complete t b k after) := by
  unfold State.complete
  exact (writeRecord_sent ..).trans (modTrunk_sent ..)

theorem handleReport_sent (k : ReportKind) : SentAlike t s (s.handleReport t k after) := by
  cases k with
  | judgement l d =>
    unfold State.handleReport State.handleJudgement
    dsimp only
    split
    · rfl
    · exact (writeRecord_sent ..).trans (modTrunk_sent ..)
  | completion b =>
    unfold State.handleReport State.handleCompletion
    dsimp only
    split
    · exact complete_sent ..
    · rfl
  | alignmentLoss a st =>
    unfold State.handleReport State.handleLoss State.slip
    dsimp only
    repeat' split
    · rfl
    · exact immediateSwitch_sent ..
    · exact (modTrunk_sent ..).trans (writeRecord_sent ..)
    · rfl
  | alignWaitExpiry =>
    unfold State.handleReport State.handleAlignWait
    dsimp only
    repeat' split
    · exact (complete_sent ..).trans (modTrunk_sent ..)
    · rfl
    · rfl

theorem takeReport_sent (r : Report) : SentAlike t s (s.takeReport t r) := by
  unfold State.takeReport
  dsimp only
  split
  · exact (handleReport_sent ..).trans (modTrunk_sent ..)
  · exact (handleReport_sent ..).trans (evaluate_report_sent ..)

end

theorem takeReports_sent (t : Trunk) (rs : List Report) : ∀ s : State, SentAlike t s (s.takeReports t rs) := by
  induction rs with
  | nil => exact fun _ => rfl
  | cons r rs ih => exact fun s => (takeReport_sent s t r).trans (ih _)

/-! ## The block of an instant -/

/-- Where the block of an instant comes from, and what it is counted as (R32 to R34, R36 to R38, R41). -/
inductive Origin (s : State) (t : Trunk) (q : LaneBlock) : Source → Prop
  | part : q = (s.trunk t).em.fillBlock → Origin s t q .fill
  | carried (l : Lane) : l ∈ s.members t → q ∈ (s.lane l).buffer →
    (s.trunk t).sel.active = some l ∨ ((s.trunk t).sel.mode = .switching ∧ (s.trunk t).sel.target = some l) → Origin s t q .fromActive
  | mended (l : Lane) : l ∈ s.members t → q ∈ (s.lane l).buffer → s.eligible t l = true → (s.trunk t).sel.active ≠ some l →
    (s.trunk t).sel.target ≠ some l → Origin s t q .mended

/-- What an instant has sent: a block, with its effects on the emitter's record and on the members. -/
structure Sent (t : Trunk) (s r : State) (q : LaneBlock) (centring : Bool) (src : Source) : Prop where
  em : (r.trunk t).em.sent = ({ (s.trunk t).em with
    td := some (outBlock q ((s.trunk t).em.breakFor q centring)), lastEmitted := some q.seq, breakPending := false
    cursor := q.seq + 1, counters := (s.trunk t).em.counters.emit src } : Emitter).sent
  lanes : ∀ l ∈ s.members t, (r.lane l).buffer = purge q.seq (s.lane l).buffer ∧
    (r.lane l).status = alignStatus (s.trunk t).em.cursor (s.lane l).buffer

theorem Sent.after {t : Trunk} {s u r : State} {q : LaneBlock} {c : Bool} {src : Source} (h : Sent t s u q c src)
    (he : SentAlike t u r) (hl : ∀ l, r.lane l = u.lane l) : Sent t s r q c src :=
  ⟨Eq.trans he h.em, fun l hm => by rw [hl]; exact h.lanes l hm⟩

/-- An emission sends its block: the lanes it does not purge are empty. -/
theorem emit_sent {t : Trunk} {s u : State} (hu : SentAlike t s u) (hlane : ∀ l, u.lane l = (s.noted t).lane l) (q : LaneBlock)
    (c : Bool) (src : Source) {ls : List Lane} (hls : ∀ l ∈ s.members t, l ∉ ls → (s.lane l).buffer = []) :
    Sent t s (u.emit t q c src ls) q c src := by
  refine ⟨?_, fun l hm => ?_⟩
  · have hbreak : (u.trunk t).em.breakFor q c = (s.trunk t).em.breakFor q c := by
      have hlast := congrArg Emitter.lastEmitted hu
      have hpending := congrArg Emitter.breakPending hu
      simp only [Emitter.sent] at hlast hpending
      simp only [Emitter.breakFor, hlast, hpending]
    have hcount := congrArg Emitter.counters hu
    simp only [Emitter.sent, TrunkCounters.mk.injEq] at hcount
    obtain ⟨h1, h2, h3, h4, -⟩ := hcount
    rw [emit_trunk]
    simp only [Emitter.sent, hbreak]
    cases src <;> simp only [TrunkCounters.emit, h1, h2, h3, h4]
  · have hb : s.bufferFor t l = (s.lane l).buffer := by simp [State.bufferFor, hm]
    rw [emit_lane, hlane, noted_lane, if_pos hm, hb]
    by_cases hin : l ∈ ls
    · rw [if_pos hin]
      exact ⟨rfl, rfl⟩
    · rw [if_neg hin, hls l hm hin]
      exact ⟨rfl, rfl⟩

theorem advanceAlignWait_sent (s : State) (t : Trunk) : SentAlike t s (s.advanceAlignWait t).1 := by
  unfold SentAlike
  rw [advanceAlignWait_trunk]

/-- The emission of an instant may be followed by the advance of the align-wait count. -/
theorem Sent.advanced {t : Trunk} {s u : State} {q : LaneBlock} {c : Bool} {src : Source} (h : Sent t s u q c src) :
    Sent t s (u.advanceAlignWait t).1 q c src :=
  h.after (advanceAlignWait_sent ..) (advanceAlignWait_lane u)

section
variable {s : State} {t : Trunk}

theorem aligned_sent (e : Emitter) : e.aligned.sent = e.sent := rfl
theorem centred_sent (e : Emitter) : e.centred.sent = e.sent := rfl
theorem misaligned_sent (e : Emitter) : e.misaligned.sent = e.sent := rfl

theorem poised_sent (s : State) (t : Trunk) : SentAlike t s (s.poised t) := by
  unfold SentAlike
  rw [poised_trunk]
  rfl

/-- What an emission of the poised state sends, the emitter's other fields being set first. -/
theorem poised_emit (f : Emitter → Emitter) (hf : ∀ e, (f e).sent = e.sent) (q : LaneBlock) (c : Bool) (src : Source) {ls : List Lane}
    (hls : ∀ l ∈ s.members t, l ∉ ls → (s.lane l).buffer = []) :
    Sent t s (((s.poised t).modEm t f).emit t q c src ls) q c src :=
  emit_sent ((poised_sent s t).trans (modTrunk_sent _ t _ fun _ => hf _)) (fun _ => rfl) q c src hls

theorem poised_emit_members (f : Emitter → Emitter) (hf : ∀ e, (f e).sent = e.sent) (q : LaneBlock) (c : Bool) (src : Source) :
    Sent t s (((s.poised t).modEm t f).emit t q c src ((s.poised t).members t)) q c src := by
  rw [(seesAs_poised s t).members]
  exact poised_emit f hf q c src fun l hm hn => absurd hm hn

/-- The emission centres from a buffer that is not empty (R36). -/
def State.Centres (s : State) (t : Trunk) : Prop :=
  (s.trunk t).sel.mode ≠ .starved ∧ s.centresAt t = true ∧
    ∃ a, (s.trunk t).sel.active = some a ∧ a ∈ s.members t ∧ (s.lane a).buffer ≠ []

/-- What a mended block is taken from (R34). -/
theorem mendBlock_origin {q : LaneBlock} (h : s.mendBlock t = some q) : Origin s t q .mended := by
  obtain ⟨l, hfind, hq⟩ := Option.bind_eq_some_iff.mp h
  have hl := List.find?_some hfind
  simp only [Bool.and_eq_true, bne_iff_ne] at hl
  obtain ⟨⟨⟨he, ha⟩, ht⟩, -⟩ := hl
  obtain ⟨hm, hmem, -⟩ := cursorBlock_mem hq
  exact .mended l hm hmem he (Ne.symm ha) (Ne.symm ht)

/-- One block goes out (R30): it comes from where it may, and centres when the emission does. -/
def SendsOne (s : State) (t : Trunk) (r : State) (centring : Bool) : Prop :=
  ∃ q src, Sent t s r q centring src ∧ Origin s t q src

theorem poised_fillBlock (s : State) (t : Trunk) : ((s.poised t).trunk t).em.fillBlock = (s.trunk t).em.fillBlock := by
  rw [poised_trunk]
  rfl

theorem starved_sendsOne (hm : (s.trunk t).sel.mode = .starved) : SendsOne s t (s.emissionSteps t).1 false := by
  rw [emissionSteps_starved hm]
  have hu : SentAlike t s ((s.noted t).modEm t Emitter.aligned) := by
    refine SentAlike.trans (u := s.noted t) ?_ (modTrunk_sent ..)
    unfold SentAlike
    rw [noted_trunk]
  exact ⟨(s.trunk t).em.fillBlock, .fill, emit_sent hu (fun _ => rfl) _ _ _ fun l hl hn => absurd hl hn, .part rfl⟩

/-- A centring emission takes its block from the active lane's buffer; where that is empty it fills. -/
theorem emitCentring_sendsOne (s : State) (t : Trunk) : ∃ c, SendsOne s t ((s.poised t).emitCentring t).1 c ∧
    (c = true ↔ ∃ a, (s.trunk t).sel.active = some a ∧ a ∈ s.members t ∧ (s.lane a).buffer ≠ []) := by
  have hsees := seesAs_poised s t
  have hbuffer : ∀ a, (s.poised t).bufferFor t a = if a ∈ s.members t then (s.lane a).buffer else [] := fun a => by
    rw [hsees.bufferFor]
    by_cases h : a ∈ s.members t <;> simp [State.bufferFor, h]
  by_cases hfull : ∃ a, (s.trunk t).sel.active = some a ∧ a ∈ s.members t ∧ (s.lane a).buffer ≠ []
  · obtain ⟨a, ha, hm, hne⟩ := hfull
    obtain ⟨q, hq, hblock⟩ := centringBlock_some hne
    have hbind : ((s.poised t).trunk t).sel.active.bind (fun a => centringBlock ((s.poised t).bufferFor t a)) = some q := by
      rw [hsees.sel, ha, Option.bind_some, hbuffer, if_pos hm, hblock]
    refine ⟨true, ?_, by simpa using ⟨a, ha, hm, hne⟩⟩
    rw [emitCentring_block _ hbind]
    exact ⟨q, .fromActive, (poised_emit_members Emitter.centred centred_sent q true .fromActive).advanced, .carried a hm hq (.inl ha)⟩
  · have hempty : ∀ a, (s.trunk t).sel.active = some a → a ∈ s.members t → (s.lane a).buffer = [] := fun a ha hm => by
      by_contra hne
      exact hfull ⟨a, ha, hm, hne⟩
    have hbind : ((s.poised t).trunk t).sel.active.bind (fun a => centringBlock ((s.poised t).bufferFor t a)) = none := by
      rw [hsees.sel]
      cases ha : (s.trunk t).sel.active with
      | none => rfl
      | some a =>
        rw [Option.bind_some, hbuffer]
        split
        next hm => rw [hempty a ha hm, centringBlock_nil]
        next => rfl
    refine ⟨false, ?_, by simpa using hfull⟩
    rw [emitCentring_gap _ hbind, poised_fillBlock, hsees.members, hsees.sel]
    refine ⟨(s.trunk t).em.fillBlock, .fill,
      Sent.advanced (poised_emit Emitter.aligned aligned_sent _ false .fill fun l hm hn => ?_), .part rfl⟩
    have hl : some l = (s.trunk t).sel.active := by simpa [hm] using hn
    exact hempty l hl.symm hm

theorem emitCarrying_sendsOne (s : State) (t : Trunk) (st : List (Lane × AlignStatus)) :
    SendsOne s t ((s.poised t).emitCarrying t st).1 false := by
  have hsees := seesAs_poised s t
  cases htarget : (s.poised t).targetBlock t with
  | some q =>
    obtain ⟨hw, d, hd, hq⟩ := (targetBlock_iff _).mp htarget
    rw [emitCarrying_target _ _ htarget hd]
    rw [hsees.cursorBlock] at hq
    rw [hsees.sel] at hw hd
    obtain ⟨hm, hmem, -⟩ := cursorBlock_mem hq
    exact ⟨q, .fromActive, poised_emit_members Emitter.aligned aligned_sent q false .fromActive, .carried d hm hmem (.inr ⟨hw, hd⟩)⟩
  | none =>
    cases hactive : ((s.poised t).trunk t).sel.active.bind ((s.poised t).cursorBlock t) with
    | some q =>
      obtain ⟨a, ha, hq⟩ := Option.bind_eq_some_iff.mp hactive
      rw [emitCarrying_active _ _ htarget hactive]
      rw [hsees.cursorBlock] at hq
      rw [hsees.sel] at ha
      obtain ⟨hm, hmem, -⟩ := cursorBlock_mem hq
      exact ⟨q, .fromActive, (poised_emit_members Emitter.aligned aligned_sent q false .fromActive).advanced, .carried a hm hmem (.inl ha)⟩
    | none =>
      rw [emitCarrying_misaligned _ _ htarget hactive]
      have hfill : ((s.poised t).trunk t).charter.terms.mend = false ∨ (s.poised t).mendBlock t = none →
          SendsOne s t ((s.poised t).emitMisaligned t st).1 false := fun h => by
        rw [emitMisaligned_fill _ _ h, poised_fillBlock]
        dsimp only
        exact ⟨(s.trunk t).em.fillBlock, .fill,
          (poised_emit_members Emitter.misaligned misaligned_sent (s.trunk t).em.fillBlock false .fill).advanced, .part rfl⟩
      cases hmend : ((s.poised t).trunk t).charter.terms.mend with
      | false => exact hfill (.inl hmend)
      | true =>
        cases hblock : (s.poised t).mendBlock t with
        | none => exact hfill (.inr hblock)
        | some q =>
          rw [emitMisaligned_mend _ _ hmend hblock]
          rw [hsees.mendBlock] at hblock
          dsimp only
          exact ⟨q, .mended, (poised_emit_members Emitter.misaligned misaligned_sent q false .mended).advanced, mendBlock_origin hblock⟩

/-- The emission steps send one block. -/
theorem emissionSteps_sendsOne (s : State) (t : Trunk) :
    ∃ c, SendsOne s t (s.emissionSteps t).1 c ∧ (c = true ↔ s.Centres t) := by
  by_cases hm : (s.trunk t).sel.mode = .starved
  · exact ⟨false, starved_sendsOne hm, by simp [State.Centres, hm]⟩
  rw [emissionSteps_poised hm]
  cases hc : s.centresAt t with
  | true =>
    obtain ⟨c, hsends, hiff⟩ := emitCentring_sendsOne s t
    exact ⟨c, hsends, hiff.trans ⟨fun h => ⟨hm, hc, h⟩, fun ⟨_, _, h⟩ => h⟩⟩
  | false => exact ⟨false, emitCarrying_sendsOne s t _, by simp [State.Centres, hc]⟩

end

/-- An instant sends one block, and handling its reports leaves what was sent. -/
theorem instant_sendsOne (s : State) (t : Trunk) : ∃ c, SendsOne s t (s.instant t) c ∧ (c = true ↔ s.Centres t) := by
  obtain ⟨c, ⟨q, src, hsent, horigin⟩, hc⟩ := emissionSteps_sendsOne s t
  refine ⟨c, ⟨q, src, hsent.after ?_ (fun l => ?_), horigin⟩, hc⟩
  · unfold State.instant
    exact (modTrunk_sent ..).trans (takeReports_sent ..)
  · unfold State.instant
    exact lane_of_lanes (takeReports_frame ..).lanes l

/-! ## The block on the wire, and the table of R31 -/

/-- The 64 octets of a block: sync word, header, payload, check (11.2). -/
theorem octets_eq (b : OutBlock) : b.octets =
    [0x3A, 0xC5] ++ [(packHeader b.seq b.fill b.brk).extractLsb' 8 8, (packHeader b.seq b.fill b.brk).extractLsb' 0 8] ++
      b.payload.toList ++ [b.check.extractLsb' 8 8, b.check.extractLsb' 0 8] := by
  have hhigh : highOctet syncWord = 0x3A := by decide
  have hlow : lowOctet syncWord = 0xC5 := by decide
  simp only [OutBlock.octets, hhigh, hlow]
  rfl

theorem alignStatus_aligned {cursor : SeqNo} {held : List LaneBlock} (h : ∃ q ∈ held, q.seq = cursor) :
    alignStatus cursor held = .aligned := by
  unfold alignStatus
  exact if_pos (by simpa using h)

theorem alignStatus_outside {cursor : SeqNo} {held : List LaneBlock} {oldest newest : LaneBlock} (ho : held.head? = some oldest)
    (hn : held.getLast? = some newest) (h : ∀ q ∈ held, q.seq ≠ cursor) :
    alignStatus cursor held =
      if earlier newest.seq cursor then .behind else if later oldest.seq cursor then .ahead else .missing := by
  unfold alignStatus
  rw [if_neg (by simpa using h), ho, hn]

/-- Whether the emission centres, by the flags and the active lane's status (R35, R36). -/
theorem centresAt_iff (s : State) (t : Trunk) {a : Lane} (ha : (s.trunk t).sel.active = some a) : s.centresAt t = true ↔
    (s.trunk t).em.centring = true ∨ ((s.trunk t).em.immediatePending = true ∧ ¬ s.alignedAt t a) := by
  have haligned := cursorBlock_isSome (s := s) (t := t) (l := a)
  unfold State.centresAt
  rw [ha, Option.bind_some, ← haligned]
  cases (s.trunk t).em.immediatePending <;> cases (s.trunk t).em.centring <;> simp

theorem centres_iff (s : State) (t : Trunk) : s.Centres t ↔
    (s.trunk t).sel.mode ≠ .starved ∧ ∃ a ∈ (s.trunk t).sel.active, a ∈ s.members t ∧ (s.lane a).buffer ≠ [] ∧
      ((s.trunk t).em.centring = true ∨ ((s.trunk t).em.immediatePending = true ∧ ¬ s.alignedAt t a)) := by
  unfold State.Centres
  refine and_congr_right fun _ => ⟨fun ⟨hc, a, ha, hm, hne⟩ => ⟨a, ha, hm, hne, (centresAt_iff s t ha).mp hc⟩, ?_⟩
  exact fun ⟨a, ha, hm, hne, hc⟩ => ⟨(centresAt_iff s t ha).mpr hc, a, ha, hm, hne⟩

/-- The instant of a DISABLED trunk: nothing is emitted, and TD is low (R42). -/
theorem exec_instant_disabled {s : State} {t : Trunk} (h1 : s.rstnLow = false) (h2 : s.monitor.state = .present)
    (h3 : (s.trunk t).reports = []) (h4 : (s.trunk t).sel.mode = .disabled) :
    exec (.emissionInstant t) s =
      .next (({ s with instantTaken := s.instantTaken.set t.val true } : State).modEm t fun e => { e with td := none }) := by
  have hr : s.running = true := by simp [State.running, h1, State.halted, h2]
  have hm : (({ s with instantTaken := s.instantTaken.set t.val true } : State).trunk t).sel.mode = .disabled := h4
  show Host.Outcome.next _ = _
  simp only [hr, if_true, State.emissionInstant, settleTrunk_nil h3, hm]

/-- The causes of BREAK, in the order of R39. -/
theorem break_causes_comm (lane centres pending first gap : Prop) :
    (lane ∨ centres ∨ pending ∨ first ∨ gap) ↔ (pending ∨ first ∨ gap ∨ centres ∨ lane) := by tauto

/-- Settles O47: the emission steps send one block, and handling the reports of the instant leaves what was sent. -/
theorem eachInstantEmitsOneBlock : Obligations.EachInstantEmitsOneBlock := by
  unfold Obligations.EachInstantEmitsOneBlock
  intro s t hrst hpresent hreports x aligned centres
  by_cases hd : x.sel.mode = .disabled
  · refine ⟨_, exec_instant_disabled hrst hpresent hreports hd, rfl, fun _ => ?_, fun hne => absurd hd hne⟩
    rw [modEm_eq, trunk_setTrunk_self]
    exact ⟨rfl, rfl, rfl, rfl⟩
  have hrow := exec_emissionInstant hrst hpresent hreports hd
  generalize hs' : ({ s with instantTaken := s.instantTaken.set t.val true } : State) = s' at hrow
  obtain ⟨c, ⟨q, src, ⟨hem, hlanes⟩, horigin⟩, hc⟩ := instant_sendsOne s' t
  have hdevice := (instant_emission s' t).device.instantTaken
  generalize s'.instant t = r at hrow hem hlanes hdevice
  subst hs'
  refine ⟨r, hrow, hdevice, fun hd' => absurd hd' hd, fun _ => ?_⟩
  simp only [Emitter.sent, Emitter.mk.injEq, TrunkCounters.mk.injEq] at hem
  obtain ⟨hcursor, -, -, -, hlast, hpending, -, ⟨hemitted, hactive, hmended, hfill, -⟩, htd⟩ := hem
  refine ⟨_, q, htd, ?_⟩
  intro header headerOctets counters fromActive fromMend fromPart
  refine ⟨rfl, octets_eq _, rfl, rfl, rfl, ?_, ?_, hcursor, hlast, hpending, ?_, ?_⟩
  · have hcentres : c = true ↔ centres := hc.trans (centres_iff _ t)
    have hbrk := breakFor_iff x.em q c
    rw [hcentres] at hbrk
    exact hbrk.trans (break_causes_comm ..)
  · cases horigin with
    | part hq => exact .inl ⟨hq, hactive, hmended, hfill⟩
    | carried l hm hmem hl => exact .inr (.inl ⟨l, hm, hmem, hl, hactive, hmended, hfill⟩)
    | mended l hm hmem he ha ht => exact .inr (.inr ⟨l, hm, hmem, he, ha, ht, hactive, hmended, hfill⟩)
  · cases src <;> exact hemitted
  · intro l hm held cursor status
    obtain ⟨hbuffer, hstatus⟩ := hlanes l hm
    have hstatus' : status = alignStatus cursor held := hstatus
    refine ⟨hbuffer, fun h => hstatus'.trans (alignStatus_aligned h), fun h => ?_, fun oldest newest ho hn hnone => ?_⟩
    · rw [hstatus', h]
      rfl
    · rw [hstatus', alignStatus_outside ho hn hnone]
      exact ⟨fun h => by simp [h], fun h1 h2 => by simp [h1, h2], fun h1 h2 => by simp [h1, h2]⟩

end Sys2Proof.Machine
end

