-- ==== Sys2Proof/Proofs/InstantBlocks.lean ====
section
/-! SUPPORT. The block of an instant with no immediate switch pending (O48): which block each case sends, and what the emitter's record,
the selection record and the offers are then. -/

namespace Sys2Proof.Machine

/-! ## The instant without a judgement or a completion -/

theorem handedReports_kinds (before after : List Nat) (ks : List ReportKind) :
    (handedReports before after ks).map Report.kind = ks := by
  rw [handedReports, List.map_map]
  exact List.map_id ks

/-- Reports that are rows of their own are left for those rows. -/
theorem instant_unhandled {s : State} {t : Trunk} (h : ∀ k ∈ (s.emissionSteps t).2, k.within = false) :
    s.instant t = (s.emissionSteps t).1.modTrunk t fun x => { x with
      reports := handedReports (s.handOn (.emitter t) []) ((s.emissionSteps t).1.handOn (.emitter t) []) (s.emissionSteps t).2 } := by
  rw [instant_eq]
  generalize hrs : handedReports (s.handOn (.emitter t) []) ((s.emissionSteps t).1.handOn (.emitter t) []) (s.emissionSteps t).2 = rs
  have hkind : ∀ r ∈ rs, r.kind.within = false := fun r hr => h _ (mem_handedReports (hrs ▸ hr))
  have hnone : rs.filter (fun k => k.kind.within) = [] := List.filter_eq_nil_iff.mpr fun r hr => by simp [hkind r hr]
  have hall : rs.filter (fun k => !k.kind.within) = rs := List.filter_eq_self.mpr fun r hr => by simp [hkind r hr]
  rw [hnone, hall]
  rfl

theorem poised_eq_noted {s : State} {t : Trunk} (h : (s.trunk t).em.immediatePending = false) : s.poised t = s.noted t := by
  have hx : ({ s.trunk t with em := { (s.trunk t).em with immediatePending := false, centring := s.centresAt t } } : TrunkState) =
      (s.noted t).trunk t := by
    rw [noted_trunk, State.centresAt, if_neg (by simp [h]), ← h]
  rw [State.poised, hx, setTrunk_trunk_self]

theorem noted_offers (s : State) (t : Trunk) :
    (s.noted t).offers = s.offers ∧ (s.noted t).stamp = s.stamp ∧ (s.noted t).blockCounter = s.blockCounter := by
  unfold State.noted State.recordStatuses
  generalize s.judged t = st
  induction st generalizing s with
  | nil => exact ⟨rfl, rfl, rfl⟩
  | cons e st ih => exact ih (s.modLane e.1 fun x => { x with status := e.2 })

/-- The selection record after an instant that completes no switch (R38). -/
def Selection.waited (x : Selection) : Selection := if x.mode = .switching then { x with alignWait := x.alignWait + 1 } else x

/-- Whether an emission is part of a gap run (R40). -/
def Selection.gap (x : Selection) (src : Source) : Bool := src = .fill && (x.mode = .carrying || x.mode = .switching)

/-- An instant has sent block b, which centred or not, as counted by its source, the emitter's record having been changed by f: the
trunk's record and the offers then. -/
structure Emitted (t : Trunk) (s r : State) (f : Emitter → Emitter) (b : LaneBlock) (centring : Bool) (src : Source) : Prop where
  em : (r.trunk t).em = { f (s.trunk t).em with
    td := some (outBlock b ((f (s.trunk t).em).breakFor b centring)), lastEmitted := some b.seq, breakPending := false
    cursor := b.seq + 1, counters := (f (s.trunk t).em).counters.emit src, gapRun := (s.trunk t).sel.gap src }
  sel : (r.trunk t).sel = (s.trunk t).sel.waited
  offers : r.offers = s.offers ++ (if (s.trunk t).sel.gap src = (f (s.trunk t).em).gapRun then [] else
    [{ event := if (s.trunk t).sel.gap src then .gapRunBegin t (some b.seq) (s.trunk t).sel.active
         else .gapRunEnd t (some b.seq) (s.trunk t).sel.active
       time := s.blockCounter, block := .emitter t, stamp := s.stamp, after := [], dest := allPorts }])

section
variable {s : State} {t : Trunk}

theorem emitted_emit (hp : (s.trunk t).em.immediatePending = false) (f : Emitter → Emitter) (b : LaneBlock) (c : Bool) (src : Source)
    (ls : List Lane) :
    Emitted t s (((((s.poised t).modEm t f).emit t b c src ls).advanceAlignWait t).1) f b c src := by
  have hx : ((s.poised t).modEm t f).trunk t = { s.trunk t with em := f (s.trunk t).em } := by
    rw [modEm_eq, trunk_setTrunk_self, poised_eq_noted hp, noted_trunk]
  obtain ⟨hoffers, hstamp, hblock⟩ := noted_offers s t
  have htrunk := emit_trunk ((s.poised t).modEm t f) t b c src ls
  have hemit := emit_offers ((s.poised t).modEm t f) t b c src ls
  rw [htrunk, hx] at hemit
  refine ⟨?_, ?_, ?_⟩
  · rw [advanceAlignWait_trunk, htrunk, hx]
    rfl
  · rw [advanceAlignWait_trunk, htrunk, hx]
    rfl
  · rw [advanceAlignWait_offers, hemit]
    have hdevice : ((s.poised t).modEm t f).offers = s.offers ∧ ((s.poised t).modEm t f).stamp = s.stamp ∧
      ((s.poised t).modEm t f).blockCounter = s.blockCounter := ⟨hoffers, hstamp, hblock⟩
    rw [hdevice.1, hdevice.2.1, hdevice.2.2]
    rfl

/-- The instant sends a block so, and leaves reports of the kinds given, each a row of its own. -/
def Instant (s : State) (t : Trunk) (f : Emitter → Emitter) (b : LaneBlock) (centring : Bool) (src : Source) (ks : List ReportKind) :
    Prop :=
  Emitted t s (s.instant t) f b centring src ∧ ((s.instant t).trunk t).reports.map Report.kind = ks

theorem instant_of_steps (hp : (s.trunk t).em.immediatePending = false) {f : Emitter → Emitter} {b : LaneBlock} {c : Bool}
    {src : Source} {ls : List Lane} {ks : List ReportKind}
    (hsteps : s.emissionSteps t = (((((s.poised t).modEm t f).emit t b c src ls).advanceAlignWait t).1, ks))
    (hks : ∀ k ∈ ks, k.within = false) : Instant s t f b c src ks := by
  have hemit := emitted_emit hp f b c src ls
  have hinstant : s.instant t = _ := instant_unhandled (by rw [hsteps]; exact hks)
  unfold Instant
  rw [hinstant, hsteps]
  generalize ((((s.poised t).modEm t f).emit t b c src ls).advanceAlignWait t).1 = v at hemit ⊢
  obtain ⟨hem, hsel, hoffers⟩ := hemit
  refine ⟨⟨?_, ?_, hoffers⟩, ?_⟩
  · rw [modTrunk_eq, trunk_setTrunk_self]
    exact hem
  · rw [modTrunk_eq, trunk_setTrunk_self]
    exact hsel
  · rw [modTrunk_eq, trunk_setTrunk_self]
    exact handedReports_kinds ..

/-- The align-wait expiry of an instant that completes no switch (R38). -/
def Selection.expiry (x : Selection) : List ReportKind :=
  if x.mode = .switching ∧ x.alignWait + 1 = alignWaitLimit then [.alignWaitExpiry] else []

theorem expiry_not_within {x : Selection} {k : ReportKind} (h : k ∈ x.expiry) : k.within = false := by
  unfold Selection.expiry at h
  split at h
  · rw [List.mem_singleton.mp h]
    rfl
  · cases h

/-- The alignment loss of a misaligned emission (R37). -/
def State.lossOf (s : State) (t : Trunk) : List ReportKind :=
  if (s.trunk t).em.misalign + 1 = misalignLimit then [.alignmentLoss (s.trunk t).sel.active (s.judged t)] else []

theorem lossOf_not_within {k : ReportKind} (h : k ∈ s.lossOf t) : k.within = false := by
  unfold State.lossOf at h
  split at h
  · rw [List.mem_singleton.mp h]
    rfl
  · cases h

theorem advance_kinds (f : Emitter → Emitter) (b : LaneBlock) (c : Bool) (src : Source) (ls : List Lane) :
    ((((s.poised t).modEm t f).emit t b c src ls).advanceAlignWait t).2 = (s.trunk t).sel.expiry := by
  have hsel : ((((s.poised t).modEm t f).emit t b c src ls).trunk t).sel = (s.trunk t).sel := by
    rw [emit_trunk, modEm_eq, trunk_setTrunk_self, poised_trunk]
  rw [advanceAlignWait_reports, hsel]
  rfl

theorem advance_eq (f : Emitter → Emitter) (b : LaneBlock) (c : Bool) (src : Source) (ls : List Lane) :
    (((s.poised t).modEm t f).emit t b c src ls).advanceAlignWait t =
      (((((s.poised t).modEm t f).emit t b c src ls).advanceAlignWait t).1, (s.trunk t).sel.expiry) := by
  rw [← advance_kinds f b c src ls]

theorem misaligned_not_within {k : ReportKind} (h : k ∈ s.lossOf t ++ (s.trunk t).sel.expiry) : k.within = false :=
  (List.mem_append.mp h).elim lossOf_not_within expiry_not_within

theorem poised_lossDue : (s.poised t).lossDue t (s.judged t) = s.lossOf t := by
  simp only [State.lossDue, State.lossOf, poised_trunk]

theorem poised_targetBlock (htarget : s.targetBlock t = none) : (s.poised t).targetBlock t = none := by
  have hsees := seesAs_poised s t
  simpa only [State.targetBlock, hsees.sel, hsees.cursorBlock] using htarget

/-! ## Case by case -/

variable (hp : (s.trunk t).em.immediatePending = false)
include hp

theorem judgement_none : s.judgement t = [] := if_neg (by simp [hp])

theorem centresAt_eq : s.centresAt t = (s.trunk t).em.centring := if_neg (by simp [hp])

theorem steps_centring (hm : (s.trunk t).sel.mode ≠ .starved) (hc : (s.trunk t).em.centring = true) :
    s.emissionSteps t = (s.poised t).emitCentring t := by
  rw [emissionSteps_poised hm, judgement_none hp, centresAt_eq hp, hc]
  rfl

theorem steps_carrying (hm : (s.trunk t).sel.mode ≠ .starved) (hc : (s.trunk t).em.centring = false) :
    s.emissionSteps t = (s.poised t).emitCarrying t (s.judged t) := by
  rw [emissionSteps_poised hm, judgement_none hp, centresAt_eq hp, hc]
  rfl

theorem instant_starved (hm : (s.trunk t).sel.mode = .starved) :
    Instant s t Emitter.aligned (s.trunk t).em.fillBlock false .fill [] := by
  refine instant_of_steps (ls := s.members t) hp ?_ (by simp)
  have hnot : (((((s.poised t).modEm t Emitter.aligned).emit t (s.trunk t).em.fillBlock false .fill (s.members t)).trunk t).sel.mode
      ≠ .switching) := by
    rw [emit_trunk, modEm_eq, trunk_setTrunk_self, poised_trunk]
    simp [hm]
  rw [emissionSteps_starved hm, State.advanceAlignWait, if_neg hnot, poised_eq_noted hp]

section
variable (hm : (s.trunk t).sel.mode ≠ .starved)
include hm

theorem instant_centres (hc : (s.trunk t).em.centring = true) {b : LaneBlock}
    (hb : (s.trunk t).sel.active.bind (fun a => centringBlock (s.bufferFor t a)) = some b) :
    Instant s t Emitter.centred b true .fromActive (s.trunk t).sel.expiry := by
  have hsees := seesAs_poised s t
  refine instant_of_steps (ls := (s.poised t).members t) hp ?_ fun k => expiry_not_within
  rw [steps_centring hp hm hc, emitCentring_block _ (by simpa only [hsees.sel, hsees.bufferFor] using hb)]
  exact advance_eq Emitter.centred b true .fromActive _

theorem instant_centring_gap (hc : (s.trunk t).em.centring = true)
    (hb : (s.trunk t).sel.active.bind (fun a => centringBlock (s.bufferFor t a)) = none) :
    Instant s t Emitter.aligned (s.trunk t).em.fillBlock false .fill (s.trunk t).sel.expiry := by
  have hsees := seesAs_poised s t
  refine instant_of_steps (ls := ((s.poised t).members t).filter fun l => some l != ((s.poised t).trunk t).sel.active) hp ?_
    fun k => expiry_not_within
  rw [steps_centring hp hm hc, emitCentring_gap _ (by simpa only [hsees.sel, hsees.bufferFor] using hb), poised_fillBlock]
  exact advance_eq Emitter.aligned (s.trunk t).em.fillBlock false .fill _

variable (hc : (s.trunk t).em.centring = false) (htarget : s.targetBlock t = none)
include hc htarget

theorem instant_active {b : LaneBlock} (hb : (s.trunk t).sel.active.bind (s.cursorBlock t) = some b) :
    Instant s t Emitter.aligned b false .fromActive (s.trunk t).sel.expiry := by
  have hsees := seesAs_poised s t
  refine instant_of_steps (ls := (s.poised t).members t) hp ?_ fun k => expiry_not_within
  have hb' : ((s.poised t).trunk t).sel.active.bind ((s.poised t).cursorBlock t) = some b := by
    rw [hsees.sel, funext hsees.cursorBlock]
    exact hb
  rw [steps_carrying hp hm hc, emitCarrying_active _ _ (poised_targetBlock htarget) hb']
  exact advance_eq Emitter.aligned b false .fromActive _

theorem steps_misaligned (hb : (s.trunk t).sel.active.bind (s.cursorBlock t) = none) :
    s.emissionSteps t = (s.poised t).emitMisaligned t (s.judged t) := by
  have hsees := seesAs_poised s t
  have hb' : ((s.poised t).trunk t).sel.active.bind ((s.poised t).cursorBlock t) = none := by
    rw [hsees.sel, funext hsees.cursorBlock]
    exact hb
  rw [steps_carrying hp hm hc, emitCarrying_misaligned _ _ (poised_targetBlock htarget) hb']

theorem instant_mends (hb : (s.trunk t).sel.active.bind (s.cursorBlock t) = none) (hmend : (s.trunk t).charter.terms.mend = true)
    {b : LaneBlock} (hblock : s.mendBlock t = some b) :
    Instant s t Emitter.misaligned b false .mended (s.lossOf t ++ (s.trunk t).sel.expiry) := by
  have hsees := seesAs_poised s t
  refine instant_of_steps (ls := (s.poised t).members t) hp ?_ fun k => misaligned_not_within
  rw [steps_misaligned hp hm hc htarget hb, emitMisaligned_mend _ _ (by rw [hsees.charter]; exact hmend) (by rw [hsees.mendBlock]; exact hblock),
    poised_lossDue, advance_kinds]

theorem instant_fills (hb : (s.trunk t).sel.active.bind (s.cursorBlock t) = none)
    (hmend : (s.trunk t).charter.terms.mend = false ∨ s.mendBlock t = none) :
    Instant s t Emitter.misaligned (s.trunk t).em.fillBlock false .fill (s.lossOf t ++ (s.trunk t).sel.expiry) := by
  have hsees := seesAs_poised s t
  refine instant_of_steps (ls := (s.poised t).members t) hp ?_ fun k => misaligned_not_within
  rw [steps_misaligned hp hm hc htarget hb, emitMisaligned_fill _ _ (by rw [hsees.charter, hsees.mendBlock]; exact hmend),
    poised_lossDue, advance_kinds, poised_fillBlock]

end

end

section
variable {s r : State} {t : Trunk} {f : Emitter → Emitter} {b : LaneBlock} {c : Bool} {src : Source}

/-- An update of the emitter that BREAK and the gap run do not read. -/
def Plain (f : Emitter → Emitter) : Prop := ∀ e : Emitter, (∀ b c, (f e).breakFor b c = e.breakFor b c) ∧ (f e).gapRun = e.gapRun ∧
  (f e).counters = e.counters

theorem plain_aligned : Plain Emitter.aligned := fun _ => ⟨fun _ _ => rfl, rfl, rfl⟩
theorem plain_centred : Plain Emitter.centred := fun _ => ⟨fun _ _ => rfl, rfl, rfl⟩
theorem plain_misaligned : Plain Emitter.misaligned := fun _ => ⟨fun _ _ => rfl, rfl, rfl⟩

/-- The block on TD is the one sent, with BREAK by R39. -/
theorem Emitted.sends (h : Emitted t s r f b c src) (hf : Plain f) : ∃ o, (r.trunk t).em.td = some o ∧ o.seq = b.seq ∧
    o.fill = b.fill ∧ o.payload = b.payload ∧
    (o.brk = true ↔ b.brk = true ∨ c = true ∨ (s.trunk t).em.breakPending = true ∨ (s.trunk t).em.lastEmitted = none ∨
      ∃ q ∈ (s.trunk t).em.lastEmitted, b.seq ≠ q + 1) := by
  obtain ⟨hbreak, -⟩ := hf (s.trunk t).em
  refine ⟨outBlock b ((f (s.trunk t).em).breakFor b c), by rw [h.em], rfl, rfl, rfl, ?_⟩
  rw [hbreak]
  exact breakFor_iff (s.trunk t).em b c

/-- BREAK where the emission centres exactly when centring was set (R39). -/
theorem Emitted.sendsCentring (h : Emitted t s r f b c src) (hf : Plain f) (hc : (s.trunk t).em.centring = c) :
    ∃ o, (r.trunk t).em.td = some o ∧ o.seq = b.seq ∧ o.fill = b.fill ∧ o.payload = b.payload ∧
      (o.brk = true ↔ b.brk = true ∨ (s.trunk t).em.centring = true ∨ (s.trunk t).em.breakPending = true ∨
        (s.trunk t).em.lastEmitted = none ∨ ∃ q ∈ (s.trunk t).em.lastEmitted, b.seq ≠ q + 1) := by
  rw [hc]
  exact h.sends hf

/-- A fill goes out at the cursor, counted as one (R32, R33, R36). -/
theorem Emitted.fills (h : Emitted t s r f (s.trunk t).em.fillBlock false .fill) (hf : Plain f) :
    ∃ o, (r.trunk t).em.td = some o ∧ o.seq = (s.trunk t).em.cursor ∧ o.fill = true ∧
      (o.brk = true ↔ (s.trunk t).em.breakPending = true ∨ (s.trunk t).em.lastEmitted = none ∨
        ∃ q ∈ (s.trunk t).em.lastEmitted, (s.trunk t).em.cursor ≠ q + 1) ∧
      o.payload = Vector.replicate 58 0xFF ∧ (r.trunk t).em.counters.fill = (s.trunk t).em.counters.fill + 1 := by
  obtain ⟨-, -, hcounters⟩ := hf (s.trunk t).em
  obtain ⟨o, htd, hseq, hfill, hpayload, hbrk⟩ := h.sends hf
  refine ⟨o, htd, hseq, hfill, ?_, hpayload, ?_⟩
  · simpa [Emitter.fillBlock] using hbrk
  · rw [h.em, hcounters]
    rfl

/-- What is offered is the change of the gap run (R40). -/
theorem Emitted.offered (h : Emitted t s r f b c src) (hf : Plain f) :
    r.offers = s.offers ++ (if (r.trunk t).em.gapRun = (s.trunk t).em.gapRun then [] else
      [{ event := if (r.trunk t).em.gapRun then .gapRunBegin t (r.trunk t).em.lastEmitted (s.trunk t).sel.active
           else .gapRunEnd t (r.trunk t).em.lastEmitted (s.trunk t).sel.active
         time := s.blockCounter, block := .emitter t, stamp := s.stamp, after := [], dest := allPorts }]) := by
  obtain ⟨-, hgap, -⟩ := hf (s.trunk t).em
  rw [h.offers, h.em, hgap]

theorem instant_misaligned (hp : (s.trunk t).em.immediatePending = false) (hm : (s.trunk t).sel.mode ≠ .starved)
    (hc : (s.trunk t).em.centring = false) (htarget : s.targetBlock t = none)
    (hb : (s.trunk t).sel.active.bind (s.cursorBlock t) = none) :
    ∃ b src, Instant s t Emitter.misaligned b false src (s.lossOf t ++ (s.trunk t).sel.expiry) := by
  by_cases hfill : (s.trunk t).charter.terms.mend = false ∨ s.mendBlock t = none
  · exact ⟨_, _, instant_fills hp hm hc htarget hb hfill⟩
  · have hmend : (s.trunk t).charter.terms.mend = true := by simpa using fun e => hfill (.inl e)
    obtain ⟨b, hblock⟩ := Option.ne_none_iff_exists'.mp fun e => hfill (.inr e)
    exact ⟨_, _, instant_mends hp hm hc htarget hb hmend hblock⟩

/-- An instant that completes no switch sends some block. -/
theorem instant_sends (hp : (s.trunk t).em.immediatePending = false) (hm : (s.trunk t).sel.mode ≠ .starved)
    (htarget : (s.trunk t).em.centring = false → s.targetBlock t = none) :
    ∃ f b c src ks, Instant s t f b c src ks ∧ Plain f := by
  cases hc : (s.trunk t).em.centring with
  | true =>
    cases hb : (s.trunk t).sel.active.bind (fun a => centringBlock (s.bufferFor t a)) with
    | some b => exact ⟨_, _, _, _, _, instant_centres hp hm hc hb, plain_centred⟩
    | none => exact ⟨_, _, _, _, _, instant_centring_gap hp hm hc hb, plain_aligned⟩
  | false =>
    cases hb : (s.trunk t).sel.active.bind (s.cursorBlock t) with
    | some b => exact ⟨_, _, _, _, _, instant_active hp hm hc (htarget hc) hb, plain_aligned⟩
    | none =>
      obtain ⟨b, src, h⟩ := instant_misaligned hp hm hc (htarget hc) hb
      exact ⟨_, _, _, _, _, h, plain_misaligned⟩

/-- The members that may mend (R34). -/
def State.Mends (s : State) (t : Trunk) (l : Lane) : Prop :=
  s.eligible t l = true ∧ some l ≠ (s.trunk t).sel.active ∧ some l ≠ (s.trunk t).sel.target ∧
    ∃ b ∈ (s.lane l).buffer, b.seq = (s.trunk t).em.cursor

theorem mends_iff (l : Lane) : (s.eligible t l && some l != (s.trunk t).sel.active && some l != (s.trunk t).sel.target &&
    (s.cursorBlock t l).isSome) = true ↔ s.Mends t l := by
  have halign : s.eligible t l = true → ((s.cursorBlock t l).isSome = true ↔ ∃ b ∈ (s.lane l).buffer, b.seq = (s.trunk t).em.cursor) :=
    fun he => cursorBlock_isSome.trans (and_iff_right ((eligible_iff ..).mp he).1)
  simp only [Bool.and_eq_true, bne_iff_ne, State.Mends, and_assoc]
  exact and_congr_right fun he => and_congr_right fun _ => and_congr_right fun _ => halign he

theorem mendBlock_none (h : ∀ l ∈ s.selectionOrder t, ¬ s.Mends t l) : s.mendBlock t = none := by
  have hfind : (s.selectionOrder t).find? (fun l => s.eligible t l && some l != (s.trunk t).sel.active &&
      some l != (s.trunk t).sel.target && (s.cursorBlock t l).isSome) = none :=
    List.find?_eq_none.mpr fun l hl => fun e => h l hl ((mends_iff l).mp e)
  unfold State.mendBlock
  dsimp only
  rw [hfind]
  rfl

theorem mendBlock_first {before later : List Lane} {d : Lane} (horder : s.selectionOrder t = before ++ d :: later) (hd : s.Mends t d)
    (hbefore : ∀ l ∈ before, ¬ s.Mends t l) : s.mendBlock t = s.cursorBlock t d := by
  have hfind : (s.selectionOrder t).find? (fun l => s.eligible t l && some l != (s.trunk t).sel.active &&
      some l != (s.trunk t).sel.target && (s.cursorBlock t l).isSome) = some d := by
    rw [horder, List.find?_append, List.find?_eq_none.mpr fun l hl => fun e => hbefore l hl ((mends_iff l).mp e), Option.none_or]
    exact List.find?_cons_of_pos ((mends_iff d).mpr hd)
  unfold State.mendBlock
  dsimp only
  rw [hfind]
  rfl

end

theorem misaligned_misalign (e : Emitter) : e.misaligned.misalign = if e.misalign = 3 then 0 else e.misalign + 1 := by
  have h : e.misalign + 1 = misalignLimit ↔ e.misalign = 3 := by simp [misalignLimit]
  simp [Emitter.misaligned, h]

/-- Settles O48: the instant with no immediate switch pending, case by case. -/
theorem instantsTakeTheirBlock : Obligations.InstantsTakeTheirBlock := by
  unfold Obligations.InstantsTakeTheirBlock
  intro s t hrst hpresent hreports hp x holds completes waited
  by_cases hd : x.sel.mode = .disabled
  · refine ⟨_, exec_instant_disabled hrst hpresent hreports hd, ?_⟩
    intro e breaks sends filled
    refine ⟨fun h => ?_, fun a h => ?_, fun h => absurd hd h⟩
    · cases hd.symm.trans h
    · rcases h with h | h <;> cases hd.symm.trans h
  have hholds : ∀ l b, holds l b ↔ s.cursorBlock t l = some b := fun l b => cursorBlock_iff.symm
  have htargets : ¬ completes → x.em.centring = false → s.targetBlock t = none := fun hn hc => by
    rw [Option.eq_none_iff_forall_ne_some]
    intro b hb
    obtain ⟨hw, d, hd, hq⟩ := (targetBlock_iff _).mp hb
    exact hn ⟨hw, hc, d, hd, b, (hholds ..).mpr hq⟩
  let s' : State := { s with instantTaken := s.instantTaken.set t.val true }
  obtain ⟨r, hrow, hr⟩ : ∃ r, exec (.emissionInstant t) s = .next r ∧ ∀ f b c src ks, Instant s' t f b c src ks →
      Emitted t s r f b c src :=
    ⟨_, exec_emissionInstant hrst hpresent hreports hd, fun f b c src ks h => ⟨h.1.em, h.1.sel, h.1.offers⟩⟩
  refine ⟨r, hrow, ?_⟩
  intro e breaks sends filled
  refine ⟨fun hs => ?_, fun a hmode ha hn => ?_, fun _ hn => ?_⟩
  · have h : Emitted t s r Emitter.aligned x.em.fillBlock false .fill := hr _ _ _ _ _ (instant_starved (s := s') hp hs)
    refine ⟨h.fills plain_aligned, ?_, congrArg Emitter.misalign h.em, (congrArg Emitter.gapRun h.em).trans ?_⟩
    · rw [h.sel, Selection.waited, if_neg (by rw [hs]; decide)]
    · rw [Selection.gap, hs]
      rfl
  · have hm : x.sel.mode ≠ .starved := fun e => by rcases hmode with h | h <;> cases e.symm.trans h
    have hgap : x.sel.gap .fill = true := by rcases hmode with h | h <;> rw [Selection.gap, h] <;> rfl
    refine ⟨?_, fun hc => ⟨fun b hb => ?_, fun hb => ?_⟩, fun hc => ?_⟩
    · obtain ⟨f, b, c, src, ks, h, -⟩ := instant_sends (s := s') hp hm (htargets hn)
      exact (hr _ _ _ _ _ h).sel
    · have hbind : x.sel.active.bind (s.cursorBlock t) = some b := by
        rw [ha]
        exact (hholds ..).mp hb
      have h : Emitted t s r Emitter.aligned b false .fromActive :=
        hr _ _ _ _ _ (instant_active (s := s') hp hm hc (htargets hn hc) hbind)
      exact ⟨h.sendsCentring plain_aligned hc, congrArg Emitter.misalign h.em, congrArg Emitter.gapRun h.em,
        congrArg (fun e : Emitter => e.counters.fromActive) h.em⟩
    · intro mends
      have hbind : x.sel.active.bind (s.cursorBlock t) = none := by
        rw [ha, Option.bind_some, Option.eq_none_iff_forall_ne_some]
        exact fun b e => hb b ((hholds ..).mpr e)
      have hmends : ∀ l, mends l ↔ s.Mends t l := fun l => by
        have hne : some l ≠ x.sel.active ↔ l ≠ a := by rw [ha]; simp
        exact and_congr_right fun _ => and_congr hne.symm Iff.rfl
      obtain ⟨b, src, hmis⟩ := instant_misaligned (s := s') hp hm hc (htargets hn hc) hbind
      refine ⟨?_, fun hfill => ?_, fun before d later b hmend horder hd hbefore hheld => ?_⟩
      · exact (congrArg Emitter.misalign (hr _ _ _ _ _ hmis).em).trans (misaligned_misalign x.em)
      · have hblock : x.charter.terms.mend = false ∨ s.mendBlock t = none :=
          hfill.imp_right fun hall => mendBlock_none fun l hl hml => hall l hl ((hmends l).mpr hml)
        have h : Emitted t s r Emitter.misaligned x.em.fillBlock false .fill :=
          hr _ _ _ _ _ (instant_fills (s := s') hp hm hc (htargets hn hc) hbind hblock)
        exact ⟨h.fills plain_misaligned, (congrArg Emitter.gapRun h.em).trans hgap⟩
      · have hblock : s.mendBlock t = some b :=
          (mendBlock_first horder ((hmends d).mp hd) fun l hl hml => hbefore l hl ((hmends l).mpr hml)).trans ((hholds ..).mp hheld)
        have h : Emitted t s r Emitter.misaligned b false .mended :=
          hr _ _ _ _ _ (instant_mends (s := s') hp hm hc (htargets hn hc) hbind hmend hblock)
        exact ⟨h.sendsCentring plain_misaligned hc, congrArg Emitter.gapRun h.em,
          congrArg (fun e : Emitter => e.counters.mended) h.em⟩
    · intro buffer
      have hbuffer : s.bufferFor t a = buffer := by
        by_cases h : a ∈ s.members t <;> simp [State.bufferFor, buffer, h]
      by_cases hempty : buffer = []
      · have hbind : x.sel.active.bind (fun a => centringBlock (s.bufferFor t a)) = none := by
          rw [ha, Option.bind_some, hbuffer, hempty, centringBlock_nil]
        have h : Emitted t s r Emitter.aligned x.em.fillBlock false .fill :=
          hr _ _ _ _ _ (instant_centring_gap (s := s') hp hm hc hbind)
        refine ⟨congrArg Emitter.misalign h.em, fun _ => ⟨h.fills plain_aligned, (congrArg Emitter.centring h.em).trans hc,
          (congrArg Emitter.gapRun h.em).trans hgap⟩, fun older newest hnewest => ?_⟩
        simp [hempty] at hnewest
      · obtain ⟨b, -, hblock⟩ := centringBlock_some hempty
        have hbind : x.sel.active.bind (fun a => centringBlock (s.bufferFor t a)) = some b := by
          rw [ha, Option.bind_some, hbuffer, hblock]
        have h : Emitted t s r Emitter.centred b true .fromActive :=
          hr _ _ _ _ _ (instant_centres (s := s') hp hm hc hbind)
        refine ⟨congrArg Emitter.misalign h.em, fun e => absurd e hempty, fun older newest hnewest => ?_⟩
        have hlast : buffer.getLast? = some newest := by rw [hnewest, List.getLast?_concat]
        simp only [centringBlock, hlast] at hblock
        exact ⟨congrArg Emitter.centring h.em, congrArg Emitter.gapRun h.em,
          congrArg (fun e : Emitter => e.counters.fromActive) h.em, b, h.sendsCentring plain_centred hc,
          fun hshort => by rwa [if_neg (by omega)] at hblock, fun hlong => by rwa [if_pos hlong] at hblock⟩
  · by_cases hs : x.sel.mode = .starved
    · have h : Emitted t s r Emitter.aligned x.em.fillBlock false .fill := hr _ _ _ _ _ (instant_starved (s := s') hp hs)
      exact h.offered plain_aligned
    · obtain ⟨f, b, c, src, ks, h, hf⟩ := instant_sends (s := s') hp hs (htargets hn)
      exact (hr _ _ _ _ _ h).offered hf

end Sys2Proof.Machine
end

