-- ==== Sys2Proof/Proofs/Timebase.lean ====
section
/-! SUPPORT. The timebase: the end of a block period and the capture of the scan frame (O50), the declaration of HALT and the reference
monitor (O51), and device reset (O53). -/

namespace Sys2Proof.Machine

/-! ## No work left at the trunks and the lanes -/

theorem settleTrunks_nil {s : State} (h : ∀ t : Trunk, (s.trunk t).reports = []) : s.settleTrunks = s := by
  have hfold : ∀ ts : List Trunk, ts.foldl State.settleTrunk s = s := fun ts => by
    induction ts with
    | nil => rfl
    | cons t ts ih => rw [List.foldl_cons, settleTrunk_nil (h t), ih]
  exact hfold allTrunks

theorem settleLanes_nil {s : State} (h : ∀ l : Lane, (s.lane l).rx.due = []) : s.settleLanes = s := by
  have hfold : ∀ ls : List Lane, ls.foldl State.settleLane s = s := fun ls => by
    induction ls with
    | nil => rfl
    | cons l ls ih => rw [List.foldl_cons, settleLane_nil (h l), ih]
  exact hfold allLanes

theorem not_running_of_not_present {s : State} (h : s.monitor.state ≠ .present) : s.running = false := by
  simp [State.running, State.halted, h]

/-! ## The block period and the scan frame (R162 to R166) -/

theorem trunkState_count_eq : TrunkState.count = fun x => { x with sel := { x.sel with
    holdOff := match x.sel.holdOff with
      | .running n => .running (n - 1)
      | .idle => .idle
    restore := match x.sel.restore with
      | .running c n => .running c (n - 1)
      | .due c => .due c
      | .idle => .idle } } := by
  funext x
  have hholdOff : x.sel.holdOff.count = match x.sel.holdOff with
      | .running n => .running (n - 1)
      | .idle => .idle := by cases x.sel.holdOff <;> rfl
  have hrestore : x.sel.restore.count = match x.sel.restore with
      | .running c n => .running c (n - 1)
      | .due c => .due c
      | .idle => .idle := by cases x.sel.restore <;> rfl
  rw [TrunkState.count, hholdOff, hrestore]

theorem portState_count_eq : PortState.count = fun x =>
    { x with leaseRemaining := if x.mode = .attached then x.leaseRemaining - 1 else x.leaseRemaining } := by
  funext x
  unfold PortState.count
  split <;> rfl

theorem scanOctet_eq : scanOctet = fun x => oct ((match x.sel.mode with
      | .disabled => 0
      | .starved => 64
      | .carrying => 128
      | .switching => 192) + (if x.em.gapRun then 32 else 0) + match x.sel.active with
        | some l => l.val
        | none => 31) := by
  funext x
  have hmode : x.sel.mode.code * 64 = match x.sel.mode with
      | .disabled => 0
      | .starved => 64
      | .carrying => 128
      | .switching => 192 := by cases x.sel.mode <;> rfl
  exact congrArg (fun n => oct (n + (if x.em.gapRun then 32 else 0) + match x.sel.active with
    | some l => l.val
    | none => 31)) hmode

/-- The trunks in order are those listed. -/
theorem map_allTrunks {α : Type} (s : State) (f : TrunkState → α) : (allTrunks.map fun t => f (s.trunk t)) = s.trunks.toList.map f := by
  have hlist : s.trunks.toList = allTrunks.map s.trunk := by
    refine List.ext_getElem (by simp [allTrunks]) fun i h1 h2 => ?_
    have hi : i < 8 := by simpa using h1
    interval_cases i <;> rfl
  rw [hlist, List.map_map]
  rfl

/-- Settles O50: with no report outstanding the period ends, and the frame is captured, on the records as they stand. -/
theorem blockPeriodCountsAndScanIsCaptured : Obligations.BlockPeriodCountsAndScanIsCaptured := by
  unfold Obligations.BlockPeriodCountsAndScanIsCaptured
  intro s hrst hreports
  refine ⟨fun hpresent => ?_, fun habsent => ?_⟩
  · have hrun := running_of hrst hpresent
    have hperiod : exec .blockPeriod s = .next (if s.running then s.settleTrunks.advance else s) := rfl
    have hcapture : exec .scanCapture s = .next (if s.running then s.capture else s) := rfl
    rw [hperiod, hcapture, if_pos hrun, if_pos hrun, State.capture, settleTrunks_nil hreports, State.advance, trunkState_count_eq,
      portState_count_eq, State.scanFrame, map_allTrunks, scanOctet_eq]
    exact ⟨rfl, rfl⟩
  · have hrun := not_running_of_not_present habsent
    exact ⟨congrArg Host.Outcome.next (if_neg (by simp [hrun])), congrArg Host.Outcome.next (if_neg (by simp [hrun]))⟩

/-! ## HALT (R167, R168) -/

theorem cut_eq : Transaction.cut = fun f =>
    if f.isFetch = some true ∧ f.ignored = false ∧ f.phase ≠ .abandoned then { f with phase := .zeros } else { f with halted := true } := by
  funext f
  have hheard : f.unheard = false ↔ f.ignored = false ∧ f.phase ≠ .abandoned := by simp [Transaction.unheard]
  unfold Transaction.cut
  simp only [hheard]

/-- Settles O51: with no step or report left HALT is declared on the records as they stand; the monitor's edges are its own. -/
theorem haltStopsThePart : Obligations.HaltStopsThePart := by
  unfold Obligations.HaltStopsThePart
  intro s hrst cut
  refine ⟨fun hpresent hdue hreports => ?_, fun elapsed habsent => ?_, fun elapsed hqual hshort => ?_⟩
  · have hrow : exec .halt s = .next (if s.running then s.declareHalt else s) := rfl
    have hport : PortState.cutFetch = fun x => { x with transaction := x.transaction.map cut } := by
      funext x
      rw [PortState.cutFetch, cut_eq]
    rw [hrow, if_pos (running_of hrst hpresent), State.declareHalt, settleLanes_nil hdue, settleTrunks_nil hreports, hport]
    rfl
  · exact congrArg Host.Outcome.next (if_neg (by simp [hrst, habsent]))
  · have hmin : min elapsed qualificationNs = elapsed := min_eq_left (by simp only [qualificationNs]; omega)
    have hrow : exec (.qualificationAbandoned elapsed) s = .next (if s.rstnLow || s.monitor.state != .qualifying then s
      else { s with monitor := { state := .absent, qualNs := min elapsed qualificationNs,
                                 haltNs := s.monitor.haltNs + elapsed } }) := rfl
    rw [hrow, if_neg (by simp [hrst, hqual]), hmin]

/-! ## While RSTn is low (R172) -/

section
variable {s : State} (h : s.rstnLow = true)
include h

theorem endFrame_low (p : Port) (n : Nat) (j : Judgement) (part : Part) : s.endFrame p n j part = s := if_pos (by simp [h])

theorem wholeFetch_low (p : Port) (n : Nat) : s.wholeFetch p n = s := if_pos (by simp [h])

theorem startTransaction_low (p : Port) : s.startTransaction p = s := if_pos (by simp [h])

theorem ignore_low (p : Port) (n : Nat) : s.ignore p n = s := if_pos (by simp [h])

theorem command_low (p : Port) (tag : Octet) (part : Part) (c : Command) : s.command p tag part c = s := by
  cases part with
  | whole => exact endFrame_low h ..
  | handOver => exact endFrame_low h ..
  | read i => exact if_pos h
  | atOwner => exact if_pos h

theorem endOctets_low (p : Port) (octets : List Octet) : s.endOctets p octets = s := by
  unfold State.endOctets
  split
  · exact endFrame_low h ..
  · split
    · exact wholeFetch_low h ..
    · exact ignore_low h ..

theorem receiverEvent_low (l : Lane) (f : State → State) : s.receiverEvent l f = s := if_neg (by simp [not_running_of_low h])

/-- A row that only a running part takes. -/
theorem unless_running_low (u : State) : (if s.running then u else s) = s := if_neg (by simp [not_running_of_low h])

/-- A row that RSTn blocks. -/
theorem unless_low (u : State) : (if s.rstnLow then s else u) = s := if_pos h

/-- While RSTn is low a command other than its release changes nothing but the level of a PRSTn pin. -/
theorem exec_low {c : Instr} (hc : c ≠ .deviceReset) :
    exec c s = .next s ∨ ∃ p b, exec c s = .next (s.setPort p { s.port p with prstnLow := b }) := by
  have same : ∀ {u : State}, u = s → (Host.Outcome.next u : Host.Outcome State Fault Refusal) = .next s :=
    congrArg Host.Outcome.next
  cases c with
  | attach p tag lease => exact .inl (same (command_low h ..))
  | renew p tag => exact .inl (same (command_low h ..))
  | detach p tag => exact .inl (same (command_low h ..))
  | queryDevice p tag part => exact .inl (same (command_low h ..))
  | queryPorts p tag part => exact .inl (same (command_low h ..))
  | queryLane p tag part lane => exact .inl (same (command_low h ..))
  | queryTrunk p tag part trunk => exact .inl (same (command_low h ..))
  | queryHistory p tag part trunk => exact .inl (same (command_low h ..))
  | subscribe p tag cls mode => exact .inl (same (command_low h ..))
  | setDegrade p tag part lane set clear => exact .inl (same (command_low h ..))
  | clearLaneCounters p tag part lane => exact .inl (same (command_low h ..))
  | ballot p tag part trunk lane => exact .inl (same (command_low h ..))
  | hold p tag part trunk lane => exact .inl (same (command_low h ..))
  | release p tag part trunk => exact .inl (same (command_low h ..))
  | bar p tag part lane => exact .inl (same (command_low h ..))
  | lift p tag part lane => exact .inl (same (command_low h ..))
  | liftStale p tag part lane port => exact .inl (same (command_low h ..))
  | propose p tag part trunk n m1 m2 m3 m4 v m ho w => exact .inl (same (command_low h ..))
  | concur p tag part trunk n => exact .inl (same (command_low h ..))
  | dissent p tag part trunk n => exact .inl (same (command_low h ..))
  | withdraw p tag part trunk n => exact .inl (same (command_low h ..))
  | unknownCommand p octets => exact .inl (same (endOctets_low h ..))
  | busyDrop p octets => exact .inl (same (endOctets_low h ..))
  | commandDiscarded p octets => exact .inl (same (endOctets_low h ..))
  | ignoredTransaction p octets => exact .inl (same (endOctets_low h ..))
  | responsePlaced p => exact .inl (same (unless_low h _))
  | fetch p part =>
    cases part with
    | whole n => exact .inl (same (wholeFetch_low h ..))
    | start => exact .inl (same (startTransaction_low h ..))
    | clock n => exact .inl (same (unless_low h _))
    | pass n => exact .inl (same (unless_low h _))
    | stop => exact .inl (same (unless_low h _))
  | portReset p =>
    by_cases hp : (s.port p).prstnLow = true
    · exact .inl (same (if_pos hp))
    · exact .inr ⟨p, true, congrArg Host.Outcome.next ((if_neg hp).trans (if_pos h))⟩
  | portResetRelease p => exact .inr ⟨p, false, rfl⟩
  | leaseExpiry p => exact .inl (same (unless_running_low h _))
  | deadlineExpiry t => exact .inl (same (unless_running_low h _))
  | holdOffExpiry t => exact .inl (same (unless_running_low h _))
  | restoreWaitExpiry t => exact .inl (same (unless_running_low h _))
  | alignWaitExpiry t => exact .inl (same (unless_low h _))
  | alignmentLoss t => exact .inl (same (unless_low h _))
  | blockPeriod => exact .inl (same (unless_running_low h _))
  | emissionInstant t => exact .inl (same (unless_running_low h _))
  | scanCapture => exact .inl (same (unless_running_low h _))
  | triggerEvaluation t choice => exact .inl (same (unless_low h _))
  | clockLoss l => exact .inl (same (receiverEvent_low h ..))
  | stuckData l => exact .inl (same (receiverEvent_low h ..))
  | dataTransition l c => exact .inl (same (receiverEvent_low h ..))
  | syncMatch l w => exact .inl (same (receiverEvent_low h ..))
  | expectedPosition l w => exact .inl (same (receiverEvent_low h ..))
  | blockPosition l hd d c => exact .inl (same (receiverEvent_low h ..))
  | fillAlarm l => exact .inl (same (unless_running_low h _))
  | degradeDeclared l => exact .inl (same (unless_running_low h _))
  | degradeWindowEnd l => exact .inl (same (if_neg (by simp [not_running_of_low h])))
  | halt => exact .inl (same (unless_running_low h _))
  | qualifying n => exact .inl (same (if_pos (by simp [h])))
  | qualificationAbandoned n => exact .inl (same (if_pos (by simp [h])))
  | haltResume => exact .inl (same (if_pos (by simp [h])))
  | deviceResetAsserted => exact .inl (same (unless_low h _))
  | deviceReset => exact absurd rfl hc
  | notificationOffer p choice => exact .inl (same (unless_low h _))

end

/-- Settles O53: the fall of RSTn, the rows while it is low, and the records at its release. -/
theorem deviceResetSetsEveryRecord : Obligations.DeviceResetSetsEveryRecord := by
  unfold Obligations.DeviceResetSetsEveryRecord
  intro s
  refine ⟨fun hrst => ?_, fun hrst c hc => ?_, ?_⟩
  · refine ⟨_, congrArg Host.Outcome.next (if_neg (by simp [hrst])), rfl, rfl, rfl, fun t => ?_, fun p => ?_, rfl, rfl, rfl⟩
    · simp [State.trunk, TrunkState.quiet]
    · simp [State.port, PortState.hold, State.pattn]
  · rcases exec_low hrst hc with hrow | ⟨p, b, hrow⟩
    · exact ⟨s, hrow, rfl, fun p => rfl⟩
    · refine ⟨_, hrow, rfl, fun q => ?_⟩
      by_cases hq : q = p
      · subst hq
        rw [port_setPort_self]
      · rw [port_setPort_ne _ _ hq]
  · obtain ⟨hlane, htrunk, -, htriggers⟩ := deviceReset_isReset (s := s) rfl
    refine ⟨_, rfl, rfl, rfl, rfl, rfl, rfl, rfl, rfl, htriggers, rfl, rfl, hlane, htrunk, fun p => ⟨?_, ?_⟩⟩
    · refine List.length_eq_zero_iff.mpr (List.filter_eq_nil_iff.mpr fun l _ => ?_)
      rw [hlane]
      simp [LaneState.reset, PortSet.has]
    · exact Vector.getElem_map PortState.resetByDevice _

end Sys2Proof.Machine
end

