-- ==== Sys2Proof/Proofs/LaneAndTrunkReach.lean ====
section
/-! SUPPORT. What the nine lane events and the six trunk events can reach: one lane, one trunk (the first two clauses of O54). -/

namespace Sys2Proof.Machine

/-! ## Lane events -/

theorem LaneOnly.refl (l : Lane) (s : State) : LaneOnly l s s :=
  ⟨.refl s, rfl, rfl, fun _ _ => rfl, fun _ => rfl, fun _ => rfl, fun _ => rfl⟩

theorem LaneOnly.trans {l : Lane} {s t u : State} (h : LaneOnly l s t) (h' : LaneOnly l t u) : LaneOnly l s u :=
  ⟨h.device.trans h'.device, h'.trunks.trans h.trunks, h'.ports.trans h.ports, fun m hm => (h'.lanes m hm).trans (h.lanes m hm),
    fun m => (h'.bars m).trans (h.bars m), fun m => (h'.degradeSet m).trans (h.degradeSet m),
    fun m => (h'.degradeClear m).trans (h.degradeClear m)⟩

theorem offer_laneOnly (l : Lane) (s : State) (dest : List Port) (b : Block) (after : List Nat) (e : Event) :
    LaneOnly l s (s.offer dest b after e) :=
  ⟨⟨rfl, rfl, rfl, rfl, rfl, rfl, rfl, rfl, rfl, rfl, rfl, rfl⟩, rfl, rfl, fun _ _ => rfl, fun _ => rfl, fun _ => rfl, fun _ => rfl⟩

theorem sendForLane_laneOnly (l : Lane) (s : State) (m : Lane) (k : TriggerKind) (b : Block) (after : List Nat) :
    LaneOnly l s (s.sendForLane m k b after) := by
  unfold State.sendForLane
  split
  · exact ⟨⟨rfl, rfl, rfl, rfl, rfl, rfl, rfl, rfl, rfl, rfl, rfl, rfl⟩, rfl, rfl, fun _ _ => rfl, fun _ => rfl, fun _ => rfl,
      fun _ => rfl⟩
  · exact .refl ..

theorem regrade_laneOnly (s : State) (l : Lane) (after : List Nat) : LaneOnly l s (s.regrade l after) := by
  by_cases h : (s.lane l).rx.derived = (s.lane l).rx.grade
  · rw [regrade_same h]
    exact .refl ..
  · rw [regrade_change h]
    refine .trans (.trans (setLane_laneOnly s l _ ?_ ?_ ?_) (sendForLane_laneOnly ..)) (offer_laneOnly ..) <;> rfl

theorem takeStep_laneOnly (s : State) (l : Lane) (d : LaneStep) : LaneOnly l s (s.takeStep l d) := by
  by_cases hd : d ∈ (s.lane l).rx.due
  · rw [takeStep_due hd]
    have h : LaneOnly l s (s.setLane l { s.lane l with rx := (s.lane l).rx.stepped d }) :=
      setLane_laneOnly s l _ rfl (by cases d <;> rfl) (by cases d <;> rfl)
    dsimp only
    split
    · exact h.trans (regrade_laneOnly ..)
    · exact h
  · rw [takeStep_not_due hd]
    exact .refl ..

theorem settleLane_laneOnly (s : State) (l : Lane) : LaneOnly l s (s.settleLane l) :=
  ((takeStep_laneOnly s l _).trans (takeStep_laneOnly _ l _)).trans (takeStep_laneOnly _ l _)

theorem loseLock_laneOnly (s : State) (l : Lane) (entered : LockState) (after : List Nat) :
    LaneOnly l s (s.loseLock l entered after) := by
  rw [loseLock_eq]
  refine .trans (setLane_laneOnly s l _ ?_ ?_ ?_) (regrade_laneOnly ..) <;> rfl

theorem holdLock_laneOnly (s : State) (l : Lane) (lock : LockState) (misses : Nat) : LaneOnly l s (s.holdLock l lock misses) := by
  rw [holdLock_eq]
  refine .trans (setLane_laneOnly s l _ ?_ ?_ ?_) (regrade_laneOnly ..) <;> rfl

theorem modRx_laneOnly (s : State) (l : Lane) (f : Receiver → Receiver) (hs : ∀ x, (f x).degradeSet = x.degradeSet := by intro; rfl)
    (hc : ∀ x, (f x).degradeClear = x.degradeClear := by intro; rfl) : LaneOnly l s (s.modRx l f) :=
  setLane_laneOnly s l _ rfl (hs _) (hc _)

theorem goDark_laneOnly (s : State) (l : Lane) : LaneOnly l s (s.goDark l) := by
  unfold State.goDark
  split
  · exact .refl ..
  · exact loseLock_laneOnly ..

theorem judgeSync_laneOnly (s : State) (l : Lane) (present : Bool) : LaneOnly l s (s.judgeSync l present) := by
  unfold State.judgeSync
  dsimp only
  repeat' split
  all_goals first
    | with_reducible exact holdLock_laneOnly ..
    | with_reducible exact loseLock_laneOnly ..
    | with_reducible exact .refl ..
    | exact modRx_laneOnly ..

/-- What a receiver event does to its lane alone it does, with the settling before it, to that lane alone (R22, R23). -/
theorem receiverEvent_laneOnly {s : State} {l : Lane} {f : State → State} (h : ∀ u, LaneOnly l u (f u)) :
    LaneOnly l s (s.receiverEvent l f) := by
  unfold State.receiverEvent
  split
  · exact (settleLane_laneOnly s l).trans (h _)
  · exact .refl ..

/-- The nine lane events reach one lane and what it sends and offers. -/
theorem exec_laneOnly {s r : State} {i : Instr} {l : Lane}
    (hi : i = .clockLoss l ∨ i = .stuckData l ∨ (∃ c, i = .dataTransition l c) ∨ (∃ w, i = .syncMatch l w) ∨
      (∃ w, i = .expectedPosition l w) ∨ (∃ h d c, i = .blockPosition l h d c) ∨ i = .fillAlarm l ∨
      i = .degradeDeclared l ∨ i = .degradeWindowEnd l) (h : exec i s = .next r) : LaneOnly l s r := by
  have event : ∀ f, exec i s = .next (s.receiverEvent l f) → (∀ u, LaneOnly l u (f u)) → LaneOnly l s r := by
    intro f he hf
    cases h.symm.trans he
    exact receiverEvent_laneOnly hf
  rcases hi with rfl | rfl | ⟨c, rfl⟩ | ⟨w, rfl⟩ | ⟨w, rfl⟩ | ⟨hd, d, c, rfl⟩ | rfl | rfl | rfl
  · exact event _ rfl fun u => goDark_laneOnly u l
  · exact event _ rfl fun u => goDark_laneOnly u l
  · refine event _ rfl fun u => ?_
    split
    · exact loseLock_laneOnly ..
    · exact .refl ..
  · refine event _ rfl fun u => ?_
    split
    · exact modRx_laneOnly ..
    · exact .refl ..
  · refine event _ rfl fun u => ?_
    split
    · exact .refl ..
    · exact judgeSync_laneOnly ..
  · refine event _ rfl fun u => ?_
    split
    · split
      · rw [passBlock_eq]
        exact setLane_laneOnly u l _ rfl rfl rfl
      · rw [failBlock_eq]
        exact setLane_laneOnly u l _ rfl rfl rfl
    · exact .refl ..
  all_goals
    cases h
    split
  · exact takeStep_laneOnly ..
  · exact .refl ..
  · exact takeStep_laneOnly ..
  · exact .refl ..
  · exact (takeStep_laneOnly ..).trans (takeStep_laneOnly ..)
  · exact .refl ..

/-! ## Trunk events -/

/-- Nothing differs but triggers, the count of free values, the pins of the timebase and offers. -/
theorem TrunkOnly.of_eq {k : Trunk} {s t : State} (hp : t.ports = s.ports := by rfl) (hl : t.lanes = s.lanes := by rfl)
    (ht : t.trunks = s.trunks := by rfl) (hm : t.monitor = s.monitor := by rfl) (hb : t.blockCounter = s.blockCounter := by rfl)
    (hh : t.haltCount = s.haltCount := by rfl) (hs : t.scano = s.scano := by rfl)
    (hc : t.proposalCounter = s.proposalCounter := by rfl) (ho : t.orphans = s.orphans := by rfl) : TrunkOnly k s t :=
  have htrunk := trunk_of_trunks ht
  have hlane := lane_of_lanes hl
  ⟨hp, hm, hb, hh, hs, hc, ho, fun u _ => htrunk u, by rw [htrunk], by rw [htrunk], by rw [htrunk], by rw [htrunk], by rw [htrunk],
    fun l => by rw [hlane], fun l => by rw [hlane], fun l _ => hlane l⟩

theorem takeTrigger_only (s : State) (g : Trigger) : TrunkOnly g.trunk s (s.takeTrigger g) :=
  TrunkOnly.trans (t := { s with triggers := s.triggers.erase g }) .of_eq (takeTrigger_frame s g).trunkOnly

theorem holdOffExpires_only (s : State) (t : Trunk) : TrunkOnly t s (s.holdOffExpires t) := by
  unfold State.holdOffExpires
  dsimp only
  split
  · exact ((settleTrunk_frame s t).trunkOnly.trans (modSel_only ..)).trans (evaluate_frame ..).trunkOnly
  · exact .refl ..

theorem restoreExpires_only (s : State) (t : Trunk) : TrunkOnly t s (s.restoreExpires t) := by
  unfold State.restoreExpires
  dsimp only
  split
  · next c hc =>
    refine TrunkOnly.trans (((settleTrunk_frame s t).trunkOnly.trans (modSel_only _ t fun x => { x with restore := .due c })).trans
      (evaluate_frame _ t .restoreExpiry []).trunkOnly) ?_
    exact .of_eq
  · exact .refl ..

/-- What a row does when a condition holds, and nothing otherwise. -/
theorem exec_next_if {R : State → State → Prop} (refl : ∀ s, R s s) {s r u : State} {b : Bool} (hu : R s u)
    (h : Host.Outcome.next (if b then u else s) = (.next r : Host.Outcome State Fault Refusal)) : R s r := by
  cases h
  split
  · exact hu
  · exact refl s

theorem exec_next_unless {R : State → State → Prop} (refl : ∀ s, R s s) {s r u : State} {b : Bool} (hu : R s u)
    (h : Host.Outcome.next (if b then s else u) = (.next r : Host.Outcome State Fault Refusal)) : R s r := by
  cases h
  split
  · exact refl s
  · exact hu

theorem readyTriggers_trunk {s : State} {t : Trunk} {n : Nat} {g : Trigger} (h : (s.readyTriggers t)[n]? = some g) :
    g.trunk = t := by
  have hg := List.mem_of_getElem? h
  simp only [State.readyTriggers, State.triggersAt, List.mem_filter] at hg
  simpa using hg.1.2

/-- The six trunk events reach one trunk's selection record, emitter, history, dormant mark and reports, and its members' buffers. -/
theorem exec_trunkOnly {s r : State} {i : Instr} {t : Trunk}
    (hi : i = .emissionInstant t ∨ (∃ n, i = .triggerEvaluation t n) ∨ i = .holdOffExpiry t ∨
      i = .restoreWaitExpiry t ∨ i = .alignWaitExpiry t ∨ i = .alignmentLoss t) (h : exec i s = .next r) : TrunkOnly t s r := by
  rcases hi with rfl | ⟨n, rfl⟩ | rfl | rfl | rfl | rfl
  · exact exec_next_if (.refl t) (emissionInstant_only s t) h
  · refine exec_next_unless (.refl t) ?_ h
    split
    · exact .refl ..
    · next g hg => exact readyTriggers_trunk hg ▸ takeTrigger_only s g
  · exact exec_next_if (.refl t) (holdOffExpires_only s t) h
  · exact exec_next_if (.refl t) (restoreExpires_only s t) h
  · refine exec_next_unless (.refl t) ?_ h
    split
    · exact (settleTrunk_frame s t).trunkOnly
    · exact .refl ..
  · refine exec_next_unless (.refl t) ?_ h
    split
    · exact (modTrunk_only ..).trans (takeReport_frame ..).trunkOnly
    · exact .refl ..

end Sys2Proof.Machine
end

