-- ==== Sys2Proof/Proofs/PortReach.lean ====
section
/-! SUPPORT. What the rows of a port can reach beside their owner's work: the port's record, the count of free values, the commands
whose port was reset, and what is sent and offered. -/

namespace Sys2Proof.Machine

/-! ## One port's record -/

theorem PortOnly.refl (p : Port) (s : State) : PortOnly p s s := ⟨rfl, rfl, rfl, rfl, rfl, rfl, rfl, rfl, rfl, fun _ _ => rfl⟩

theorem PortOnly.trans {p : Port} {s t u : State} (h : PortOnly p s t) (h' : PortOnly p t u) : PortOnly p s u :=
  ⟨h'.monitor.trans h.monitor, h'.blockCounter.trans h.blockCounter, h'.haltCount.trans h.haltCount, h'.scano.trans h.scano,
    h'.proposalCounter.trans h.proposalCounter, h'.lanes.trans h.lanes, h'.trunks.trans h.trunks, h'.triggers.trans h.triggers,
    h'.orphans.trans h.orphans, fun q hq => (h'.ports q hq).trans (h.ports q hq)⟩

theorem setPort_portOnly (p : Port) (s : State) (x : PortState) : PortOnly p s (s.setPort p x) :=
  ⟨rfl, rfl, rfl, rfl, rfl, rfl, rfl, rfl, rfl, fun _ hq => port_setPort_ne s x hq⟩

theorem modPort_portOnly (p : Port) (s : State) (f : PortState → PortState) : PortOnly p s (s.modPort p f) := setPort_portOnly ..

theorem free_portOnly (p : Port) (s : State) (n : Nat) : PortOnly p s { s with freeCount := n } :=
  ⟨rfl, rfl, rfl, rfl, rfl, rfl, rfl, rfl, rfl, fun _ _ => rfl⟩

theorem offer_portOnly (p : Port) (s : State) (dest : List Port) (b : Block) (after : List Nat) (e : Event) :
    PortOnly p s (s.offer dest b after e) := ⟨rfl, rfl, rfl, rfl, rfl, rfl, rfl, rfl, rfl, fun _ _ => rfl⟩

/-- Only port p's record differs, what is sent and offered, and the commands whose port was reset. -/
def PortAndSent (p : Port) (s t : State) : Prop := PortOnly p { s with orphans := t.orphans, triggers := t.triggers } t

theorem PortOnly.andSent {p : Port} {s t : State} (h : PortOnly p s t) : PortAndSent p s t :=
  ⟨h.monitor, h.blockCounter, h.haltCount, h.scano, h.proposalCounter, h.lanes, h.trunks, rfl, rfl, h.ports⟩

theorem send_andSent (p : Port) (s : State) (t : Trunk) (k : TriggerKind) (b : Block) (after : List Nat) :
    PortAndSent p s (s.send t k b after) := ⟨rfl, rfl, rfl, rfl, rfl, rfl, rfl, rfl, rfl, fun _ _ => rfl⟩

theorem sendForLane_andSent (p : Port) (s : State) (l : Lane) (k : TriggerKind) (b : Block) (after : List Nat) :
    PortAndSent p s (s.sendForLane l k b after) := by
  unfold State.sendForLane
  split
  · exact send_andSent ..
  · exact (PortOnly.refl p s).andSent

theorem orphans_andSent (p : Port) (s : State) (os : List Orphan) : PortAndSent p s { s with orphans := os } :=
  ⟨rfl, rfl, rfl, rfl, rfl, rfl, rfl, rfl, rfl, fun _ _ => rfl⟩

/-- A relation that changes of one port's record and of what is sent and offered keep is one that a command's row keeps. -/
theorem CommandFrame.of_andSent {p : Port} {R : State → State → Prop} (trans : ∀ s t u, R s t → R t u → R s u)
    (h : ∀ s t, PortAndSent p s t → R s t) : CommandFrame p R :=
  ⟨fun s => h s s (PortOnly.refl p s).andSent, trans, fun s x => h _ _ (setPort_portOnly p s x).andSent,
    fun s n => h _ _ (free_portOnly p s n).andSent, fun s os => h _ _ (orphans_andSent p s os)⟩

/-- The row of a command, in any part, keeps such a relation when the command's work does. -/
theorem exec_keeps {p : Port} {R : State → State → Prop} (trans : ∀ s t u, R s t → R t u → R s u)
    (h : ∀ s t, PortAndSent p s t → R s t) {s r : State} {c : Command} {tag : Octet} {part : Part}
    (perf : ∀ s after, R s (s.perform p after c).1) (he : exec (c.row p tag part) s = .next r) : R s r := by
  rw [exec_row] at he
  cases he
  exact (CommandFrame.of_andSent trans h).command perf s tag _

theorem ifAttached_keeps {R : State → State → Prop} (refl : ∀ s, R s s) {s : State} {p : Port} {f : State × Reply}
    (h : R s f.1) : R s (s.ifAttached p f).1 := by
  unfold State.ifAttached
  split
  · exact h
  · exact refl s

/-! ## Transactions -/

theorem endTransaction_portOnly (s : State) (p : Port) (n : Nat) : PortOnly p s (s.endTransaction p n) := by
  unfold State.endTransaction
  dsimp only
  split
  · exact (free_portOnly p s _).trans (modPort_portOnly ..)
  · exact modPort_portOnly ..

theorem carryOut_portOnly {p : Port} {c : Command} (perf : ∀ s after, PortOnly p s (s.perform p after c).1) (s : State)
    (tag : Octet) (after : List Nat) : PortOnly p s (s.carryOut p tag c after) := by
  rw [carryOut_eq]
  exact (perf s after).trans (setPort_portOnly ..)

theorem dispatch_portOnly {p : Port} {c : Command} (perf : ∀ s after, PortOnly p s (s.perform p after c).1) (s : State)
    (tag : Octet) (part : Part) : PortOnly p s (s.dispatch p tag c part) := by
  unfold State.dispatch
  rw [heard_eq]
  refine PortOnly.trans (t := s.setPort p (s.port p).leaseRestarted) (setPort_portOnly ..) ?_
  dsimp only
  split
  · exact modPort_portOnly ..
  · split
    · exact modPort_portOnly ..
    · exact carryOut_portOnly perf _ _ _

/-- A command that its port controller carries out itself, on its own record, reaches one port. -/
theorem command_whole_portOnly {p : Port} {c : Command} (perf : ∀ s after, PortOnly p s (s.perform p after c).1) (s : State)
    (tag : Octet) : PortOnly p s (s.command p tag .whole c) := by
  show PortOnly p s (s.endFrame p _ _ _)
  unfold State.endFrame
  dsimp only
  split
  · exact .refl p s
  · refine PortOnly.trans (t := s.endTransaction p (4 + c.operands.length)) (endTransaction_portOnly ..) ?_
    split
    · exact .refl p _
    · split
      · exact modPort_portOnly ..
      · exact (modPort_portOnly ..).trans (dispatch_portOnly perf _ _ _)

/-- ATTACH, RENEW and SUBSCRIBE reach one port (R136, R137, R151). -/
theorem exec_sessionCommand {s r : State} {p : Port} {tag : Octet} {part : Part} {c : Command}
    (hc : (∃ n, c = .attach n) ∨ c = .renew ∨ ∃ a b, c = .subscribe a b) (h : exec (c.row p tag part) s = .next r) :
    PortOnly p s r := by
  have own : c.inParts = false → (∀ s after, PortOnly p s (s.perform p after c).1) → PortOnly p s r := by
    intro hp perf
    rw [exec_row, Command.partOf, hp] at h
    cases h
    exact command_whole_portOnly perf s tag
  rcases hc with ⟨n, rfl⟩ | rfl | ⟨a, b, rfl⟩
  · refine own rfl fun s after => ?_
    simp only [State.perform, State.attach]
    split
    · exact .refl p s
    · split
      · exact .refl p s
      · exact (modPort_portOnly ..).trans (offer_portOnly ..)
  · exact own rfl fun s _ => .refl p s
  · refine own rfl fun s after => ?_
    simp only [State.perform, State.subscribe]
    split
    · dsimp only
      exact modPort_portOnly ..
    · exact .refl p s

/-- A query changes no record but its port's and, when its port was reset while it was on its way, the commands of such ports. -/
theorem exec_query_reach {s r : State} {p : Port} {tag : Octet} {part : Part} {c : Command} (hc : c.isQuery = true)
    (h : exec (c.row p tag part) s = .next r) : PortOnly p { s with orphans := r.orphans } r := by
  rw [exec_row] at h
  cases h
  have same : ∀ s t, PortOnly p s t → PortOnly p { s with orphans := t.orphans } t := fun s t h =>
    ⟨h.monitor, h.blockCounter, h.haltCount, h.scano, h.proposalCounter, h.lanes, h.trunks, h.triggers, rfl, h.ports⟩
  have frame : CommandFrame p fun s t => PortOnly p { s with orphans := t.orphans } t :=
    ⟨fun s => .refl p s, fun s t u h h' => ⟨h'.monitor.trans h.monitor, h'.blockCounter.trans h.blockCounter,
        h'.haltCount.trans h.haltCount, h'.scano.trans h.scano, h'.proposalCounter.trans h.proposalCounter, h'.lanes.trans h.lanes,
        h'.trunks.trans h.trunks, h'.triggers.trans h.triggers, rfl, fun q hq => (h'.ports q hq).trans (h.ports q hq)⟩,
      fun s x => same _ _ (setPort_portOnly p s x), fun s n => same _ _ (free_portOnly p s n),
      fun s os => .refl p { s with orphans := os }⟩
  refine frame.command (fun s after => ?_) s tag _
  rw [perform_query hc]
  exact .refl p s

/-! ## FETCH -/

theorem startTransaction_portOnly (s : State) (p : Port) : PortOnly p s (s.startTransaction p) := by
  unfold State.startTransaction
  split
  · exact .refl p s
  · exact modPort_portOnly ..

theorem clockTransaction_portOnly (s : State) (p : Port) (f : Transaction) : PortOnly p s (s.clockTransaction p f) := by
  unfold State.clockTransaction
  dsimp only
  split
  · exact (free_portOnly p s _).trans (modPort_portOnly ..)
  · exact setPort_portOnly ..

theorem clockOctets_portOnly (p : Port) (isFetch : Bool) : ∀ (n : Nat) (s : State), PortOnly p s (s.clockOctets p isFetch n)
  | 0, s => .refl p s
  | n + 1, s => by
    refine PortOnly.trans ?_ (clockOctets_portOnly p isFetch n _)
    unfold State.clockOne
    split
    · exact .refl p s
    · split
      · exact .refl p s
      · exact clockTransaction_portOnly ..

theorem stopFetch_portOnly (s : State) (p : Port) : PortOnly p s (s.stopFetch p) := by
  unfold State.stopFetch
  split
  · exact .refl p s
  · split
    · exact .refl p s
    · exact modPort_portOnly ..

theorem wholeFetch_portOnly (s : State) (p : Port) (n : Nat) : PortOnly p s (s.wholeFetch p n) := by
  unfold State.wholeFetch
  split
  · exact .refl p s
  · exact ((startTransaction_portOnly ..).trans (clockOctets_portOnly ..)).trans (stopFetch_portOnly ..)

/-- A transaction that is no COMMAND is fetched or ignored (R128). -/
theorem endOctets_portOnly (s : State) (p : Port) {octets : List Octet} (h : octets.head? ≠ some kindCommand) :
    PortOnly p s (s.endOctets p octets) := by
  unfold State.endOctets
  rw [if_neg h]
  split
  · exact wholeFetch_portOnly ..
  · unfold State.ignore
    split
    · exact .refl p s
    · exact endTransaction_portOnly ..

theorem placeResponse_portOnly (s : State) (p : Port) : PortOnly p s (s.placeResponse p) := by
  unfold State.placeResponse
  split
  · exact modPort_portOnly ..
  all_goals exact .refl p s

theorem takeOffer_portOnly (s : State) (p : Port) (o : Offer) : PortOnly p s (s.takeOffer p o) := by
  unfold State.takeOffer
  refine PortOnly.trans (t := s.dropOffer p o) ⟨rfl, rfl, rfl, rfl, rfl, rfl, rfl, rfl, rfl, fun _ _ => rfl⟩ ?_
  dsimp only
  split
  · exact setPort_portOnly ..
  · exact .refl p _

/-- FETCH, RESPONSE_PLACED, the release of PRSTn, NOTIFICATION_OFFER and ignored transactions reach one port. -/
theorem exec_portOnly {s r : State} {i : Instr} {p : Port} (hi : (∃ f, i = .fetch p f) ∨ i = .responsePlaced p ∨
      i = .portResetRelease p ∨ (∃ n, i = .notificationOffer p n) ∨
      (∃ os, i = .ignoredTransaction p os ∧ os.head? ≠ some 0xA5)) (h : exec i s = .next r) : PortOnly p s r := by
  rcases hi with ⟨f, rfl⟩ | rfl | rfl | ⟨n, rfl⟩ | ⟨os, rfl, hos⟩
  · cases f with
    | whole n =>
      cases h
      exact wholeFetch_portOnly ..
    | start =>
      cases h
      exact startTransaction_portOnly ..
    | clock n => exact exec_next_unless (.refl p) (clockOctets_portOnly p true n s) h
    | pass n => exact exec_next_unless (.refl p) (clockOctets_portOnly p false n s) h
    | stop => exact exec_next_unless (.refl p) (stopFetch_portOnly s p) h
  · exact exec_next_unless (.refl p) (placeResponse_portOnly s p) h
  · cases h
    exact modPort_portOnly ..
  · refine exec_next_unless (.refl p) ?_ h
    split
    · exact .refl p s
    · exact takeOffer_portOnly ..
  · cases h
    exact endOctets_portOnly s p hos

end Sys2Proof.Machine
end

