-- ==== Sys2Proof/Proofs/CommandReach.lean ====
section
/-! PROOF. What every command and event can reach (O54): the work of each unit, said once, and the rows' work beside it. -/

namespace Sys2Proof.Machine

variable {p : Port}

/-! ## The claim registry -/

theorem ClaimsOnly.trans {s t u : State} (h : ClaimsOnly p s t) (h' : ClaimsOnly p t u) : ClaimsOnly p s u :=
  ⟨fun q hq => (h'.ports q hq).trans (h.ports q hq), h'.monitor.trans h.monitor, h'.blockCounter.trans h.blockCounter,
    h'.haltCount.trans h.haltCount, h'.scano.trans h.scano, h'.proposalCounter.trans h.proposalCounter,
    fun l => (h'.rx l).trans (h.rx l), fun l => (h'.buffer l).trans (h.buffer l), fun l => (h'.status l).trans (h.status l),
    fun k => (h'.charter k).trans (h.charter k), fun k => (h'.proposal k).trans (h.proposal k), fun k => (h'.sel k).trans (h.sel k),
    fun k => (h'.em k).trans (h.em k), fun k => (h'.history k).trans (h.history k)⟩

theorem PortAndSent.claims {s t : State} (h : PortAndSent p s t) : ClaimsOnly p s t :=
  have hlane := lane_of_lanes (s := s) h.lanes
  have htrunk := trunk_of_trunks (s := s) h.trunks
  ⟨h.ports, h.monitor, h.blockCounter, h.haltCount, h.scano, h.proposalCounter, fun l => by rw [hlane], fun l => by rw [hlane],
    fun l => by rw [hlane], fun k => by rw [htrunk], fun k => by rw [htrunk], fun k => by rw [htrunk], fun k => by rw [htrunk],
    fun k => by rw [htrunk]⟩

theorem ClaimsOnly.refl (p : Port) (s : State) : ClaimsOnly p s s := (PortOnly.refl p s).andSent.claims

theorem offer_claimsOnly (s : State) (dest : List Port) (b : Block) (after : List Nat) (e : Event) :
    ClaimsOnly p s (s.offer dest b after e) := (offer_portOnly ..).andSent.claims

theorem send_claimsOnly (s : State) (t : Trunk) (k : TriggerKind) (b : Block) (after : List Nat) :
    ClaimsOnly p s (s.send t k b after) := (send_andSent ..).claims

theorem sendForLane_claimsOnly (s : State) (l : Lane) (k : TriggerKind) (b : Block) (after : List Nat) :
    ClaimsOnly p s (s.sendForLane l k b after) := (sendForLane_andSent ..).claims

/-- Ballots, hold and favoured lane are replaced. -/
theorem modTrunk_claimsOnly (s : State) (t : Trunk) (f : TrunkState → TrunkState) (hc : ∀ x, (f x).charter = x.charter := by intro; rfl)
    (hp : ∀ x, (f x).proposal = x.proposal := by intro; rfl) (hs : ∀ x, (f x).sel = x.sel := by intro; rfl)
    (he : ∀ x, (f x).em = x.em := by intro; rfl) (hh : ∀ x, (f x).history = x.history := by intro; rfl) :
    ClaimsOnly p s (s.modTrunk t f) := by
  refine ⟨fun _ _ => rfl, rfl, rfl, rfl, rfl, rfl, fun _ => rfl, fun _ => rfl, fun _ => rfl, fun k => ?_, fun k => ?_, fun k => ?_,
    fun k => ?_, fun k => ?_⟩ <;> rw [modTrunk_eq, trunk_setTrunk] <;> split
  all_goals first | rfl | (next h => subst h; simp only [hc, hp, hs, he, hh])

/-- A lane's bars are replaced. -/
theorem modLane_claimsOnly (s : State) (l : Lane) (f : LaneState → LaneState) (hr : ∀ x, (f x).rx = x.rx := by intro; rfl)
    (hb : ∀ x, (f x).buffer = x.buffer := by intro; rfl) (hs : ∀ x, (f x).status = x.status := by intro; rfl) :
    ClaimsOnly p s (s.modLane l f) := by
  refine ⟨fun _ _ => rfl, rfl, rfl, rfl, rfl, rfl, fun m => ?_, fun m => ?_, fun m => ?_, fun _ => rfl, fun _ => rfl, fun _ => rfl,
    fun _ => rfl, fun _ => rfl⟩ <;> rw [modLane_eq, lane_setLane] <;> split
  all_goals first | rfl | (next h => subst h; simp only [hr, hb, hs])

theorem refavour_claimsOnly (s : State) (t : Trunk) (after : List Nat) : ClaimsOnly p s (s.refavour t after) := by
  unfold State.refavour State.refavourHere
  dsimp only
  split
  · exact PortAndSent.claims (s := s) (t := s.tick) ⟨rfl, rfl, rfl, rfl, rfl, rfl, rfl, rfl, rfl, fun _ _ => rfl⟩
  · exact (modTrunk_claimsOnly s t fun x => { x with favoured := s.favouredNow t }).trans (offer_claimsOnly ..)

theorem ballot_claimsOnly (s : State) (after : List Nat) (trunk lane : Octet) : ClaimsOnly p s (s.ballot p after trunk lane).1 := by
  unfold State.ballot
  refine ifAttached_keeps (.refl p) ?_
  split
  · exact .refl p s
  · exact .refl p s
  · split
    · split
      · exact .refl p s
      · exact ((modTrunk_claimsOnly ..).trans (send_claimsOnly ..)).trans (refavour_claimsOnly ..)
    · exact .refl p s

theorem placeHold_claimsOnly (s : State) (after : List Nat) (trunk lane : Octet) :
    ClaimsOnly p s (s.placeHold p after trunk lane).1 := by
  unfold State.placeHold
  refine ifAttached_keeps (.refl p) ?_
  repeat' split
  all_goals first
    | with_reducible exact .refl p s
    | exact (modTrunk_claimsOnly ..).trans (send_claimsOnly ..)

theorem releaseHold_claimsOnly (s : State) (after : List Nat) (trunk : Octet) : ClaimsOnly p s (s.releaseHold p after trunk).1 := by
  unfold State.releaseHold
  refine ifAttached_keeps (.refl p) ?_
  repeat' split
  all_goals first
    | with_reducible exact .refl p s
    | exact (modTrunk_claimsOnly ..).trans (send_claimsOnly ..)

theorem placeBar_claimsOnly (s : State) (after : List Nat) (lane : Octet) : ClaimsOnly p s (s.placeBar p after lane).1 := by
  unfold State.placeBar
  refine ifAttached_keeps (.refl p) ?_
  split
  · exact .refl p s
  · split
    · exact .refl p s
    · exact ((modLane_claimsOnly ..).trans (sendForLane_claimsOnly ..)).trans (offer_claimsOnly ..)

theorem removeBar_claimsOnly (s : State) (issuer j : Port) (after : List Nat) (l : Lane) :
    ClaimsOnly p s (s.removeBar issuer j after l) := by
  unfold State.removeBar
  exact ((modLane_claimsOnly ..).trans (sendForLane_claimsOnly ..)).trans (offer_claimsOnly ..)

theorem liftBar_claimsOnly (s : State) (after : List Nat) (lane : Octet) : ClaimsOnly p s (s.liftBar p after lane).1 := by
  unfold State.liftBar
  refine ifAttached_keeps (.refl p) ?_
  split
  · exact .refl p s
  · split
    · exact removeBar_claimsOnly ..
    · exact .refl p s

theorem liftStaleBar_claimsOnly (s : State) (after : List Nat) (lane port : Octet) :
    ClaimsOnly p s (s.liftStaleBar p after lane port).1 := by
  unfold State.liftStaleBar
  refine ifAttached_keeps (.refl p) ?_
  split
  · exact .refl p s
  · exact .refl p s
  · split
    · exact .refl p s
    · split
      · exact removeBar_claimsOnly ..
      · exact .refl p s

/-- The claim commands reach claims and the issuing port (R57 to R67). -/
theorem exec_claimsOnly {s r : State} {tag : Octet} {part : Part} {c : Command}
    (hc : (∃ t l, c = .ballot t l ∨ c = .hold t l) ∨ (∃ o, c = .release o ∨ c = .bar o ∨ c = .lift o) ∨ ∃ l j, c = .liftStale l j)
    (h : exec (c.row p tag part) s = .next r) : ClaimsOnly p s r := by
  refine exec_keeps (fun _ _ _ => .trans) (fun _ _ => PortAndSent.claims) (fun s after => ?_) h
  rcases hc with ⟨t, l, rfl | rfl⟩ | ⟨o, rfl | rfl | rfl⟩ | ⟨l, j, rfl⟩
  · exact ballot_claimsOnly ..
  · exact placeHold_claimsOnly ..
  · exact releaseHold_claimsOnly ..
  · exact placeBar_claimsOnly ..
  · exact liftBar_claimsOnly ..
  · exact liftStaleBar_claimsOnly ..

/-! ## The concurrence unit -/

theorem ChartersOnly.trans {s t u : State} (h : ChartersOnly p s t) (h' : ChartersOnly p t u) : ChartersOnly p s u :=
  ⟨fun q hq => (h'.ports q hq).trans (h.ports q hq), h'.monitor.trans h.monitor, h'.blockCounter.trans h.blockCounter,
    h'.haltCount.trans h.haltCount, h'.scano.trans h.scano, fun l => (h'.rx l).trans (h.rx l), fun l => (h'.bars l).trans (h.bars l),
    fun k => (h'.sel k).trans (h.sel k), fun k => (h'.em k).trans (h.em k), fun k => (h'.history k).trans (h.history k)⟩

theorem PortAndSent.charters {s t : State} (h : PortAndSent p s t) : ChartersOnly p s t :=
  have hlane := lane_of_lanes (s := s) h.lanes
  have htrunk := trunk_of_trunks (s := s) h.trunks
  ⟨h.ports, h.monitor, h.blockCounter, h.haltCount, h.scano, fun l => by rw [hlane], fun l => by rw [hlane],
    fun k => by rw [htrunk], fun k => by rw [htrunk], fun k => by rw [htrunk]⟩

theorem Bookkeeping.charters {after : List Nat} {s t : State} (h : Bookkeeping after s t) : ChartersOnly p s t :=
  ⟨fun q _ => port_of_ports h.ports q, h.monitor, h.blockCounter, h.haltCount, h.scano, h.rx, h.bars, h.sel, h.em, h.history⟩

theorem ChartersOnly.refl (p : Port) (s : State) : ChartersOnly p s s := (Bookkeeping.refl [] s).charters

theorem setTrunk_charters (s : State) (t : Trunk) (o : Option Proposal) :
    ChartersOnly p s (s.setTrunk t { s.trunk t with proposal := o }) := by
  refine Bookkeeping.charters (after := []) (setTrunk_books [] s t _ ?_ ?_ ?_ ?_) <;> rfl

theorem install_charters (s : State) (t : Trunk) (terms : CharterTerms) (n : Pair) (after : List Nat) :
    ChartersOnly p s (s.install t terms n p after) := (install_spec ..).books.charters

theorem close_charters (s : State) (t : Trunk) (outcome : Closing) (port : Option Port) (reason : Reason) (after : List Nat) :
    ChartersOnly p s (s.close t outcome port reason after) := by
  unfold State.close State.closeHere
  split
  · exact (tick_books [] s).charters
  · exact (setTrunk_charters s t none).trans ((offerHere_books ..).trans (tick_books ..)).charters

theorem openProposal_charters (s : State) (after : List Nat) (t : Trunk) (terms : CharterTerms) :
    ChartersOnly p s (s.openProposal p after t terms).1 := by
  unfold State.openProposal
  dsimp only
  refine ChartersOnly.trans (t := { s with proposalCounter := nextNumber s.proposalCounter })
    ⟨fun _ _ => rfl, rfl, rfl, rfl, rfl, fun _ => rfl, fun _ => rfl, fun _ => rfl, fun _ => rfl, fun _ => rfl⟩ ?_
  exact (setTrunk_charters ..).trans (offer_portOnly ..).andSent.charters

theorem propose_charters (s : State) (after : List Nat) (trunk : Octet) (charter : Option CharterTerms) :
    ChartersOnly p s (s.propose p after trunk charter).1 := by
  unfold State.propose State.installAtOnce
  refine ifAttached_keeps (.refl p) ?_
  repeat' split
  all_goals first
    | with_reducible exact .refl p s
    | with_reducible exact openProposal_charters ..
    | exact install_charters ..

theorem concur_charters (s : State) (after : List Nat) (trunk : Octet) (n : Pair) :
    ChartersOnly p s (s.concur p after trunk n).1 := by
  unfold State.concur
  refine ifAttached_keeps (.refl p) ?_
  split
  · exact .refl p s
  · split
    · exact .refl p s
    · split
      · exact .refl p s
      · split
        · exact install_charters ..
        · exact setTrunk_charters ..

theorem dissent_charters (s : State) (after : List Nat) (trunk : Octet) (n : Pair) :
    ChartersOnly p s (s.dissent p after trunk n).1 := by
  unfold State.dissent
  refine ifAttached_keeps (.refl p) ?_
  repeat' split
  all_goals first
    | with_reducible exact .refl p s
    | exact close_charters ..

theorem withdrawProposal_charters (s : State) (after : List Nat) (trunk : Octet) (n : Pair) :
    ChartersOnly p s (s.withdrawProposal p after trunk n).1 := by
  unfold State.withdrawProposal
  refine ifAttached_keeps (.refl p) ?_
  repeat' split
  all_goals first
    | with_reducible exact .refl p s
    | exact close_charters ..

/-- The concurrence commands reach charters, proposals, claims, flushed buffers and the issuing port (R113 to R121). -/
theorem exec_chartersOnly {s r : State} {tag : Octet} {part : Part} {c : Command}
    (hc : (∃ t n m1 m2 m3 m4 v m h w, c = .propose t n m1 m2 m3 m4 v m h w) ∨
      ∃ t n, c = .concur t n ∨ c = .dissent t n ∨ c = .withdraw t n)
    (h : exec (c.row p tag part) s = .next r) : ChartersOnly p s r := by
  refine exec_keeps (fun _ _ _ => .trans) (fun _ _ => PortAndSent.charters) (fun s after => ?_) h
  rcases hc with ⟨t, n, m1, m2, m3, m4, v, m, ho, w, rfl⟩ | ⟨t, n, rfl | rfl | rfl⟩
  · exact propose_charters ..
  · exact concur_charters ..
  · exact dissent_charters ..
  · exact withdrawProposal_charters ..

/-! ## The receivers -/

theorem ReceiverOnly.trans {s t u : State} (h : ReceiverOnly p s t) (h' : ReceiverOnly p t u) : ReceiverOnly p s u :=
  ⟨fun q hq => (h'.ports q hq).trans (h.ports q hq), h'.monitor.trans h.monitor, h'.blockCounter.trans h.blockCounter,
    h'.haltCount.trans h.haltCount, h'.scano.trans h.scano, h'.proposalCounter.trans h.proposalCounter, h'.trunks.trans h.trunks,
    fun l => (h'.buffer l).trans (h.buffer l), fun l => (h'.status l).trans (h.status l), fun l => (h'.bars l).trans (h.bars l)⟩

theorem PortAndSent.receivers {s t : State} (h : PortAndSent p s t) : ReceiverOnly p s t :=
  have hlane := lane_of_lanes (s := s) h.lanes
  ⟨h.ports, h.monitor, h.blockCounter, h.haltCount, h.scano, h.proposalCounter, h.trunks, fun l => by rw [hlane],
    fun l => by rw [hlane], fun l => by rw [hlane]⟩

theorem ReceiverOnly.refl (p : Port) (s : State) : ReceiverOnly p s s := (PortOnly.refl p s).andSent.receivers

/-- A lane's receiver record is replaced. -/
theorem setRx_receivers (s : State) (l : Lane) (x : Receiver) : ReceiverOnly p s (s.setLane l { s.lane l with rx := x }) := by
  refine ⟨fun _ _ => rfl, rfl, rfl, rfl, rfl, rfl, rfl, fun m => ?_, fun m => ?_, fun m => ?_⟩ <;> rw [lane_setLane] <;> split
  all_goals first | rfl | (next h => subst h; rfl)

theorem regrade_receivers (s : State) (l : Lane) (after : List Nat) : ReceiverOnly p s (s.regrade l after) := by
  by_cases h : (s.lane l).rx.derived = (s.lane l).rx.grade
  · rw [regrade_same h]
    exact .refl p s
  · rw [regrade_change h]
    exact ((setRx_receivers s l _).trans (sendForLane_andSent ..).receivers).trans (offer_portOnly ..).andSent.receivers

theorem takeStep_receivers (s : State) (l : Lane) (d : LaneStep) : ReceiverOnly p s (s.takeStep l d) := by
  by_cases hd : d ∈ (s.lane l).rx.due
  · rw [takeStep_due hd]
    dsimp only
    split
    · exact (setRx_receivers s l _).trans (regrade_receivers ..)
    · exact setRx_receivers s l _
  · rw [takeStep_not_due hd]
    exact .refl p s

theorem settleLane_receivers (s : State) (l : Lane) : ReceiverOnly p s (s.settleLane l) :=
  ((takeStep_receivers s l _).trans (takeStep_receivers _ l _)).trans (takeStep_receivers _ l _)

/-- Only receivers and what is sent and offered, and no lane but the operand's, and only when its owner is port p. -/
def OwnReceiver (p : Port) (o : Octet) (s t : State) : Prop :=
  ReceiverOnly p s t ∧ ∀ l : Lane, o.toNat ≠ l.val ∨ l.val / 4 ≠ p.val → t.lane l = s.lane l

theorem OwnReceiver.trans {o : Octet} {s t u : State} (h : OwnReceiver p o s t) (h' : OwnReceiver p o t u) : OwnReceiver p o s u :=
  ⟨h.1.trans h'.1, fun l hl => (h'.2 l hl).trans (h.2 l hl)⟩

theorem PortAndSent.ownReceiver {o : Octet} {s t : State} (h : PortAndSent p s t) : OwnReceiver p o s t :=
  ⟨h.receivers, fun l _ => lane_of_lanes (s := s) h.lanes l⟩

theorem OwnReceiver.refl (p : Port) (o : Octet) (s : State) : OwnReceiver p o s s := (PortOnly.refl p s).andSent.ownReceiver

/-- What is done to the lane of the operand alone, when its owner is port p. -/
theorem OwnReceiver.of_owned {o : Octet} {l : Lane} (hl : laneOperand o = some l) (hown : owner l = p) {s t : State}
    (h : ReceiverOnly p s t) (hlanes : ∀ m : Lane, m ≠ l → t.lane m = s.lane m) : OwnReceiver p o s t := by
  refine ⟨h, fun m hm => hlanes m ?_⟩
  rintro rfl
  rcases hm with hm | hm
  · unfold laneOperand at hl
    split at hl
    · cases hl
      exact hm rfl
    · cases hl
  · exact hm ((owner_eq_iff m p).mp hown)

theorem setDegrade_own (s : State) (o : Octet) (set clear : Pair) : OwnReceiver p o s (s.setDegrade p o set clear).1 := by
  unfold State.setDegrade
  split
  · exact .refl p o s
  · next l hl =>
    split
    · exact .refl p o s
    · next hown =>
      split
      · refine .of_owned hl (by simpa using hown) ((settleLane_receivers s l).trans (setRx_receivers ..)) fun m hm => ?_
        exact (lane_setLane_ne _ _ hm).trans ((settleLane_laneOnly s l).lanes m hm)
      · exact .refl p o s

theorem clearLaneCounters_own (s : State) (o : Octet) : OwnReceiver p o s (s.clearLaneCounters p o).1 := by
  unfold State.clearLaneCounters
  split
  · exact .refl p o s
  · next l hl =>
    split
    · exact .refl p o s
    · next hown => exact .of_owned hl (by simpa using hown) (setRx_receivers ..) fun m hm => lane_setLane_ne _ _ hm

/-- The commands of the receivers reach the receiver of the operand's lane when the issuing port owns it, and that port (R20, R21). -/
theorem exec_ownReceiver {s r : State} {tag : Octet} {part : Part} {c : Command} {o : Octet}
    (hc : (∃ a b, c = .setDegrade o a b) ∨ c = .clearLaneCounters o) (h : exec (c.row p tag part) s = .next r) :
    OwnReceiver p o s r := by
  refine exec_keeps (fun _ _ _ => .trans) (fun _ _ => PortAndSent.ownReceiver) (fun s after => ?_) h
  rcases hc with ⟨a, b, rfl⟩ | rfl
  · exact setDegrade_own ..
  · exact clearLaneCounters_own ..

/-! ## Departures -/

theorem DepartureOnly.trans {s t u : State} (h : DepartureOnly p s t) (h' : DepartureOnly p t u) : DepartureOnly p s u :=
  ⟨fun q hq => (h'.ports q hq).trans (h.ports q hq), h'.monitor.trans h.monitor, h'.blockCounter.trans h.blockCounter,
    h'.haltCount.trans h.haltCount, h'.scano.trans h.scano, h'.proposalCounter.trans h.proposalCounter, h'.lanes.trans h.lanes,
    fun k => (h'.charter k).trans (h.charter k), fun k => (h'.sel k).trans (h.sel k), fun k => (h'.em k).trans (h.em k),
    fun k => (h'.history k).trans (h.history k)⟩

theorem PortAndSent.departure {s t : State} (h : PortAndSent p s t) : DepartureOnly p s t :=
  have htrunk := trunk_of_trunks (s := s) h.trunks
  ⟨h.ports, h.monitor, h.blockCounter, h.haltCount, h.scano, h.proposalCounter, h.lanes, fun k => by rw [htrunk],
    fun k => by rw [htrunk], fun k => by rw [htrunk], fun k => by rw [htrunk]⟩

theorem DepartureOnly.refl (p : Port) (s : State) : DepartureOnly p s s := (PortOnly.refl p s).andSent.departure

theorem depart_departure (s : State) (cause : Reason) (after : List Nat) : DepartureOnly p s (s.depart p cause after) := by
  have h := depart_books s p cause after
  refine ⟨fun q _ => port_of_ports h.ports q, h.monitor, h.blockCounter, h.haltCount, h.scano, depart_proposalCounter .., depart_lanes ..,
    fun k => ?_, h.sel, h.em, h.history⟩
  obtain ⟨f, hf⟩ := depart_trunk s p cause after k
  rw [hf]

theorem modPort_departure (s : State) (f : PortState → PortState) : DepartureOnly p s (s.modPort p f) :=
  (modPort_portOnly ..).andSent.departure

theorem offer_departure (s : State) (dest : List Port) (b : Block) (after : List Nat) (e : Event) :
    DepartureOnly p s (s.offer dest b after e) := (offer_portOnly ..).andSent.departure

theorem detach_departure (s : State) : DepartureOnly p s (s.detach p).1 := by
  unfold State.detach
  split
  · exact .refl p s
  · exact ((modPort_departure ..).trans (offer_departure ..)).trans (depart_departure ..)

theorem expireLease_departure (s : State) : DepartureOnly p s (s.expireLease p) := by
  unfold State.expireLease
  dsimp only
  split
  · exact (((modPort_departure ..).trans (offer_departure ..)).trans (offer_departure ..)).trans (depart_departure ..)
  · exact .refl p s

theorem resetPort_departure (s : State) : DepartureOnly p s (s.resetPort p) := by
  have h : DepartureOnly p s (s.resetting p) :=
    (DepartureOnly.trans (t := { s with orphans := s.orphans ++ orphansAfter p (s.port p).slot }) (orphans_andSent ..).departure
      (setPort_portOnly ..).andSent.departure).trans (offer_departure ..)
  rw [resetPort_eq]
  split
  · exact h.trans (depart_departure ..)
  · exact h

/-- LEASE_EXPIRY and PORT_RESET reach one port, claims and proposals (R138, R141). -/
theorem exec_departureOnly {s r : State} {i : Instr} (hi : i = .leaseExpiry p ∨ i = .portReset p) (h : exec i s = .next r) :
    DepartureOnly p s r := by
  rcases hi with rfl | rfl
  · exact exec_next_if (.refl p) (expireLease_departure s) h
  · cases h
    split
    · exact .refl p s
    · split
      · exact modPort_departure ..
      · exact resetPort_departure s

/-- DEADLINE_EXPIRY closes the proposal of one trunk and does nothing else (R122). -/
theorem exec_deadlineExpiry_reach {s r : State} {t : Trunk} (h : exec (.deadlineExpiry t) s = .next r) :
    r = { s with trunks := r.trunks, offers := r.offers, stamp := r.stamp } ∧
      (∀ k ≠ t, r.trunk k = s.trunk k) ∧ r.trunk t = { s.trunk t with proposal := (r.trunk t).proposal } := by
  refine exec_next_if (R := fun s r => r = { s with trunks := r.trunks, offers := r.offers, stamp := r.stamp } ∧
    (∀ k ≠ t, r.trunk k = s.trunk k) ∧ r.trunk t = { s.trunk t with proposal := (r.trunk t).proposal })
    (fun _ => ⟨rfl, fun _ _ => rfl, rfl⟩) ?_ h
  unfold State.expireProposal
  split
  · exact ⟨rfl, fun _ _ => rfl, rfl⟩
  · next q hq =>
    split
    · have hclosed : s.close t .expired none .deadline [] = (s.setTrunk t { s.trunk t with proposal := none }).offer allPorts
          .concurrence [] (.closed t q.number .expired none .deadline q.concurred) := by
        simp only [State.close, State.closeHere, hq, modTrunk_eq, State.offer]
      rw [hclosed]
      refine ⟨rfl, fun k hk => trunk_setTrunk_ne s _ hk, ?_⟩
      have htrunk := trunk_setTrunk_self s t { s.trunk t with proposal := none }
      exact htrunk.trans (by rw [show ∀ e, ((s.setTrunk t { s.trunk t with proposal := none }).offer allPorts .concurrence [] e).trunk t
        = _ from fun _ => htrunk])
    · exact ⟨rfl, fun _ _ => rfl, rfl⟩

/-- Settles O54: each clause is the reach of one kind of row. -/
theorem commandsReachOnlyTheirRecords : Obligations.CommandsReachOnlyTheirRecords := by
  intro s r i h
  refine ⟨fun l hi => exec_laneOnly hi h, fun t hi => exec_trunkOnly hi h, fun p tag part c hrow => ?_,
    fun p hi => exec_portOnly hi h, fun p hi => exec_departureOnly hi h, fun t hi => ?_⟩
  · subst hrow
    refine ⟨fun hc => exec_claimsOnly hc h, fun hc => exec_chartersOnly hc h, fun o hc => exec_ownReceiver hc h,
      fun hc => exec_sessionCommand hc h, fun hc => ?_, fun hc => ?_⟩
    · refine exec_query_reach ?_ h
      rcases hc with rfl | rfl | ⟨o, rfl | rfl | rfl⟩ <;> rfl
    · subst hc
      exact exec_keeps (fun _ _ _ => .trans) (fun _ _ => PortAndSent.departure) (fun s _ => detach_departure s) h
  · subst hi
    exact exec_deadlineExpiry_reach h

end Sys2Proof.Machine
end

