-- ==== Sys2Proof/Proofs/Restart.lean ====
section
/-! SUPPORT. What a resume does to the selectors and the receivers, stage by stage: records, triggers and offers (R91, R107, R170,
R171). -/

namespace Sys2Proof.Machine

/-! ## Offers made to all four ports -/

/-- Offers are appended: those of the events given, to all four ports, after the stamps given. -/
def Announces (after : List Nat) (events : List Event) (s t : State) : Prop :=
  ∃ more, t.offers = s.offers ++ more ∧ more.map Offer.event = events ∧
    ∀ o ∈ more, o.dest = allPorts ∧ o.time = s.blockCounter ∧ after ⊆ o.after

theorem Announces.nil {after : List Nat} {s t : State} (h : t.offers = s.offers) : Announces after [] s t :=
  ⟨[], by simp [h], rfl, by simp⟩

theorem Announces.trans {after : List Nat} {es es' : List Event} {s t u : State} (h : Announces after es s t)
    (h' : Announces after es' t u) (hb : t.blockCounter = s.blockCounter) : Announces after (es ++ es') s u := by
  obtain ⟨m, hm, hm1, hm2⟩ := h
  obtain ⟨n, hn, hn1, hn2⟩ := h'
  refine ⟨m ++ n, by rw [hn, hm, List.append_assoc], by rw [List.map_append, hm1, hn1], fun o ho => ?_⟩
  rcases List.mem_append.mp ho with ho | ho
  · exact hm2 o ho
  · rw [← hb]
    exact hn2 o ho

theorem Announces.offer {after after' : List Nat} (h : after ⊆ after') (s : State) (b : Block) (e : Event) :
    Announces after [e] s (s.offer allPorts b after' e) :=
  ⟨[_], rfl, rfl, by simpa [State.offer] using h⟩

/-! ## One trunk -/

/-- The RESUME record (R107). -/
def TrunkState.resumeRecord (x : TrunkState) (now : Count) : HistoryRecord :=
  { time := now, cause := .resume, src := x.sel.fromLane, dst := none, kind := .nil, version := x.charter.version }

/-- A trunk's record after its resume: the RESUME record in the history, then the values of the table; a DISABLED trunk's is kept. -/
def TrunkState.restarted (x : TrunkState) (now : Count) : TrunkState :=
  if x.sel.mode = .disabled then x
  else { x.resumed with history := pushRecord x.history (x.resumeRecord now) }

/-- What a trunk's resume offers. -/
def TrunkState.resumeEvents (x : TrunkState) (t : Trunk) : List Event :=
  if x.sel.mode = .disabled then []
  else .switched t .resume x.sel.fromLane none .nil x.charter.version ::
    if x.sel.mode = .starved then [] else [.starved t .resume x.sel.fromLane]

/-- The RESUME record moves no switch counter (R41). -/
theorem count_resumeRecord (x : TrunkState) (c : TrunkCounters) (now : Count) : c.count (x.resumeRecord now) = c := rfl

theorem subset_pendingStamps (x : Selection) (after : List Nat) : after ⊆ x.pendingStamps after := by
  unfold Selection.pendingStamps
  split
  · exact List.subset_append_right _ _
  · exact fun _ h => h

theorem resumeTrunk_disabled {s : State} {t : Trunk} (after : List Nat) (h : (s.trunk t).sel.mode = .disabled) :
    s.resumeTrunk after t = s := by simp [State.resumeTrunk, h]

/-- The record and SWITCHED, then STARVED unless the trunk was STARVED. -/
theorem resumeTrunk_enabled {s : State} {t : Trunk} (after : List Nat) (h : (s.trunk t).sel.mode ≠ .disabled) :
    s.resumeTrunk after t =
      let v := (s.offer allPorts (.selector t) ((s.trunk t).sel.pendingStamps after)
        (.switched t .resume (s.trunk t).sel.fromLane none .nil (s.trunk t).charter.version)).setTrunk t
          ((s.trunk t).restarted s.blockCounter)
      if (s.trunk t).sel.mode = .starved then v
      else v.offer allPorts (.selector t) after (.starved t .resume (s.trunk t).sel.fromLane) := by
  have hrecord : (s.writeRecord t .resume (s.trunk t).sel.fromLane none .nil ((s.trunk t).sel.pendingStamps after)).modTrunk t
      TrunkState.resumed = (s.offer allPorts (.selector t) ((s.trunk t).sel.pendingStamps after)
        (.switched t .resume (s.trunk t).sel.fromLane none .nil (s.trunk t).charter.version)).setTrunk t
          ((s.trunk t).restarted s.blockCounter) := by
    have hcount := count_resumeRecord (s.trunk t) (s.trunk t).em.counters s.blockCounter
    unfold TrunkState.resumeRecord at hcount
    rw [TrunkState.restarted, if_neg h]
    simp [State.writeRecord, hcount, TrunkState.resumed, TrunkState.resumeRecord]
  unfold State.resumeTrunk
  rw [if_neg h]
  simp only [hrecord]

theorem resumeTrunk_trunk (s : State) (after : List Nat) (t k : Trunk) :
    (s.resumeTrunk after t).trunk k = if k = t then (s.trunk t).restarted s.blockCounter else s.trunk k := by
  by_cases h : (s.trunk t).sel.mode = .disabled
  · rw [resumeTrunk_disabled after h, TrunkState.restarted, if_pos h]
    split
    · next hk => rw [hk]
    · rfl
  · rw [resumeTrunk_enabled after h]
    dsimp only
    split <;> simp [trunk_setTrunk]

theorem resumeTrunk_announces (s : State) (after : List Nat) (t : Trunk) :
    Announces after ((s.trunk t).resumeEvents t) s (s.resumeTrunk after t) := by
  by_cases h : (s.trunk t).sel.mode = .disabled
  · rw [resumeTrunk_disabled after h, TrunkState.resumeEvents, if_pos h]
    exact .nil rfl
  · rw [resumeTrunk_enabled after h, TrunkState.resumeEvents, if_neg h]
    have hswitched := Announces.offer (subset_pendingStamps (s.trunk t).sel after) s (.selector t)
      (.switched t .resume (s.trunk t).sel.fromLane none .nil (s.trunk t).charter.version)
    dsimp only
    split
    · exact hswitched
    · exact Announces.trans (t := (s.offer allPorts _ _ _).setTrunk t _) hswitched (.offer (fun _ h => h) _ _ _) rfl

/-! ## Every trunk -/

/-- The selectors and emitters of the trunks given take the resume. -/
structure TrunksResume (after : List Nat) (ts : List Trunk) (s r : State) : Prop where
  device : SameDevice s r
  ports : r.ports = s.ports
  lanes : r.lanes = s.lanes
  triggers : r.triggers = s.triggers
  trunk : ∀ k : Trunk, r.trunk k = if k ∈ ts then (s.trunk k).restarted s.blockCounter else s.trunk k
  announces : Announces after (ts.flatMap fun t => (s.trunk t).resumeEvents t) s r

theorem resumeTrunks_spec (after : List Nat) : ∀ (ts : List Trunk) (s : State), ts.Nodup →
    TrunksResume after ts s (ts.foldl (fun s t => s.resumeTrunk after t) s)
  | [], s, _ => ⟨.refl s, rfl, rfl, rfl, fun _ => rfl, .nil rfl⟩
  | t :: ts, s, hn => by
    obtain ⟨hnew, hrest⟩ := List.nodup_cons.mp hn
    have hframe := resumeTrunk_frame s t after
    have hother : ∀ k ∈ ts, (s.resumeTrunk after t).trunk k = s.trunk k := fun k hk => by
      rw [resumeTrunk_trunk, if_neg (by rintro rfl; exact hnew hk)]
    obtain ⟨hdevice, hports, hlanes, htriggers, htrunk, hsays⟩ := resumeTrunks_spec after ts (s.resumeTrunk after t) hrest
    refine ⟨hframe.device.trans hdevice, hports.trans hframe.ports, hlanes.trans hframe.lanes, htriggers.trans hframe.triggers,
      fun k => (htrunk k).trans ?_, ?_⟩
    · rw [hframe.device.blockCounter]
      by_cases hk : k ∈ ts
      · rw [if_pos hk, if_pos (List.mem_cons_of_mem _ hk), hother k hk]
      · rw [if_neg hk, resumeTrunk_trunk]
        by_cases ht : k = t
        · subst ht
          rw [if_pos rfl, if_pos (List.mem_cons_self ..)]
        · rw [if_neg ht, if_neg (by simp [ht, hk])]
    · rw [List.flatMap_cons]
      refine (resumeTrunk_announces s after t).trans ?_ hframe.device.blockCounter
      rw [List.flatMap_congr fun k hk => by rw [← hother k hk]]
      exact hsays

/-! ## One lane -/

/-- A lane as a resume leaves it: the buffer flushed, the receiver in HUNT with the loss-of-lock values and FAILED. -/
def LaneState.restarted (x : LaneState) : LaneState :=
  { x with buffer := [], status := .empty, rx := { x.rx.loseLock .hunt with grade := .failed } }

/-- What the resume offers for a lane that was not FAILED (R18). -/
def LaneState.resumeEvents (x : LaneState) (l : Lane) : List Event :=
  if x.rx.grade = .failed then [] else [.gradeWorse l x.rx.grade .failed .hunt false false]

/-- The trigger sent with it: to the trunk whose charter contains the lane. -/
def State.resumeTriggers (s : State) (l : Lane) : List (Trunk × TriggerKind × Block) :=
  if (s.lane l).rx.grade = .failed then [] else (s.trunkOf l).toList.map fun t => (t, TriggerKind.grade l, Block.receiver l)

/-- The receiver of a lane takes the resume. -/
structure LaneResumes (after : List Nat) (l : Lane) (s r : State) : Prop where
  only : LaneOnly l s r
  lane : r.lane l = (s.lane l).restarted
  triggers : ∃ more, r.triggers = s.triggers ++ more ∧ more.map (fun g => (g.trunk, g.kind, g.sender)) = s.resumeTriggers l
  announces : Announces after ((s.lane l).resumeEvents l) s r

theorem sendForLane_sends (s : State) (l : Lane) (k : TriggerKind) (b : Block) (after : List Nat) :
    ∃ more, (s.sendForLane l k b after).triggers = s.triggers ++ more ∧
      more.map (fun g => (g.trunk, g.kind, g.sender)) = (s.trunkOf l).toList.map fun t => (t, k, b) := by
  unfold State.sendForLane
  cases s.trunkOf l with
  | none => exact ⟨[], by simp, rfl⟩
  | some t => exact ⟨[_], rfl, rfl⟩

theorem gradeEvent_failed {g : Grade} (h : g ≠ .failed) (l : Lane) (x : Receiver) :
    gradeEvent l g .failed x = .gradeWorse l g .failed x.lock x.fillAlarm x.degrade := by
  cases g <;> first | rfl | exact absurd rfl h

theorem loseLock_resumes (s : State) (l : Lane) (after : List Nat) : LaneResumes after l s (s.loseLock l .hunt after) := by
  have honly := loseLock_laneOnly s l .hunt after
  by_cases hg : (s.lane l).rx.grade = .failed
  · have hsame : s.loseLock l .hunt after = s.setLane l (s.lane l).restarted := by
      rw [loseLock_eq, regrade_same (by rw [lane_setLane_self]; exact hg.symm), LaneState.restarted]
      exact congrArg (fun g => s.setLane l { s.lane l with
        buffer := [], status := .empty, rx := { (s.lane l).rx.loseLock .hunt with grade := g } }) hg
    refine ⟨honly, by rw [hsame, lane_setLane_self], ⟨[], by rw [hsame]; simp, ?_⟩, ?_⟩
    · rw [State.resumeTriggers, if_pos hg]
      rfl
    · rw [LaneState.resumeEvents, if_pos hg]
      exact .nil (by rw [hsame]; rfl)
  · have hchange : s.loseLock l .hunt after =
        ((s.setLane l (s.lane l).restarted).sendForLane l (.grade l) (.receiver l)
          (s.handOn (.receiver l) after)).offer allPorts (.receiver l) after
            (.gradeWorse l (s.lane l).rx.grade .failed .hunt false false) := by
      have hne : ((s.setLane l { s.lane l with buffer := [], status := .empty, rx := (s.lane l).rx.loseLock .hunt }).lane l).rx.derived
          ≠ ((s.setLane l { s.lane l with buffer := [], status := .empty, rx := (s.lane l).rx.loseLock .hunt }).lane l).rx.grade := by
        rw [lane_setLane_self]
        exact Ne.symm hg
      rw [loseLock_eq, regrade_change hne, setLane_setLane, lane_setLane_self, setLane_handOn]
      refine congrArg _ ?_
      exact gradeEvent_failed hg l ((s.lane l).rx.loseLock .hunt)
    obtain ⟨more, hmore, hmap⟩ := sendForLane_sends (s.setLane l (s.lane l).restarted) l (.grade l) (.receiver l)
      (s.handOn (.receiver l) after)
    refine ⟨honly, by rw [hchange, offer_eq, tick_lane, offerHere_lane, sendForLane_lane, lane_setLane_self],
      ⟨more, by rw [hchange]; exact hmore, ?_⟩, ?_⟩
    · rw [State.resumeTriggers, if_neg hg]
      exact hmap
    · rw [LaneState.resumeEvents, if_neg hg, hchange]
      refine Announces.trans (t := (s.setLane l (s.lane l).restarted).sendForLane l (.grade l) (.receiver l)
        (s.handOn (.receiver l) after)) (es := []) (.nil ?_) (.offer (fun _ h => h) _ _ _) ?_
      · unfold State.sendForLane
        split <;> rfl
      · exact (sendForLane_laneOnly l _ l _ _ _).device.blockCounter

/-! ## Every lane -/

/-- The receivers of the lanes given take the resume. -/
structure LanesResume (after : List Nat) (ls : List Lane) (s r : State) : Prop where
  device : SameDevice s r
  ports : r.ports = s.ports
  trunks : r.trunks = s.trunks
  lane : ∀ l : Lane, r.lane l = if l ∈ ls then (s.lane l).restarted else s.lane l
  triggers : ∃ more, r.triggers = s.triggers ++ more ∧
    more.map (fun g => (g.trunk, g.kind, g.sender)) = ls.flatMap s.resumeTriggers
  announces : Announces after (ls.flatMap fun l => (s.lane l).resumeEvents l) s r

theorem resumeTriggers_congr {s t : State} {l : Lane} (hl : t.lane l = s.lane l)
    (hc : ∀ u : Trunk, (t.trunk u).charter = (s.trunk u).charter) : t.resumeTriggers l = s.resumeTriggers l := by
  rw [State.resumeTriggers, State.resumeTriggers, hl, trunkOf_congr hc]

theorem resumeLanes_spec (after : List Nat) : ∀ (ls : List Lane) (s : State), ls.Nodup →
    LanesResume after ls s (ls.foldl (fun s l => s.loseLock l .hunt after) s)
  | [], s, _ => ⟨.refl s, rfl, rfl, fun _ => rfl, ⟨[], by simp, rfl⟩, .nil rfl⟩
  | l :: ls, s, hn => by
    obtain ⟨hnew, hrest⟩ := List.nodup_cons.mp hn
    obtain ⟨honly, hlane, ⟨m, hm, hm'⟩, hsays⟩ := loseLock_resumes s l after
    have hother : ∀ k ∈ ls, (s.loseLock l .hunt after).lane k = s.lane k := fun k hk =>
      honly.lanes k (by rintro rfl; exact hnew hk)
    obtain ⟨hdevice, hports, htrunks, hlanes, ⟨n, hk, hk'⟩, hsaysRest⟩ := resumeLanes_spec after ls (s.loseLock l .hunt after) hrest
    refine ⟨honly.device.trans hdevice, hports.trans honly.ports, htrunks.trans honly.trunks, fun k => (hlanes k).trans ?_,
      ⟨m ++ n, ?_, ?_⟩, ?_⟩
    · by_cases hmem : k ∈ ls
      · rw [if_pos hmem, if_pos (List.mem_cons_of_mem _ hmem), hother k hmem]
      · rw [if_neg hmem]
        by_cases he : k = l
        · subst he
          rw [hlane, if_pos (List.mem_cons_self ..)]
        · rw [honly.lanes k he, if_neg (by simp [he, hmem])]
    · rw [List.foldl_cons, hk, hm, List.append_assoc]
    · rw [List.map_append, hm', hk', List.flatMap_cons]
      refine congrArg _ (List.flatMap_congr fun k hmem => ?_)
      exact resumeTriggers_congr (hother k hmem) fun u => by rw [trunk_of_trunks honly.trunks]
    · rw [List.flatMap_cons]
      refine hsays.trans ?_ honly.device.blockCounter
      rw [List.flatMap_congr fun k hmem => by rw [← hother k hmem]]
      exact hsaysRest

end Sys2Proof.Machine
end

