-- ==== Sys2Proof/Proofs/Resume.lean ====
section
/-! PROOF. The resume (O52): the work of the halt that comes before it, and the restart of the part. -/

namespace Sys2Proof.Machine

/-! ## The work of the halt -/

theorem exec_haltResume {s : State} (hr : s.rstnLow = false) (hm : s.monitor.state = .qualifying) :
    exec .haltResume s = .next s.completeHalt.resume := by
  show Host.Outcome.next (if _ then _ else _) = _
  rw [if_neg (by simp [hr, hm])]

/-- What leaves the same work to complete resumes alike. -/
theorem exec_haltResume_congr {s u : State} (hr : s.rstnLow = false) (hm : s.monitor.state = .qualifying)
    (hclock : clockOf u = clockOf s) (h : u.completeHalt = s.completeHalt) : exec .haltResume s = exec .haltResume u := by
  simp only [clockOf, Prod.mk.injEq] at hclock
  obtain ⟨hlow, -, hmonitor, -⟩ := hclock
  rw [exec_haltResume hr hm, exec_haltResume (hlow.trans hr) (by rw [hmonitor, hm]), h]

theorem rstnLow_of_clock {s u : State} (hclock : clockOf u = clockOf s) : u.rstnLow = s.rstnLow := congrArg Prod.fst hclock

/-- A command of a port that was reset is taken by its owner first. -/
theorem resume_after_orphan {s : State} (hr : s.rstnLow = false) (hm : s.monitor.state = .qualifying) {o : Orphan}
    {rest : List Orphan} (ho : s.orphans = o :: rest) (hc : o.command.inParts = true) :
    ∃ u, exec (o.command.row o.port o.tag .atOwner) s = .next u ∧ exec .haltResume s = exec .haltResume u := by
  obtain ⟨hclock, horphans⟩ := takeOrphan_keeps s o
  refine ⟨s.takeOrphan o, ?_, exec_haltResume_congr hr hm hclock ?_⟩
  · have hfind : s.orphan o.port o.tag o.command = some o := by simp [State.orphan, ho]
    rw [exec_row, Command.partOf, hc]
    simp [State.command, hr, State.ownerTakes, hfind]
  · have htaken : (s.takeOrphan o).orphans = rest := by rw [horphans, ho, List.erase_cons_head]
    simp only [State.completeHalt, State.completeCommands, htaken, ho, List.foldl_cons]

/-- The ports whose slots are empty have nothing to complete. -/
theorem complete_skips {p : Port} : ∀ (ps : List Port) (s : State), (∀ q ∈ ps, (s.port q).slot = .empty) →
    ps.foldl (fun s p => (s.completeExecution p).placeResponse p) s = s
  | [], _, _ => rfl
  | q :: ps, s, h => by
    have hq : (s.completeExecution q).placeResponse q = s := by
      have he : s.completeExecution q = s := by simp [State.completeExecution, h q (List.mem_cons_self ..)]
      rw [he, State.placeResponse, h q (List.mem_cons_self ..)]
    rw [List.foldl_cons, hq]
    exact complete_skips (p := p) ps s fun k hk => h k (List.mem_cons_of_mem _ hk)

theorem allPorts_split (p : Port) : ∃ before after, allPorts = before ++ p :: after ∧ ∀ q ∈ before, q < p := by
  have hsorted : allPorts.Pairwise (· < ·) := by decide
  obtain ⟨before, after, hall⟩ := List.append_of_mem (mem_allPorts p)
  rw [hall] at hsorted
  exact ⟨before, after, hall, fun q hq => (List.pairwise_append.mp hsorted).2.2 q hq p (List.mem_cons_self ..)⟩

/-- The first execution under way completes first. -/
theorem completeCommands_first {s u : State} {p : Port} (ho : s.orphans = []) (hbefore : ∀ q < p, (s.port q).slot = .empty)
    (hu : u = (s.completeExecution p).placeResponse p) : u.completeCommands = s.completeCommands := by
  obtain ⟨hslot, hkeeps⟩ := completeOn_keeps s p
  rw [← hu] at hslot hkeeps
  obtain ⟨before, rest, hall, hlt⟩ := allPorts_split p
  have hempty : ∀ q ∈ before, (s.port q).slot = .empty := fun q hq => hbefore q (hlt q hq)
  have hempty' : ∀ q ∈ before, (u.port q).slot = .empty := fun q hq => by
    rw [outsideOf_port hkeeps (Fin.ne_of_lt (hlt q hq))]
    exact hempty q hq
  have horphans : u.orphans = [] := (outsideOf_clock hkeeps).2.trans ho
  have hdone : (u.completeExecution p).placeResponse p = u := by
    have he : u.completeExecution p = u := by simp [State.completeExecution, hslot]
    rw [he, State.placeResponse, hslot]
  unfold State.completeCommands
  rw [ho, horphans, hall, List.foldl_nil, List.foldl_nil, List.foldl_append, List.foldl_append, complete_skips (p := p) _ _ hempty,
    complete_skips (p := p) _ _ hempty', List.foldl_cons, List.foldl_cons, hdone, hu]

/-- A command or query under way is taken and its response placed first. -/
theorem resume_after_command {s : State} (hr : s.rstnLow = false) (hm : s.monitor.state = .qualifying) {p : Port} {tag : Octet}
    {c : Command} (ho : s.orphans = []) (hbefore : ∀ q < p, (s.port q).slot = .empty) (hc : c.inParts = true)
    (hslot : (∃ after, (s.port p).slot = .handed tag c after) ∨ ∃ got, (s.port p).slot = .reading tag c got) :
    ∃ u v, exec (c.row p tag .atOwner) s = .next u ∧ exec (.responsePlaced p) u = .next v ∧
      exec .haltResume s = exec .haltResume v := by
  have hrow : exec (c.row p tag .atOwner) s = .next (s.completeExecution p) := by
    have hnone : s.orphan p tag c = none := by simp [State.orphan, ho]
    rw [exec_row, Command.partOf, hc]
    rcases hslot with ⟨after, hs⟩ | ⟨got, hs⟩ <;>
      simp [State.command, hr, State.ownerTakes, hnone, hs, State.completeExecution]
  have hlow : (s.completeExecution p).rstnLow = false := by
    rcases hslot with ⟨after, hs⟩ | ⟨got, hs⟩
    · have hout := perform_outsideOf s p after c
      rw [State.completeExecution, hs]
      exact (rstnLow_of_clock (outsideOf_clock hout).1).trans hr
    · rw [State.completeExecution, hs]
      exact hr
  have hkeeps := (completeOn_keeps s p).2
  refine ⟨_, (s.completeExecution p).placeResponse p, hrow, ?_, exec_haltResume_congr hr hm (outsideOf_clock hkeeps).1 ?_⟩
  · show Host.Outcome.next (if _ then _ else _) = _
    rw [if_neg (by simp [hlow])]
  · rw [State.completeHalt, State.completeHalt, completeCommands_first ho hbefore rfl]

/-- With no command under way, the trigger sent first is taken first. -/
theorem resume_after_trigger {s : State} (hr : s.rstnLow = false) (hm : s.monitor.state = .qualifying) {g : Trigger}
    {rest : List Trigger} {choice : Nat} (ho : s.orphans = []) (hs : ∀ p : Port, (s.port p).slot = .empty)
    (hg : s.triggers = g :: rest) (hready : (s.readyTriggers g.trunk)[choice]? = some g) :
    ∃ u, exec (.triggerEvaluation g.trunk choice) s = .next u ∧ exec .haltResume s = exec .haltResume u := by
  have hframe := takeTrigger_frame s g
  have hport : ∀ p : Port, (s.takeTrigger g).port p = s.port p := port_of_ports hframe.ports
  refine ⟨s.takeTrigger g, ?_, exec_haltResume_congr hr hm ?_ ?_⟩
  · show Host.Outcome.next (if _ then _ else _) = _
    rw [if_neg (by simp [hr]), hready]
  · exact (outsideOf_clock (hframe.device.outsideOf hframe.ports 0)).1
  · rw [State.completeHalt, State.completeHalt, completeCommands_quiet (hframe.device.orphans.trans ho) fun p => by rw [hport, hs],
      completeCommands_quiet ho hs, takeTriggers_cons hg]

/-- Taking the triggers leaves TD. -/
theorem takeTriggers_td {s : State} (t : Trunk) : (s.takeTriggers.trunk t).em.td = (s.trunk t).em.td := by
  generalize hn : s.triggers = gs
  induction gs generalizing s with
  | nil => rw [takeTriggers_nil hn]
  | cons g rest ih =>
    have hframe := takeTrigger_frame s g
    rw [takeTriggers_cons hn, ih (by rw [hframe.triggers]; simp [hn])]
    by_cases ht : t = g.trunk
    · rw [ht]
      exact congrArg Prod.fst hframe.em
    · rw [hframe.trunks t ht]
      rfl

/-! ## The resume -/

/-- The part once its halt is ended: the monitor PRESENT, and the halt counted and HALT-ENDED offered but at the start-up. -/
def State.returned (s : State) : State :=
  ({ s with monitor := { state := .present, qualNs := qualificationNs, haltNs := s.monitor.haltNs + qualificationNs } } : State).endHalt

/-- What a resume does. -/
structure Resumes (s r : State) : Prop where
  monitor : r.monitor.state = .present
  started : r.started = true
  blockCounter : r.blockCounter = s.blockCounter
  haltCount : r.haltCount = s.returned.haltCount
  ports : r.ports = s.ports
  proposalCounter : r.proposalCounter = s.proposalCounter
  trunk : ∀ t : Trunk, r.trunk t = (s.trunk t).restarted s.blockCounter
  lane : ∀ l : Lane, r.lane l = (s.lane l).restarted
  triggers : ∃ more, r.triggers = s.triggers ++ more ∧
    more.map (fun g => (g.trunk, g.kind, g.sender)) = allLanes.flatMap s.resumeTriggers
  announces : Announces (s.returned.handOn .timebase []) ((allTrunks.flatMap fun t => (s.trunk t).resumeEvents t) ++
    allLanes.flatMap fun l => (s.lane l).resumeEvents l) s.returned r

/-- The end of a halt touches no record but the monitor, the halt count and the offers. -/
theorem returned_eq (s : State) : s.returned = { s with
    monitor := { state := .present, qualNs := qualificationNs, haltNs := s.monitor.haltNs + qualificationNs }
    haltCount := s.returned.haltCount, offers := s.returned.offers, stamp := s.returned.stamp } := by
  unfold State.returned State.endHalt
  dsimp only
  split <;> rfl

/-- Flushing every buffer touches nothing else. -/
structure Flushed (ls : List Lane) (s r : State) : Prop where
  device : SameDevice s r
  ports : r.ports = s.ports
  trunks : r.trunks = s.trunks
  triggers : r.triggers = s.triggers
  offers : r.offers = s.offers

theorem flushed_foldl : ∀ (ls : List Lane) (s : State), Flushed ls s (ls.foldl State.flush s)
  | [], s => ⟨.refl s, rfl, rfl, rfl, rfl⟩
  | l :: ls, s => by
    obtain ⟨hdevice, hports, htrunks, htriggers, hoffers⟩ := flushed_foldl ls (s.flush l)
    exact ⟨SameDevice.trans (t := s.flush l) ⟨rfl, rfl, rfl, rfl, rfl, rfl, rfl, rfl, rfl, rfl, rfl, rfl⟩ hdevice, hports, htrunks,
      htriggers, hoffers⟩

theorem restarted_flushed (x : LaneState) : ({ x with buffer := [], status := .empty } : LaneState).restarted = x.restarted := rfl

theorem charter_restarted (x : TrunkState) (now : Count) : (x.restarted now).charter = x.charter := by
  unfold TrunkState.restarted
  split <;> rfl

/-- The resume in its four parts: the end of the halt, the selectors, the alignment store, the receivers. -/
theorem resume_eq (s : State) : s.resume = { (allLanes.foldl (fun u l => u.loseLock l .hunt (s.returned.handOn .timebase []))
    (allLanes.foldl State.flush (allTrunks.foldl (fun u t => u.resumeTrunk (s.returned.handOn .timebase []) t) s.returned))) with
      started := true, instantTaken := Vector.replicate 8 false, scanCaptured := false } := by
  unfold State.resume State.returned
  dsimp only

theorem resume_resumes (s : State) : Resumes s s.resume := by
  have hreturned := returned_eq s
  have hkeep : s.returned.trunks = s.trunks ∧ s.returned.lanes = s.lanes ∧ s.returned.ports = s.ports ∧
      s.returned.triggers = s.triggers ∧ s.returned.blockCounter = s.blockCounter ∧
      s.returned.proposalCounter = s.proposalCounter ∧ s.returned.monitor.state = .present := by
    rw [hreturned]
    exact ⟨rfl, rfl, rfl, rfl, rfl, rfl, rfl⟩
  clear hreturned
  obtain ⟨htrunks, hlanes, hports, htriggers, hblock, hproposal, hmonitor⟩ := hkeep
  rw [resume_eq]
  generalize hafter : s.returned.handOn .timebase [] = after
  have hselect := resumeTrunks_spec after allTrunks s.returned nodup_allTrunks
  generalize allTrunks.foldl (fun u t => u.resumeTrunk after t) s.returned = u at hselect ⊢
  have hflush := flushed_foldl allLanes u
  have hflushLane : ∀ l, (allLanes.foldl State.flush u).lane l = { u.lane l with buffer := [], status := .empty } := fun l =>
    (foldl_flush_lane l allLanes u).trans (if_pos (mem_allLanes l))
  generalize allLanes.foldl State.flush u = v at hflush hflushLane ⊢
  have hlast := resumeLanes_spec after allLanes v nodup_allLanes
  generalize allLanes.foldl (fun u l => u.loseLock l .hunt after) v = w at hlast ⊢
  have hdevice : SameDevice s.returned w := (hselect.device.trans hflush.device).trans hlast.device
  have hlane : ∀ l, (v.lane l).restarted = (s.lane l).restarted := fun l => by
    rw [hflushLane, restarted_flushed, lane_of_lanes hselect.lanes, lane_of_lanes hlanes]
  have hgrade : ∀ l, (v.lane l).rx.grade = (s.lane l).rx.grade := fun l => by
    rw [hflushLane, lane_of_lanes hselect.lanes, lane_of_lanes hlanes]
  have htrunk : ∀ k, v.trunk k = (s.trunk k).restarted s.blockCounter := fun k => by
    rw [trunk_of_trunks hflush.trunks, hselect.trunk, if_pos (mem_allTrunks k), trunk_of_trunks htrunks, hblock]
  have hsends : v.resumeTriggers = s.resumeTriggers := funext fun l => by
    rw [State.resumeTriggers, State.resumeTriggers, hgrade,
      trunkOf_congr (s := s) (t := v) fun k => by rw [htrunk, charter_restarted]]
  refine ⟨?_, rfl, hdevice.blockCounter.trans hblock, hdevice.haltCount, ?_, hdevice.proposalCounter.trans hproposal, fun t => ?_,
    fun l => ?_, ?_, ?_⟩
  · exact (congrArg Monitor.state hdevice.monitor).trans hmonitor
  · exact hlast.ports.trans (hflush.ports.trans (hselect.ports.trans hports))
  · exact (trunk_of_trunks hlast.trunks t).trans (htrunk t)
  · exact (hlast.lane l).trans ((if_pos (mem_allLanes l)).trans (hlane l))
  · obtain ⟨more, hmore, hmap⟩ := hlast.triggers
    exact ⟨more, by rw [hmore, hflush.triggers, hselect.triggers, htriggers], by rw [hmap, hsends]⟩
  · have hfirst := hselect.announces
    rw [show (fun t => (s.returned.trunk t).resumeEvents t) = fun t => (s.trunk t).resumeEvents t from
      funext fun t => by rw [trunk_of_trunks htrunks]] at hfirst
    have hsecond := hlast.announces
    rw [show (fun l => (v.lane l).resumeEvents l) = fun l => (s.lane l).resumeEvents l from
      funext fun l => by rw [LaneState.resumeEvents, LaneState.resumeEvents, hgrade]] at hsecond
    have hmiddle : Announces after [] u v := .nil hflush.offers
    rw [hafter]
    exact hfirst.trans (hmiddle.trans hsecond hflush.device.blockCounter) hselect.device.blockCounter

/-! ## The halt that ends, and the start-up -/

/-- HALT-ENDED as it is offered at the return (R173). -/
def State.haltEnded (s : State) : Offer :=
  { event := .haltEnded (min 65535 ((s.monitor.haltNs + 1000000) / 1000000)) (s.haltCount + 1)
    time := s.blockCounter, block := .timebase, stamp := s.stamp, after := [], dest := allPorts }

theorem returned_started {s : State} (h : s.started = true) :
    s.returned.haltCount = s.haltCount + 1 ∧ s.returned.offers = s.offers ++ [s.haltEnded] := by
  simp only [State.returned, State.endHalt, h, if_true]
  exact ⟨rfl, rfl⟩

theorem returned_startUp {s : State} (h : s.started = false) :
    s.returned.haltCount = s.haltCount ∧ s.returned.offers = s.offers := by
  simp only [State.returned, State.endHalt, h, Bool.false_eq_true, if_false, and_self]

theorem trunks_eq_of {s t : State} (h : ∀ k : Trunk, t.trunk k = s.trunk k) : t.trunks = s.trunks :=
  Vector.ext fun i hi => h ⟨i, hi⟩

theorem lanes_eq_of {s t : State} (h : ∀ l : Lane, t.lane l = s.lane l) : t.lanes = s.lanes :=
  Vector.ext fun i hi => h ⟨i, hi⟩

theorem mem_trunkEvents {x : TrunkState} {t : Trunk} {e : Event} (h : e ∈ x.resumeEvents t) :
    e = .switched t .resume x.sel.fromLane none .nil x.charter.version ∨ e = .starved t .resume x.sel.fromLane := by
  unfold TrunkState.resumeEvents at h
  split at h
  · cases h
  · rcases List.mem_cons.mp h with h | h
    · exact .inl h
    · split at h
      · cases h
      · exact .inr (List.mem_singleton.mp h)

theorem mem_laneEvents {x : LaneState} {l : Lane} {e : Event} (h : e ∈ x.resumeEvents l) :
    x.rx.grade ≠ .failed ∧ e = .gradeWorse l x.rx.grade .failed .hunt false false := by
  unfold LaneState.resumeEvents at h
  split at h
  · cases h
  · next hg => exact ⟨hg, List.mem_singleton.mp h⟩

theorem exists_offer {more : List Offer} {es : List Event} (h : more.map Offer.event = es) {e : Event} (he : e ∈ es) :
    ∃ o ∈ more, o.event = e := by
  rw [← h] at he
  exact List.mem_map.mp he

/-- A lane that is as a resume leaves it is FAILED. -/
theorem grade_of_restarted {x : LaneState} (h : x = x.restarted) : x.rx.grade = .failed := by
  rw [h]
  rfl

/-- HALT-ENDED is not among what the selectors and the receivers offer. -/
theorem resumeEvents_not_haltEnded {s : State} {e : Event} (h : e ∈ (allTrunks.flatMap fun t => (s.trunk t).resumeEvents t) ++
    allLanes.flatMap fun l => (s.lane l).resumeEvents l) (ms : Nat) (n : Count) : e ≠ .haltEnded ms n := by
  rintro rfl
  rcases List.mem_append.mp h with h | h
  · obtain ⟨t, -, ht⟩ := List.mem_flatMap.mp h
    rcases mem_trunkEvents ht with h | h <;> cases h
  · obtain ⟨l, -, hl⟩ := List.mem_flatMap.mp h
    cases (mem_laneEvents hl).2

theorem trunkEvents_disabled {s : State} (h : ∀ t : Trunk, (s.trunk t).sel.mode = .disabled) :
    (allTrunks.flatMap fun t => (s.trunk t).resumeEvents t) = [] :=
  List.flatMap_eq_nil_iff.mpr fun t _ => if_pos (h t)

/-- Lanes that are FAILED already offer and send nothing. -/
theorem laneWork_failed {s : State} (h : ∀ l : Lane, (s.lane l).rx.grade = .failed) :
    (allLanes.flatMap fun l => (s.lane l).resumeEvents l) = [] ∧ allLanes.flatMap s.resumeTriggers = [] :=
  ⟨List.flatMap_eq_nil_iff.mpr fun l _ => if_pos (h l), List.flatMap_eq_nil_iff.mpr fun l _ => if_pos (h l)⟩

/-- Settles O52: the work of the halt piece by piece, then the restart (`resume_resumes`). -/
theorem resumeRestartsThePart : Obligations.ResumeRestartsThePart := by
  intro s hr hm restarted idle
  have hrow := exec_haltResume hr hm
  refine ⟨⟨_, hrow, (resume_resumes _).monitor, rfl⟩, fun o rest => resume_after_orphan hr hm,
    fun p tag c => resume_after_command hr hm, fun g rest choice hidle => resume_after_trigger hr hm hidle.1 hidle.2,
    fun t hidle hempty hdisabled => ?_, fun hidle htriggers => ?_⟩
  · have hcommands := completeCommands_quiet hidle.1 hidle.2
    have hoff := takeTriggers_disables hempty hdisabled
    have hafter : s.completeHalt = s.takeTriggers := by rw [State.completeHalt, hcommands]
    have htrunk : s.completeHalt.resume.trunk t = s.completeHalt.trunk t :=
      ((resume_resumes _).trunk t).trans (if_pos (by rw [hafter]; exact hoff))
    exact ⟨_, hrow, by rw [htrunk, hafter]; exact hoff, by rw [htrunk, hafter, takeTriggers_td]⟩
  · rw [completeHalt_quiet hidle.1 hidle.2 htriggers] at hrow
    have hres := resume_resumes s
    generalize s.resume = r at hrow hres
    obtain ⟨sent, hsent, hkinds⟩ := hres.triggers
    obtain ⟨more, hoffers, hevents, hmore⟩ := hres.announces
    have hblock : s.returned.blockCounter = s.blockCounter := by rw [returned_eq]
    refine ⟨r, more, hrow, hres.monitor, hres.started, hevents, ?_, hres.blockCounter, hres.ports, hres.proposalCounter,
      fun t => ⟨fun hd => (hres.trunk t).trans (if_pos hd), fun hd => ⟨(hres.trunk t).trans (if_neg hd), ?_, fun hs => ?_⟩⟩,
      fun l => ⟨hres.lane l, fun hg => ?_⟩, fun o ho => ⟨(hmore o ho).1, (hmore o ho).2.1.trans hblock, ?_⟩, fun hstart => ?_,
      fun hstart => ?_⟩
    · rw [hsent, htriggers, List.nil_append, hkinds]
      rfl
    · refine exists_offer hevents (List.mem_append_left _ (List.mem_flatMap.mpr ⟨t, mem_allTrunks t, ?_⟩))
      rw [TrunkState.resumeEvents, if_neg hd]
      exact List.mem_cons_self ..
    · refine exists_offer hevents (List.mem_append_left _ (List.mem_flatMap.mpr ⟨t, mem_allTrunks t, ?_⟩))
      rw [TrunkState.resumeEvents, if_neg hd, if_neg hs]
      exact List.mem_cons_of_mem _ (List.mem_singleton.mpr rfl)
    · refine exists_offer hevents (List.mem_append_right _ (List.mem_flatMap.mpr ⟨l, mem_allLanes l, ?_⟩))
      rw [LaneState.resumeEvents, if_neg hg]
      exact List.mem_singleton.mpr rfl
    · exact resumeEvents_not_haltEnded (hevents ▸ List.mem_map_of_mem ho)
    · obtain ⟨hcount, hended⟩ := returned_started hstart
      refine ⟨hres.haltCount.trans hcount, ?_, fun o ho => (hmore o ho).2.2 ?_⟩
      · rw [hoffers, hended, List.append_assoc]
        rfl
      · exact stamp_mem_handOn (o := s.haltEnded) [] (by rw [hended]; simp) rfl
    · obtain ⟨hcount, hsame⟩ := returned_startUp hstart
      refine ⟨hres.haltCount.trans hcount, by rw [hoffers, hsame], fun hdisabled => ?_⟩
      rw [trunkEvents_disabled hdisabled, List.nil_append] at hevents
      refine ⟨fun o ho => ?_, trunks_eq_of fun t => (hres.trunk t).trans (if_pos (hdisabled t)), fun hlanes => ?_⟩
      · have hmem : o.event ∈ more.map Offer.event := List.mem_map_of_mem ho
        rw [hevents] at hmem
        obtain ⟨l, -, hl⟩ := List.mem_flatMap.mp hmem
        rw [(mem_laneEvents hl).2]
        rfl
      · have hgrade : ∀ l, (s.lane l).rx.grade = .failed := fun l => grade_of_restarted (hlanes l)
        rw [(laneWork_failed hgrade).1] at hevents
        rw [(laneWork_failed hgrade).2] at hkinds
        refine ⟨List.map_eq_nil_iff.mp hevents, lanes_eq_of fun l => (hres.lane l).trans (hlanes l).symm, ?_⟩
        rw [hsent, List.map_eq_nil_iff.mp hkinds, List.append_nil]

end Sys2Proof.Machine
end

