-- ==== Sys2Proof/Proofs/OutstandingWork.lean ====
section
/-! SUPPORT. An evaluation neither reads nor changes the reports of its trunk and the triggers outstanding, those of an install apart
(first clause of O49; R74, R80, R88). -/

namespace Sys2Proof.Machine

/-- The state with other reports of trunk t outstanding, and other triggers. -/
def State.withWork (s : State) (t : Trunk) (rs : List Report) (gs : List Trigger) : State :=
  { s.setTrunk t { s.trunk t with reports := rs } with triggers := gs }

theorem withWork_self (s : State) (t : Trunk) : s.withWork t (s.trunk t).reports s.triggers = s :=
  setTrunk_trunk_self s t

theorem withWork_trunk (s : State) (t : Trunk) (rs : List Report) (gs : List Trigger) :
    (s.withWork t rs gs).trunk t = { s.trunk t with reports := rs } := trunk_setTrunk_self ..

theorem withWork_setTrunk (s : State) (t : Trunk) (x : TrunkState) (rs : List Report) (gs : List Trigger) :
    (s.setTrunk t x).withWork t rs gs = ({ s with triggers := gs } : State).setTrunk t { x with reports := rs } := by
  have h := setTrunk_setTrunk s t x { x with reports := rs }
  rw [State.withWork, trunk_setTrunk_self, h]
  rfl

theorem withWork_withWork (s : State) (t : Trunk) (rs rs' : List Report) (gs gs' : List Trigger) :
    (s.withWork t rs gs).withWork t rs' gs' = s.withWork t rs' gs' := by
  have h := withWork_setTrunk ({ s with triggers := gs } : State) t { s.trunk t with reports := rs } rs' gs'
  exact h

section
variable (v : State) (t : Trunk) (rs : List Report) (gs : List Trigger) (stamps : List Nat)

theorem withWork_offer (dest : List Port) (b : Block) (a : List Nat) (e : Event) :
    (v.withWork t rs gs).offer dest b a e = (v.offer dest b a e).withWork t rs gs := rfl

/-- An update that neither reads nor changes the reports. -/
theorem modTrunk_withWork {f : TrunkState → TrunkState} (hf : ∀ x : TrunkState, f { x with reports := rs } = { f x with reports := rs }) :
    (v.withWork t rs gs).modTrunk t f = (v.modTrunk t f).withWork t rs gs := by
  have hset := setTrunk_setTrunk ({ v with triggers := gs } : State) t { v.trunk t with reports := rs } { f (v.trunk t) with reports := rs }
  rw [modTrunk_eq, modTrunk_eq, withWork_setTrunk, withWork_trunk, hf]
  exact hset

theorem modSel_withWork (f : Selection → Selection) : (v.withWork t rs gs).modSel t f = (v.modSel t f).withWork t rs gs :=
  modTrunk_withWork v t rs gs fun _ => rfl

theorem modEm_withWork (f : Emitter → Emitter) : (v.withWork t rs gs).modEm t f = (v.modEm t f).withWork t rs gs :=
  modTrunk_withWork v t rs gs fun _ => rfl

theorem writeRecord_withWork (c : Cause) (src dst : Option Lane) (kind : SwitchKind) :
    (v.withWork t rs gs).writeRecord t c src dst kind stamps = (v.writeRecord t c src dst kind stamps).withWork t rs gs := by
  have hcharter : ((v.withWork t rs gs).trunk t).charter = (v.trunk t).charter := by rw [withWork_trunk]
  unfold State.writeRecord
  simp only [hcharter]
  rw [modTrunk_withWork v t rs gs fun _ => rfl]
  rfl

theorem start_withWork (l : Lane) : (v.withWork t rs gs).start t l stamps = (v.start t l stamps).withWork t rs gs := by
  unfold State.start
  dsimp only
  rw [modTrunk_withWork v t rs gs fun _ => rfl, writeRecord_withWork, withWork_offer]

theorem drop_withWork : (v.withWork t rs gs).drop t stamps = (v.drop t stamps).withWork t rs gs := by
  have hsel : ((v.withWork t rs gs).trunk t).sel = (v.trunk t).sel := by rw [withWork_trunk]
  unfold State.drop
  simp only [hsel]
  rw [modTrunk_withWork v t rs gs fun _ => rfl, writeRecord_withWork, withWork_offer]

theorem aim_withWork (l : Lane) (c : Cause) : (v.withWork t rs gs).aim t l c stamps = (v.aim t l c stamps).withWork t rs gs :=
  modSel_withWork v t rs gs _

theorem cancel_withWork : (v.withWork t rs gs).cancel t = (v.cancel t).withWork t rs gs := modSel_withWork v t rs gs _

theorem immediateSwitch_withWork (a l : Lane) (c : Cause) :
    (v.withWork t rs gs).immediateSwitch t a l c stamps = (v.immediateSwitch t a l c stamps).withWork t rs gs :=
  modTrunk_withWork v t rs gs fun _ => rfl

theorem eligible_withWork (l : Lane) : (v.withWork t rs gs).eligible t l = v.eligible t l :=
  eligible_congr (s := v) (t := v.withWork t rs gs) rfl (by rw [withWork_trunk]) l

/-- Step 7 of R80. -/
theorem act_withWork (k : TriggerKind) (d : Decision) :
    (v.withWork t rs gs).act t k d stamps = (v.act t k d stamps).withWork t rs gs := by
  have hsel : ((v.withWork t rs gs).trunk t).sel = (v.trunk t).sel := by rw [withWork_trunk]
  have hfree : (v.withWork t rs gs).freeCause = v.freeCause := rfl
  unfold State.act
  simp only [hsel, hfree, eligible_withWork, start_withWork, drop_withWork, aim_withWork, cancel_withWork, immediateSwitch_withWork]
  cases (v.trunk t).sel.mode with
  | disabled => rfl
  | starved => cases d.desired <;> rfl
  | carrying =>
    cases (v.trunk t).sel.active with
    | none => rfl
    | some a => cases d.desired <;> simp only [apply_ite (fun w : State => w.withWork t rs gs)]
  | switching =>
    cases (v.trunk t).sel.active with
    | none => rfl
    | some a =>
      cases d.desired with
      | none => rfl
      | some l => simp only [apply_ite (fun w : State => w.withWork t rs gs)]

theorem markOffer_withWork (h : Hold) (w : State) :
    v.markOffer t h stamps (w.withWork t rs gs) = (v.markOffer t h stamps w).withWork t rs gs := by
  unfold State.markOffer
  simp only [apply_ite (fun w : State => w.withWork t rs gs)]
  rfl

theorem markHold_withWork : (v.withWork t rs gs).markHold t stamps = (v.markHold t stamps).withWork t rs gs := by
  have hhold : ((v.withWork t rs gs).trunk t).hold = (v.trunk t).hold := by rw [withWork_trunk]
  cases hh : (v.trunk t).hold with
  | none =>
    have h1 : v.markHold t stamps = v := by simp [State.markHold, hh]
    have h2 : (v.withWork t rs gs).markHold t stamps = v.withWork t rs gs := by simp [State.markHold, hhold, hh]
    rw [h1, h2]
  | some h =>
    rw [markHold_held (s := v) (v := v.withWork t rs gs) rfl (hhold.trans hh), markHold_held (s := v) (v := v) rfl hh,
      markOffer_withWork, withWork_setTrunk, withWork_trunk]
    generalize v.markOffer t h stamps v = w
    have hset := setTrunk_setTrunk ({ w with triggers := gs } : State) t { w.trunk t with reports := rs }
      { (v.trunk t).holding (some (v.marked h)) with reports := rs }
    exact hset

/-- One evaluation that no install calls for. -/
theorem evaluate_withWork {k : TriggerKind} (hk : k ≠ .install) :
    (v.withWork t rs gs).evaluate t k stamps = (v.evaluate t k stamps).withWork t rs gs := by
  have hmode : ((v.withWork t rs gs).trunk t).sel.mode = (v.trunk t).sel.mode := by rw [withWork_trunk]
  simp only [State.evaluate, if_neg hk, State.judge, hmode, apply_ite (fun w : State => w.withWork t rs gs), markHold_withWork]
  have hdecide : ∀ w : State, (w.withWork t rs gs).decide t k = w.decide t k := fun w => by
    have hw : (w.withWork t rs gs).decide t k = w.decideWith t k (w.trunk t).sel.holdOff (w.trunk t).sel.restore := by
      have hx : ((w.withWork t rs gs).trunk t).sel = (w.trunk t).sel := by rw [withWork_trunk]
      have hown : (w.withWork t rs gs).decide t k =
        (w.withWork t rs gs).decideWith t k ((w.withWork t rs gs).trunk t).sel.holdOff ((w.withWork t rs gs).trunk t).sel.restore := rfl
      rw [hown, hx]
      exact decideWith_congr (s := w) (v := w.withWork t rs gs) rfl (by rw [withWork_trunk]) (by rw [withWork_trunk])
        (by rw [withWork_trunk]; rfl) (by rw [hx]) (by rw [hx]) k _ _
    exact hw
  simp only [hdecide, modSel_withWork, act_withWork]

end

/-- The evaluation that follows a report is that of an outstanding grade trigger with the report's stamps (R74, R80, R88). -/
theorem evaluate_report_as_trigger (u : State) (t : Trunk) (l : Lane) (stamps : List Nat) (hr : u.rstnLow = false) :
    let g : Trigger := { trunk := t, kind := .grade l, sender := .receiver l, stamp := 0, after := stamps }
    ∃ r, exec (.triggerEvaluation t 0) { u.setTrunk t { u.trunk t with reports := [] } with triggers := [g] } = .next r ∧
      u.evaluate t .report stamps =
        { r.setTrunk t { r.trunk t with reports := (u.trunk t).reports } with triggers := u.triggers } := by
  intro g
  have htakes : (u.withWork t [] [g]).Takes t 0 g := by
    refine ⟨hr, by rw [withWork_trunk], ?_⟩
    have hmine : (u.withWork t [] [g]).triggersAt t = [g] := by simp [State.triggersAt, State.withWork, g]
    simp [State.readyTriggers, hmine]
  have herase : ({ u.withWork t [] [g] with triggers := (u.withWork t [] [g]).triggers.erase g } : State) = u.withWork t [] [] := by
    have hnil : (u.withWork t [] [g]).triggers.erase g = [] := List.erase_cons_head ..
    rw [hnil]
    rfl
  have hrow := takes_exec htakes
  rw [herase] at hrow
  have hback : u.evaluate t .report stamps =
      ((u.withWork t [] []).evaluate t .report stamps).withWork t (u.trunk t).reports u.triggers := by
    rw [← evaluate_withWork _ t _ _ stamps (by simp), withWork_withWork, withWork_self]
  exact ⟨_, hrow, hback⟩

end Sys2Proof.Machine
end

