-- ==== Sys2Proof/Proofs/ReportRows.lean ====
section
/-! SUPPORT. The reports that are rows of their own: the alignment loss and the align-wait expiry (R96, R98, R100 to R103), for O49. -/

namespace Sys2Proof.Machine

/-! ## Records -/

/-- A record joins a trunk's history and is counted, and SWITCHED is offered: the trunk's record is y but for these. -/
def State.joined (u : State) (t : Trunk) (y : TrunkState) (r : HistoryRecord) (stamps : List Nat) : State :=
  (u.setTrunk t { y with history := pushRecord y.history r, em := { y.em with counters := y.em.counters.count r } }).offer allPorts
    (.selector t) stamps (.switched t r.cause r.src r.dst r.kind r.version)

section
variable (u : State) (t : Trunk) (y : TrunkState) (r : HistoryRecord) (stamps : List Nat)

theorem joined_trunk : (u.joined t y r stamps).trunk t =
    { y with history := pushRecord y.history r, em := { y.em with counters := y.em.counters.count r } } := trunk_setTrunk_self ..

theorem writeRecord_setTrunk (c : Cause) (src dst : Option Lane) (k : SwitchKind) :
    (u.setTrunk t y).writeRecord t c src dst k stamps = u.joined t y (y.record u.blockCounter c src dst k) stamps := by
  simp [State.writeRecord, State.joined, TrunkState.record]

theorem writeRecord_joined (c : Cause) (src dst : Option Lane) (k : SwitchKind) :
    u.writeRecord t c src dst k stamps = u.joined t (u.trunk t) ((u.trunk t).record u.blockCounter c src dst k) stamps := by
  have h := writeRecord_setTrunk u t (u.trunk t) stamps c src dst k
  rwa [setTrunk_trunk_self] at h

theorem joined_modSel (f : Selection → Selection) :
    (u.joined t y r stamps).modSel t f = u.joined t { y with sel := f y.sel } r stamps := by
  rw [modSel_eq, joined_trunk]
  exact congrArg (fun v : State => v.offer allPorts (.selector t) stamps (.switched t r.cause r.src r.dst r.kind r.version))
    (setTrunk_setTrunk u t _ _)

theorem joined_centring (on : Bool) :
    (u.joined t y r stamps).modEm t (fun e => { e with centring := on }) =
      u.joined t { y with em := { y.em with centring := on } } r stamps := by
  rw [modEm_eq, joined_trunk]
  exact congrArg (fun v : State => v.offer allPorts (.selector t) stamps (.switched t r.cause r.src r.dst r.kind r.version))
    (setTrunk_setTrunk u t _ _)

theorem joined_setTrunk (x : TrunkState) : (u.setTrunk t x).joined t y r stamps = u.joined t y r stamps := by
  unfold State.joined
  rw [setTrunk_setTrunk]

end

/-! ## The rows -/

/-- A report that is no judgement is handled, and evaluated. -/
theorem takeReport_evaluates (s : State) (t : Trunk) {k : ReportKind} (hk : k.beforeEmission = false) (after : List Nat) :
    s.takeReport t ⟨k, after⟩ = (s.handleReport t k after).evaluate t .report after := by
  have hleft : s.leftToInstall t k = false := by cases k <;> first | rfl | cases hk
  unfold State.takeReport
  dsimp only
  rw [if_neg (by simp [hleft])]

theorem takeReports_nil (s : State) (t : Trunk) : s.takeReports t [] = s := rfl

theorem takeReports_cons (s : State) (t : Trunk) (r : Report) (rs : List Report) :
    s.takeReports t (r :: rs) = (s.takeReport t r).takeReports t rs := rfl

theorem settleTrunk_takes {s : State} {t : Trunk} {rs : List Report} (h : (s.trunk t).reports = rs) :
    s.settleTrunk t = (s.withWork t [] s.triggers).takeReports t rs := by
  rw [← h]
  rfl

section
variable {s : State} {t : Trunk} {after : List Nat} (hr : s.rstnLow = false)
include hr

theorem exec_alignmentLoss {a : Option Lane} {st : List (Lane × AlignStatus)} {rest : List Report}
    (h : (s.trunk t).reports = ⟨.alignmentLoss a st, after⟩ :: rest) :
    exec (.alignmentLoss t) s =
      .next (((s.setTrunk t { s.trunk t with reports := rest }).handleLoss t a st after).evaluate t .report after) := by
  have hrow : exec (.alignmentLoss t) s = .next ((s.setTrunk t { s.trunk t with reports := rest }).takeReport t
      ⟨.alignmentLoss a st, after⟩) := by
    show Host.Outcome.next (if _ then _ else _) = _
    rw [if_neg (by simp [hr]), h]
    rfl
  rw [hrow, takeReport_evaluates _ _ rfl]
  rfl

theorem exec_alignWaitExpiry_settles (h : ∃ r ∈ (s.trunk t).reports, r.kind = .alignWaitExpiry) :
    exec (.alignWaitExpiry t) s = .next (s.settleTrunk t) := by
  show Host.Outcome.next (if _ then _ else _) = _
  rw [if_neg (by simp [hr]), if_pos (List.any_eq_true.mpr (by simpa using h))]

theorem exec_alignWaitExpiry (h : (s.trunk t).reports = [⟨.alignWaitExpiry, after⟩]) :
    exec (.alignWaitExpiry t) s =
      .next (((s.setTrunk t { s.trunk t with reports := [] }).handleAlignWait t after).evaluate t .report after) := by
  have hsettle : s.settleTrunk t = (s.setTrunk t { s.trunk t with reports := [] }).takeReport t ⟨.alignWaitExpiry, after⟩ := by
    unfold State.settleTrunk
    rw [h, modTrunk_eq]
    rfl
  rw [exec_alignWaitExpiry_settles hr (by simp [h]), hsettle, takeReport_evaluates _ _ rfl]
  rfl

theorem exec_reports_nil (h : (s.trunk t).reports = []) :
    exec (.alignmentLoss t) s = .next s ∧ exec (.alignWaitExpiry t) s = .next s := by
  constructor
  · show Host.Outcome.next (if _ then _ else _) = _
    rw [if_neg (by simp [hr]), h]
  · show Host.Outcome.next (if _ then _ else _) = _
    rw [if_neg (by simp [hr]), h]
    rfl

end

/-! ## The choice at an alignment loss (R100) -/

/-- A member that a loss may switch to. -/
def State.Fits (s : State) (t : Trunk) (a : Lane) (st : List (Lane × AlignStatus)) (l : Lane) : Prop :=
  s.eligible t l = true ∧ l ≠ a ∧ some (s.lane l).rx.grade = s.bestGrade t ∧ (l, AlignStatus.aligned) ∈ st

section
variable (s : State) (t : Trunk) (a : Lane) (st : List (Lane × AlignStatus))

/-- The first member in selection order that fits. -/
def State.freeChoice : Option Lane :=
  (s.selectionOrder t).find? fun l =>
    s.eligible t l && l != a && some (s.lane l).rx.grade = s.bestGrade t && st.contains (l, AlignStatus.aligned)

theorem fits_iff (l : Lane) : (s.eligible t l && l != a && some (s.lane l).rx.grade = s.bestGrade t &&
    st.contains (l, AlignStatus.aligned)) = true ↔ s.Fits t a st l := by
  simp [State.Fits, and_assoc]

variable {s t a st}

theorem freeChoice_none (h : ∀ l ∈ s.selectionOrder t, ¬ s.Fits t a st l) : s.freeChoice t a st = none :=
  List.find?_eq_none.mpr fun l hl hfit => h l hl ((fits_iff s t a st l).mp hfit)

theorem freeChoice_first {before later : List Lane} {d : Lane} (horder : s.selectionOrder t = before ++ d :: later)
    (hd : s.Fits t a st d) (hbefore : ∀ l ∈ before, ¬ s.Fits t a st l) : s.freeChoice t a st = some d := by
  unfold State.freeChoice
  rw [horder, List.find?_append, List.find?_eq_none.mpr fun l hl hfit => hbefore l hl ((fits_iff s t a st l).mp hfit), Option.none_or]
  exact List.find?_cons_of_pos ((fits_iff s t a st d).mpr hd)

theorem lossChoice_free (h : ∀ h ∈ (s.trunk t).hold, s.eligible t h.lane = false) : s.lossChoice t a st = s.freeChoice t a st := by
  unfold State.lossChoice
  dsimp only
  split
  · rfl
  · next g hg => rw [if_neg (by rw [h g hg]; simp)]; rfl

theorem lossChoice_held {h : Hold} (hh : (s.trunk t).hold = some h) (he : s.eligible t h.lane = true) :
    s.lossChoice t a st = if h.lane = a then none else if (h.lane, AlignStatus.aligned) ∈ st then some h.lane else none := by
  unfold State.lossChoice
  dsimp only
  rw [hh]
  dsimp only
  rw [if_pos he]
  simp only [List.contains_eq_mem, decide_eq_true_eq]

/-- The choice does not read the reports. -/
theorem lossChoice_reports (rs : List Report) :
    (s.setTrunk t { s.trunk t with reports := rs }).lossChoice t a st = s.lossChoice t a st := by
  generalize hv : s.setTrunk t { s.trunk t with reports := rs } = v
  have hvt : v.trunk t = { s.trunk t with reports := rs } := by rw [← hv, trunk_setTrunk_self]
  have hlanes : v.lanes = s.lanes := by rw [← hv]; rfl
  have hcharter : (v.trunk t).charter = (s.trunk t).charter := by rw [hvt]
  simp only [State.lossChoice, selectionOrder_congr (s := s) (t := v) hcharter (by rw [hvt]),
    eligible_congr (s := s) (t := v) hlanes hcharter, bestGrade_congr (s := s) (t := v) hlanes hcharter,
    lane_of_lanes (s := s) (t := v) hlanes, hvt]

/-! ## The loss handled (R100 to R102) -/

variable {after : List Nat} {rs : List Report}

/-- A loss that does not concern the trunk is dropped (R96). -/
theorem handleLoss_dropped {l : Option Lane} (h : (s.trunk t).sel.active = none ∨ l ≠ (s.trunk t).sel.active ∨
    (s.trunk t).sel.pendingSwitch ≠ none ∨ (s.trunk t).sel.mode = .starved ∨ (s.trunk t).sel.mode = .disabled) :
    s.handleLoss t l st after = s := by
  unfold State.handleLoss
  dsimp only
  split
  · rfl
  · next a ha =>
    refine if_neg fun ⟨hmode, hlane, hpending⟩ => ?_
    rcases h with h | h | h | h | h
    · simp [ha] at h
    · exact h (hlane.trans ha.symm)
    · exact h hpending
    · rcases hmode with e | e <;> cases h.symm.trans e
    · rcases hmode with e | e <;> cases h.symm.trans e

theorem handleLoss_kept (ha : (s.trunk t).sel.active = some a)
    (hmode : (s.trunk t).sel.mode = .carrying ∨ (s.trunk t).sel.mode = .switching) (hp : (s.trunk t).sel.pendingSwitch = none) :
    s.handleLoss t (some a) st after = match s.lossChoice t a st with
      | some d => s.immediateSwitch t a d .alignLoss after
      | none => s.slip t a after := by
  unfold State.handleLoss
  dsimp only
  rw [ha]
  exact if_pos ⟨hmode, rfl, hp⟩

theorem slip_setTrunk (u : State) (x : TrunkState) : (u.setTrunk t x).slip t a after =
    u.joined t { x with em := { x.em with centring := true } } (x.record u.blockCounter .slip (some a) (some a) .hit) after := by
  unfold State.slip
  dsimp only
  rw [modEm_eq, trunk_setTrunk_self, setTrunk_setTrunk, writeRecord_setTrunk]
  rfl

end

/-! ## The align-wait expiry handled (R98) -/

section
variable {s : State} {t : Trunk} {after : List Nat}

theorem handleAlignWait_dropped (h : (s.trunk t).sel.mode ≠ .switching ∨ (s.trunk t).sel.alignWait ≠ 16) :
    s.handleAlignWait t after = s := by
  unfold State.handleAlignWait
  dsimp only
  split
  · next hmode _ => exact if_neg (h.resolve_left (absurd hmode))
  · rfl

theorem complete_joined (u : State) (b : Lane) (k : SwitchKind) : u.complete t b k after =
    u.joined t { u.trunk t with sel := { (u.trunk t).sel with
        mode := .carrying, active := some b, target := none, alignWait := 0, cause := none, causeAfter := [] } }
      ((u.trunk t).record u.blockCounter ((u.trunk t).sel.cause.getD .health) (u.trunk t).sel.active (some b) k)
      ((u.trunk t).sel.causeAfter ++ after) := by
  unfold State.complete
  dsimp only
  rw [writeRecord_joined, joined_modSel]

theorem handleAlignWait_completes {b : Lane} (hmode : (s.trunk t).sel.mode = .switching) (ht : (s.trunk t).sel.target = some b)
    (hw : (s.trunk t).sel.alignWait = 16) :
    s.handleAlignWait t after = (s.complete t b .hit after).modEm t fun e => { e with centring := true } := by
  unfold State.handleAlignWait
  dsimp only
  rw [hmode, ht]
  exact if_pos hw

/-! ## A loss before an expiry of the same instant (R103) -/

theorem handleLoss_withWork (l : Option Lane) (st : List (Lane × AlignStatus)) (rs : List Report) :
    (s.withWork t rs s.triggers).handleLoss t l st after = (s.handleLoss t l st after).withWork t rs s.triggers := by
  have hsel : ((s.withWork t rs s.triggers).trunk t).sel = (s.trunk t).sel := by rw [withWork_trunk]
  have hchoice : ∀ a, (s.withWork t rs s.triggers).lossChoice t a st = s.lossChoice t a st := fun a => lossChoice_reports rs
  have hslip : ∀ a, (s.withWork t rs s.triggers).slip t a after = (s.slip t a after).withWork t rs s.triggers := fun a => by
    unfold State.slip
    dsimp only
    rw [modEm_withWork, writeRecord_withWork]
  unfold State.handleLoss
  simp only [hsel, hchoice]
  cases (s.trunk t).sel.active with
  | none => rfl
  | some a =>
    dsimp only
    split
    · cases s.lossChoice t a st with
      | none => exact hslip a
      | some d => exact immediateSwitch_withWork ..
    · rfl

theorem lossTaken_withWork (s : State) (l : Option Lane) (st : List (Lane × AlignStatus)) (rs : List Report) :
    ((s.withWork t rs s.triggers).handleLoss t l st after).evaluate t .report after =
      ((s.handleLoss t l st after).evaluate t .report after).withWork t rs s.triggers := by
  rw [handleLoss_withWork, evaluate_withWork _ t _ _ after (by simp)]

/-- The expiry is taken as it would be, were the loss of the same instant taken before. -/
theorem expiry_after_loss (hr : s.rstnLow = false) {l : Option Lane} {st : List (Lane × AlignStatus)} {later : List Nat}
    (h : (s.trunk t).reports = [⟨.alignmentLoss l st, after⟩, ⟨.alignWaitExpiry, later⟩]) :
    ∃ u, exec (.alignmentLoss t) s = .next u ∧ (u.trunk t).reports = [⟨.alignWaitExpiry, later⟩] ∧
      exec (.alignWaitExpiry t) s = exec (.alignWaitExpiry t) u := by
  generalize hv : ((s.withWork t [] s.triggers).handleLoss t l st after).evaluate t .report after = v
  have htaken := fun rs => lossTaken_withWork (t := t) (after := after) (s.withWork t [] s.triggers) l st rs
  rw [hv] at htaken
  have hu : ((s.withWork t [⟨.alignWaitExpiry, later⟩] s.triggers).handleLoss t l st after).evaluate t .report after =
      v.withWork t [⟨.alignWaitExpiry, later⟩] s.triggers := by
    rw [← withWork_withWork s t [] _ s.triggers]
    exact htaken _
  have hkeeps : SelFrame t (s.withWork t [] s.triggers) v := by
    rw [← hv]
    exact (handleReport_frame _ t (.alignmentLoss l st) after).trans (evaluate_frame ..)
  have hlow : v.rstnLow = false := hkeeps.device.rstnLow.trans hr
  have htriggers : v.triggers = s.triggers := hkeeps.triggers
  have hreports : ((v.withWork t [⟨.alignWaitExpiry, later⟩] s.triggers).trunk t).reports = [⟨.alignWaitExpiry, later⟩] := by
    rw [withWork_trunk]
  refine ⟨v.withWork t [⟨.alignWaitExpiry, later⟩] s.triggers, ?_, hreports, ?_⟩
  · rw [exec_alignmentLoss hr h]
    exact congrArg Host.Outcome.next hu
  · rw [exec_alignWaitExpiry_settles hr (by simp [h]), exec_alignWaitExpiry_settles (s := v.withWork t _ _) hlow (by rw [hreports]; simp)]
    have hnone : (v.trunk t).reports = [] := by
      have hself : v = v.withWork t [] s.triggers := by
        have h0 := htaken []
        rwa [show (s.withWork t [] s.triggers).triggers = s.triggers from rfl, withWork_withWork, hv] at h0
      rw [hself, withWork_trunk]
    have hclear : (v.withWork t [⟨.alignWaitExpiry, later⟩] s.triggers).withWork t [] s.triggers = v := by
      have hself := withWork_self v t
      rw [hnone, htriggers] at hself
      rw [withWork_withWork, hself]
    have hleft : s.settleTrunk t = v.takeReport t ⟨.alignWaitExpiry, later⟩ := by
      rw [settleTrunk_takes h, takeReports_cons, takeReports_cons, takeReport_evaluates _ t (k := .alignmentLoss l st) rfl, takeReports_nil]
      exact congrArg (fun w : State => w.takeReport t ⟨.alignWaitExpiry, later⟩) hv
    have hright : (v.withWork t [⟨.alignWaitExpiry, later⟩] s.triggers).settleTrunk t = v.takeReport t ⟨.alignWaitExpiry, later⟩ := by
      rw [settleTrunk_takes hreports, takeReports_cons, takeReports_nil]
      exact congrArg (fun w : State => w.takeReport t ⟨.alignWaitExpiry, later⟩) hclear
    rw [hleft, hright]

end

end Sys2Proof.Machine
end

