-- ==== Sys2Proof/Proofs/JudgedInstants.lean ====
section
/-! SUPPORT. The instant at which an immediate switch is judged (R35, R99), and the one that completes a switch (R97), for O49. -/

namespace Sys2Proof.Machine

/-! ## The judgement -/

/-- The state with a pending immediate switch judged by its emitter, and not yet by its selector. -/
def State.settledSwitch (s : State) (t : Trunk) : State :=
  s.setTrunk t { s.trunk t with em := { (s.trunk t).em with immediatePending := false, centring := s.centresAt t } }

section
variable (s : State) (t : Trunk)

theorem settledSwitch_trunk : (s.settledSwitch t).trunk t =
    { s.trunk t with em := { (s.trunk t).em with immediatePending := false, centring := s.centresAt t } } := trunk_setTrunk_self ..

theorem seesAs_settledSwitch : SeesAs t s (s.settledSwitch t) :=
  ⟨fun _ => rfl, fun _ => rfl, fun _ => rfl, ⟨_, settledSwitch_trunk s t⟩, by rw [settledSwitch_trunk]⟩

theorem judged_settledSwitch : (s.settledSwitch t).judged t = s.judged t := by
  have hsees := seesAs_settledSwitch s t
  simp only [State.judged, hsees.members, hsees.cursor, hsees.bufferFor]

theorem recordStatuses_setTrunk (st : List (Lane × AlignStatus)) (x : TrunkState) : ∀ s : State,
    (s.setTrunk t x).recordStatuses st = (s.recordStatuses st).setTrunk t x := by
  induction st with
  | nil => exact fun _ => rfl
  | cons e st ih => exact fun s => ih (s.modLane e.1 fun x => { x with status := e.2 })

theorem centresAt_settledSwitch : (s.settledSwitch t).centresAt t = s.centresAt t := by
  rw [State.centresAt, settledSwitch_trunk, if_neg (by simp)]

/-- The emission finds the same state, whether the judgement is its own or was made before. -/
theorem poised_settledSwitch : (s.settledSwitch t).poised t = s.poised t := by
  have hset := setTrunk_setTrunk (s.noted t) t ((s.settledSwitch t).trunk t)
    { s.trunk t with em := { (s.trunk t).em with immediatePending := false, centring := s.centresAt t } }
  have hnoted : (s.settledSwitch t).noted t = (s.noted t).setTrunk t ((s.settledSwitch t).trunk t) := by
    rw [State.noted, judged_settledSwitch, settledSwitch_trunk]
    exact recordStatuses_setTrunk t (s.judged t) _ s
  rw [State.poised, hnoted, centresAt_settledSwitch]
  simp only [settledSwitch_trunk] at hset ⊢
  exact hset

theorem judgement_settledSwitch : (s.settledSwitch t).judgement t = [] := by
  rw [State.judgement, settledSwitch_trunk, if_neg (by simp)]

end

section
variable {s : State} {t : Trunk}

/-- The judgement apart, the emission steps are those of the state judged before. -/
theorem emissionSteps_settledSwitch (hm : (s.trunk t).sel.mode ≠ .starved) :
    s.emissionSteps t = (((s.settledSwitch t).emissionSteps t).1, s.judgement t ++ ((s.settledSwitch t).emissionSteps t).2) := by
  have hm' : ((s.settledSwitch t).trunk t).sel.mode ≠ .starved := by rw [settledSwitch_trunk]; exact hm
  rw [emissionSteps_poised hm, emissionSteps_poised hm', judgement_settledSwitch, poised_settledSwitch, centresAt_settledSwitch,
    judged_settledSwitch]
  rfl

/-- An instant that completes no switch leaves its reports to rows of their own. -/
theorem steps_unhandled (hp : (s.trunk t).em.immediatePending = false) (hm : (s.trunk t).sel.mode ≠ .starved)
    (htarget : (s.trunk t).em.centring = false → s.targetBlock t = none) :
    ∀ k ∈ (s.emissionSteps t).2, k.within = false := by
  have hsees := seesAs_poised s t
  intro k hk
  cases hc : (s.trunk t).em.centring with
  | true =>
    rw [steps_centring hp hm hc] at hk
    cases hb : (s.trunk t).sel.active.bind (fun a => centringBlock (s.bufferFor t a)) with
    | some b =>
      rw [emitCentring_block _ (by simpa only [hsees.sel, hsees.bufferFor] using hb), advance_kinds] at hk
      exact expiry_not_within hk
    | none =>
      rw [emitCentring_gap _ (by simpa only [hsees.sel, hsees.bufferFor] using hb), advance_kinds] at hk
      exact expiry_not_within hk
  | false =>
    have htarget' := htarget hc
    cases hb : (s.trunk t).sel.active.bind (s.cursorBlock t) with
    | some b =>
      have hb' : ((s.poised t).trunk t).sel.active.bind ((s.poised t).cursorBlock t) = some b := by
        rw [hsees.sel, funext hsees.cursorBlock]
        exact hb
      rw [steps_carrying hp hm hc, emitCarrying_active _ _ (poised_targetBlock htarget') hb', advance_kinds] at hk
      exact expiry_not_within hk
    | none =>
      rw [steps_misaligned hp hm hc htarget' hb] at hk
      by_cases hfill : ((s.poised t).trunk t).charter.terms.mend = false ∨ (s.poised t).mendBlock t = none
      · rw [emitMisaligned_fill _ _ hfill, advance_kinds, poised_lossDue] at hk
        exact misaligned_not_within hk
      · have hmend : ((s.poised t).trunk t).charter.terms.mend = true := by simpa using fun e => hfill (.inl e)
        obtain ⟨b, hblock⟩ := Option.ne_none_iff_exists'.mp fun e => hfill (.inr e)
        rw [emitMisaligned_mend _ _ hmend hblock, advance_kinds, poised_lossDue] at hk
        exact misaligned_not_within hk

theorem takeReports_single (s : State) (t : Trunk) (r : Report) : s.takeReports t [r] = s.takeReport t r := rfl

/-- The selector takes the judgement after the emission, which is that of the state judged before (R35, R99). -/
theorem instant_judges (hm : (s.trunk t).sel.mode ≠ .starved)
    (htarget : s.centresAt t = false → s.targetBlock t = none) {l : Option Lane} {k : SwitchKind}
    (hj : s.judgement t = [.judgement l k]) :
    s.instant t = ((s.settledSwitch t).instant t).takeReport t ⟨.judgement l k, s.handOn (.emitter t) []⟩ := by
  have hsees := seesAs_settledSwitch s t
  have hks : ∀ k ∈ ((s.settledSwitch t).emissionSteps t).2, k.within = false := by
    refine steps_unhandled (by rw [settledSwitch_trunk]) (by rw [hsees.sel]; exact hm) fun hc => ?_
    rw [settledSwitch_trunk] at hc
    have h := htarget hc
    simpa only [State.targetBlock, hsees.sel, hsees.cursorBlock] using h
  rw [instant_unhandled hks, instant_eq, emissionSteps_settledSwitch hm, hj]
  generalize (s.settledSwitch t).emissionSteps t = steps at hks ⊢
  have hnone : (handedReports (s.handOn (.emitter t) []) (steps.1.handOn (.emitter t) []) steps.2).filter (fun k => k.kind.within) = [] :=
    List.filter_eq_nil_iff.mpr fun r hr => by simp [hks _ (mem_handedReports hr)]
  have hall : (handedReports (s.handOn (.emitter t) []) (steps.1.handOn (.emitter t) []) steps.2).filter (fun k => !k.kind.within) =
      handedReports (s.handOn (.emitter t) []) (steps.1.handOn (.emitter t) []) steps.2 :=
    List.filter_eq_self.mpr fun r hr => by simp [hks _ (mem_handedReports hr)]
  have hcons : handedReports (s.handOn (.emitter t) []) (steps.1.handOn (.emitter t) []) ([.judgement l k] ++ steps.2) =
      ⟨.judgement l k, s.handOn (.emitter t) []⟩ ::
        handedReports (s.handOn (.emitter t) []) (steps.1.handOn (.emitter t) []) steps.2 := rfl
  have hsame : (s.settledSwitch t).handOn (.emitter t) [] = s.handOn (.emitter t) [] := rfl
  have hin : (ReportKind.judgement l k).within = true := rfl
  rw [hcons, hsame, List.filter_cons_of_neg (by simp [hin]), hall, List.filter_cons_of_pos (by simp [hin]), hnone, takeReports_single]

/-- A judged switch is recorded onto the lane judged (R96, R99). -/
theorem handleJudgement_joined {u : State} {q : PendingSwitch} (hq : (u.trunk t).sel.pendingSwitch = some q) (l : Option Lane)
    (k : SwitchKind) (after : List Nat) :
    u.handleJudgement t l k after = u.joined t { u.trunk t with sel := { (u.trunk t).sel with pendingSwitch := none } }
      ((u.trunk t).record u.blockCounter q.cause q.src l k) (q.after ++ after) := by
  unfold State.handleJudgement
  rw [hq]
  dsimp only
  rw [writeRecord_joined, joined_modSel]

end

/-! ## The completion (R97) -/

section
variable {s : State} {t : Trunk} {b : LaneBlock} {d : Lane}

/-- The state in which an emission from the target leaves the part. -/
def State.carriedOver (s : State) (t : Trunk) (b : LaneBlock) : State :=
  (((s.poised t).modEm t Emitter.aligned).emit t b false .fromActive ((s.poised t).members t)).modTrunk t fun x =>
    { x with reports := [] }

theorem emissionSteps_completes (hm : (s.trunk t).sel.mode ≠ .starved) (hc : s.centresAt t = false)
    (hb : s.targetBlock t = some b) (hd : (s.trunk t).sel.target = some d) :
    s.emissionSteps t =
      (((s.poised t).modEm t Emitter.aligned).emit t b false .fromActive ((s.poised t).members t),
        s.judgement t ++ [.completion d]) := by
  have hsees := seesAs_poised s t
  have hb' : (s.poised t).targetBlock t = some b := by
    simpa only [State.targetBlock, hsees.sel, hsees.cursorBlock] using hb
  rw [emissionSteps_poised hm, hc, if_neg (by simp), emitCarrying_target _ _ hb' (by rw [hsees.sel]; exact hd)]

theorem instant_completes (hm : (s.trunk t).sel.mode ≠ .starved) (hc : s.centresAt t = false) (hb : s.targetBlock t = some b)
    (hd : (s.trunk t).sel.target = some d) :
    s.instant t = (s.carriedOver t b).takeReports t
      ((s.judgement t).map (fun k => ⟨k, s.handOn (.emitter t) []⟩) ++
        [⟨.completion d, (s.carriedOver t b).handOn (.emitter t) []⟩]) := by
  unfold State.carriedOver
  rw [instant_eq, emissionSteps_completes hm hc hb hd]
  generalize ((s.poised t).modEm t Emitter.aligned).emit t b false .fromActive ((s.poised t).members t) = u
  have hjudged : ∀ k ∈ s.judgement t, k.beforeEmission = true ∧ k.within = true := fun k hk => by
    unfold State.judgement at hk
    split at hk
    · rw [List.mem_singleton.mp hk]
      exact ⟨rfl, rfl⟩
    · cases hk
  have hhanded : handedReports (s.handOn (.emitter t) []) (u.handOn (.emitter t) []) (s.judgement t ++ [.completion d]) =
      (s.judgement t).map (fun k => ⟨k, s.handOn (.emitter t) []⟩) ++ [⟨.completion d, u.handOn (.emitter t) []⟩] := by
    rw [handedReports, List.map_append]
    congr 1
    exact List.map_congr_left fun k hk => by rw [if_pos (hjudged k hk).1]
  have hin : ∀ r ∈ (s.judgement t).map (fun k => (⟨k, s.handOn (.emitter t) []⟩ : Report)) ++
      [⟨.completion d, u.handOn (.emitter t) []⟩], r.kind.within = true := fun r hr => by
    rcases List.mem_append.mp hr with hr | hr
    · obtain ⟨k, hk, rfl⟩ := List.mem_map.mp hr
      exact (hjudged k hk).2
    · rw [List.mem_singleton.mp hr]
      rfl
  rw [hhanded, List.filter_eq_nil_iff.mpr fun r hr => by simp [hin r hr], List.filter_eq_self.mpr fun r hr => hin r hr]
  rfl

theorem handleCompletion_stands {u : State} {after : List Nat} (hm : (u.trunk t).sel.mode = .switching)
    (hd : (u.trunk t).sel.target = some d) : u.handleCompletion t d after = u.complete t d .hitless after := if_pos ⟨hm, hd⟩

theorem handleCompletion_dropped {u : State} {after : List Nat}
    (h : ¬ ((u.trunk t).sel.mode = .switching ∧ (u.trunk t).sel.target = some d)) : u.handleCompletion t d after = u := if_neg h

end

end Sys2Proof.Machine
end

