-- ==== Sys2Proof/Proofs/InstantReports.lean ====
section
/-! SUPPORT. The rows of an instant that judges a switch, that completes one, and that does neither, with their reports (O49). -/

namespace Sys2Proof.Machine

/-! ## The state a completion leaves to its selector -/

section
variable {s : State} {t : Trunk} {b : LaneBlock} {d : Lane}

theorem carriedOver_trunk (hb : b.seq = (s.trunk t).em.cursor) (hc : s.centresAt t = false) : (s.carriedOver t b).trunk t =
    { s.trunk t with
      em := { (s.trunk t).em with
        immediatePending := false, centring := false, misalign := 0
        td := some (outBlock b ((s.trunk t).em.breakFor b false)), lastEmitted := some (s.trunk t).em.cursor, breakPending := false
        cursor := (s.trunk t).em.cursor + 1, counters := (s.trunk t).em.counters.emit .fromActive, gapRun := false }
      reports := [] } := by
  have hx : ((s.poised t).modEm t Emitter.aligned).trunk t = { s.trunk t with em := { (s.trunk t).em with
      immediatePending := false, centring := false, misalign := 0 } } := by
    rw [modEm_eq, trunk_setTrunk_self, poised_trunk, hc]
    rfl
  unfold State.carriedOver
  rw [modTrunk_eq, trunk_setTrunk_self, emit_trunk, hx, hb]
  rfl

theorem emit_stamp (s : State) (t : Trunk) (b : LaneBlock) (c : Bool) (src : Source) (ls : List Lane) :
    (s.emit t b c src ls).stamp = s.stamp + if ((s.emit t b c src ls).trunk t).em.gapRun = (s.trunk t).em.gapRun then 0 else 1 := by
  have hgap : ∀ (u : State) (gap : Bool) (q : SeqNo) (a : Option Lane), (u.gapRun t gap q a).stamp =
      u.stamp + if gap = (u.trunk t).em.gapRun then 0 else 1 := by
    intro u gap q a
    unfold State.gapRun
    cases gap <;> cases (u.trunk t).em.gapRun <;> simp
  simp [State.emit, hgap, purgeLanes_device]

/-- The end of the gap run, if one was open: all that such an emission offers (R40). -/
def State.gapEnd (s : State) (t : Trunk) : List Offer :=
  if (s.trunk t).em.gapRun then
    [{ event := .gapRunEnd t (some (s.trunk t).em.cursor) (s.trunk t).sel.active, time := s.blockCounter, block := .emitter t
       stamp := s.stamp, after := [], dest := allPorts }]
  else []

theorem carriedOver_offers (hb : b.seq = (s.trunk t).em.cursor) : (s.carriedOver t b).offers = s.offers ++ s.gapEnd t ∧
    (s.carriedOver t b).stamp = s.stamp + (s.gapEnd t).length := by
  generalize hu : (s.poised t).modEm t Emitter.aligned = u
  have hx : (u.trunk t).em.gapRun = (s.trunk t).em.gapRun ∧ (u.trunk t).sel = (s.trunk t).sel := by
    rw [← hu, modEm_eq, trunk_setTrunk_self, poised_trunk]
    exact ⟨rfl, rfl⟩
  obtain ⟨hoffers, hstamp, hblock⟩ := noted_offers s t
  have hdevice : u.offers = s.offers ∧ u.stamp = s.stamp ∧ u.blockCounter = s.blockCounter := by
    rw [← hu]
    exact ⟨hoffers, hstamp, hblock⟩
  have hgap : ((u.emit t b false .fromActive ((s.poised t).members t)).trunk t).em.gapRun = false := by
    rw [emit_trunk]
    rfl
  have hemit := emit_offers u t b false .fromActive ((s.poised t).members t)
  have hemit' := emit_stamp u t b false .fromActive ((s.poised t).members t)
  rw [hgap, hx.1, hx.2, hdevice.1, hdevice.2.1, hdevice.2.2, hb] at hemit
  rw [hgap, hx.1, hdevice.2.1] at hemit'
  unfold State.carriedOver State.gapEnd
  rw [hu, modTrunk_eq, setTrunk_offers, setTrunk_stamp, hemit, hemit']
  cases (s.trunk t).em.gapRun <;> exact ⟨rfl, rfl⟩

theorem carriedOver_only (hm : (s.trunk t).sel.mode ≠ .starved) (hc : s.centresAt t = false) (hb : s.targetBlock t = some b)
    (hd : (s.trunk t).sel.target = some d) :
    TrunkOnly t s (s.carriedOver t b) ∧ Emission s (s.carriedOver t b) := by
  have hsteps := emissionSteps_completes hm hc hb hd
  have honly := emissionSteps_only s t
  have hemission := emission_frame.emissionSteps s t
  rw [hsteps] at honly hemission
  exact ⟨honly.trans (modTrunk_only ..), emission_frame.trans hemission (emission_frame.trunk ..)⟩

end

/-! ## A switch that stands -/

/-- An evaluation that leaves a trunk SWITCHING towards the same lane has left its switch alone (R86). -/
theorem evaluate_stands {u : State} {t : Trunk} {a b : Lane} {after : List Nat} (hm : (u.trunk t).sel.mode = .switching)
    (ha : (u.trunk t).sel.active = some a) (hb : (u.trunk t).sel.target = some b)
    (hstands : ((u.evaluate t .report after).trunk t).sel.mode = .switching ∧
      ((u.evaluate t .report after).trunk t).sel.target = some b) :
    ((u.evaluate t .report after).trunk t).sel.active = some a ∧
      ((u.evaluate t .report after).trunk t).sel.cause = (u.trunk t).sel.cause ∧
      ((u.evaluate t .report after).trunk t).sel.causeAfter = (u.trunk t).sel.causeAfter := by
  have heval : u.evaluate t .report after = ((u.markHold t after).modSel t fun x => { x with
      restore := ((u.markHold t after).decide t .report).restore
      holdOff := ((u.markHold t after).decide t .report).holdOff }).act t .report ((u.markHold t after).decide t .report) after :=
    if_neg (fun h => by cases hm.symm.trans h)
  rw [heval] at hstands ⊢
  generalize (u.markHold t after).decide t .report = dec at hstands ⊢
  generalize hw : (u.markHold t after).modSel t (fun x => { x with restore := dec.restore, holdOff := dec.holdOff }) = w at hstands ⊢
  have hsel : (w.trunk t).sel = { (u.trunk t).sel with restore := dec.restore, holdOff := dec.holdOff } := by
    rw [← hw, modSel_eq, trunk_setTrunk_self, markHold_sel]
  have hwm : (w.trunk t).sel.mode = .switching := by rw [hsel]; exact hm
  have hwa : (w.trunk t).sel.active = some a := by rw [hsel]; exact ha
  have hwb : (w.trunk t).sel.target = some b := by rw [hsel]; exact hb
  rw [act_switching hwm hwa] at hstands ⊢
  have hsame : (w.trunk t).sel.active = some a ∧ (w.trunk t).sel.cause = (u.trunk t).sel.cause ∧
      (w.trunk t).sel.causeAfter = (u.trunk t).sel.causeAfter := by
    rw [hsel]
    exact ⟨ha, rfl, rfl⟩
  cases hdes : dec.desired with
  | none =>
    rw [hdes] at hstands
    simp [State.drop, State.writeRecord] at hstands
  | some l =>
    rw [hdes] at hstands
    dsimp only at hstands ⊢
    by_cases h1 : l = a
    · simp [h1, State.cancel] at hstands
    · rw [if_neg h1] at hstands ⊢
      by_cases h2 : w.eligible t a = true
      · rw [if_pos h2] at hstands ⊢
        by_cases h3 : (w.trunk t).sel.target = some l
        · rw [if_pos h3]
          exact hsame
        · rw [if_neg h3] at hstands
          have hl : l = b := by simpa [State.aim] using hstands.2
          exact absurd (hl ▸ hwb) h3
      · rw [if_neg h2] at hstands
        simp [State.immediateSwitch] at hstands

/-! ## Reports taken -/

/-- R110: an install has emptied the charter, and its trigger is outstanding. -/
def State.Emptied (s : State) (t : Trunk) : Prop := s.members t = [] ∧ ∃ g ∈ s.triggers, g.trunk = t ∧ g.kind = .install

/-- The state with the judgement recorded. -/
def State.judgedOnto (v : State) (t : Trunk) (q : PendingSwitch) (l : Option Lane) (k : SwitchKind) (after : List Nat) : State :=
  v.joined t { v.trunk t with sel := { (v.trunk t).sel with pendingSwitch := none } }
    ((v.trunk t).record v.blockCounter q.cause q.src l k) (q.after ++ after)

section
variable {v : State} {t : Trunk} {q : PendingSwitch} (hq : (v.trunk t).sel.pendingSwitch = some q) (l : Option Lane) (k : SwitchKind)
  (after : List Nat)
include hq

theorem leftToInstall_iff : v.leftToInstall t (.judgement l k) = true ↔ v.Emptied t := by
  simp [State.leftToInstall, hq, State.Emptied, State.triggersAt]

theorem takeReport_judgement (h : ¬ v.Emptied t) :
    v.takeReport t ⟨.judgement l k, after⟩ = (v.judgedOnto t q l k after).evaluate t .report after := by
  unfold State.takeReport
  dsimp only
  rw [if_neg (mt (leftToInstall_iff hq l k).mp h)]
  exact congrArg (fun w : State => w.evaluate t .report after) (handleJudgement_joined hq l k after)

theorem takeReport_judgement_emptied (h : v.Emptied t) :
    v.takeReport t ⟨.judgement l k, after⟩ =
      v.joined t { v.trunk t with sel := { (v.trunk t).sel with holdOff := .idle, restore := .idle, pendingSwitch := none } }
        ((v.trunk t).record v.blockCounter q.cause q.src l k) (q.after ++ after) := by
  unfold State.takeReport
  dsimp only
  rw [if_pos ((leftToInstall_iff hq l k).mpr h)]
  refine (congrArg (fun w : State => w.modSel t fun x => { x with holdOff := .idle, restore := .idle })
    (handleJudgement_joined hq l k after)).trans ?_
  exact joined_modSel ..

end

section
variable {v : State} {t : Trunk} {b : Lane} (after : List Nat)

theorem takeReport_completion (hm : (v.trunk t).sel.mode = .switching) (hb : (v.trunk t).sel.target = some b) {cause : Cause}
    (hcause : (v.trunk t).sel.cause = some cause) :
    v.takeReport t ⟨.completion b, after⟩ =
      (v.joined t { v.trunk t with sel := { (v.trunk t).sel with
          mode := .carrying, active := some b, target := none, alignWait := 0, cause := none, causeAfter := [] } }
        ((v.trunk t).record v.blockCounter cause (v.trunk t).sel.active (some b) .hitless)
        ((v.trunk t).sel.causeAfter ++ after)).evaluate t .report after := by
  rw [takeReport_evaluates _ _ rfl]
  have hcomplete := complete_joined (t := t) (after := after) v b .hitless
  rw [hcause, Option.getD_some] at hcomplete
  exact congrArg (fun w : State => w.evaluate t .report after) ((handleCompletion_stands hm hb).trans hcomplete)

theorem takeReport_completion_dropped (h : ¬ ((v.trunk t).sel.mode = .switching ∧ (v.trunk t).sel.target = some b)) :
    v.takeReport t ⟨.completion b, after⟩ = v.evaluate t .report after := by
  rw [takeReport_evaluates _ _ rfl]
  exact congrArg (fun w : State => w.evaluate t .report after) (handleCompletion_dropped h)

end

/-! ## The rows -/

section
variable {s : State} {t : Trunk} (hr : s.rstnLow = false) (hpresent : s.monitor.state = .present) (hreports : (s.trunk t).reports = [])
  {a : Lane} (ha : (s.trunk t).sel.active = some a)
include hr hpresent hreports ha

/-- Trunk t's instant, of the state in which it is taken (R30). -/
def State.atInstant (s : State) (t : Trunk) : State := { s with instantTaken := s.instantTaken.set t.val true }

omit hr hpresent hreports ha in
theorem judgement_eq {k : SwitchKind} (hi : (s.trunk t).em.immediatePending = true) (ha : (s.trunk t).sel.active = some a)
    (hk : (k = .hitless ∧ (s.trunk t).em.centring = false ∧ s.alignedAt t a) ∨
      (k = .hit ∧ ¬ ((s.trunk t).em.centring = false ∧ s.alignedAt t a))) :
    s.judgement t = [.judgement (some a) k] ∧ s.centresAt t = decide (k = .hit) := by
  have haligned := cursorBlock_isSome (s := s) (t := t) (l := a)
  have hhit : ((!(s.trunk t).em.centring && ((s.trunk t).sel.active.bind (s.cursorBlock t)).isSome) = true) ↔
      ((s.trunk t).em.centring = false ∧ s.alignedAt t a) := by
    rw [ha, Option.bind_some, ← haligned]
    simp
  unfold State.judgement State.centresAt
  rw [if_pos hi, if_pos hi]
  rcases hk with ⟨rfl, h⟩ | ⟨rfl, h⟩
  · rw [hhit.mpr h, ha]
    exact ⟨rfl, rfl⟩
  · rw [Bool.eq_false_iff.mpr (mt hhit.mp h), ha]
    exact ⟨rfl, rfl⟩

/-- A pending immediate switch is judged: the instant emits as after the judgement, which the selector then takes (R35, R99). -/
theorem exec_judgedInstant {q : PendingSwitch} {k : SwitchKind} (hi : (s.trunk t).em.immediatePending = true)
    (hq : (s.trunk t).sel.pendingSwitch = some q)
    (hmode : (s.trunk t).sel.mode = .carrying ∨
      ((s.trunk t).sel.mode = .switching ∧ ¬ (k = .hitless ∧ ∃ b ∈ (s.trunk t).sel.target, s.alignedAt t b)))
    (hk : (k = .hitless ∧ (s.trunk t).em.centring = false ∧ s.alignedAt t a) ∨
      (k = .hit ∧ ¬ ((s.trunk t).em.centring = false ∧ s.alignedAt t a))) :
    ∃ v, exec (.emissionInstant t) (s.setTrunk t { s.trunk t with em := { (s.trunk t).em with
        immediatePending := false, centring := decide (k = .hit) } }) = .next v ∧
      TrunkOnly t s v ∧ v.triggers = s.triggers ∧ (v.trunk t).sel.pendingSwitch = some q ∧
      exec (.emissionInstant t) s = .next (v.takeReport t ⟨.judgement (some a) k, s.handOn (.emitter t) []⟩) := by
  generalize hj : s.setTrunk t { s.trunk t with em := { (s.trunk t).em with
    immediatePending := false, centring := decide (k = .hit) } } = j
  have hjt : j.trunk t = { s.trunk t with em := { (s.trunk t).em with
      immediatePending := false, centring := decide (k = .hit) } } := by rw [← hj, trunk_setTrunk_self]
  have hstarved : (s.trunk t).sel.mode ≠ .starved := fun h => by rcases hmode with e | ⟨e, -⟩ <;> cases h.symm.trans e
  have hdisabled : (s.trunk t).sel.mode ≠ .disabled := fun h => by rcases hmode with e | ⟨e, -⟩ <;> cases h.symm.trans e
  obtain ⟨hjudgement, hcentres⟩ := judgement_eq (s := s.atInstant t) (t := t) hi ha hk
  have hsettled : (s.atInstant t).settledSwitch t = j.atInstant t := by
    rw [State.settledSwitch, hcentres, ← hj]
    rfl
  have htarget : k ≠ .hit → (s.atInstant t).targetBlock t = none := fun hne => by
    rw [Option.eq_none_iff_forall_ne_some]
    intro b hb
    obtain ⟨hw, d, hd, hblock⟩ := (targetBlock_iff _).mp hb
    have hless : k = .hitless := hk.elim And.left fun h => absurd h.1 hne
    rcases hmode with e | ⟨-, hn⟩
    · cases hw.symm.trans e
    · exact hn ⟨hless, d, hd, cursorBlock_isSome.mp (by rw [show s.cursorBlock t d = some b from hblock]; rfl)⟩
  have hrow : exec (.emissionInstant t) s = .next ((s.atInstant t).instant t) := exec_emissionInstant hr hpresent hreports hdisabled
  have hrow' : exec (.emissionInstant t) j = .next ((j.atInstant t).instant t) := by
    refine exec_emissionInstant ?_ ?_ (by rw [hjt]; exact hreports) (by rw [hjt]; exact hdisabled)
    · rw [← hj]; exact hr
    · rw [← hj]; exact hpresent
  rw [instant_judges (s := s.atInstant t) hstarved (fun h => htarget fun e => by
    rw [hcentres] at h; simp [e] at h) hjudgement, hsettled] at hrow
  have hjsel : ((j.atInstant t).trunk t).sel = (s.trunk t).sel := by
    rw [show (j.atInstant t).trunk t = j.trunk t from rfl, hjt]
  have hjem : ((j.atInstant t).trunk t).em.immediatePending = false ∧ ((j.atInstant t).trunk t).em.centring = decide (k = .hit) := by
    rw [show (j.atInstant t).trunk t = j.trunk t from rfl, hjt]
    exact ⟨rfl, rfl⟩
  have hsees : SeesAs t (s.atInstant t) (j.atInstant t) := hsettled ▸ seesAs_settledSwitch (s.atInstant t) t
  obtain ⟨f, b, c, src, ks, ⟨hemitted, -⟩, -⟩ := instant_sends (s := j.atInstant t) hjem.1 (by rw [hjsel]; exact hstarved) fun h => by
    have hnone := htarget fun e => by rw [hjem.2] at h; simp [e] at h
    simpa only [State.targetBlock, hsees.sel, hsees.cursorBlock] using hnone
  have honly : TrunkOnly t s ((j.atInstant t).instant t) := by
    refine TrunkOnly.trans (t := j.atInstant t) ?_ (instant_only ..)
    refine TrunkOnly.trans (t := j) ?_ .of_eq
    rw [← hj]
    exact modEm_only s t fun e => { e with immediatePending := false, centring := decide (k = .hit) }
  have htriggers : ((j.atInstant t).instant t).triggers = s.triggers := by
    rw [(instant_emission ..).triggers, ← hj]
    rfl
  have hpending : (((j.atInstant t).instant t).trunk t).sel.pendingSwitch = some q := by
    rw [hemitted.sel, hjsel, Selection.waited]
    split <;> exact hq
  exact ⟨_, hrow', honly, htriggers, hpending, hrow⟩

omit ha in
/-- A switch completes: the target's block is emitted, and the selector takes the judgement, if any, and the completion (R97). -/
theorem exec_completingInstant {b : Lane} {block : LaneBlock} (hmode : (s.trunk t).sel.mode = .switching)
    (hcentres : s.centresAt t = false) (hb : (s.trunk t).sel.target = some b) (hblock : s.cursorBlock t b = some block) :
    ∃ e, TrunkOnly t s e ∧ e.triggers = s.triggers ∧ e.freeCount = s.freeCount ∧
      e.offers = s.offers ++ s.gapEnd t ∧ e.stamp = s.stamp + (s.gapEnd t).length ∧
      e.trunk t = { s.trunk t with
        em := { (s.trunk t).em with
          immediatePending := false, centring := false, misalign := 0
          td := some (outBlock block ((s.trunk t).em.breakFor block false)), lastEmitted := some (s.trunk t).em.cursor
          breakPending := false, cursor := (s.trunk t).em.cursor + 1, counters := (s.trunk t).em.counters.emit .fromActive
          gapRun := false }
        reports := [] } ∧
      exec (.emissionInstant t) s = .next (e.takeReports t
        ((s.judgement t).map (fun k => ⟨k, s.handOn (.emitter t) []⟩) ++ [⟨.completion b, e.handOn (.emitter t) []⟩])) := by
  have hstarved : (s.trunk t).sel.mode ≠ .starved := by rw [hmode]; simp
  have hdisabled : (s.trunk t).sel.mode ≠ .disabled := by rw [hmode]; simp
  have hrow : exec (.emissionInstant t) s = .next ((s.atInstant t).instant t) := exec_emissionInstant hr hpresent hreports hdisabled
  have htarget : (s.atInstant t).targetBlock t = some block := (targetBlock_iff _).mpr ⟨hmode, b, hb, hblock⟩
  have hcentres' : (s.atInstant t).centresAt t = false := hcentres
  obtain ⟨-, -, hseq⟩ := cursorBlock_mem hblock
  rw [instant_completes (s := s.atInstant t) hstarved hcentres' htarget hb] at hrow
  obtain ⟨honly, hemission⟩ := carriedOver_only (s := s.atInstant t) hstarved hcentres' htarget hb
  obtain ⟨hoffers, hstamp⟩ := carriedOver_offers (s := s.atInstant t) (b := block) hseq
  have htrunk := carriedOver_trunk (s := s.atInstant t) (b := block) hseq hcentres'
  have hfirst : TrunkOnly t s (s.atInstant t) := .of_eq
  exact ⟨_, hfirst.trans honly, hemission.triggers, hemission.device.freeCount, hoffers, hstamp, htrunk, hrow⟩

/-- An instant that neither judges nor completes a switch reports a fourth misaligned emission in a row, and the sixteenth of the
align-wait count (R37, R38). -/
theorem exec_instant_reports (hmode : (s.trunk t).sel.mode = .carrying ∨ (s.trunk t).sel.mode = .switching)
    (hi : (s.trunk t).em.immediatePending = false)
    [Decidable ((s.trunk t).em.centring = true ∨ s.alignedAt t a ∨ (s.trunk t).em.misalign ≠ 3)]
    (hn : ¬ ((s.trunk t).sel.mode = .switching ∧ (s.trunk t).em.centring = false ∧ ∃ b ∈ (s.trunk t).sel.target, s.alignedAt t b)) :
    ∃ r, exec (.emissionInstant t) s = .next r ∧ (r.trunk t).reports.map Report.kind =
      (if (s.trunk t).em.centring = true ∨ s.alignedAt t a ∨ (s.trunk t).em.misalign ≠ 3 then []
        else [ReportKind.alignmentLoss (some a) (s.judged t)]) ++ (s.trunk t).sel.expiry := by
  have hstarved : (s.trunk t).sel.mode ≠ .starved := fun h => by rcases hmode with e | e <;> cases h.symm.trans e
  have hdisabled : (s.trunk t).sel.mode ≠ .disabled := fun h => by rcases hmode with e | e <;> cases h.symm.trans e
  have hrow : exec (.emissionInstant t) s = .next ((s.atInstant t).instant t) := exec_emissionInstant hr hpresent hreports hdisabled
  refine ⟨_, hrow, ?_⟩
  have htarget : (s.trunk t).em.centring = false → (s.atInstant t).targetBlock t = none := fun hc => by
    rw [Option.eq_none_iff_forall_ne_some]
    intro b hb
    obtain ⟨hw, d, hd, hblock⟩ := (targetBlock_iff _).mp hb
    exact hn ⟨hw, hc, d, hd, cursorBlock_isSome.mp (by rw [show s.cursorBlock t d = some b from hblock]; rfl)⟩
  have hbind : (s.trunk t).sel.active.bind (s.cursorBlock t) = s.cursorBlock t a := by rw [ha, Option.bind_some]
  rcases Bool.eq_false_or_eq_true (s.trunk t).em.centring with hc | hc
  · rw [if_pos (.inl hc), List.nil_append]
    cases hb : (s.trunk t).sel.active.bind (fun a => centringBlock (s.bufferFor t a)) with
    | some b => exact (instant_centres (s := s.atInstant t) hi hstarved hc hb).2
    | none => exact (instant_centring_gap (s := s.atInstant t) hi hstarved hc hb).2
  · cases hb : s.cursorBlock t a with
    | some b =>
      have haligned : s.alignedAt t a := cursorBlock_isSome.mp (by rw [hb]; rfl)
      rw [if_pos (.inr (.inl haligned)), List.nil_append]
      exact (instant_active (s := s.atInstant t) hi hstarved hc (htarget hc) (hbind.trans hb)).2
    | none =>
      obtain ⟨b, src, -, hkinds⟩ := instant_misaligned (s := s.atInstant t) hi hstarved hc (htarget hc) (hbind.trans hb)
      have hgap : ¬ s.alignedAt t a := cursorBlock_none.mp hb
      rw [hkinds]
      refine congrArg (· ++ (s.trunk t).sel.expiry) ?_
      show (if (s.trunk t).em.misalign + 1 = misalignLimit then [ReportKind.alignmentLoss (s.trunk t).sel.active (s.judged t)] else []) = _
      by_cases h3 : (s.trunk t).em.misalign = 3
      · rw [if_pos (by rw [h3]; rfl), if_neg (by simp [hc, hgap, h3]), ha]
      · rw [if_neg (fun h => h3 (by simpa [misalignLimit] using h)), if_pos (.inr (.inr h3))]

end

end Sys2Proof.Machine
end

