-- ==== Sys2Proof/Proofs/ReportsHandled.lean ====
section
/-! PROOF. The reports of an instant, raised and handled (O49). -/

namespace Sys2Proof.Machine

theorem handOn_nil (s : State) (b : Block) : s.handOn b [] = (s.offers.filter fun o => o.block == b).map Offer.stamp :=
  List.append_nil _

theorem record_congr {x y : TrunkState} (h : y.charter = x.charter) {time time' : Count} (ht : time' = time) (c : Cause)
    (src dst : Option Lane) (k : SwitchKind) : y.record time' c src dst k = x.record time c src dst k := by
  rw [TrunkState.record, TrunkState.record, h, ht]

theorem emptied_congr {s v : State} {t : Trunk} (h : TrunkOnly t s v) (hg : v.triggers = s.triggers) : v.Emptied t ↔ s.Emptied t := by
  rw [State.Emptied, State.Emptied, members_of_charter h.charter, hg]

/-- A member's status is judged on its own buffer (R31). -/
theorem judged_eq (s : State) (t : Trunk) : s.judged t =
    (s.members t).map fun l => (l, alignStatus (s.trunk t).em.cursor (s.lane l).buffer) := by
  refine List.map_congr_left fun l hl => ?_
  simp [State.bufferFor, hl]

theorem expiry_eq (x : Selection) :
    x.expiry = if x.mode = .switching ∧ x.alignWait = 15 then [ReportKind.alignWaitExpiry] else [] := by
  unfold Selection.expiry
  refine if_congr (and_congr_right fun _ => ?_) rfl rfl
  rw [alignWaitLimit]
  omega

section
variable {s : State} {t : Trunk} (hr : s.rstnLow = false) (hpresent : s.monitor.state = .present) (hreports : (s.trunk t).reports = [])
  {a : Lane} (ha : (s.trunk t).sel.active = some a)
include hr hpresent hreports ha

/-! ## A judgement -/

/-- The judgement is recorded and evaluated, but where an install has emptied the charter: the trunk is left to its trigger (R99,
R110). -/
theorem judgedInstant_handled {q : PendingSwitch} {k : SwitchKind} (hi : (s.trunk t).em.immediatePending = true)
    (hq : (s.trunk t).sel.pendingSwitch = some q)
    (hmode : (s.trunk t).sel.mode = .carrying ∨
      ((s.trunk t).sel.mode = .switching ∧ ¬ (k = .hitless ∧ ∃ b ∈ (s.trunk t).sel.target, s.alignedAt t b)))
    (hk : (k = .hitless ∧ (s.trunk t).em.centring = false ∧ s.alignedAt t a) ∨
      (k = .hit ∧ ¬ ((s.trunk t).em.centring = false ∧ s.alignedAt t a))) :
    ∃ v, exec (.emissionInstant t) (s.setTrunk t { s.trunk t with em := { (s.trunk t).em with
        immediatePending := false, centring := decide (k = .hit) } }) = .next v ∧
      (¬ s.Emptied t → exec (.emissionInstant t) s = .next
        ((v.joined t { v.trunk t with sel := { (v.trunk t).sel with pendingSwitch := none } }
          ((s.trunk t).record s.blockCounter q.cause q.src (some a) k) (q.after ++ s.handOn (.emitter t) [])).evaluate t .report
            (s.handOn (.emitter t) []))) ∧
      (s.Emptied t → exec (.emissionInstant t) s = .next
        (v.joined t { v.trunk t with sel := { (v.trunk t).sel with holdOff := .idle, restore := .idle, pendingSwitch := none } }
          ((s.trunk t).record s.blockCounter q.cause q.src (some a) k) (q.after ++ s.handOn (.emitter t) []))) := by
  obtain ⟨v, hv, honly, htriggers, hpending, hrow⟩ := exec_judgedInstant hr hpresent hreports ha hi hq hmode hk
  have hrecord := record_congr honly.charter honly.blockCounter q.cause q.src (some a) k
  have hemptied := emptied_congr honly htriggers
  refine ⟨v, hv, fun h => hrow.trans (congrArg _ ?_), fun h => hrow.trans (congrArg _ ?_)⟩
  · rw [takeReport_judgement hpending _ _ _ (mt hemptied.mp h), State.judgedOnto, hrecord]
  · rw [takeReport_judgement_emptied hpending _ _ _ (hemptied.mpr h), hrecord]

/-! ## A completion -/

omit hr hpresent hreports ha

/-- The switch completes onto its target, with its record. -/
def State.switchedOnto (v : State) (t : Trunk) (b : Lane) (r : HistoryRecord) (stamps : List Nat) : State :=
  v.joined t { v.trunk t with sel := { (v.trunk t).sel with
    mode := .carrying, active := some b, target := none, alignWait := 0, cause := none, causeAfter := [] } } r stamps

variable {e : State} {b : Lane} {cause : Cause} (hmode : (s.trunk t).sel.mode = .switching) (hb : (s.trunk t).sel.target = some b)
  (hcause : (s.trunk t).sel.cause = some cause) (honly : TrunkOnly t s e) (hsel : (e.trunk t).sel = (s.trunk t).sel)
include ha hmode hb hcause honly hsel

omit ha hmode hb honly hsel in
/-- The completion handled, when the trunk is SWITCHING towards the target as it was. -/
theorem takeReport_completes {v : State} (hv : TrunkOnly t s v) (hvm : (v.trunk t).sel.mode = .switching)
    (hvb : (v.trunk t).sel.target = some b) (hva : (v.trunk t).sel.active = some a)
    (hvc : (v.trunk t).sel.cause = (s.trunk t).sel.cause) (hvs : (v.trunk t).sel.causeAfter = (s.trunk t).sel.causeAfter)
    (stamps : List Nat) :
    v.takeReport t ⟨.completion b, stamps⟩ =
      (v.switchedOnto t b ((s.trunk t).record s.blockCounter cause (some a) (some b) .hitless)
        ((s.trunk t).sel.causeAfter ++ stamps)).evaluate t .report stamps := by
  rw [takeReport_completion stamps hvm hvb (hvc.trans hcause), hva, hvs, State.switchedOnto,
    record_congr hv.charter hv.blockCounter]

theorem completion_alone (stamps : List Nat) :
    e.takeReports t [⟨.completion b, stamps⟩] =
      (e.switchedOnto t b ((s.trunk t).record s.blockCounter cause (some a) (some b) .hitless)
        ((s.trunk t).sel.causeAfter ++ stamps)).evaluate t .report stamps := by
  rw [takeReports_single]
  exact takeReport_completes hcause honly (by rw [hsel]; exact hmode) (by rw [hsel]; exact hb)
    (by rw [hsel]; exact ha) (by rw [hsel]) (by rw [hsel]) stamps

/-- After a judgement of the same instant the completion counts when the switch stands (R96, R97, R99). -/
theorem completion_judged {q : PendingSwitch} (hq : (s.trunk t).sel.pendingSwitch = some q) (hmember : s.members t ≠ [])
    (before stamps : List Nat) {judged : State} (hj : (e.joined t { e.trunk t with sel := { (s.trunk t).sel with pendingSwitch := none } }
      ((s.trunk t).record s.blockCounter q.cause q.src (some a) .hitless) (q.after ++ before)).evaluate t .report before = judged) :
    ((judged.trunk t).sel.mode = .switching ∧ (judged.trunk t).sel.target = some b →
      e.takeReports t [⟨.judgement (some a) .hitless, before⟩, ⟨.completion b, stamps⟩] =
        (judged.switchedOnto t b ((s.trunk t).record s.blockCounter cause (some a) (some b) .hitless)
          ((s.trunk t).sel.causeAfter ++ stamps)).evaluate t .report stamps) ∧
    (¬ ((judged.trunk t).sel.mode = .switching ∧ (judged.trunk t).sel.target = some b) →
      e.takeReports t [⟨.judgement (some a) .hitless, before⟩, ⟨.completion b, stamps⟩] = judged.evaluate t .report stamps) := by
  have hfirst : e.takeReport t ⟨.judgement (some a) .hitless, before⟩ = judged := by
    rw [takeReport_judgement (v := e) (by rw [hsel]; exact hq) _ _ _ (fun h => hmember ((members_of_charter honly.charter).symm.trans h.1)),
      State.judgedOnto, hsel, record_congr honly.charter honly.blockCounter, hj]
  have hboth : e.takeReports t [⟨.judgement (some a) .hitless, before⟩, ⟨.completion b, stamps⟩] =
      judged.takeReport t ⟨.completion b, stamps⟩ := by
    rw [takeReports_cons, hfirst, takeReports_single]
  rw [hboth]
  refine ⟨fun hstands => ?_, fun hn => takeReport_completion_dropped stamps hn⟩
  have hkept : TrunkOnly t s judged :=
    honly.trans (by rw [← hfirst]; exact (takeReport_frame ..).trunkOnly)
  generalize hu : e.joined t { e.trunk t with sel := { (s.trunk t).sel with pendingSwitch := none } }
    ((s.trunk t).record s.blockCounter q.cause q.src (some a) .hitless) (q.after ++ before) = u at hj
  have husel : (u.trunk t).sel = { (s.trunk t).sel with pendingSwitch := none } := by rw [← hu, joined_trunk]
  rw [← hj] at hstands
  obtain ⟨hja, hjc, hjs⟩ := evaluate_stands (a := a) (by rw [husel]; exact hmode) (by rw [husel]; exact ha) (by rw [husel]; exact hb) hstands
  rw [hj] at hstands hja hjc hjs
  exact takeReport_completes hcause hkept hstands.1 hstands.2 hja (hjc.trans (by rw [husel])) (hjs.trans (by rw [husel])) stamps

end

/-! ## An alignment loss -/

section
variable {s : State} {t : Trunk} {after : List Nat} (hr : s.rstnLow = false) {a : Lane} {st : List (Lane × AlignStatus)}
  {rest : List Report} (h : (s.trunk t).reports = ⟨.alignmentLoss (some a) st, after⟩ :: rest)
  (ha : (s.trunk t).sel.active = some a) (hmode : (s.trunk t).sel.mode = .carrying ∨ (s.trunk t).sel.mode = .switching)
  (hp : (s.trunk t).sel.pendingSwitch = none)
include hr h ha hmode hp

theorem exec_alignmentLoss_kept : exec (.alignmentLoss t) s = .next ((match s.lossChoice t a st with
    | some d => (s.setTrunk t { s.trunk t with reports := rest }).immediateSwitch t a d .alignLoss after
    | none => (s.setTrunk t { s.trunk t with reports := rest }).slip t a after).evaluate t .report after) := by
  have hkept := handleLoss_kept (s := s.setTrunk t { s.trunk t with reports := rest }) (t := t) (a := a) (st := st) (after := after)
    (by rw [trunk_setTrunk_self]; exact ha) (by rw [trunk_setTrunk_self]; exact hmode) (by rw [trunk_setTrunk_self]; exact hp)
  rw [lossChoice_reports] at hkept
  refine (exec_alignmentLoss hr h).trans (congrArg (fun v : State => Host.Outcome.next (v.evaluate t .report after)) (hkept.trans ?_))
  cases s.lossChoice t a st <;> rfl

/-- With no lane to switch to the trunk slips on the one it carries (R102). -/
theorem exec_alignmentLoss_slips (hn : s.lossChoice t a st = none) : exec (.alignmentLoss t) s =
    .next ((s.joined t { s.trunk t with reports := rest, em := { (s.trunk t).em with centring := true } }
      ((s.trunk t).record s.blockCounter .slip (some a) (some a) .hit) after).evaluate t .report after) := by
  have hrow := exec_alignmentLoss_kept hr h ha hmode hp
  rw [hn] at hrow
  dsimp only at hrow
  rwa [slip_setTrunk] at hrow

/-- It switches at once to the lane chosen (R83, R100). -/
theorem exec_alignmentLoss_switches {d : Lane} (hd : s.lossChoice t a st = some d) : exec (.alignmentLoss t) s =
    .next ((s.setTrunk t { s.trunk t with
      reports := rest
      sel := { (s.trunk t).sel with
        mode := .carrying, active := some d, target := none, alignWait := 0, cause := none, causeAfter := []
        holdOff := .idle, restore := .idle
        pendingSwitch := some { src := some a, cause := .alignLoss, after := after } }
      em := { (s.trunk t).em with immediatePending := true } }).evaluate t .report after) := by
  have hrow := exec_alignmentLoss_kept hr h ha hmode hp
  rw [hd] at hrow
  dsimp only at hrow
  rw [immediateSwitch_setTrunk] at hrow
  simpa only [hp, pendingAfter] using hrow

end

/-! ## An align-wait expiry -/

/-- The sixteenth instant of a switch completes it, centring on the target (R98). -/
theorem exec_alignWaitExpiry_completes {s : State} {t : Trunk} {after : List Nat} (hr : s.rstnLow = false)
    (h : (s.trunk t).reports = [⟨.alignWaitExpiry, after⟩]) {b : Lane} {cause : Cause} (hmode : (s.trunk t).sel.mode = .switching)
    (hb : (s.trunk t).sel.target = some b) (hw : (s.trunk t).sel.alignWait = 16) (hcause : (s.trunk t).sel.cause = some cause) :
    exec (.alignWaitExpiry t) s = .next ((s.joined t { s.trunk t with
        reports := []
        sel := { (s.trunk t).sel with
          mode := .carrying, active := some b, target := none, alignWait := 0, cause := none, causeAfter := [] }
        em := { (s.trunk t).em with centring := true } }
      ((s.trunk t).record s.blockCounter cause (s.trunk t).sel.active (some b) .hit)
      ((s.trunk t).sel.causeAfter ++ after)).evaluate t .report after) := by
  have hut := trunk_setTrunk_self s t { s.trunk t with reports := [] }
  have hcomplete := handleAlignWait_completes (s := s.setTrunk t { s.trunk t with reports := [] }) (t := t) (after := after) (b := b)
    (by rw [hut]; exact hmode) (by rw [hut]; exact hb) (by rw [hut]; exact hw)
  rw [complete_joined, joined_centring, hut, joined_setTrunk] at hcomplete
  dsimp only at hcomplete
  rw [hcause, Option.getD_some] at hcomplete
  rw [exec_alignWaitExpiry hr h, hcomplete]
  rfl

/-! ## The obligation -/

/-- Settles O49: the evaluation, the instant's reports, and the two rows that take a report. -/
theorem reportsAreHandled : Obligations.ReportsAreHandled := by
  refine ⟨fun u t l stamps hr => evaluate_report_as_trigger u t l stamps hr, ?_⟩
  intro s t after hr x record counted recorded aligned statuses carried
  refine ⟨fun hpresent hreports => ⟨?_, ?_, ?_⟩, ?_, ?_, ?_, ?_, ?_, fun h => exec_reports_nil hr h⟩
  · intro a q kind ha hi hq hmode hk judged stamps emptied
    have h := judgedInstant_handled hr hpresent hreports ha hi hq hmode hk
    rw [handOn_nil] at h
    exact h
  · intro a b cause ha hmode hc hb hcause hal ends before stamps hor
    obtain ⟨block, hblock⟩ := Option.isSome_iff_exists.mp (cursorBlock_isSome.mpr hal)
    have hcentres : s.centresAt t = false := Bool.eq_false_iff.mpr fun h => by
      rcases (centresAt_iff s t ha).mp h with h | ⟨hi, hn⟩
      · exact Bool.false_ne_true (hc.symm.trans h)
      · exact hor.elim (fun e => Bool.false_ne_true (e.symm.trans hi)) hn
    obtain ⟨e, honly, htriggers, hfree, hoffers, hstamp, htrunk, hrow⟩ :=
      exec_completingInstant hr hpresent hreports hmode hcentres hb hblock
    have hends : s.gapEnd t = ends := by
      unfold State.gapEnd
      rw [ha]
    rw [hends] at hoffers hstamp
    have hbefore : s.handOn (.emitter t) [] = before := handOn_nil ..
    have hstamps : e.handOn (.emitter t) [] = stamps := by rw [handOn_nil, hoffers]
    rw [hbefore, hstamps] at hrow
    have hsel : (e.trunk t).sel = x.sel := by rw [htrunk]
    refine ⟨e, honly, hsel, by rw [htrunk], by rw [htrunk], by rw [htrunk], htriggers, hfree, hoffers, hstamp,
      ⟨block, _, (cursorBlock_iff.mp hblock).2, by rw [htrunk], rfl, rfl, rfl, ?_⟩, by rw [htrunk], by rw [htrunk], by rw [htrunk],
      by rw [htrunk], by rw [htrunk]; rfl, ?_⟩
    · have hbreak := breakFor_iff x.em block false
      simp only [Bool.false_eq_true, false_or] at hbreak
      exact hbreak
    · intro completed
      refine ⟨fun hi => ?_, fun q hi hq => ?_⟩
      · rw [judgement_none hi] at hrow
        exact hrow.trans (congrArg _ (completion_alone ha hmode hb hcause honly hsel stamps))
      · intro judged stands
        have haligned : s.alignedAt t a := hor.resolve_left fun e => Bool.false_ne_true (e.symm.trans hi)
        rw [(judgement_eq hi ha (.inl ⟨rfl, hc, haligned⟩)).1] at hrow
        have hmember : s.members t ≠ [] := fun h => by
          have hin := hal.1
          rw [h] at hin
          cases hin
        have hboth := completion_judged ha hmode hb hcause honly hsel hq hmember before stamps (judged := judged) rfl
        exact ⟨fun h => hrow.trans (congrArg _ (hboth.1 h)), fun h => hrow.trans (congrArg _ (hboth.2 h))⟩
  · intro a ha hmode hi hn
    classical
    obtain ⟨r, hrow, hkinds⟩ := exec_instant_reports hr hpresent hreports ha hmode hi hn
    refine ⟨r, hrow, hkinds.trans ?_⟩
    rw [judged_eq, expiry_eq]
    exact congrArg (· ++ _) (if_congr Iff.rfl rfl rfl)
  · intro a st rest ha h hmode hp fits slips switchesTo
    have hslips : s.lossChoice t a st = none → slips := exec_alignmentLoss_slips hr h ha hmode hp
    have hswitches : ∀ d, s.lossChoice t a st = some d → switchesTo d := fun d => exec_alignmentLoss_switches hr h ha hmode hp
    refine ⟨fun hfree => ⟨fun hnone => hslips ?_, fun before d later horder hd hbefore => hswitches d ?_⟩, fun held hheld he => ?_⟩
    · rw [lossChoice_free hfree, freeChoice_none hnone]
    · rw [lossChoice_free hfree, freeChoice_first horder hd hbefore]
    · have hchoice := lossChoice_held (a := a) (st := st) hheld he
      refine ⟨fun hsame => hslips (by rw [hchoice, if_pos hsame]), fun hne hin => hswitches _ ?_, fun hne hout => hslips ?_⟩
      · rw [hchoice, if_neg hne, if_pos hin]
      · rw [hchoice, if_neg hne, if_neg hout]
  · intro l st rest h hdrop
    have hdropped := handleLoss_dropped (s := s.setTrunk t { x with reports := rest }) (t := t) (st := st) (l := l) (after := after)
      (by rw [trunk_setTrunk_self]; exact hdrop)
    rw [exec_alignmentLoss hr h, hdropped]
  · exact fun l st later h => expiry_after_loss hr h
  · intro h hdrop
    have hdropped := handleAlignWait_dropped (s := s.setTrunk t { x with reports := [] }) (t := t) (after := after)
      (by rw [trunk_setTrunk_self]; exact hdrop)
    rw [exec_alignWaitExpiry hr h, hdropped]
  · exact fun b cause h hmode hb hw hcause => exec_alignWaitExpiry_completes hr h hmode hb hw hcause

end Sys2Proof.Machine
end
